-- ==== Sys2Proof/Word.lean ====
section
/-! DEFINITION. The word of the part's links and table memory, and the number of a lane.

Frames, records, rows and the table memory are made of 32-bit words (spec/11_frame_and_record_layouts.md);
lanes are numbered 0..7 (spec/00_scope.md). -/

namespace Sys2Proof

/-- A 32-bit word of a frame, a record, a table row or the table memory (R165, R182). -/
abbrev Word := BitVec 32

/-- A lane number, 0..7. -/
abbrev LaneId := Fin 8

end Sys2Proof
end

