-- ==== Sys2Proof/Syntax.lean ====
section
/-! DEFINITION. The commands of the part: one constructor per row of spec/opcode_table.json.

A lane command names its lane. A frame command carries the words received up to the frame end. The
table manager's commands carry no request: each handles the request at the head of the request queue
(R177). Two operands pick an order the manual leaves open: `evaluatorFirst` (R77, log 3) and
`replyFirst` (R161, log 4). -/

namespace Sys2Proof

/-- One step of the part (spec/95_what_each_step_holds.md: each whole and indivisible). -/
inductive Instr where
  | sampleFrame (lane : LaneId) (words : List Word)
  | laneFrameBreak (lane : LaneId)
  | silenceTimerExpiry (lane : LaneId)
  | statusPeriodExpiry (lane : LaneId)
  | statusWordComplete (lane : LaneId)
  | lanePipelineTake (lane : LaneId) (evaluatorFirst : Bool)
  | lanePipelineResume (lane : LaneId)
  | armTimerExpiry (lane : LaneId)
  | stallTimerExpiry (lane : LaneId)
  | closingResume (lane : LaneId)
  | closeHandling (lane : LaneId)
  | stationFrameBreak
  | stationFrameInvalid (words : List Word)
  | eventCredit (words : List Word)
  | dataCredit (words : List Word)
  | transmitComplete
  | requestArrival (words : List Word)
  | tableWrite
  | tableRead
  | tableCopy
  | directorySet
  | directoryRead
  | commit (replyFirst : Bool)
  | laneArm (replyFirst : Bool)
  | laneAbort (replyFirst : Bool)
  | laneQuery
  | laneClear
  | groupEnd (replyFirst : Bool)
  | deviceQuery
  | deviceReset
  | unknownRequestKind
  | powerOn
  | lineResetAssert
  | lineResetRelease
  deriving DecidableEq, Repr

end Sys2Proof
end

