-- ==== Sys2Proof/Decode.lean ====
section
/-! DEFINITION. The commands that a word spells by the table's bits.

No row of spec/opcode_table.json gives bits (its rows have no operands and no patterns): the part has no
instruction words, so no word spells a command (log 26). -/

namespace Sys2Proof

/-- The command spelled by an nbits-wide word of the opcode table: none, since no row gives bits. -/
def decodeTableWord (_nbits _w : Nat) : Option Instr := none

end Sys2Proof
end

