-- ==== Sys2Proof/Config.lean ====
section
/-! DEFINITION. The sizes and durations the manual fixes for every Eptira 2608.

The manual leaves no value of the part to the implementation and no result undefined, so there is no
free value here. The base constant of the cosine and sine table is mathematics, not a choice (log 15). -/

namespace Sys2Proof.Config

/-- Ingress FIFO entries per lane (R5). -/
def fifoCapacity : Nat := 64
/-- Ingress occupancy at which hold is asserted (R13). -/
def holdHigh : Nat := 48
/-- Ingress occupancy at which hold may be released (R13). -/
def holdLow : Nat := 16
/-- Silence after which the link goes DOWN, in ms (R10). -/
def silenceLimit : Nat := 50
/-- Status period, in ms (R15). -/
def statusPeriod : Nat := 100
/-- Longest arm or stall time the timers hold, in ms (R38: 0..255 s). -/
def runTimerLimit : Nat := 255000
/-- Delay line entries per lane (R94). -/
def delayCapacity : Nat := 512
/-- Blocks in a lane's DATA queue (R143). -/
def dataQueueCapacity : Nat := 8
/-- Entries of a DATA block (R141). -/
def blockEntries : Nat := 32
/-- Intervals of a gap list (R146). -/
def gapCapacity : Nat := 16
/-- Entries of an indication list (R106). -/
def indicationCapacity : Nat := 64
/-- Records of the EVENT queue (R157). -/
def eventCapacity : Nat := 64
/-- EVENT occupancy at which event pressure turns on (R158). -/
def pressureHigh : Nat := 48
/-- EVENT occupancy at which event pressure turns off (R158). -/
def pressureLow : Nat := 24
/-- Replies of the REPLY queue (R159). -/
def replyCapacity : Nat := 16
/-- Requests of the request queue (R176). -/
def requestCapacity : Nat := 8
/-- Entries of a group's run list (R119). -/
def groupCapacity : Nat := 240
/-- Cap of the EVENT credit count (R152). -/
def eventCreditCap : Nat := 4095
/-- Caps of the DATA pool, headers and payload units (R153). -/
def poolHeaderCap : Nat := 4095
def poolPayloadCap : Nat := 262143
/-- Words of the table memory (R165). -/
def tableWords : Nat := 65536

end Sys2Proof.Config
end

