-- ==== Sys2Proof/Machine/Bits.lean ====
section
/-! DEFINITION. Bit fields of words, saturation, clipping and small arithmetic of the manual. -/

namespace Sys2Proof.Machine

/-- Bits hi..lo of a word as an unsigned number (spec/11: bit 31 is the most significant). -/
def bits (w : Word) (hi lo : Nat) : Nat := w.toNat / 2 ^ lo % 2 ^ (hi + 1 - lo)

/-- One bit of a word. -/
def bitAt (w : Word) (i : Nat) : Bool := w.getLsbD i

/-- A 16-bit field read as a signed number. -/
def signed16 (n : Nat) : Int := (BitVec.ofNat 16 n).toInt

/-- A word packed from fields (value, lowest bit, width); bits no field names are 0 (R182). -/
def pack (fields : List (Nat × Nat × Nat)) : Word :=
  BitVec.ofNat 32 (fields.foldl (fun a f => a + f.1 % 2 ^ f.2.2 * 2 ^ f.2.1) 0)

/-- A number as a word. -/
def natWord (n : Nat) : Word := BitVec.ofNat 32 n

/-- A position, correction or offset as a two's complement word (spec/11). -/
def posWord (p : Int) : Word := BitVec.ofInt 32 p

/-- A signed component as a 16-bit field value. -/
def half (x : Int) : Nat := (BitVec.ofInt 16 x).toNat

/-- A flag as a field value: set is 1, clear is 0 (R184). -/
def flag (b : Bool) : Nat := if b then 1 else 0

/-- A number held within lo..hi. -/
def clamp (lo hi x : Int) : Int := if x < lo then lo else if hi < x then hi else x

/-- Saturation at the ends of the signed 32-bit range (R22, R23, R73). -/
def sat32 (x : Int) : Int := clamp (-2147483648) 2147483647 x

/-- Clipping to a signed 16-bit component (R88, R90). -/
def clip16 (x : Int) : Int := clamp (-32768) 32767 x

/-- A count that stops at its cap. -/
def satTo (cap n : Nat) : Nat := if n ≤ cap then n else cap

/-- An 8-bit counter that stops at 255 (R11, R75, R106, R151). -/
def satByte (n : Nat) : Nat := satTo 255 n

/-- A 16-bit counter that stops at 65535 (R5, R25, R147). -/
def satHalf (n : Nat) : Nat := satTo 65535 n

/-- The greatest number that keeps `ok`, found bit by bit from the most significant: each listed power of
two is added to the number so far when the sum keeps `ok`. -/
def searchBits (ok : Nat → Bool) : List Nat → Nat → Nat
  | [], acc => acc
  | b :: bs, acc => searchBits ok bs (if ok (acc + b) then acc + b else acc)

/-- The integer part of the square root of n, for n below 2^32 (R91). -/
def isqrt (n : Nat) : Nat :=
  searchBits (fun r => r * r ≤ n)
    [32768, 16384, 8192, 4096, 2048, 1024, 512, 256, 128, 64, 32, 16, 8, 4, 2, 1] 0

/-- A vector built from a function of the index. -/
def vtab {α : Type} (n : Nat) (f : Fin n → α) : Vector α n := ⟨⟨(List.finRange n).map f⟩, by simp⟩

/-- The update of one element of a vector. -/
def vmod {α : Type} {n : Nat} (v : Vector α n) (i : Fin n) (f : α → α) : Vector α n := v.set i (f v[i])

end Sys2Proof.Machine
end

