-- ==== Sys2Proof/Machine/Crc.lean ====
section
/-! DEFINITION. The two frame checks: CRC-16 of a sample frame (R2) and CRC-32 of a station link frame (R150).

Words enter most significant bit first, there is no final inversion. -/

namespace Sys2Proof.Machine

/-- One bit into a CRC register of width n with the given generator polynomial. -/
def crcBit {n : Nat} (poly crc : BitVec n) (b : Bool) : BitVec n :=
  if crc.msb ^^ b then (crc <<< 1) ^^^ poly else crc <<< 1

/-- One word into a CRC register, bit 31 first. -/
def crcWord {n : Nat} (poly crc : BitVec n) (w : Word) : BitVec n :=
  (List.range 32).foldl (fun c i => crcBit poly c (w.getLsbD (31 - i))) crc

/-- The frame check of R2 over words: x^16 + x^12 + x^5 + 1, initial value 0xFFFF. -/
def crc16 (words : List Word) : BitVec 16 := words.foldl (crcWord 0x1021#16) 0xFFFF#16

/-- The frame check of R150 over words: 0x04C11DB7, initial value 0xFFFFFFFF. -/
def crc32 (words : List Word) : BitVec 32 := words.foldl (crcWord 0x04C11DB7#32) 0xFFFFFFFF#32

end Sys2Proof.Machine
end

