-- ==== Sys2Proof/Machine/State.lean ====
section
/-! DEFINITION. The state of the part, as plain data, and its value after power-on.

One home per piece of state: the lane blocks' state in `Lane` and `RunContext`, the calibration group
records in `Group`, the trunk transmitter in `Trunk`, the table manager in `Tables`. -/

namespace Sys2Proof.Machine

/-! ### Names -/

/-- Link state of a lane (R9, R10). -/
inductive Link where | down | up
  deriving DecidableEq, Repr

/-- The direction of travel (units and conventions, spec/00_scope.md). -/
inductive Dir where | push | pull
  deriving DecidableEq, Repr

/-- Lane run states (spec/03_runs.md). -/
inductive RunState where | offline | idle | armed | inserting | pulling | closing
  deriving DecidableEq, Repr

/-- Run kinds (R38). -/
inductive RunKind where | production | standard
  deriving DecidableEq, Repr

/-- Close reasons (R55). -/
inductive CloseReason where | complete | aborted | stalled | linkLost | noMotion | wrongDirection
  deriving DecidableEq, Repr

/-- Acceptance verdicts (R54). -/
inductive Verdict where | accepted | rejected | notEvaluated
  deriving DecidableEq, Repr

/-- Frame classes (R24). -/
inductive FrameClass where | normal | fault | backtrack | stationary
  deriving DecidableEq, Repr

/-- Lane phase of a frame (R24). -/
inductive Phase where | inserting | pulling
  deriving DecidableEq, Repr

/-- A run timer with its elapsed time in ms (R47, R48). -/
inductive Timer where | stopped | paused (ms : Nat) | running (ms : Nat)
  deriving DecidableEq, Repr

/-- The eight table kinds, in kind order (R164). -/
inductive Kind where | tubeMap | layout | lane | calibration | mix | callRules | keep | standard
  deriving DecidableEq, Repr

/-- The kind number (R164). -/
def Kind.idx : Kind → Fin 8
  | .tubeMap => 0 | .layout => 1 | .lane => 2 | .calibration => 3
  | .mix => 4 | .callRules => 5 | .keep => 6 | .standard => 7

/-- The eight kinds in kind order. -/
def Kind.all : List Kind := [.tubeMap, .layout, .lane, .calibration, .mix, .callRules, .keep, .standard]

/-- A copy index: false is copy 0, true is copy 1 (R166). -/
abbrev CopyIndex := Bool

/-- A conditioned X/Y pair (R88). -/
structure XY where
  x : Int
  y : Int
  deriving DecidableEq, Repr

/-- An interval of the tube axis: deep end (greater) and shallow end (lesser), R145. -/
structure Interval where
  deep : Int
  shallow : Int
  deriving DecidableEq, Repr

/-! ### Lane receiver -/

/-- One slot of a sample frame. -/
structure Slot where
  x : BitVec 16
  y : BitVec 16
  overRange : Bool
  deriving DecidableEq, Repr

/-- An ingress FIFO entry (spec/01_probe_lanes.md). The slot count is the length of `slots`. -/
structure FifoEntry where
  sequence : BitVec 16
  travel : BitVec 32
  direction : Dir
  unitFault : Bool
  slots : List Slot
  precedingLoss : Nat
  deriving DecidableEq, Repr

/-- Lane receiver state (spec/01_probe_lanes.md, "Lane receiver state"). -/
structure Receiver where
  link : Link
  qualifying : Nat
  previous : Option (BitVec 16)
  /-- none: stopped; some ms: time since the last accepted frame. -/
  silence : Option Nat
  pendingLoss : Nat
  fifo : List FifoEntry
  check : Nat
  format : Nat
  sequence : Nat
  overflow : Nat
  hold : Bool
  statusTimer : Nat
  /-- The lane status word in transmission, if one is (R15). -/
  statusTx : Option Word
  statusPending : Bool
  deriving DecidableEq, Repr

/-! ### Run context (R38) -/

/-- Tracker fields of the run context (spec/02_axial_tracking.md, "Tracker state"). -/
structure Tracker where
  travelRef : Option (BitVec 32)
  raw : Int
  remainder : Nat
  applied : Int
  corrCount : Nat
  lowWater : Option Int
  reversal : Option Int
  lossStart : Int
  carried : Nat
  still : Bool
  backtracked : Bool
  /-- Corrected position of the last frame stamped (R36). -/
  stamped : Option Int
  deriving DecidableEq, Repr

/-- An open landmark candidate (R66). -/
structure Candidate where
  openPos : Int
  peakPos : Int
  peakMag : Nat
  deriving DecidableEq, Repr

/-- The landmark cursor; entry none is "none remaining" (R64). -/
structure Cursor where
  entry : Option Nat
  dir : Dir
  deriving DecidableEq, Repr

/-- Landmark matcher state (R64). -/
structure Matcher where
  correction : Int
  cursor : Cursor
  candidate : Option Candidate
  matched : Nat
  missed : Nat
  unexpected : Nat
  notReached : Nat
  shortInsertion : Bool
  deriving DecidableEq, Repr

/-- Loss reported and not yet attached to an entry (R93). -/
structure HeldLoss where
  lost : Nat
  lower : Int
  upper : Int
  deriving DecidableEq, Repr

/-- The open state of a call rule (R100); an IDLE rule has none. -/
structure RuleOpen where
  startPos : Int
  startCount : Nat
  endPos : Int
  endCount : Nat
  peakPos : Int
  peakMag : Nat
  peakPhase : Nat
  trueCount : Nat
  overSeen : Bool
  deriving DecidableEq, Repr

/-- An entry of the indication list (R105). -/
structure IndicationEntry where
  rule : Nat
  startPos : Int
  endPos : Int
  peakPos : Int
  peakMag : Nat
  peakPhase : Nat
  deriving DecidableEq, Repr

/-- A channel peak: magnitude and phase at peak. -/
structure Peak where
  mag : Nat
  phase : Nat
  deriving DecidableEq, Repr

/-- Capture states of a reference (spec/06, "Reference capture on standard runs"). -/
inductive CaptureState where | unseen | deep | inside | captured | belowFloor | broken
  deriving DecidableEq, Repr

/-- A used reference of a STANDARD run: capture state and one peak per listed channel (none: empty). -/
structure RefCapture where
  state : CaptureState
  peaks : List (Option Peak)
  deriving DecidableEq, Repr

/-- Call evaluator fields of the run context. -/
structure Evaluator where
  rules : Vector (Option RuleOpen) 32
  indications : List IndicationEntry
  classCounts : Vector Nat 16
  overflow : Bool
  captures : Vector (Option RefCapture) 8
  deriving DecidableEq, Repr

/-- A keep record of one call rule (R138). -/
inductive KeepRecord where
  | none
  | opened (deep : Int)
  | bounded (deep shallow : Int)
  deriving DecidableEq, Repr

/-- Frames gathered toward the next DATA entry (R141): per forwarded channel the sums (AVERAGE) or the
first frame's values (PICK). -/
structure Gather where
  count : Nat
  values : List XY
  deriving DecidableEq, Repr

/-- The block being filled (R141). -/
structure OpenBlock where
  exponent : Nat
  inside : Bool
  firstPos : Int
  lastPos : Int
  entries : List (List XY)
  gather : Gather
  deriving DecidableEq, Repr

/-- Forwarder fields of the run context (spec/08, "Forwarder state"). -/
structure Forwarder where
  block : Option OpenBlock
  blockNumber : Nat
  keep : Vector KeepRecord 32
  lastHandled : Option Int
  gaps : List Interval
  framesLost : Nat
  gapOverflow : Bool
  deriving DecidableEq, Repr

/-- The captured copy of one table kind (R42). -/
structure Captured where
  copy : CopyIndex
  generation : BitVec 16
  deriving DecidableEq, Repr

/-- A step of the closing sequence still to be done (R53). -/
inductive CloseStep where
  | rule (r : Fin 32)
  | dropCandidate
  | drain
  | finalBlock
  | verdict
  | runClose
  deriving DecidableEq, Repr

/-- The run context of a lane (R38). -/
structure RunContext where
  serial : BitVec 32
  kind : RunKind
  tube : Option (Nat × Nat)
  profile : Nat
  captured : Vector Captured 8
  tracker : Tracker
  matcher : Matcher
  balance : Vector XY 16
  heldLoss : Option HeldLoss
  evaluator : Evaluator
  forwarder : Forwarder
  standardIncomplete : Bool
  verdict : Option Verdict
  armTimer : Timer
  stallTimer : Timer
  reason : Option CloseReason
  /-- none: the closing sequence has not begun; some []: the close notice waits to be handled (R56). -/
  closing : Option (List CloseStep)
  deriving DecidableEq, Repr

/-! ### Frames in the lane -/

/-- One logical channel of a conditioned frame (R92). -/
structure Channel where
  formed : Bool
  x : Int
  y : Int
  overRange : Bool
  mag : Nat
  phase : Nat
  deriving DecidableEq, Repr

/-- A stamped frame with its conditioned channels (R24, R92); a FAULT frame has no channels. -/
structure Frame where
  cls : FrameClass
  phase : Phase
  raw : Int
  corrected : Int
  corrCount : Nat
  moving : Bool
  lossStart : Int
  lost : Nat
  channels : List Channel
  /-- The exit event travels with the frame (R34). -/
  exits : Bool
  deriving DecidableEq, Repr

/-- Work on a frame that may place a record: the matcher's (R70, R74) and the evaluator's, one item per call rule
(R103). -/
inductive WorkItem where
  | notReached (entry : Nat)
  | setCursor (entry : Option Nat)
  | candidate
  | missed
  | rule (r : Fin 32)
  deriving DecidableEq, Repr

/-- A frame whose records are not all placed, with the work that is left of the block that places first and of the
other (R64, R77); each block's work is in its own order (R74, R103). -/
structure Passage where
  frame : Frame
  first : List WorkItem
  second : List WorkItem
  deriving DecidableEq, Repr

/-- A channel in the delay line (spec/05, delay-line entry). -/
structure DelayChannel where
  formed : Bool
  x : Int
  y : Int
  deriving DecidableEq, Repr

/-- A delay-line entry (spec/05). -/
structure DelayEntry where
  corrected : Int
  phase : Phase
  channels : List DelayChannel
  gapBefore : Option Interval
  deriving DecidableEq, Repr

/-- A closed DATA block (R142). -/
structure Block where
  serial : BitVec 32
  number : Nat
  firstPos : Int
  exponent : Nat
  inside : Bool
  mask : Nat
  entries : List (List XY)
  deriving DecidableEq, Repr

/-- The state of one lane's blocks. -/
structure Lane where
  rx : Receiver
  runState : RunState
  run : Option RunContext
  passage : Option Passage
  delay : List DelayEntry
  degrade : Nat
  dataQueue : List Block
  deriving DecidableEq, Repr

/-! ### Calibration groups (R117) -/

/-- Group states. -/
inductive GroupState where | none | opened | needsStandard
  deriving DecidableEq, Repr

/-- One listed channel of a captured reference in an opener signature. -/
structure SignaturePeak where
  channel : Nat
  mag : Nat
  phase : Nat
  deriving DecidableEq, Repr

/-- The opener of an OPEN group; a reference that is not used has no signature (R128). -/
structure Opener where
  serial : BitVec 32
  calibration : BitVec 16
  standard : BitVec 16
  signature : Vector (Option (List SignaturePeak)) 8
  deriving DecidableEq, Repr

/-- An entry of a group's run list (R119). -/
structure RunEntry where
  serial : BitVec 32
  row : Nat
  column : Nat
  deriving DecidableEq, Repr

/-- A calibration group record. -/
structure Group where
  state : GroupState
  pending : Bool
  number : BitVec 16
  opener : Option Opener
  runs : List RunEntry
  deriving DecidableEq, Repr

/-! ### EVENT records (spec/11, "EVENT records") -/

/-- Outcomes of a landmark (R76). -/
inductive LandmarkOutcome where | matched | missed | unexpected | notReached
  deriving DecidableEq, Repr

/-- What a LANDMARK record says the landmark is: an entry's kind or a candidate's class (R76). -/
inductive LandmarkKind where | inletSheet | support | marker | outletSheet | sheetClass | supportClass
  deriving DecidableEq, Repr

/-- A LANDMARK record's content (R76). -/
structure LandmarkRecord where
  outcome : LandmarkOutcome
  dir : Dir
  entry : Option Nat
  kind : LandmarkKind
  peak : Option Int
  offset : Option Int
  length : Nat
  deriving DecidableEq, Repr

/-- An indication as formed (R104). -/
structure Indication where
  rule : Nat
  cls : Nat
  startPos : Int
  endPos : Int
  peakPos : Int
  peakMag : Nat
  peakPhase : Nat
  spansCorrection : Bool
  atLandmark : Bool
  overRangeSeen : Bool
  closedByRunEnd : Bool
  deriving DecidableEq, Repr

/-- The close flags of a run (R55). -/
structure CloseFlags where
  shortInsertion : Bool
  indicationOverflow : Bool
  gapListOverflow : Bool
  backtracked : Bool
  standardIncomplete : Bool
  deriving DecidableEq, Repr

/-- A reference as RUN CLOSE reports it (R55, R115). -/
structure RefReport where
  used : Bool
  captured : Bool
  channelCount : Nat
  peaks : List Peak
  deriving DecidableEq, Repr

/-- RUN CLOSE (R55). -/
structure RunCloseRecord where
  kind : RunKind
  tube : Option (Nat × Nat)
  profile : Nat
  reason : CloseReason
  flags : CloseFlags
  reversal : Option Int
  finalCorrection : Int
  matched : Nat
  missed : Nat
  unexpected : Nat
  notReached : Nat
  classCounts : List Nat
  framesLost : Nat
  gaps : List Interval
  verdict : Option Verdict
  references : List RefReport
  deriving DecidableEq, Repr

/-- Verdicts of a group (R133). -/
inductive GroupVerdict where | pass | fail | superseded | unverified
  deriving DecidableEq, Repr

/-- The compare flags of one listed channel (R127). -/
structure CompareFlag where
  magError : Bool
  phaseError : Bool
  deriving DecidableEq, Repr

/-- An EVENT record; every one names its lane. -/
inductive EventRecord where
  | runOpen (lane : LaneId) (serial : BitVec 32) (kind : RunKind) (tube : Option (Nat × Nat))
      (profile : Nat) (generations : List (BitVec 16))
  | runClose (lane : LaneId) (serial : BitVec 32) (close : RunCloseRecord)
  | landmark (lane : LaneId) (serial : BitVec 32) (mark : LandmarkRecord)
  | indication (lane : LaneId) (serial : BitVec 32) (index : Option Nat) (ind : Indication)
  | indicationUpdate (lane : LaneId) (serial : BitVec 32) (index : Nat) (entry : IndicationEntry)
  | groupOpen (lane : LaneId) (number : BitVec 16) (opener : BitVec 32) (calibration standard : BitVec 16)
  | groupClose (lane : LaneId) (number : BitVec 16) (verdict : GroupVerdict) (closing : Option (BitVec 32))
      (compare : Option (List (List CompareFlag))) (runs : List RunEntry)
  deriving DecidableEq, Repr

/-! ### Trunk transmitter -/

/-- Reply statuses, in the order of their codes (spec/11). -/
inductive Status where
  | ok | busy | badRequest | badLane | badKind | outOfLimit | inUse | incompleteRow | partialRow | overlap
  | noTable | badValue | notLatched | notIdle | offline | noLayout | needsStandard | groupFull | notActive
  deriving DecidableEq, Repr

/-- A reply (R177, R184): the body starts with its presence word; a reply without a body has none. -/
structure Reply where
  tag : BitVec 16
  status : Status
  priorDiscarded : Bool
  body : List Word
  deriving DecidableEq, Repr

/-- DATA credit: headers and payload units of 32 bytes. -/
structure Credit where
  headers : Nat
  payload : Nat
  deriving DecidableEq, Repr

/-- The upstream serialiser (R160): IDLE, or SENDING the words of one frame. -/
inductive Transmitter where
  | idle
  | sending (words : List Word)
  deriving DecidableEq, Repr

/-- A producer waiting for EVENT queue room (R157). The number of places it needs is judged anew each time
it is weighed, so it is not held here. -/
inductive Waiter where
  | pipeline (lane : LaneId)
  | closing (lane : LaneId)
  | group (lane : LaneId)
  | table
  deriving DecidableEq, Repr

/-- Trunk transmitter state (spec/09). -/
structure Trunk where
  check : Nat
  pool : Credit
  accounts : Vector Credit 8
  eventCredit : Nat
  events : List EventRecord
  pressure : Bool
  replies : List Reply
  tx : Transmitter
  lastServed : LaneId
  waiters : List Waiter
  deriving DecidableEq, Repr

/-! ### Table manager -/

/-- A directory entry (R165). -/
structure DirEntry where
  base : Nat
  limit : Nat
  deriving DecidableEq, Repr

/-- A staging buffer (R169): while STAGING, one slot per row word, received or not. -/
inductive Staging where
  | empty
  | staging (row : Nat) (words : List (Option Word))
  deriving DecidableEq, Repr

/-- What the table manager holds of one kind (R165, R166, R169). -/
structure KindState where
  copy0 : DirEntry
  copy1 : DirEntry
  current : CopyIndex
  generation : BitVec 16
  staging : Staging
  deriving DecidableEq, Repr

/-- The read latch's content (R172). -/
structure Latch where
  kind : Kind
  copy : CopyIndex
  row : Nat
  words : List Word
  deriving DecidableEq, Repr

/-- A request in the request queue, as received (R176). -/
structure Request where
  tag : BitVec 16
  kind : Nat
  body : List Word
  deriving DecidableEq, Repr

/-- The table memory, sparse: (word index, word); an unlisted word reads 0 (R165, R181, log 14). -/
abbrev Memory := List (Nat × Word)

/-- Table manager state (spec/10). The counter is none when exhausted (R43). -/
structure Tables where
  mem : Memory
  kinds : Vector KindState 8
  latch : Option Latch
  requests : List Request
  serial : Option (BitVec 32)
  deriving DecidableEq, Repr

/-! ### The part -/

/-- The state of the part. `pending` is the queue of commands not yet taken, first in, first out. -/
structure State where
  lanes : Vector Lane 8
  groups : Vector Group 8
  trunk : Trunk
  tables : Tables
  resetLine : Bool
  pending : List Instr
  deriving DecidableEq, Repr

/-- Reasons for a step to stop with a fault: none. The manual gives every step of the table an effect and
names no step that stops the part (log 27). -/
inductive Fault where
  deriving DecidableEq, Repr

/-- Reasons for a step to be refused. -/
inductive Refusal where
  /-- Raised by an arm of `exec` whose command has no meaning yet; safe: nothing can be proved of it. -/
  | notModelled (mnemonic : String)
  deriving DecidableEq, Repr

/-! ### Values after reset -/

/-- The lane status word after a reset: OFFLINE, hold released, serial 0 (R17, lane status word layout). -/
def resetStatusWord : Word := 0

/-- Lane receiver after any reset (R17), with the status word started at it. -/
def Receiver.reset : Receiver :=
  { link := .down, qualifying := 0, previous := none, silence := none, pendingLoss := 0, fifo := [],
    check := 0, format := 0, sequence := 0, overflow := 0, hold := false, statusTimer := 0,
    statusTx := some resetStatusWord, statusPending := false }

/-- A lane after any reset (R17, R37, R60, R96, R149). -/
def Lane.reset : Lane :=
  { rx := Receiver.reset, runState := .offline, run := none, passage := none, delay := [], degrade := 0,
    dataQueue := [] }

/-- A group record after any reset (R118). -/
def Group.reset : Group := { state := .none, pending := false, number := 0, opener := none, runs := [] }

/-- The trunk transmitter after any reset (R163). -/
def Trunk.reset : Trunk :=
  { check := 0, pool := ⟨0, 0⟩, accounts := Vector.replicate 8 ⟨0, 0⟩, eventCredit := 0, events := [],
    pressure := false, replies := [], tx := .idle, lastServed := 7, waiters := [] }

/-- What the table manager holds of a kind after power-on (R181). -/
def KindState.powerOn : KindState :=
  { copy0 := ⟨0, 0⟩, copy1 := ⟨0, 0⟩, current := false, generation := 0, staging := .empty }

/-- The table manager after power-on (R181). -/
def Tables.powerOn : Tables :=
  { mem := [], kinds := Vector.replicate 8 KindState.powerOn, latch := none, requests := [],
    serial := some 1 }

/-- The part right after power-on (R17, R60, R118, R163, R180, R181), the reset line released (log 12). -/
def State.reset : State :=
  { lanes := Vector.replicate 8 Lane.reset, groups := Vector.replicate 8 Group.reset,
    trunk := Trunk.reset, tables := Tables.powerOn, resetLine := false, pending := [] }

end Sys2Proof.Machine
end

