-- ==== Sys2Proof/Machine/Rows.lean ====
section
/-! DEFINITION. The table kinds (R164), the fields of their rows (spec/11) and the row checks of the owning chapters. -/

namespace Sys2Proof.Machine

/-! ### Kinds (R164) -/

/-- Maximum rows of a kind. -/
def maxRows : Kind → Nat
  | .tubeMap => 4096 | .layout => 32 | .lane => 8 | .calibration => 128
  | .mix => 4 | .callRules => 32 | .keep => 8 | .standard => 8

/-- Words of a row of a kind. -/
def rowWords : Kind → Nat
  | .tubeMap => 3 | .layout => 98 | .lane => 16 | .calibration => 6
  | .mix => 4 | .callRules => 6 | .keep => 12 | .standard => 8

/-- Parts per row: parts 0 to (n - 1)/16. -/
def rowParts (k : Kind) : Nat := (rowWords k - 1) / 16 + 1

/-- The kind of a kind number; none outside 0..7. -/
def kindOf (n : Nat) : Option Kind := Kind.all[n]?

/-- Word i of a row. -/
def wordAt (row : List Word) (i : Nat) : Word := row.getD i 0

/-- The all-zero row of a kind. -/
def zeroRow (k : Kind) : List Word := List.replicate (rowWords k) 0

/-! ### LANE row -/

/-- Clocking (R32). -/
inductive Clocking where | time | travel
  deriving DecidableEq, Repr

/-- A LANE row (spec/01). A slot-map entry above 15 is UNUSED. -/
structure LaneRow where
  enabled : Bool
  slotCount : Nat
  slotMap : List Nat
  clocking : Clocking
  scale : Nat
  landmarkChannel : Nat
  landmarkThreshold : Nat
  armTimeout : Nat
  stallTimeout : Nat
  exitMargin : Int
  headerFloor : Nat
  payloadFloor : Nat
  deriving DecidableEq, Repr

/-- Slot-map entry of a slot. -/
def slotMapEntry (row : List Word) (slot : Nat) : Nat :=
  bits (wordAt row (2 + slot / 4)) (31 - 8 * (slot % 4)) (24 - 8 * (slot % 4))

/-- The fields of a LANE row. -/
def laneRowOf (row : List Word) : LaneRow :=
  { enabled := bitAt (wordAt row 0) 0
    slotCount := bits (wordAt row 0) 12 8
    slotMap := (List.range 16).map (slotMapEntry row)
    clocking := if bits (wordAt row 0) 17 16 = 0 then .time else .travel
    scale := (wordAt row 1).toNat
    landmarkChannel := bits (wordAt row 6) 4 0
    landmarkThreshold := bits (wordAt row 6) 31 16
    armTimeout := bits (wordAt row 7) 7 0
    stallTimeout := bits (wordAt row 7) 15 8
    exitMargin := bits (wordAt row 8) 15 0
    headerFloor := bits (wordAt row 9) 3 0
    payloadFloor := bits (wordAt row 9) 27 16 }

/-- The row check of R16. -/
def laneRowOk (row : List Word) : Bool :=
  let r := laneRowOf row
  !r.enabled ||
    (1 ≤ r.slotCount && r.slotCount ≤ 16
      && r.slotMap.all (fun c => c ≤ 15 || c == 255)
      && (r.slotMap.filter (· ≤ 15)).Nodup
      && (r.slotMap.drop r.slotCount).all (· == 255)
      && bits (wordAt row 0) 17 16 ≤ 1
      && r.scale != 0
      && r.landmarkChannel ≤ 19
      && 1 ≤ r.landmarkThreshold && r.landmarkThreshold ≤ 46341
      && 1 ≤ r.armTimeout && 1 ≤ r.stallTimeout)

/-! ### TUBE MAP row -/

/-- The row check of R61. -/
def tubeMapRowOk (row : List Word) : Bool :=
  let firstRow := bits (wordAt row 0) 25 16
  let firstColumn := bits (wordAt row 1) 25 16
  firstRow == 0 ||
    (firstRow ≤ bits (wordAt row 0) 9 0 && 1 ≤ firstColumn && firstColumn ≤ bits (wordAt row 1) 9 0
      && bits (wordAt row 2) 7 0 ≤ 31)

/-- A zone matches a tube (R62). -/
def zoneMatches (row : List Word) (r c : Nat) : Bool :=
  bits (wordAt row 0) 25 16 != 0
    && bits (wordAt row 0) 25 16 ≤ r && r ≤ bits (wordAt row 0) 9 0
    && bits (wordAt row 1) 25 16 ≤ c && c ≤ bits (wordAt row 1) 9 0

/-- The profile index of a zone. -/
def zoneProfile (row : List Word) : Nat := bits (wordAt row 2) 7 0

/-! ### LAYOUT row -/

/-- A landmark entry of a profile; `kind` is the code of the layout chapter. -/
structure LayoutEntry where
  kind : Nat
  nominal : Int
  tolerance : Int
  required : Bool
  deriving DecidableEq, Repr

/-- A layout profile: header and the entries in use (R63). -/
structure Layout where
  tubeLength : Int
  farTolerance : Int
  halfWidth : Int
  sheetMin : Int
  entries : List LayoutEntry
  deriving DecidableEq, Repr

/-- The landmark count of a LAYOUT row. -/
def layoutCount (row : List Word) : Nat := bits (wordAt row 1) 29 24

/-- Entry k of a LAYOUT row. -/
def layoutEntryOf (row : List Word) (k : Nat) : LayoutEntry :=
  { kind := bits (wordAt row (2 + 2 * k)) 22 20
    nominal := bits (wordAt row (2 + 2 * k)) 18 0
    tolerance := bits (wordAt row (3 + 2 * k)) 15 0
    required := bitAt (wordAt row (2 + 2 * k)) 24 }

/-- The fields of a LAYOUT row. -/
def layoutOf (row : List Word) : Layout :=
  { tubeLength := bits (wordAt row 0) 18 0
    farTolerance := bits (wordAt row 0) 31 19
    halfWidth := bits (wordAt row 1) 11 0
    sheetMin := bits (wordAt row 1) 23 12
    entries := (List.range (layoutCount row)).map (layoutEntryOf row) }

/-- The kind of an entry as a LANDMARK record reports it. -/
def entryLandmarkKind (e : LayoutEntry) : LandmarkKind :=
  match e.kind with
  | 0 => .inletSheet
  | 1 => .support
  | 2 => .marker
  | _ => .outletSheet

/-- INLET_SHEET and OUTLET_SHEET are sheet-class. -/
def entrySheetClass (e : LayoutEntry) : Bool := e.kind == 0 || e.kind == 3

/-- Nominal positions strictly increase. -/
def nominalsRise : List LayoutEntry → Bool
  | e :: f :: rest => e.nominal < f.nominal && nominalsRise (f :: rest)
  | _ => true

/-- The row check of R63. -/
def layoutRowOk (row : List Word) : Bool :=
  let n := layoutCount row
  let p := layoutOf row
  n == 0 ||
    (2 ≤ n && n ≤ 48
      && 1 ≤ p.tubeLength && p.tubeLength ≤ 300000
      && 1 ≤ p.sheetMin
      && p.entries.all (fun e => e.kind ≤ 3 && e.nominal ≤ 300000 && 1 ≤ e.tolerance)
      && nominalsRise p.entries
      && (p.entries.head?.map (·.kind)) == some 0
      && (p.entries.getLast?.map (·.kind)) == some 3
      && (p.entries.tail.dropLast).all (fun e => e.kind == 1 || e.kind == 2))

/-- The landmark-zone predicate at a position with a given half-width (R78, R137). -/
def nearLandmark (p : Layout) (halfWidth q : Int) : Bool :=
  p.entries.any (fun e => (q - e.nominal).natAbs ≤ halfWidth.toNat)

/-! ### CALIBRATION row -/

/-- A CALIBRATION row (spec/05). -/
structure CalibrationRow where
  gain : Int
  rotation : Nat
  balance : XY
  rate : Nat
  deriving DecidableEq, Repr

/-- The fields of a CALIBRATION row. -/
def calibrationRowOf (row : List Word) : CalibrationRow :=
  { gain := bits (wordAt row 0) 15 0
    rotation := bits (wordAt row 1) 11 0
    balance := ⟨(wordAt row 2).toInt, (wordAt row 3).toInt⟩
    rate := bits (wordAt row 4) 3 0 }

/-- A value of a signed 16-bit component. -/
def isComponent (x : Int) : Bool := -32768 ≤ x && x ≤ 32767

/-- The row check of R84. -/
def calibrationRowOk (row : List Word) : Bool :=
  let r := calibrationRowOf row
  r.gain ≤ 8191 && r.rotation ≤ 3599 && isComponent r.balance.x && isComponent r.balance.y && r.rate ≤ 8

/-! ### MIX row -/

/-- A MIX row (spec/05). -/
structure MixRow where
  enabled : Bool
  primary : Nat
  secondary : Nat
  xx : Int
  xy : Int
  yx : Int
  yy : Int
  deriving DecidableEq, Repr

/-- The fields of a MIX row. -/
def mixRowOf (row : List Word) : MixRow :=
  { enabled := bitAt (wordAt row 0) 0
    primary := bits (wordAt row 1) 12 8
    secondary := bits (wordAt row 1) 4 0
    xx := signed16 (bits (wordAt row 2) 31 16)
    xy := signed16 (bits (wordAt row 2) 15 0)
    yx := signed16 (bits (wordAt row 3) 31 16)
    yy := signed16 (bits (wordAt row 3) 15 0) }

/-- The row check of R89. -/
def mixRowOk (row : List Word) : Bool :=
  let r := mixRowOf row
  !r.enabled || (r.primary ≤ 15 && r.secondary ≤ 15 && r.primary != r.secondary)

/-! ### CALL RULES row -/

/-- A CALL RULES row (spec/06). -/
structure CallRule where
  code : Nat
  channel : Nat
  threshold : Nat
  sectorLow : Nat
  sectorHigh : Nat
  minLength : Nat
  mergeDistance : Int
  cls : Nat
  deriving DecidableEq, Repr

/-- The fields of a CALL RULES row. -/
def callRuleOf (row : List Word) : CallRule :=
  { code := bits (wordAt row 0) 3 0
    channel := bits (wordAt row 0) 12 8
    threshold := bits (wordAt row 1) 15 0
    sectorLow := bits (wordAt row 2) 27 16
    sectorHigh := bits (wordAt row 2) 11 0
    minLength := bits (wordAt row 3) 7 0
    mergeDistance := bits (wordAt row 4) 15 0
    cls := bits (wordAt row 0) 19 16 }

/-- The row check of R97. -/
def callRuleOk (row : List Word) : Bool :=
  let r := callRuleOf row
  r.code == 0 ||
    (r.code ≤ 10 && r.channel ≤ 19 && r.threshold ≤ 46341 && r.sectorLow ≤ 3599 && r.sectorHigh ≤ 3599
      && 1 ≤ r.minLength)

/-! ### KEEP row -/

/-- A fixed window of a KEEP row. -/
structure Window where
  start : Int
  stop : Int
  deriving DecidableEq, Repr

/-- A KEEP row (spec/08). -/
structure KeepRow where
  mask : Nat
  average : Bool
  outside : Nat
  inside : Nat
  indicationKeep : Int
  landmarkKeep : Int
  windows : List Window
  deriving DecidableEq, Repr

/-- The fields of a KEEP row. -/
def keepRowOf (row : List Word) : KeepRow :=
  { mask := (wordAt row 0).toNat
    average := bits (wordAt row 1) 17 16 == 1
    outside := bits (wordAt row 1) 11 8
    inside := bits (wordAt row 1) 3 0
    indicationKeep := bits (wordAt row 2) 31 16
    landmarkKeep := bits (wordAt row 2) 15 0
    windows := (List.range 4).map fun i =>
      ⟨bits (wordAt row (3 + 2 * i)) 18 0, bits (wordAt row (4 + 2 * i)) 18 0⟩ }

/-- A window with start and end both 0 is unused. -/
def windowUsed (w : Window) : Bool := w.start != 0 || w.stop != 0

/-- The row check of R136. -/
def keepRowOk (row : List Word) : Bool :=
  let r := keepRowOf row
  r.mask == 0 ||
    (r.mask < 2 ^ 20 && r.inside ≤ 7 && r.outside ≤ 7 && bits (wordAt row 1) 17 16 ≤ 1
      && r.windows.all (fun w => !windowUsed w || (w.start ≤ 300000 && w.stop ≤ 300000 && w.start ≤ w.stop)))

/-- The forwarded channels of a mask, in increasing order (R141). -/
def maskChannels (mask : Nat) : List Nat := (List.range 20).filter (fun c => mask.testBit c)

/-! ### STANDARD row -/

/-- A STANDARD row (spec/07); the lists hold the listed channels only. -/
structure StandardRow where
  used : Bool
  nominal : Int
  halfWidth : Int
  floor : Nat
  channels : List Nat
  expected : List Peak
  accMag : Nat
  accPhase : Nat
  driftMag : Nat
  driftPhase : Nat
  deriving DecidableEq, Repr

/-- The channel count field of a STANDARD row. -/
def standardCount (row : List Word) : Nat := bits (wordAt row 0) 22 20

/-- The fields of a STANDARD row. -/
def standardRowOf (row : List Word) : StandardRow :=
  { used := bitAt (wordAt row 0) 31
    nominal := bits (wordAt row 0) 18 0
    halfWidth := bits (wordAt row 1) 31 16
    floor := bits (wordAt row 1) 15 0
    channels := [bits (wordAt row 2) 12 8, bits (wordAt row 2) 4 0, bits (wordAt row 3) 12 8, bits (wordAt row 3) 4 0].take
      (standardCount row)
    expected := ((List.range 4).map fun j => ⟨bits (wordAt row (4 + j)) 31 16, bits (wordAt row (4 + j)) 11 0⟩).take
      (standardCount row)
    accMag := bits (wordAt row 2) 31 25
    accPhase := bits (wordAt row 2) 24 14
    driftMag := bits (wordAt row 3) 31 25
    driftPhase := bits (wordAt row 3) 24 14 }

/-- The row check of R120. -/
def standardRowOk (row : List Word) : Bool :=
  let r := standardRowOf row
  !r.used ||
    (r.nominal ≤ 300000 && 1 ≤ r.halfWidth && 1 ≤ standardCount row && standardCount row ≤ 4
      && r.channels.all (· ≤ 19) && r.channels.Nodup
      && r.expected.all (fun p => p.mag ≤ 46341 && p.phase ≤ 3599)
      && r.accMag ≤ 100 && r.driftMag ≤ 100 && r.accPhase ≤ 1800 && r.driftPhase ≤ 1800
      && r.floor ≤ 46341)

/-- The row check of a kind (R164). -/
def rowOk (k : Kind) (row : List Word) : Bool :=
  match k with
  | .tubeMap => tubeMapRowOk row
  | .layout => layoutRowOk row
  | .lane => laneRowOk row
  | .calibration => calibrationRowOk row
  | .mix => mixRowOk row
  | .callRules => callRuleOk row
  | .keep => keepRowOk row
  | .standard => standardRowOk row

end Sys2Proof.Machine
end

