-- ==== Sys2Proof/Machine/Wire.lean ====
section
/-! DEFINITION. The words of what the part sends: lane status word, REPLY, EVENT records, DATA blocks
(spec/11_frame_and_record_layouts.md). Reserved bits are 0, absent fields are 0 (R182, R184). -/

namespace Sys2Proof.Machine

/-! ### Codes -/

/-- Lane run state code (lane status word). -/
def runStateCode : RunState → Nat
  | .offline => 0 | .idle => 1 | .armed => 2 | .inserting => 3 | .pulling => 4 | .closing => 5

/-- Run kind code of EVENT records and replies. -/
def runKindCode : RunKind → Nat
  | .production => 0 | .standard => 1

/-- Close reason code (RUN CLOSE). -/
def reasonCode : CloseReason → Nat
  | .complete => 0 | .aborted => 1 | .stalled => 2 | .linkLost => 3 | .noMotion => 4 | .wrongDirection => 5

/-- Direction code. -/
def dirCode : Dir → Nat
  | .push => 0 | .pull => 1

/-- Acceptance verdict code (RUN CLOSE); 0 absent. -/
def verdictCode : Option Verdict → Nat
  | none => 0
  | some .accepted => 1
  | some .rejected => 2
  | some .notEvaluated => 3

/-- Reply status code. -/
def statusCode : Status → Nat
  | .ok => 0 | .busy => 1 | .badRequest => 2 | .badLane => 3 | .badKind => 4 | .outOfLimit => 5 | .inUse => 6
  | .incompleteRow => 7 | .partialRow => 8 | .overlap => 9 | .noTable => 10 | .badValue => 11
  | .notLatched => 12 | .notIdle => 13 | .offline => 14 | .noLayout => 15 | .needsStandard => 16
  | .groupFull => 17 | .notActive => 18

/-- Group state code (R184). -/
def groupStateCode : GroupState → Nat
  | .none => 0 | .opened => 1 | .needsStandard => 2

/-- Group verdict code (GROUP CLOSE). -/
def groupVerdictCode : GroupVerdict → Nat
  | .pass => 0 | .fail => 1 | .superseded => 2 | .unverified => 3

/-- Landmark outcome code (LANDMARK). -/
def outcomeCode : LandmarkOutcome → Nat
  | .matched => 0 | .missed => 1 | .unexpected => 2 | .notReached => 3

/-- Landmark kind code (LANDMARK). -/
def landmarkKindCode : LandmarkKind → Nat
  | .inletSheet => 0 | .support => 1 | .marker => 2 | .outletSheet => 3 | .sheetClass => 4 | .supportClass => 5

/-! ### Lane status word -/

/-- The lane status word of a lane's values (R15). -/
def statusWordOf (hold : Bool) (st : RunState) (serial : Option (BitVec 32)) : Word :=
  pack [((serial.getD 0).toNat, 16, 16), (runStateCode st, 8, 3), (flag hold, 0, 1)]

/-! ### Station link frames -/

/-- A frame with its check word (R162). -/
def sealed (ws : List Word) : List Word := ws ++ [crc32 ws]

/-- The envelope word of a frame kind. -/
def envelope (kind : Nat) : Word := pack [(kind, 24, 8)]

/-- Close flags packed from bit 0 in the order R55 lists them (R184). -/
def closeFlagsNat (f : CloseFlags) : Nat :=
  flag f.shortInsertion + 2 * flag f.indicationOverflow + 4 * flag f.gapListOverflow
    + 8 * flag f.backtracked + 16 * flag f.standardIncomplete

/-- The words of a REPLY. -/
def replyWords (r : Reply) : List Word :=
  sealed (envelope 3 :: pack [(r.tag.toNat, 16, 16), (flag r.priorDiscarded, 11, 1), (statusCode r.status, 0, 8)]
    :: r.body)

/-- Word 1 of an EVENT record: record kind and lane. -/
def recordHeader (kind : Nat) (lane : LaneId) : Word := pack [(kind, 24, 8), (lane.val, 16, 3)]

/-- Word 3 of RUN OPEN and RUN CLOSE: run kind, tube row, tube column. -/
def tubeWord (kind : RunKind) (tube : Option (Nat × Nat)) : Word :=
  pack [(runKindCode kind, 31, 1), ((tube.getD (0, 0)).1, 16, 10), ((tube.getD (0, 0)).2, 0, 10)]

/-- Two generations in a word, the first in the upper half. -/
def pairWord (a b : BitVec 16) : Word := pack [(a.toNat, 16, 16), (b.toNat, 0, 16)]

/-- Generations two to a word, in kind order. -/
def generationWords : List (BitVec 16) → List Word
  | a :: b :: rest => pairWord a b :: generationWords rest
  | [a] => [pairWord a 0]
  | [] => []

/-- Class counts, four to a word, the lowest class in the top byte. -/
def classCountWords (counts : List Nat) : List Word :=
  (List.range 4).map fun i =>
    pack ((List.range 4).map fun j => (counts.getD (4 * i + j) 0, 24 - 8 * j, 8))

/-- The five words of a reference in RUN CLOSE. -/
def referenceWords (r : RefReport) : List Word :=
  pack [(flag r.used, 31, 1), (flag r.captured, 30, 1), (if r.used then r.channelCount else 0, 0, 3)]
    :: (List.range 4).map fun j =>
      match r.peaks[j]? with
      | some p => if r.captured then pack [(p.mag, 16, 16), (p.phase, 0, 12)] else 0
      | none => 0

/-- The words of RUN CLOSE from word 2. -/
def runCloseWords (serial : BitVec 32) (c : RunCloseRecord) : List Word :=
  [ serial,
    tubeWord c.kind c.tube,
    pack [(c.profile, 0, 5), (reasonCode c.reason, 5, 3), (closeFlagsNat c.flags, 8, 5),
      (flag c.reversal.isSome, 13, 1), (verdictCode c.verdict, 14, 2), (c.gaps.length, 16, 5)],
    posWord (c.reversal.getD 0),
    posWord c.finalCorrection,
    pack [(c.matched, 24, 8), (c.missed, 16, 8), (c.unexpected, 8, 8), (c.notReached, 0, 8)],
    pack [(c.framesLost, 0, 16)] ]
  ++ classCountWords c.classCounts
  ++ c.gaps.flatMap (fun g => [posWord g.deep, posWord g.shallow])
  ++ c.references.flatMap referenceWords

/-- The words of LANDMARK from word 2. -/
def landmarkWords (serial : BitVec 32) (m : LandmarkRecord) : List Word :=
  [ serial,
    pack [(outcomeCode m.outcome, 30, 2), (dirCode m.dir, 29, 1), (flag m.entry.isSome, 28, 1),
      (flag m.peak.isSome, 27, 1), (flag m.offset.isSome, 26, 1), (m.entry.getD 0, 16, 6),
      (landmarkKindCode m.kind, 0, 3)],
    posWord (m.peak.getD 0),
    posWord (m.offset.getD 0),
    natWord m.length ]

/-- Peak magnitude and phase at peak in one word. -/
def peakWord (mag phase : Nat) : Word := pack [(mag, 16, 16), (phase, 0, 12)]

/-- The words of INDICATION from word 2; UNLISTED when there is no list index. -/
def indicationWords (serial : BitVec 32) (index : Option Nat) (i : Indication) : List Word :=
  [ serial,
    pack [(flag i.spansCorrection, 31, 1), (flag i.atLandmark, 30, 1), (flag i.overRangeSeen, 29, 1),
      (flag i.closedByRunEnd, 28, 1), (flag index.isNone, 27, 1), (index.getD 0, 16, 6), (i.rule, 8, 5),
      (i.cls, 0, 4)],
    posWord i.startPos, posWord i.endPos, posWord i.peakPos, peakWord i.peakMag i.peakPhase ]

/-- The words of INDICATION UPDATE from word 2. -/
def indicationUpdateWords (serial : BitVec 32) (index : Nat) (e : IndicationEntry) : List Word :=
  [ serial, pack [(index, 16, 6)], posWord e.startPos, posWord e.endPos, posWord e.peakPos,
    peakWord e.peakMag e.peakPhase ]

/-- Compare-flag word w (0 or 1) of GROUP CLOSE: references 4w to 4w + 3, the lowest in the top byte. -/
def compareWord (flags : List (List CompareFlag)) (w : Nat) : Word :=
  pack ((List.range 4).flatMap fun k =>
    (List.range 4).flatMap fun j =>
      match (flags.getD (4 * w + k) [])[j]? with
      | some f => [(flag f.magError, 8 * (3 - k) + 7 - 2 * j, 1), (flag f.phaseError, 8 * (3 - k) + 6 - 2 * j, 1)]
      | none => [])

/-- The words of GROUP CLOSE from word 2. -/
def groupCloseWords (number : BitVec 16) (verdict : GroupVerdict) (closing : Option (BitVec 32))
    (compare : Option (List (List CompareFlag))) (runs : List RunEntry) : List Word :=
  [ pack [(runs.length, 24, 8), (flag compare.isSome, 19, 1), (flag closing.isSome, 18, 1),
      (groupVerdictCode verdict, 16, 2), (number.toNat, 0, 16)],
    closing.getD 0,
    compareWord (compare.getD []) 0,
    compareWord (compare.getD []) 1 ]
  ++ runs.flatMap (fun r => [r.serial, pack [(r.row, 16, 10), (r.column, 0, 10)]])

/-- The words of an EVENT record as a station link frame. -/
def recordWords : EventRecord → List Word
  | .runOpen lane serial kind tube profile gens =>
      sealed ([envelope 4, recordHeader 1 lane, serial, tubeWord kind tube, pack [(profile, 0, 5)]]
        ++ generationWords gens)
  | .runClose lane serial c => sealed ([envelope 4, recordHeader 2 lane] ++ runCloseWords serial c)
  | .landmark lane serial m => sealed ([envelope 4, recordHeader 3 lane] ++ landmarkWords serial m)
  | .indication lane serial index i => sealed ([envelope 4, recordHeader 4 lane] ++ indicationWords serial index i)
  | .indicationUpdate lane serial index e =>
      sealed ([envelope 4, recordHeader 5 lane] ++ indicationUpdateWords serial index e)
  | .groupOpen lane number opener cal std =>
      sealed [envelope 4, recordHeader 6 lane, pack [(number.toNat, 0, 16)], opener, pairWord cal std]
  | .groupClose lane number verdict closing compare runs =>
      sealed ([envelope 4, recordHeader 7 lane] ++ groupCloseWords number verdict closing compare runs)

/-! ### DATA blocks -/

/-- Payload units of 32 bytes a block costs (R142). -/
def blockPayload (b : Block) : Nat := (b.entries.length * (maskChannels b.mask).length * 4 + 31) / 32

/-- The words of a DATA block of a lane. -/
def blockWords (lane : LaneId) (b : Block) : List Word :=
  sealed ([ envelope 5,
      pack [(lane.val, 16, 3), (flag b.inside, 12, 1), (b.exponent, 8, 3), (b.entries.length, 0, 6)],
      b.serial,
      pack [(b.number, 0, 16)],
      posWord b.firstPos,
      pack [(b.mask, 0, 20)] ]
    ++ b.entries.flatMap (fun e => e.map fun p => pack [(half p.x, 16, 16), (half p.y, 0, 16)]))

end Sys2Proof.Machine
end

