-- ==== Sys2Proof/Machine/Flags.lean ====
section
/-! DEFINITION. The status signals of a lane: hold, stall timer under hold, lane status word (R13, R14, R15,
R48), and event pressure (R158). -/

namespace Sys2Proof.Machine

open Sys2Proof

/-! ### Event pressure -/

/-- Event pressure after a change of the EVENT queue's occupancy (R158). -/
def pressureAfter (occupancy : Nat) (on : Bool) : Bool :=
  if on then Config.pressureLow < occupancy else Config.pressureHigh ≤ occupancy

/-! ### Hold (R13) -/

/-- INSERTING or PULLING. -/
def inMotion (st : RunState) : Bool := st == .inserting || st == .pulling

/-- ARMED, INSERTING or PULLING. -/
def isActive (st : RunState) : Bool := st == .armed || st == .inserting || st == .pulling

/-- The hold value R13 gives for a run state, an ingress occupancy and event pressure. -/
def holdAfter (st : RunState) (occupancy : Nat) (pressure hold : Bool) : Bool :=
  if inMotion st then
    if Config.holdHigh ≤ occupancy || pressure then true
    else if occupancy ≤ Config.holdLow then false
    else hold
  else false

/-- The stall timer paused at its elapsed time (R48). -/
def pauseTimer : Timer → Timer
  | .running ms => .paused ms
  | t => t

/-- The stall timer at a motion report: returns to 0, stays paused if paused (R48). -/
def motionTimer : Timer → Timer
  | .running _ => .running 0
  | .paused _ => .paused 0
  | .stopped => .stopped

/-- The stall timer when hold goes from one value to another in a run state (R48). -/
def stallUnderHold (st : RunState) (old new : Bool) (t : Timer) : Timer :=
  if new && !old then pauseTimer t
  else if old && !new && inMotion st then .running 0
  else t

/-- The lane with hold weighed; the status word is not touched here. -/
def holdWeighed (pressure : Bool) (ln : Lane) : Lane :=
  let new := holdAfter ln.runState ln.rx.fifo.length pressure ln.rx.hold
  { ln with
    rx := { ln.rx with hold := new }
    run := ln.run.map fun c => { c with stallTimer := stallUnderHold ln.runState ln.rx.hold new c.stallTimer } }

/-! ### Lane status word (R15) -/

/-- A lane status word started with the values in force: it goes into transmission, the period timer
restarts, no change is pending. -/
def startStatusWord (ln : Lane) : Lane :=
  { ln with rx :=
    { ln.rx with
      statusTx := some (statusWordOf ln.rx.hold ln.runState (ln.run.map (·.serial)))
      statusTimer := 0
      statusPending := false } }

/-- A field of the lane status word changed, or the period ran out: a word is started, or the change is
marked pending while one is in transmission. -/
def statusChanged (ln : Lane) : Lane :=
  match ln.rx.statusTx with
  | none => startStatusWord ln
  | some _ => { ln with rx := { ln.rx with statusPending := true } }

/-- Hold weighed again, with the status word its change starts (R13, R15). -/
def weighHold (pressure : Bool) (ln : Lane) : Lane :=
  let ln' := holdWeighed pressure ln
  if ln'.rx.hold = ln.rx.hold then ln' else statusChanged ln'

/-- The lane run state changed: hold is weighed and one status word carries the change (R13, R15, log 24). -/
def enterRunState (pressure : Bool) (st : RunState) (ln : Lane) : Lane :=
  statusChanged (holdWeighed pressure { ln with runState := st })

end Sys2Proof.Machine
end

