-- ==== Sys2Proof/Machine/Operands.lean ====
section
/-! DEFINITION. What the words of an inbound frame say: the fields of a sample frame, and the kind and
fields of a downstream frame (spec/11_frame_and_record_layouts.md). -/

namespace Sys2Proof.Machine

/-! ### Sample frame -/

/-- Check 1 of R1: the frame has a check word and its CRC-16 over every earlier word agrees (R2). A frame
with no word has no check word and fails (log 11). -/
def sampleCheckOk (words : List Word) : Bool :=
  match words.getLast? with
  | none => false
  | some c => crc16 words.dropLast == c.setWidth 16

/-- The slot count field of a sample frame. -/
def sampleSlotCount (words : List Word) : Nat := bits (words.getD 0 0) 4 0

/-- The first two conditions of R3: slot count in 1..16 and the length it implies, 4 + n words. -/
def sampleLengthOk (words : List Word) : Bool :=
  let n := sampleSlotCount words
  1 ≤ n && n ≤ 16 && words.length == 4 + n

/-- The sequence field of a sample frame. -/
def sampleSequence (words : List Word) : BitVec 16 := BitVec.ofNat 16 (bits (words.getD 0 0) 31 16)

/-! ### Downstream frame -/

/-- What a downstream frame is once its words are read (R150, R183). `invalid`: it fails its frame check,
is of unknown kind, is a malformed CREDIT or a REQUEST shorter than 3 words. -/
inductive StationFrame where
  | invalid
  | request (tag : BitVec 16) (kind : Nat) (body : List Word)
  | dataCredit (header payload : Nat)
  | eventCredit (header : Nat)
  deriving DecidableEq, Repr

/-- The frame check of R150; a frame with no word fails (log 11). -/
def stationCheckOk (words : List Word) : Bool :=
  match words.getLast? with
  | none => false
  | some c => crc32 words.dropLast == c

/-- The classification of a downstream frame by its words (R150, R183, CREDIT and request header layouts). -/
def classifyStation (words : List Word) : StationFrame :=
  let w1 := words.getD 1 0
  if !stationCheckOk words then .invalid
  else if bits (words.getD 0 0) 31 24 = 1 then
    if words.length < 3 then .invalid
    else .request (BitVec.ofNat 16 (bits w1 31 16)) (bits w1 7 0) ((words.drop 2).dropLast)
  else if bits (words.getD 0 0) 31 24 = 2 then
    if words.length ≠ 4 then .invalid
    else if bits w1 31 24 = 0 then .dataCredit (bits w1 9 0) (bits (words.getD 2 0) 15 0)
    else if bits w1 31 24 = 1 then .eventCredit (bits w1 9 0)
    else .invalid
  else .invalid

/-! ### Request bodies (spec/11, "Request header and bodies") -/

/-- The request kinds and their codes; any other code is an unknown kind (R183). -/
inductive RequestKind where
  | tableWrite | tableRead | tableCopy | directorySet | directoryRead | commit | laneArm | laneAbort
  | laneQuery | laneClear | groupEnd | deviceQuery | deviceReset | unknown
  deriving DecidableEq, Repr

/-- The kind a request kind code names. -/
def requestKindOf (code : Nat) : RequestKind :=
  match code with
  | 1 => .tableWrite
  | 2 => .tableRead
  | 3 => .tableCopy
  | 4 => .directorySet
  | 5 => .directoryRead
  | 6 => .commit
  | 7 => .laneArm
  | 8 => .laneAbort
  | 9 => .laneQuery
  | 10 => .laneClear
  | 11 => .groupEnd
  | 12 => .deviceQuery
  | 13 => .deviceReset
  | _ => .unknown

/-- The lane a lane request names: bits 31..24 of body word 0; none outside 0..7 (BAD_LANE). -/
def bodyLane (body : List Word) : Option LaneId :=
  let n := bits (body.getD 0 0) 31 24
  if h : n < 8 then some ⟨n, h⟩ else none

end Sys2Proof.Machine
end

