-- ==== Sys2Proof/Machine/Ops.lean ====
section
/-! DEFINITION. The named operations over the state: table memory, rows, lanes, the EVENT and REPLY queues,
room waiters, and the upstream arbiter. -/

namespace Sys2Proof.Machine

open Sys2Proof

/-! ### Table memory (R165) -/

/-- A word of the table memory; an unlisted word is 0. -/
def memRead : Memory → Nat → Word
  | [], _ => 0
  | (a, w) :: rest, n => if a = n then w else memRead rest n

/-- A word written, keeping the canonical form. -/
def memInsert : Memory → Nat → Word → Memory
  | [], n, v => if v = 0 then [] else [(n, v)]
  | (a, w) :: rest, n, v =>
    if n < a then if v = 0 then (a, w) :: rest else (n, v) :: (a, w) :: rest
    else if n = a then if v = 0 then rest else (n, v) :: rest
    else (a, w) :: memInsert rest n v

/-- A word written at one of the 65,536 words that exist; there is no other word to write (log 14). -/
def memWrite (m : Memory) (n : Nat) (v : Word) : Memory :=
  if n < Config.tableWords then memInsert m n v else m

/-- Words read from consecutive addresses. -/
def memReadBlock (m : Memory) (base n : Nat) : List Word := (List.range n).map fun i => memRead m (base + i)

/-- Words written to consecutive addresses. -/
def memWriteBlock : Memory → Nat → List Word → Memory
  | m, _, [] => m
  | m, base, w :: ws => memWriteBlock (memWrite m base w) (base + 1) ws

/-- Addresses strictly rise from a lower bound. -/
def memSorted : Nat → Memory → Bool
  | _, [] => true
  | lo, (a, w) :: rest => lo ≤ a && a < Config.tableWords && w != 0 && memSorted (a + 1) rest

/-- The canonical form of the table memory: addresses strictly rising, each a word that exists, no 0 listed. -/
def Memory.wf (m : Memory) : Bool := memSorted 0 m

/-! ### Tables (R165, R166) -/

/-- What the table manager holds of a kind. -/
def Tables.kind (t : Tables) (k : Kind) : KindState := t.kinds[k.idx]

/-- A kind's state changed. -/
def Tables.modKind (t : Tables) (k : Kind) (f : KindState → KindState) : Tables :=
  { t with kinds := vmod t.kinds k.idx f }

/-- The directory entry of a copy. -/
def KindState.entry (ks : KindState) (c : CopyIndex) : DirEntry := if c then ks.copy1 else ks.copy0

/-- The staging copy's index. -/
def KindState.stagingIndex (ks : KindState) : CopyIndex := !ks.current

/-- The address of row r of a directory entry. -/
def rowAddress (k : Kind) (e : DirEntry) (r : Nat) : Nat := e.base + r * rowWords k

/-- Row r of a copy, as any block reads it: all zero at or beyond the limit (R165). -/
def Tables.row (t : Tables) (k : Kind) (c : CopyIndex) (r : Nat) : List Word :=
  let e := (t.kind k).entry c
  if r < e.limit then memReadBlock t.mem (rowAddress k e r) (rowWords k) else zeroRow k

/-- Row r of the current copy. -/
def Tables.currentRow (t : Tables) (k : Kind) (r : Nat) : List Word := t.row k (t.kind k).current r

/-! ### Lanes -/

/-- The lane's blocks. -/
def State.lane (s : State) (l : LaneId) : Lane := s.lanes[l]

/-- A lane changed. -/
def State.modLane (s : State) (l : LaneId) (f : Lane → Lane) : State := { s with lanes := vmod s.lanes l f }

/-- The lane's receiver changed. -/
def State.modRx (s : State) (l : LaneId) (f : Receiver → Receiver) : State :=
  s.modLane l fun ln => { ln with rx := f ln.rx }

/-- The lane's run context changed, if it has one. -/
def State.modRun (s : State) (l : LaneId) (f : RunContext → RunContext) : State :=
  s.modLane l fun ln => { ln with run := ln.run.map f }

/-- The trunk transmitter changed. -/
def State.modTrunk (s : State) (f : Trunk → Trunk) : State := { s with trunk := f s.trunk }

/-- The table manager changed. -/
def State.modTables (s : State) (f : Tables → Tables) : State := { s with tables := f s.tables }

/-- The group record of a lane. -/
def State.group (s : State) (l : LaneId) : Group := s.groups[l]

/-- A group record replaced. -/
def State.setGroup (s : State) (l : LaneId) (g : Group) : State := { s with groups := s.groups.set l g }

/-- Every lane changed alike. -/
def State.mapLanes (s : State) (f : LaneId → Lane → Lane) : State :=
  { s with lanes := vtab 8 fun l => f l s.lanes[l] }

/-- A row of the copy the lane's run captured (R44); all zero without a run. -/
def State.capturedRow (s : State) (l : LaneId) (k : Kind) (r : Nat) : List Word :=
  match (s.lane l).run with
  | some c => s.tables.row k c.captured[k.idx].copy r
  | none => zeroRow k

/-- The LANE row in force: captured while the lane has a run context, current otherwise (R3, R153). -/
def State.laneRow (s : State) (l : LaneId) : LaneRow :=
  laneRowOf (if (s.lane l).run.isSome then s.capturedRow l .lane l.val else s.tables.currentRow .lane l.val)

/-- The profile of the lane's run. -/
def State.profile (s : State) (l : LaneId) : Layout :=
  layoutOf (s.capturedRow l .layout (((s.lane l).run.map (·.profile)).getD 0))

/-- The KEEP row of the lane's run. -/
def State.keepRow (s : State) (l : LaneId) : KeepRow := keepRowOf (s.capturedRow l .keep l.val)

/-- Reference k of the lane's run (R112). -/
def State.standardRow (s : State) (l : LaneId) (k : Nat) : StandardRow := standardRowOf (s.capturedRow l .standard k)

/-- Hold weighed again on one lane (R13). -/
def State.weighLaneHold (s : State) (l : LaneId) : State := s.modLane l (weighHold s.trunk.pressure)

/-- The lane run state changed (R13, R15). -/
def State.setRunState (s : State) (l : LaneId) (st : RunState) : State :=
  s.modLane l (enterRunState s.trunk.pressure st)

/-! ### The EVENT queue and event pressure (R157, R158) -/

/-- Event pressure weighed after a change of occupancy; a change is passed at once to every lane receiver. -/
def State.weighPressure (s : State) : State :=
  let p := pressureAfter s.trunk.events.length s.trunk.pressure
  if p = s.trunk.pressure then s
  else (s.modTrunk fun t => { t with pressure := p }).mapLanes fun _ ln => weighHold p ln

/-! ### The upstream arbiter (R155, R160) -/

/-- A dimension of a block's cost is covered by the account and, for an uncongested lane, the pool (R155). -/
def coveredBy (congested : Bool) (account pool cost : Nat) : Bool :=
  cost ≤ account + (if congested then 0 else pool)

/-- The head block of a lane is fundable (R155). -/
def State.fundable (s : State) (l : LaneId) : Bool :=
  match (s.lane l).dataQueue with
  | [] => false
  | b :: _ =>
    let a := s.trunk.accounts[l]
    let congested := 0 < (s.lane l).degrade
    coveredBy congested a.headers s.trunk.pool.headers 1
      && coveredBy congested a.payload s.trunk.pool.payload (blockPayload b)

/-- The lanes in the order the arbiter searches them: from the lane after the last lane served (R160). -/
def searchOrder (last : LaneId) : List LaneId := (List.finRange 8).map fun i => last + 1 + i

/-- The degrade level after the head block has left a queue of the given length (R144). -/
def degradeAfterDequeue (left level : Nat) : Nat := if left ≤ 2 then level - 1 else level

/-- A chosen block is paid, from the account first and the shortfall from the pool, removed and sent (R155,
R160); the lane becomes the last lane served. -/
def State.sendBlock (s : State) (l : LaneId) : State :=
  match (s.lane l).dataQueue with
  | [] => s
  | b :: rest =>
    let a := s.trunk.accounts[l]
    let h := min 1 a.headers
    let p := min (blockPayload b) a.payload
    (s.modLane l fun ln =>
        { ln with dataQueue := rest, degrade := degradeAfterDequeue rest.length ln.degrade }).modTrunk fun t =>
      { t with
        accounts := t.accounts.set l ⟨a.headers - h, a.payload - p⟩
        pool := ⟨t.pool.headers - (1 - h), t.pool.payload - (blockPayload b - p)⟩
        tx := .sending (blockWords l b)
        lastServed := l }

/-- The arbiter chooses (R160): the oldest reply; else the oldest record when there is EVENT credit; else the
first fundable head block; else nothing. -/
def State.arbiterChoice (s : State) : State :=
  match s.trunk.replies with
  | r :: rs => s.modTrunk fun t => { t with replies := rs, tx := .sending (replyWords r) }
  | [] =>
    let blocks := match (searchOrder s.trunk.lastServed).find? s.fundable with
      | some l => s.sendBlock l
      | none => s
    match s.trunk.events with
    | e :: es =>
      if 1 ≤ s.trunk.eventCredit then
        (s.modTrunk fun t =>
          { t with events := es, eventCredit := t.eventCredit - 1, tx := .sending (recordWords e) }).weighPressure
      else blocks
    | [] => blocks

/-- A fresh choice while the transmitter is IDLE (R161). -/
def State.idleChoice (s : State) : State :=
  match s.trunk.tx with
  | .idle => s.arbiterChoice
  | .sending _ => s

/-- A record placed at the tail of the EVENT queue, whose room has been judged (R157, R158, R161). -/
def State.placeRecord (s : State) (e : EventRecord) : State :=
  ((s.modTrunk fun t => { t with events := t.events ++ [e] }).weighPressure).idleChoice

/-- The records of one act, in order. -/
def State.placeRecords (s : State) : List EventRecord → State
  | [] => s
  | e :: es => (s.placeRecord e).placeRecords es

/-- A reply placed at the tail of the REPLY queue (R159, R161). -/
def State.placeReply (s : State) (r : Reply) : State :=
  (s.modTrunk fun t => { t with replies := t.replies ++ [r] }).idleChoice

/-- The REPLY queue has room. -/
def State.replyRoom (s : State) : Bool := s.trunk.replies.length < Config.replyCapacity

/-! ### Room waiters (R157) -/

/-- The producer stands first: no waiter is ahead of it. -/
def standsFirst (w : Waiter) : List Waiter → Bool
  | [] => true
  | v :: _ => v == w

/-- A producer that needs k places finds them free and no waiter ahead of it; one that needs none is not
held for room. -/
def State.roomFor (s : State) (w : Waiter) (k : Nat) : Bool :=
  k == 0 || (s.trunk.events.length + k ≤ Config.eventCapacity && standsFirst w s.trunk.waiters)

/-- The producer joins the waiters unless it is among them. -/
def State.joinWaiters (s : State) (w : Waiter) : State :=
  s.modTrunk fun t => { t with waiters := if t.waiters.contains w then t.waiters else t.waiters ++ [w] }

/-- The producer leaves the waiters. -/
def State.leaveWaiters (s : State) (w : Waiter) : State :=
  s.modTrunk fun t => { t with waiters := t.waiters.filter (· != w) }

/-! ### Lanes going OFFLINE and IDLE (R39, R154) -/

/-- Credit added to the DATA pool, each dimension capped (R153, R154). -/
def addToPool (pool c : Credit) : Credit :=
  ⟨satTo Config.poolHeaderCap (pool.headers + c.headers), satTo Config.poolPayloadCap (pool.payload + c.payload)⟩

/-- A lane that became OFFLINE returns its account to the pool and its degrade level to 0 (R154), and an
IDLE transmitter chooses (R161). -/
def State.returnAccount (s : State) (l : LaneId) : State :=
  ((s.modLane l fun ln => { ln with degrade := 0 }).modTrunk fun t =>
    { t with pool := addToPool t.pool t.accounts[l], accounts := t.accounts.set l ⟨0, 0⟩ }).idleChoice

/-- The state R39 gives a lane without a run context. -/
def State.restState (s : State) (l : LaneId) : RunState :=
  if (laneRowOf (s.tables.currentRow .lane l.val)).enabled && (s.lane l).rx.link == .up then .idle else .offline

/-- The lane takes the state R39 gives it; a passage to OFFLINE returns its account. -/
def State.settleLane (s : State) (l : LaneId) : State :=
  let st := s.restState l
  if st = (s.lane l).runState then s
  else if st = .offline then (s.setRunState l st).returnAccount l
  else s.setRunState l st

/-- OFFLINE and IDLE weighed again (R39): only a lane without a run context is weighed. -/
def State.weighLane (s : State) (l : LaneId) : State :=
  if (s.lane l).run.isSome then s else s.settleLane l

end Sys2Proof.Machine
end

