-- ==== Sys2Proof/Machine/Conditioning.lean ====
section
/-! DEFINITION. The conditioning stage: slot mapping, balance, rotation, gain, clipping, mixes, magnitude and
phase, balance tracking (R81 to R92).

Cosine and sine of an angle are powers of one unit vector, that of 0.05 degrees, held in 1/2^160: the
angle of k units is its k-th power. The error of a power up to 7200 stays below 2^-140, far below what
the rounding of R87 and the comparison of R91 need (log 15). -/

namespace Sys2Proof.Machine

open Sys2Proof

/-! ### Angles (R87, R91) -/

/-- The fraction bits of a unit vector. -/
def unitBits : Nat := 160

/-- Cosine and sine of 0.05 degrees in 1/2^160. -/
def unitStep : XY :=
  ⟨1461501080832366012457282860996505654068997400672, 1275400617856749732183574616057969043207987744⟩

/-- The product of two unit vectors: their angles add. -/
def turnBy (u v : XY) : XY :=
  ⟨(u.x * v.x - u.y * v.y) / 2 ^ unitBits, (u.x * v.y + u.y * v.x) / 2 ^ unitBits⟩

/-- acc turned by k times the angle of b, the bits of k taken from the least significant. -/
def turnPower : Nat → Nat → XY → XY → XY
  | 0, _, _, acc => acc
  | fuel + 1, k, b, acc => turnPower fuel (k / 2) (turnBy b b) (if k % 2 = 1 then turnBy acc b else acc)

/-- The unit vector at k times 0.05 degrees, for k below 8192. -/
def unitAt (k : Nat) : XY := turnPower 13 k unitStep ⟨2 ^ unitBits, 0⟩

/-- A component as a multiple of 1/16384, rounded to nearest, halves away from zero (R87). -/
def to16384 (c : Int) : Int :=
  let m : Int := (2 * 16384 * (c.natAbs : Int) + 2 ^ unitBits) / 2 ^ (unitBits + 1)
  if c < 0 then -m else m

/-- The cosine and sine held for an angle in tenths of a degree (R87). -/
def cosSin (tenths : Nat) : XY :=
  let u := unitAt (2 * tenths)
  ⟨to16384 u.x, to16384 u.y⟩

/-- The turn of R87, divided by 16384 and truncated toward zero. -/
def rotate (tenths : Nat) (v : XY) : XY :=
  let cs := cosSin tenths
  ⟨(v.x * cs.x - v.y * cs.y).tdiv 16384, (v.x * cs.y + v.y * cs.x).tdiv 16384⟩

/-- A point of the first quadrant lies at or beyond j tenths less half a tenth. -/
def reachesTenth (p : XY) (j : Nat) : Bool :=
  let u := unitAt (2 * j - 1)
  0 ≤ p.y * u.x - p.x * u.y

/-- The angle of a point with x above 0 and y not below 0, to the nearest tenth, 0..900. -/
def quadrantPhase (p : XY) : Nat :=
  searchBits (fun j => j ≤ 900 && reachesTenth p j) [512, 256, 128, 64, 32, 16, 8, 4, 2, 1] 0

/-- The phase of R91: tenths of a degree counter-clockwise from +X, 0..3599. -/
def phaseOf (x y : Int) : Nat :=
  if x = 0 ∧ y = 0 then 0
  else if 0 < x ∧ 0 ≤ y then quadrantPhase ⟨x, y⟩ % 3600
  else if x ≤ 0 ∧ 0 < y then (900 + quadrantPhase ⟨y, -x⟩) % 3600
  else if x < 0 ∧ y ≤ 0 then (1800 + quadrantPhase ⟨-x, -y⟩) % 3600
  else (2700 + quadrantPhase ⟨-y, x⟩) % 3600

/-- The magnitude of R91. -/
def magnitudeOf (x y : Int) : Nat := isqrt (x * x + y * y).toNat

/-! ### Channels -/

/-- An unformed channel (R83). -/
def unformed : Channel := ⟨false, 0, 0, false, 0, 0⟩

/-- A formed channel with its magnitude and phase (R91). -/
def formedChannel (x y : Int) (clipped : Bool) : Channel := ⟨true, x, y, clipped, magnitudeOf x y, phaseOf x y⟩

/-- The slot of the frame that feeds a mapped channel; none when no slot of it does (R82, log 16). -/
def feedingSlot (slotMap : List Nat) (slots : List Slot) (c : Nat) : Option Slot :=
  ((List.range 16).find? fun s => slotMap.getD s 255 == c).bind fun s => slots[s]?

/-- The value a slot gave. -/
def slotXY (s : Slot) : XY := ⟨s.x.toInt, s.y.toInt⟩

/-- Balance, rotation, gain and clipping of one mapped channel (R85, R87, R88). -/
def mappedChannel (cal : CalibrationRow) (bal : XY) (s : Slot) : Channel :=
  let r := rotate cal.rotation ⟨s.x.toInt - bal.x, s.y.toInt - bal.y⟩
  let gx := (r.x * cal.gain).tdiv 256
  let gy := (r.y * cal.gain).tdiv 256
  formedChannel (clip16 gx) (clip16 gy) (clip16 gx != gx || clip16 gy != gy || s.overRange)

/-- A mix channel from its primary and secondary (R90). -/
def mixChannel (m : MixRow) (p q : Channel) : Channel :=
  if m.enabled then
    let x := p.x - (m.xx * q.x + m.xy * q.y).tdiv 4096
    let y := p.y - (m.yx * q.x + m.yy * q.y).tdiv 4096
    formedChannel (clip16 x) (clip16 y) (clip16 x != x || clip16 y != y || p.overRange || q.overRange)
  else unformed

/-- Channel c of a conditioned frame; a FAULT frame has none. -/
def channelAt (chs : List Channel) (c : Nat) : Channel := chs.getD c unformed

/-- The 20 channels of a frame (R81, R82, R90). -/
def conditionChannels (slotMap : List Nat) (cal : Nat → CalibrationRow) (mix : Nat → MixRow)
    (balance : Vector XY 16) (slots : List Slot) : List Channel :=
  let mapped := (List.finRange 16).map fun c =>
    match feedingSlot slotMap slots c.val with
    | some s => mappedChannel (cal c.val) balance[c] s
    | none => unformed
  mapped ++ (List.range 4).map fun m =>
    mixChannel (mix m) (channelAt mapped (mix m).primary) (channelAt mapped (mix m).secondary)

/-- One balance component moved toward the sample (R86). -/
def trackComponent (rate : Nat) (bal sample : Int) : Int := bal + (sample - bal).tdiv (2 ^ rate)

/-- The balance of every channel after a frame that tracks (R86). -/
def trackBalance (slotMap : List Nat) (cal : Nat → CalibrationRow) (balance : Vector XY 16)
    (slots : List Slot) : Vector XY 16 :=
  vtab 16 fun c =>
    match feedingSlot slotMap slots c.val with
    | some s =>
      let k := (cal c.val).rate
      if 1 ≤ k ∧ k ≤ 8 then
        ⟨trackComponent k balance[c].x s.x.toInt, trackComponent k balance[c].y s.y.toInt⟩
      else balance[c]
    | none => balance[c]

/-- A mapped channel's row of the CALIBRATION copy the lane's run captured. -/
def State.calibrationRow (s : State) (l : LaneId) (c : Nat) : CalibrationRow :=
  calibrationRowOf (s.capturedRow l .calibration (l.val * 16 + c))

/-- A row of the captured MIX copy. -/
def State.mixRow (s : State) (l : LaneId) (m : Nat) : MixRow := mixRowOf (s.capturedRow l .mix m)

/-- A frame's channels under the lane's run; none for a FAULT frame (R81, R92). -/
def State.conditioned (s : State) (l : LaneId) (c : RunContext) (cls : FrameClass) (slots : List Slot) :
    List Channel :=
  if cls = .fault then []
  else conditionChannels (s.laneRow l).slotMap (s.calibrationRow l) (s.mixRow l) c.balance slots

/-- The balance after a frame: tracked by a NORMAL frame of INSERTING while no candidate is open (R68, R86). -/
def State.trackedBalance (s : State) (l : LaneId) (c : RunContext) (cls : FrameClass) (ph : Phase)
    (slots : List Slot) : Vector XY 16 :=
  if cls = .normal ∧ ph = .inserting ∧ c.matcher.candidate.isNone then
    trackBalance (s.laneRow l).slotMap (s.calibrationRow l) c.balance slots
  else c.balance

end Sys2Proof.Machine
end

