-- ==== Sys2Proof/Machine/Forwarder.lean ====
section
/-! DEFINITION. The forwarder: keep decision, decimation, blocks, the DATA queue, the gap list and the delay
line's removals (R94, R95, R135 to R148). -/

namespace Sys2Proof.Machine

open Sys2Proof

/-! ### Gap list (R146) -/

/-- Two intervals share a position or lie 1 au apart. -/
def gapsTouch (a b : Interval) : Bool := a.shallow ≤ b.deep + 1 && b.shallow ≤ a.deep + 1

/-- One interval from the greatest deep end to the least shallow end. -/
def gapHull (a b : Interval) : Interval := ⟨max a.deep b.deep, min a.shallow b.shallow⟩

/-- A stretch given by two positions (R145). -/
def stretchOf (p q : Int) : Interval := ⟨max p q, min p q⟩

/-- An interval put at the place that keeps the list deepest first. -/
def gapInsert (g : Interval) : List Interval → List Interval
  | [] => [g]
  | h :: rest => if h.deep < g.deep then g :: h :: rest else h :: gapInsert g rest

/-- A stretch merged with every interval it touches. -/
def gapMerge (g : Interval) (gaps : List Interval) : List Interval :=
  gapInsert ((gaps.filter (gapsTouch g)).foldl gapHull g) (gaps.filter fun h => !gapsTouch g h)

/-- A stretch entered in the gap list (R146). -/
def gapEnter (g : Interval) (f : Forwarder) : Forwarder :=
  if f.gaps.any (gapsTouch g) then { f with gaps := gapMerge g f.gaps }
  else if f.gaps.length < Config.gapCapacity then { f with gaps := gapInsert g f.gaps }
  else
    match f.gaps.getLast? with
    | some last => { f with gaps := gapMerge (gapHull last g) f.gaps.dropLast, gapOverflow := true }
    | none => f

/-- The lane's forwarder fields changed. -/
def State.modFwd (s : State) (l : LaneId) (f : Forwarder → Forwarder) : State :=
  s.modRun l fun c => { c with forwarder := f c.forwarder }

/-- Lost frames added to the run's frames lost (R147). -/
def addLost (n : Nat) (f : Forwarder) : Forwarder := { f with framesLost := satHalf (f.framesLost + n) }

/-! ### Groups and entries (R141) -/

/-- No frame gathered. -/
def emptyGather : Gather := ⟨0, []⟩

/-- The forwarded X/Y pairs of a delay-line entry. -/
def forwardedValues (mask : Nat) (e : DelayEntry) : List XY :=
  (maskChannels mask).map fun c =>
    match e.channels[c]? with
    | some d => ⟨d.x, d.y⟩
    | none => ⟨0, 0⟩

/-- One frame gathered: PICK keeps the first frame's values, AVERAGE sums. -/
def gatherFrame (average : Bool) (values : List XY) (g : Gather) : Gather :=
  if g.count = 0 then ⟨1, values⟩
  else if average then ⟨g.count + 1, List.zipWith (fun a b => ⟨a.x + b.x, a.y + b.y⟩) g.values values⟩
  else ⟨g.count + 1, g.values⟩

/-- The DATA entry a group forms. -/
def entryOf (average : Bool) (g : Gather) : List XY :=
  if average then g.values.map fun v => ⟨v.x.tdiv g.count, v.y.tdiv g.count⟩ else g.values

/-- The partial group, if it holds a frame, made the block's next entry. -/
def flushGather (average : Bool) (b : OpenBlock) : OpenBlock :=
  if b.gather.count = 0 then b
  else { b with entries := b.entries ++ [entryOf average b.gather], gather := emptyGather }

/-! ### Blocks and the DATA queue (R142, R143, R144) -/

/-- A degrade level raised by one. -/
def degradeUp (level : Nat) : Nat := satTo 4 (level + 1)

/-- The closed block an open block becomes. -/
def closedBlock (c : RunContext) (mask : Nat) (average : Bool) (b : OpenBlock) : Block :=
  { serial := c.serial, number := c.forwarder.blockNumber, firstPos := b.firstPos, exponent := b.exponent,
    inside := b.inside, mask := mask, entries := (flushGather average b).entries }

/-- A closed block offered to the DATA queue: placed at its tail, or discarded at a full queue with its
stretch entered as a gap (R143). -/
def State.offerBlock (s : State) (l : LaneId) (b : Block) (stretch : Interval) : State :=
  let n := (s.lane l).dataQueue.length
  if n < Config.dataQueueCapacity then
    (s.modLane l fun ln =>
      { ln with
        dataQueue := ln.dataQueue ++ [b]
        degrade := if 6 ≤ n + 1 then degradeUp ln.degrade else ln.degrade }).idleChoice
  else (s.modFwd l (gapEnter stretch)).modLane l fun ln => { ln with degrade := degradeUp ln.degrade }

/-- The open block, if any, closed and offered (R142). -/
def State.closeBlock (s : State) (l : LaneId) : State :=
  match (s.lane l).run with
  | none => s
  | some c =>
    match c.forwarder.block with
    | none => s
    | some b =>
      let keep := s.keepRow l
      let s' := s.modFwd l fun f =>
        { f with block := none, blockNumber := (f.blockNumber + 1) % 65536 }
      s'.offerBlock l (closedBlock c keep.mask keep.average b) (stretchOf b.firstPos b.lastPos)

/-! ### Keep decision and exponent (R137, R138, R139) -/

/-- A position lies in a keep record. -/
def inKeepRecord (q : Int) : KeepRecord → Bool
  | .none => false
  | .opened deep => q ≤ deep
  | .bounded deep shallow => min deep shallow ≤ q && q ≤ max deep shallow

/-- An entry's position is inside keep (R137). -/
def insideKeep (p : Layout) (row : KeepRow) (records : Vector KeepRecord 32) (q : Int) : Bool :=
  nearLandmark p row.landmarkKeep q
    || records.toList.any (inKeepRecord q)
    || row.windows.any (fun w => windowUsed w && w.start ≤ q && q ≤ w.stop)

/-- The effective exponent of an entry (R139); none: not forwarded. -/
def effectiveExponent (row : KeepRow) (inside : Bool) (level : Nat) : Option Nat :=
  if inside then
    some (min 7 (row.inside + (if level ≤ 2 then 0 else if level = 3 then 1 else 2)))
  else if level ≤ 3 then some (min 7 (row.outside + level))
  else none

/-- The notice that a rule opened (R109, R138). -/
def keepOpened (b : Int) : KeepRecord → KeepRecord
  | .none => .opened b
  | .opened deep => .opened deep
  | .bounded deep _ => .opened (max deep b)

/-- The notice of a rule's shallow bound (R110, R138). -/
def keepBounded (b : Int) : KeepRecord → KeepRecord
  | .none => .none
  | .opened deep => .bounded deep b
  | .bounded deep shallow => .bounded deep shallow

/-- Retirement at an entry of the pull (R138). -/
def keepRetired (q : Int) : KeepRecord → KeepRecord
  | .bounded deep shallow => if q < min deep shallow then .none else .bounded deep shallow
  | k => k

/-! ### Handling an entry (R140) -/

/-- A frame added to a block's partial group under the block's exponent; a full group forms an entry. -/
def addToBlock (average : Bool) (values : List XY) (q : Int) (b : OpenBlock) : OpenBlock :=
  let b' := { b with lastPos := q, gather := gatherFrame average values b.gather }
  if 2 ^ b.exponent ≤ b'.gather.count then flushGather average b' else b'

/-- An empty block begun at a position (R141). -/
def freshBlock (exponent : Nat) (inside : Bool) (q : Int) : OpenBlock :=
  { exponent := exponent, inside := inside, firstPos := q, lastPos := q, entries := [], gather := emptyGather }

/-- The lane's open block. -/
def State.openBlock (s : State) (l : LaneId) : Option OpenBlock :=
  (s.lane l).run.bind fun c => c.forwarder.block

/-- Step 5 of R140: the entry joins the open block, one being opened if none is; a block of 32 entries is closed. -/
def State.addEntry (s : State) (l : LaneId) (row : KeepRow) (inside : Bool) (exponent : Nat)
    (e : DelayEntry) : State :=
  let b := (s.openBlock l).getD (freshBlock exponent inside e.corrected)
  let b' := addToBlock row.average (forwardedValues row.mask e) e.corrected b
  let s' := s.modFwd l fun f => { f with block := some b' }
  if Config.blockEntries ≤ b'.entries.length then s'.closeBlock l else s'

/-- The open block differs from an entry in keep state or effective exponent (step 3 of R140). -/
def blockDiffers (b : Option OpenBlock) (inside : Bool) (exponent : Option Nat) : Bool :=
  match b with
  | none => false
  | some b => b.inside != inside || exponent.any (· != b.exponent)

/-- Step 4 of R140: an entry outside keep at level 4 is a gap. -/
def State.skipEntry (s : State) (l : LaneId) (q : Int) : State :=
  (s.closeBlock l).modFwd l fun f => gapEnter (stretchOf (f.lastHandled.getD q) q) f

/-- Steps 2 to 5 of R140. -/
def State.forwardEntry (s : State) (l : LaneId) (row : KeepRow) (e : DelayEntry) : State :=
  match (s.lane l).run with
  | none => s
  | some c =>
    let inside := insideKeep (s.profile l) row c.forwarder.keep e.corrected
    let first := effectiveExponent row inside (s.lane l).degrade
    let s3 := if blockDiffers (s.openBlock l) inside first then s.closeBlock l else s
    match effectiveExponent row inside (s3.lane l).degrade with
    | none => s3.skipEntry l e.corrected
    | some x => s3.addEntry l row inside x e

/-- Step 1 of R140: the gap before an entry. -/
def State.enterGapBefore (s : State) (l : LaneId) (g : Option Interval) : State :=
  match g with
  | none => s
  | some g => (s.closeBlock l).modFwd l (gapEnter g)

/-- Step 6 of R140: the last handled position, and the keep records an entry of the pull retires. -/
def handledAt (e : DelayEntry) (f : Forwarder) : Forwarder :=
  { f with
    lastHandled := some e.corrected
    keep := if e.phase = .pulling then vtab 32 fun r => keepRetired e.corrected f.keep[r] else f.keep }

/-- A delay-line entry handled (R140). -/
def State.handleEntry (s : State) (l : LaneId) (e : DelayEntry) : State :=
  let row := s.keepRow l
  let s1 := s.enterGapBefore l e.gapBefore
  let s5 := if row.mask = 0 then s1 else s1.forwardEntry l row e
  s5.modFwd l (handledAt e)

/-! ### The delay line (R93, R94, R95) -/

/-- The delay-line form of a conditioned channel. -/
def delayChannel (c : Channel) : DelayChannel := ⟨c.formed, c.x, c.y⟩

/-- The interval of a held loss report. -/
def heldInterval (h : HeldLoss) : Interval := ⟨h.upper, h.lower⟩

/-- A NORMAL frame enters the delay line, taking the held loss report; a full line first hands its oldest
entry to the forwarder (R93, R94). -/
def State.enterDelay (s : State) (l : LaneId) (f : Frame) : State :=
  let held := (s.lane l).run.bind (·.heldLoss)
  let e : DelayEntry :=
    { corrected := f.corrected, phase := f.phase, channels := f.channels.map delayChannel,
      gapBefore := held.map heldInterval }
  let s' := s.modRun l fun c => { c with heldLoss := none }
  match (s'.lane l).delay with
  | [] => s'.modLane l fun ln => { ln with delay := [e] }
  | d :: ds =>
    if ds.length + 1 < Config.delayCapacity then s'.modLane l fun ln => { ln with delay := d :: ds ++ [e] }
    else ((s'.modLane l fun ln => { ln with delay := ds }).handleEntry l d).modLane l fun ln =>
      { ln with delay := ds ++ [e] }

/-- Entries handled in order. -/
def State.handleEntries (s : State) (l : LaneId) : List DelayEntry → State
  | [] => s
  | e :: es => (s.handleEntry l e).handleEntries l es

/-- Step 3 of the closing sequence: the delay line drained, then a held loss report entered as a gap (R95). -/
def State.drainDelay (s : State) (l : LaneId) : State :=
  let s' := (s.modLane l fun ln => { ln with delay := [] }).handleEntries l (s.lane l).delay
  match (s'.lane l).run.bind (·.heldLoss) with
  | none => s'
  | some h => s'.modRun l fun c => { c with heldLoss := none, forwarder := gapEnter (heldInterval h) c.forwarder }

/-- Step 4 of the closing sequence: the last block closed, every keep record NONE (R148). -/
def State.finishForwarding (s : State) (l : LaneId) : State :=
  (s.closeBlock l).modFwd l fun f => { f with keep := Vector.replicate 32 .none }

end Sys2Proof.Machine
end

