-- ==== Sys2Proof/Machine/Evaluator.lean ====
section
/-! DEFINITION. The call evaluator: conditions, rule persistence, indications and their list, keep notices, and
reference capture on standard runs (R97 to R115). -/

namespace Sys2Proof.Machine

open Sys2Proof

/-! ### Conditions (R98) -/

/-- The P predicate: the phase lies in the sector, which may wrap through 0. -/
def inSector (r : CallRule) (phase : Nat) : Bool :=
  if r.sectorLow ≤ r.sectorHigh then r.sectorLow ≤ phase && phase ≤ r.sectorHigh
  else r.sectorLow ≤ phase || phase ≤ r.sectorHigh

/-- A rule's condition on a channel, given the L predicate of the frame. -/
def conditionHolds (r : CallRule) (c : Channel) (nearMark : Bool) : Bool :=
  let a := r.threshold ≤ c.mag
  let p := inSector r c.phase
  match r.code with
  | 1 => a
  | 2 => a && p
  | 3 => a && !p
  | 4 => a && nearMark
  | 5 => a && !nearMark
  | 6 => a && p && !nearMark
  | 7 => a && p && nearMark
  | 8 => a && 0 < c.y
  | 9 => a && c.y < 0
  | 10 => c.overRange
  | _ => false

/-! ### Rule persistence (R100, R101) -/

/-- The open state a true frame gives an IDLE rule. -/
def ruleOpened (f : Frame) (c : Channel) : RuleOpen :=
  { startPos := f.corrected, startCount := f.corrCount, endPos := f.corrected, endCount := f.corrCount,
    peakPos := f.corrected, peakMag := c.mag, peakPhase := c.phase, trueCount := 1, overSeen := c.overRange }

/-- The open state a true frame gives an OPEN rule. -/
def ruleExtended (f : Frame) (c : Channel) (o : RuleOpen) : RuleOpen :=
  let o' := { o with endPos := f.corrected, endCount := f.corrCount, trueCount := satByte (o.trueCount + 1),
                     overSeen := o.overSeen || c.overRange }
  if o.peakMag < c.mag then { o' with peakPos := f.corrected, peakMag := c.mag, peakPhase := c.phase } else o'

/-- A rule's open state replaced. -/
def setRule (r : Fin 32) (o : Option RuleOpen) (e : Evaluator) : Evaluator := { e with rules := e.rules.set r o }

/-- A rule's keep record changed. -/
def modKeep (r : Fin 32) (g : KeepRecord → KeepRecord) (f : Forwarder) : Forwarder := { f with keep := vmod f.keep r g }

/-! ### Indications (R104 to R108) -/

/-- The indication a closing rule forms (R104). -/
def formIndication (p : Layout) (r : Fin 32) (rule : CallRule) (runEnd : Bool) (o : RuleOpen) : Indication :=
  { rule := r.val, cls := rule.cls, startPos := o.startPos, endPos := o.endPos, peakPos := o.peakPos,
    peakMag := o.peakMag, peakPhase := o.peakPhase, spansCorrection := o.startCount != o.endCount,
    atLandmark := nearLandmark p p.halfWidth o.peakPos, overRangeSeen := o.overSeen, closedByRunEnd := runEnd }

/-- An entry's span lies within distance d of an indication's span (R105). -/
def spansNear (d : Int) (e : IndicationEntry) (i : Indication) : Bool :=
  min i.startPos i.endPos ≤ max e.startPos e.endPos + d && min e.startPos e.endPos ≤ max i.startPos i.endPos + d

/-- The list index an indication merges into (R105). -/
def mergeIndex (d : Int) (list : List IndicationEntry) (i : Indication) : Option Nat :=
  list.findIdx? fun e => e.rule == i.rule && spansNear d e i

/-- The merged entry (R105). -/
def mergedEntry (i : Indication) (e : IndicationEntry) : IndicationEntry :=
  let w := { e with startPos := max (max e.startPos e.endPos) (max i.startPos i.endPos)
                    endPos := min (min e.startPos e.endPos) (min i.startPos i.endPos) }
  if e.peakMag < i.peakMag then { w with peakPos := i.peakPos, peakMag := i.peakMag, peakPhase := i.peakPhase }
  else w

/-- A new entry filled from an indication (R106). -/
def newEntry (i : Indication) : IndicationEntry :=
  { rule := i.rule, startPos := max i.startPos i.endPos, endPos := min i.startPos i.endPos,
    peakPos := i.peakPos, peakMag := i.peakMag, peakPhase := i.peakPhase }

/-- A class count raised (R106). -/
def countClass (cls : Nat) (counts : Vector Nat 16) : Vector Nat 16 :=
  vtab 16 fun k => if k.val = cls then satByte (counts[k] + 1) else counts[k]

/-- An indication filed: merged, appended or UNLISTED, with the record it places (R105, R106). -/
def fileIndication (l : LaneId) (serial : BitVec 32) (d : Int) (i : Indication) (e : Evaluator) :
    Evaluator × EventRecord :=
  match mergeIndex d e.indications i with
  | some k =>
    let m := mergedEntry i (e.indications.getD k (newEntry i))
    ({ e with indications := e.indications.set k m }, .indicationUpdate l serial k m)
  | none =>
    let counts := countClass i.cls e.classCounts
    if e.indications.length < Config.indicationCapacity then
      ({ e with indications := e.indications ++ [newEntry i], classCounts := counts },
        .indication l serial (some e.indications.length) i)
    else ({ e with classCounts := counts, overflow := true }, .indication l serial none i)

/-- An OPEN rule closed (R101, R110, R111): its keep interval is bounded, it returns to IDLE, and an
indication is filed when it met its minimum length. -/
def closeRule (l : LaneId) (p : Layout) (keepDistance : Int) (r : Fin 32) (rule : CallRule) (runEnd : Bool)
    (o : RuleOpen) (c : RunContext) : RunContext × Option EventRecord :=
  let c' := { c with
    forwarder := modKeep r (keepBounded (sat32 (o.endPos - keepDistance))) c.forwarder
    evaluator := setRule r none c.evaluator }
  if rule.minLength ≤ o.trueCount then
    let filed := fileIndication l c.serial rule.mergeDistance (formIndication p r rule runEnd o) c'.evaluator
    ({ c' with evaluator := filed.1 }, some filed.2)
  else (c', none)

/-- A rule on an evaluated frame (R100, R101, R103). -/
def evaluateRule (l : LaneId) (p : Layout) (keepDistance : Int) (r : Fin 32) (rule : CallRule) (f : Frame)
    (c : RunContext) : RunContext × Option EventRecord :=
  if rule.code = 0 then (c, none)
  else
    let ch := channelAt f.channels rule.channel
    if conditionHolds rule ch (nearLandmark p p.halfWidth f.corrected) then
      match c.evaluator.rules[r] with
      | none =>
        ({ c with
            evaluator := setRule r (some (ruleOpened f ch)) c.evaluator
            forwarder := modKeep r (keepOpened (sat32 (f.corrected + keepDistance))) c.forwarder }, none)
      | some o => ({ c with evaluator := setRule r (some (ruleExtended f ch o)) c.evaluator }, none)
    else
      match c.evaluator.rules[r] with
      | none => (c, none)
      | some o => closeRule l p keepDistance r rule false o c

/-- A rule at the run's end (R111). -/
def endRule (l : LaneId) (p : Layout) (keepDistance : Int) (r : Fin 32) (rule : CallRule) (c : RunContext) :
    RunContext × Option EventRecord :=
  match c.evaluator.rules[r] with
  | none => (c, none)
  | some o => closeRule l p keepDistance r rule true o c

/-! ### Reference capture (R112 to R115) -/

/-- A reference's capture state at the admission of a STANDARD arm (R112). -/
def captureAtArm (row : StandardRow) : Option RefCapture :=
  if row.used then some ⟨.unseen, row.channels.map fun _ => none⟩ else none

/-- CAPTURED, BELOW_FLOOR and BROKEN are final. -/
def captureFinal : CaptureState → Bool
  | .captured | .belowFloor | .broken => true
  | .unseen | .deep | .inside => false

/-- A peak after a tracked frame (R115). -/
def trackPeak (ch : Channel) : Option Peak → Option Peak
  | none => some ⟨ch.mag, ch.phase⟩
  | some p => if p.mag < ch.mag then some ⟨ch.mag, ch.phase⟩ else some p

/-- A reference tracked on a frame in its window. -/
def trackReference (row : StandardRow) (f : Frame) (r : RefCapture) : RefCapture :=
  { state := .inside
    peaks := List.zipWith (fun c p => trackPeak (channelAt f.channels c) p) row.channels r.peaks }

/-- Every listed channel's peak reached the capture floor (R115). -/
def reachesFloor (row : StandardRow) (r : RefCapture) : Bool :=
  r.peaks.all fun p => match p with
    | some p => row.floor ≤ p.mag
    | none => false

/-- A reference on an evaluated frame of the pull (R113). -/
def captureStep (row : StandardRow) (f : Frame) (r : RefCapture) : RefCapture :=
  let q := f.corrected
  let deep := row.nominal + row.halfWidth < q
  let shallow := q < row.nominal - row.halfWidth
  match r.state with
  | .unseen => if deep then { r with state := .deep } else { r with state := .broken }
  | .deep =>
    if deep then r else if shallow then { r with state := .broken } else trackReference row f r
  | .inside =>
    if deep then r
    else if shallow then { r with state := if reachesFloor row r then .captured else .belowFloor }
    else trackReference row f r
  | .captured | .belowFloor | .broken => r

/-- A loss interval breaks a reference whose window it shares a position with (R114). -/
def captureLoss (row : StandardRow) (f : Frame) (r : RefCapture) : RefCapture :=
  let lo := min f.lossStart f.corrected
  let hi := max f.lossStart f.corrected
  if captureFinal r.state then r
  else if row.nominal - row.halfWidth ≤ hi ∧ lo ≤ row.nominal + row.halfWidth then { r with state := .broken }
  else r

/-- One reference on a frame: the loss test of a FAULT frame or of a NORMAL frame with lost frames comes
before the step of a NORMAL frame (R112, R114). -/
def captureReference (row : StandardRow) (f : Frame) (r : RefCapture) : RefCapture :=
  let r' := if f.cls = .fault ∨ 0 < f.lost then captureLoss row f r else r
  if f.cls = .normal then captureStep row f r' else r'

/-- Every used reference on a frame of the pull of a STANDARD run. -/
def captureFrame (rows : Nat → StandardRow) (f : Frame) (e : Evaluator) : Evaluator :=
  { e with captures := vtab 8 fun k => e.captures[k].map (captureReference (rows k.val) f) }

end Sys2Proof.Machine
end

