-- ==== Sys2Proof/Machine/Closing.lean ====
section
/-! DEFINITION. Entry to CLOSING, the closing sequence, the comparison of captures and RUN CLOSE (R52 to R56,
R111, R121, R122). -/

namespace Sys2Proof.Machine

open Sys2Proof

/-! ### Comparing a capture (R121) -/

/-- The phase distance, the shorter way round the circle. -/
def phaseDistance (a b : Nat) : Nat :=
  let d := (a - b) + (b - a)
  if d ≤ 1800 then d else 3600 - d

/-- The two flags of R121 under a magnitude tolerance in percent and a phase tolerance in tenths of a degree. -/
def comparePeak (magTol phaseTol : Nat) (capture reference : Peak) : CompareFlag :=
  { magError := magTol * reference.mag < ((capture.mag - reference.mag) + (reference.mag - capture.mag)) * 100
    phaseError := phaseTol < phaseDistance capture.phase reference.phase }

/-- A channel lies within the tolerances when neither flag is set. -/
def liesWithin (f : CompareFlag) : Bool := !f.magError && !f.phaseError

/-- The peaks of a captured reference; empty peaks read 0 (R115: a captured reference has none empty). -/
def capturedPeaks (r : RefCapture) : List Peak := r.peaks.map (·.getD ⟨0, 0⟩)

/-- A used reference counts as captured only in state CAPTURED (R115). -/
def isCapturedRef (r : Option RefCapture) : Bool :=
  match r with
  | some r => r.state == .captured
  | none => false

/-- Every used reference has been captured (R54). -/
def allCaptured (rows : Nat → StandardRow) (e : Evaluator) : Bool :=
  (List.finRange 8).all fun k => !(rows k.val).used || isCapturedRef e.captures[k]

/-- Every compared channel lies within the acceptance tolerances (R122). -/
def allAccepted (rows : Nat → StandardRow) (e : Evaluator) : Bool :=
  (List.finRange 8).all fun k =>
    let row := rows k.val
    match e.captures[k] with
    | some r => !row.used ||
        (List.zipWith (comparePeak row.accMag row.accPhase) (capturedPeaks r) row.expected).all liesWithin
    | none => true

/-- The acceptance verdict of a STANDARD run (R54, R122). -/
def verdictOf (rows : Nat → StandardRow) (c : RunContext) : Verdict :=
  if c.reason ≠ some .complete ∨ !allCaptured rows c.evaluator then .notEvaluated
  else if allAccepted rows c.evaluator then .accepted else .rejected

/-- Step 5 of the closing sequence (R54): only a STANDARD run forms a verdict. -/
def formVerdict (rows : Nat → StandardRow) (c : RunContext) : RunContext :=
  match c.kind with
  | .production => c
  | .standard =>
    let v := verdictOf rows c
    { c with verdict := some v, standardIncomplete := c.standardIncomplete || v == .notEvaluated }

/-! ### RUN CLOSE (R55) -/

/-- The close flags of a run. -/
def closeFlagsOf (c : RunContext) : CloseFlags :=
  { shortInsertion := c.matcher.shortInsertion, indicationOverflow := c.evaluator.overflow,
    gapListOverflow := c.forwarder.gapOverflow, backtracked := c.tracker.backtracked,
    standardIncomplete := c.standardIncomplete }

/-- A reference as RUN CLOSE reports it. -/
def refReport (r : Option RefCapture) : RefReport :=
  match r with
  | none => ⟨false, false, 0, []⟩
  | some r => ⟨true, isCapturedRef (some r), r.peaks.length, capturedPeaks r⟩

/-- RUN CLOSE formed from the run context. -/
def runCloseRecord (c : RunContext) : RunCloseRecord :=
  { kind := c.kind, tube := c.tube, profile := c.profile, reason := c.reason.getD .complete,
    flags := closeFlagsOf c, reversal := c.tracker.reversal, finalCorrection := c.tracker.applied,
    matched := c.matcher.matched, missed := c.matcher.missed, unexpected := c.matcher.unexpected,
    notReached := c.matcher.notReached, classCounts := c.evaluator.classCounts.toList,
    framesLost := c.forwarder.framesLost, gaps := c.forwarder.gaps, verdict := c.verdict,
    references := match c.kind with
      | .production => []
      | .standard => c.evaluator.captures.toList.map refReport }

/-! ### The closing sequence (R53) -/

/-- The steps of the closing sequence that precede the close notice. -/
def closeSteps : List CloseStep :=
  (List.finRange 32).map .rule ++ [.dropCandidate, .drain, .finalBlock, .verdict, .runClose]

/-- What a step of the closing sequence does, and the record it places. -/
def State.closeStep (s : State) (l : LaneId) (step : CloseStep) : State × Option EventRecord :=
  match (s.lane l).run with
  | none => (s, none)
  | some c =>
    match step with
    | .rule r =>
      let res := endRule l (s.profile l) (s.keepRow l).indicationKeep r
        (callRuleOf (s.capturedRow l .callRules r.val)) c
      (s.modRun l fun _ => res.1, res.2)
    | .dropCandidate => (s.modRun l fun c => { c with matcher := { c.matcher with candidate := none } }, none)
    | .drain => (s.drainDelay l, none)
    | .finalBlock => (s.finishForwarding l, none)
    | .verdict => (s.modRun l (formVerdict (s.standardRow l)), none)
    | .runClose => (s, some (.runClose l c.serial (runCloseRecord c)))

/-- The closing steps still to be done, held in the run context. -/
def State.setClosing (s : State) (l : LaneId) (steps : Option (List CloseStep)) : State :=
  s.modRun l fun c => { c with closing := steps }

/-- Closing steps done in order; a record without room makes the sequence wait (R53, R157). With no step
left the close notice has been given (R56). -/
def State.runClosing (s : State) (l : LaneId) : List CloseStep → State
  | [] => s.setClosing l (some [])
  | step :: rest =>
    match s.closeStep l step with
    | (s', none) => s'.runClosing l rest
    | (s', some e) =>
      if s.roomFor (.closing l) 1 then ((s'.leaveWaiters (.closing l)).placeRecord e).runClosing l rest
      else (s.setClosing l (some (step :: rest))).joinWaiters (.closing l)

/-- The closing sequence begun. -/
def State.startClosing (s : State) (l : LaneId) : State := s.runClosing l closeSteps

/-! ### Entry to CLOSING (R52) -/

/-- The carried loss handed to the forwarder without a gap (R25). -/
def handCarried (c : RunContext) : RunContext :=
  { c with forwarder := addLost c.tracker.carried c.forwarder, tracker := { c.tracker with carried := 0 } }

/-- Entry to CLOSING with a reason; the closing sequence begins at once when no frame is in passage. -/
def State.enterClosing (s : State) (l : LaneId) (reason : CloseReason) : State :=
  let s1 := s.modRun l fun c => { c with reason := some reason, armTimer := .stopped, stallTimer := .stopped }
  let s2 := (s1.setRunState l .closing).modRun l handCarried
  if (s2.lane l).passage.isSome then s2 else s2.startClosing l

end Sys2Proof.Machine
end

