-- ==== Sys2Proof/Machine/Matcher.lean ====
section
/-! DEFINITION. The landmark matcher: candidates, push and pull judgement, reversal work, MISSED test and
correction (R64 to R76). Every function here changes a run context and may yield one LANDMARK record. -/

namespace Sys2Proof.Machine

open Sys2Proof

/-- Landmark counts raised by one outcome (R75). -/
def countOutcome (o : LandmarkOutcome) (m : Matcher) : Matcher :=
  match o with
  | .matched => { m with matched := satByte (m.matched + 1) }
  | .missed => { m with missed := satByte (m.missed + 1) }
  | .unexpected => { m with unexpected := satByte (m.unexpected + 1) }
  | .notReached => { m with notReached := satByte (m.notReached + 1) }

/-- The cursor entry below k (R70, R71, R72). -/
def entryBelow (k : Nat) : Option Nat := if k = 0 then none else some (k - 1)

/-- A position lies within an entry's window, both ends included. -/
def inWindow (e : LayoutEntry) (p : Int) : Bool := e.nominal - e.tolerance ≤ p && p ≤ e.nominal + e.tolerance

/-- The class of a candidate (R67). -/
def candidateSheet (p : Layout) (length : Int) : Bool := p.sheetMin ≤ length

/-- The class of a candidate as a record reports it. -/
def classKind (sheet : Bool) : LandmarkKind := if sheet then .sheetClass else .supportClass

/-- A MATCHED outcome on entry k (R73): the correction moves by nominal less peak, saturating; the offset is
the change made; the cursor goes to `next`. -/
def matchEntry (dir : Dir) (k : Nat) (e : LayoutEntry) (peak length : Int) (next : Option Nat)
    (m : Matcher) : Matcher × LandmarkRecord :=
  let corr := sat32 (m.correction + (e.nominal - peak))
  (countOutcome .matched { m with correction := corr, cursor := { m.cursor with entry := next } },
   { outcome := .matched, dir := dir, entry := some k, kind := entryLandmarkKind e, peak := some peak,
     offset := some (corr - m.correction), length := length.toNat })

/-- The judgement of a closed candidate in INSERTING (R69). -/
def judgePush (p : Layout) (cand : Candidate) (length : Int) (m : Matcher) : Matcher × Option LandmarkRecord :=
  if !candidateSheet p length then (m, none)
  else
    let n := p.entries.length
    let last := p.entries.getLast?
    let outlet := fun (_ : Unit) => match last with
      | some e =>
        if inWindow e cand.peakPos then
          let r := matchEntry .push (n - 1) e cand.peakPos length none m
          (r.1, some r.2)
        else (m, none)
      | none => (m, none)
    match m.cursor.entry with
    | none => (m, none)
    | some 0 =>
      match p.entries.head? with
      | some e =>
        if inWindow e cand.peakPos then
          let r := matchEntry .push 0 e cand.peakPos length (some (n - 1)) m
          (r.1, some r.2)
        else outlet ()
      | none => (m, none)
    | some _ => outlet ()

/-- The judgement of a closed candidate in PULLING (R71). -/
def judgePull (p : Layout) (cand : Candidate) (length : Int) (m : Matcher) : Matcher × Option LandmarkRecord :=
  let sheet := candidateSheet p length
  let miss : LandmarkRecord :=
    { outcome := .unexpected, dir := .pull, entry := m.cursor.entry, kind := classKind sheet,
      peak := some cand.peakPos, offset := none, length := length.toNat }
  match m.cursor.entry with
  | none => (countOutcome .unexpected m, some miss)
  | some k =>
    match p.entries[k]? with
    | none => (countOutcome .unexpected m, some miss)
    | some e =>
      if entrySheetClass e == sheet && inWindow e cand.peakPos then
        let r := matchEntry .pull k e cand.peakPos length (entryBelow k) m
        (r.1, some r.2)
      else (countOutcome .unexpected m, some miss)

/-- R66 on an examined frame, with the judgement of a candidate that closes (R69, R71). -/
def candidateWork (p : Layout) (threshold : Nat) (f : Frame) (mag : Nat) (m : Matcher) :
    Matcher × Option LandmarkRecord :=
  match m.candidate with
  | none =>
    if threshold ≤ mag then ({ m with candidate := some ⟨f.corrected, f.corrected, mag⟩ }, none) else (m, none)
  | some cand =>
    if threshold ≤ 2 * mag then
      if cand.peakMag < mag then
        ({ m with candidate := some { cand with peakPos := f.corrected, peakMag := mag } }, none)
      else (m, none)
    else
      let length : Int := ((cand.openPos - f.corrected).natAbs : Int)
      let m' := { m with candidate := none }
      match f.phase with
      | .inserting => judgePush p cand length m'
      | .pulling => judgePull p cand length m'

/-- One pass of the MISSED test (R72): nothing when the cursor entry is not MISSED. -/
def missedWork (p : Layout) (q : Int) (m : Matcher) : Matcher × Option LandmarkRecord :=
  match m.cursor.entry with
  | none => (m, none)
  | some k =>
    match p.entries[k]? with
    | none => (m, none)
    | some e =>
      if q < e.nominal - e.tolerance then
        let m' := { m with cursor := { m.cursor with entry := entryBelow k } }
        if e.required then
          (countOutcome .missed m',
            some { outcome := .missed, dir := .pull, entry := some k, kind := entryLandmarkKind e, peak := none,
                   offset := none, length := 0 })
        else (m', none)
      else (m, none)

/-- The first entry whose window lies wholly deeper than v (step 3 of R70). -/
def firstBeyond (p : Layout) (v : Int) : Option Nat :=
  p.entries.findIdx? fun e => v < e.nominal - e.tolerance

/-- The entries reported NOT_REACHED at a reversal at v, deepest first (step 3 of R70). -/
def notReachedEntries (p : Layout) (v : Int) : List Nat :=
  match firstBeyond p v with
  | some m => ((List.range p.entries.length).drop m).reverse
  | none => []

/-- The pull cursor entry after a reversal at v (step 4 of R70). -/
def reversalEntry (p : Layout) (v : Int) : Option Nat :=
  match firstBeyond p v with
  | some m => entryBelow m
  | none => entryBelow p.entries.length

/-- Steps 1 and 2 of R70. -/
def reversalStart (p : Layout) (v : Int) (m : Matcher) : Matcher :=
  { m with
    candidate := none
    shortInsertion := m.shortInsertion || v < p.tubeLength - p.farTolerance }

/-- One NOT_REACHED entry (step 3 of R70). -/
def notReachedWork (p : Layout) (k : Nat) (m : Matcher) : Matcher × Option LandmarkRecord :=
  (countOutcome .notReached m,
    (p.entries[k]?).map fun e =>
      { outcome := .notReached, dir := .pull, entry := some k, kind := entryLandmarkKind e, peak := none,
        offset := none, length := 0 })

/-- Step 4 of R70. -/
def setPullCursor (e : Option Nat) (m : Matcher) : Matcher := { m with cursor := ⟨e, .pull⟩ }

end Sys2Proof.Machine
end

