-- ==== Sys2Proof/Machine/Pipeline.lean ====
section
/-! DEFINITION. The lane pipeline: the axial tracker (R19 to R35), the work of the later blocks on one frame in
order, its wait for EVENT queue room and its end (R7, R52, R74, R94, R103), and the commands LANE_PIPELINE_TAKE
and LANE_PIPELINE_RESUME. -/

namespace Sys2Proof.Machine

open Sys2Proof

/-! ### Axial tracker -/

/-- The travel delta of a frame (R20). -/
def travelDelta (t : Tracker) (count : BitVec 32) : Nat :=
  match t.travelRef with
  | none => 0
  | some r => (count - r).toNat

/-- Travel reference, raw position and remainder advanced (R20, R21, R22). -/
def advanceTravel (scale : Nat) (e : FifoEntry) (t : Tracker) : Tracker :=
  let sum := travelDelta t e.travel * scale + t.remainder
  let whole : Int := ((sum / 65536 : Nat) : Int)
  { t with
    travelRef := some e.travel
    remainder := sum % 65536
    raw := sat32 (match e.direction with
      | .push => t.raw + whole
      | .pull => t.raw - whole) }

/-- The stamp (R23): the correction held becomes the applied correction, counted when it changed. -/
def stampTracker (correction : Int) (t : Tracker) : Tracker :=
  { t with
    applied := correction
    corrCount := if correction = t.applied then t.corrCount else (t.corrCount + 1) % 256
    stamped := some (sat32 (t.raw + correction)) }

/-- The frame's lost frames gathered in the carried loss (R25). -/
def gatherCarried (e : FifoEntry) (t : Tracker) : Tracker :=
  { t with carried := satHalf (satHalf (t.carried + e.precedingLoss) + flag e.unitFault) }

/-- Steps 1 to 3 of R19. -/
def trackEntry (scale : Nat) (correction : Int) (e : FifoEntry) (t : Tracker) : Tracker :=
  gatherCarried e (stampTracker correction (advanceTravel scale e t))

/-- Corrected position of the frame just stamped. -/
def stampedPos (t : Tracker) : Int := t.stamped.getD 0

/-- NORMAL, or FAULT if the unit-fault flag is set. -/
def faultOr (e : FifoEntry) (cls : FrameClass) : FrameClass := if e.unitFault then .fault else cls

/-- The class of a frame in PULLING (R30, R32, R33). -/
def pullClass (clocking : Clocking) (moving : Bool) (e : FifoEntry) (t : Tracker) : FrameClass :=
  if t.lowWater.getD t.raw < t.raw then .backtrack
  else faultOr e (if clocking = .time ∧ !moving ∧ t.still then .stationary else .normal)

/-- The tracker's own fields after a frame of the given class in PULLING (R30 to R33). -/
def pullFields (clocking : Clocking) (moving : Bool) (cls : FrameClass) (t : Tracker) : Tracker :=
  { t with
    backtracked := t.backtracked || cls == .backtrack
    still := if moving then false else if clocking = .time ∧ cls = .normal then true else t.still
    lowWater := if cls = .backtrack then t.lowWater else some (min (t.lowWater.getD t.raw) t.raw) }

/-- A class that reports its lost frames (R25). -/
def reportsLoss (cls : FrameClass) : Bool := cls == .normal || cls == .fault

/-- The frame handed on (R24); `before` is the tracker before the frame. -/
def frameOf (cls : FrameClass) (ph : Phase) (moving exits : Bool) (before t : Tracker) (channels : List Channel) :
    Frame :=
  { cls := cls, phase := ph, raw := t.raw, corrected := stampedPos t, corrCount := t.corrCount, moving := moving,
    lossStart := before.lossStart, lost := if reportsLoss cls then t.carried else 0, channels := channels,
    exits := exits }

/-- Loss start position and carried loss after a frame is stamped and handed on or kept back (R24, R25). -/
def afterStamp (cls : Option FrameClass) (t : Tracker) : Tracker :=
  { t with
    lossStart := if cls = some .backtrack then t.lossStart else stampedPos t
    carried := if cls.any reportsLoss then 0 else t.carried }

/-- The exit test of R34 on a frame of the pull. -/
def exitTest (row : LaneRow) (cls : FrameClass) (t : Tracker) : Bool :=
  cls != .backtrack && stampedPos t ≤ -row.exitMargin

/-! ### Work of the later blocks on one frame -/

/-- The loss report of a NORMAL or FAULT frame (R93). R93 gives the held report's lost frames the range 0..65535 and
says "grow by n" without a rule at the top of it: that they stop at 65535 is the model's choice (log 28). -/
def reportLoss (f : Frame) (c : RunContext) : RunContext :=
  let lo := min f.lossStart f.corrected
  let hi := max f.lossStart f.corrected
  let c' := { c with forwarder := addLost f.lost c.forwarder }
  if f.cls = .fault ∨ 0 < f.lost then
    { c' with heldLoss := some (match c.heldLoss with
        | none => ⟨f.lost, lo, hi⟩
        | some h => ⟨satHalf (h.lost + f.lost), min h.lower lo, max h.upper hi⟩) }
  else c'

/-- A matcher result put into the run context. -/
def withMatcher (l : LaneId) (c : RunContext) (r : Matcher × Option LandmarkRecord) :
    RunContext × Option EventRecord :=
  ({ c with matcher := r.1 }, r.2.map (.landmark l c.serial))

/-- One item of work on a frame: the changed run context and the record it places. -/
def State.workOn (s : State) (l : LaneId) (f : Frame) (item : WorkItem) (c : RunContext) :
    RunContext × Option EventRecord :=
  match item with
  | .notReached k => withMatcher l c (notReachedWork (s.profile l) k c.matcher)
  | .setCursor e => ({ c with matcher := setPullCursor e c.matcher }, none)
  | .candidate =>
    withMatcher l c (candidateWork (s.profile l) (s.laneRow l).landmarkThreshold f
      (channelAt f.channels (s.laneRow l).landmarkChannel).mag c.matcher)
  | .missed => withMatcher l c (missedWork (s.profile l) f.corrected c.matcher)
  | .rule r =>
    evaluateRule l (s.profile l) (s.keepRow l).indicationKeep r (callRuleOf (s.capturedRow l .callRules r.val)) f c

/-- The state after one item of work, its record not yet placed. -/
def State.workItem (s : State) (l : LaneId) (f : Frame) (item : WorkItem) : State × Option EventRecord :=
  match (s.lane l).run with
  | none => (s, none)
  | some c =>
    let r := s.workOn l f item c
    (s.modRun l fun _ => r.1, r.2)

/-- The frame held in the pipeline with the work still to be done. -/
def State.setPassage (s : State) (l : LaneId) (p : Option Passage) : State :=
  s.modLane l fun ln => { ln with passage := p }

/-- The end of a frame's passage: a NORMAL frame enters the delay line (R94); then the exit event is acted on
in PULLING (R34, R49), or, in CLOSING, the closing sequence begins (R52). -/
def State.finishFrame (s : State) (l : LaneId) (f : Frame) : State :=
  let s' := if f.cls = .normal then s.enterDelay l f else s
  match (s'.lane l).runState with
  | .pulling => if f.exits then s'.enterClosing l .complete else s'
  | .closing => (s'.modRun l handCarried).startClosing l
  | .offline | .idle | .armed | .inserting => s'

/-- One block's work on a frame in order, up to the item whose record may not be placed or finds no room (R74, R103,
R157); the items left are answered. -/
def State.blockWork (s : State) (l : LaneId) (f : Frame) (mayPlace : Bool) : List WorkItem → State × List WorkItem
  | [] => (s, [])
  | item :: rest =>
    match s.workItem l f item with
    | (s', none) => s'.blockWork l f mayPlace rest
    | (s', some e) =>
      if mayPlace && s.roomFor (.pipeline l) 1 then
        ((s'.leaveWaiters (.pipeline l)).placeRecord e).blockWork l f mayPlace rest
      else (s, item :: rest)

/-- The work of both blocks on a frame: the records of the first precede those of the second (R77); while the first
waits at a record the second does all it can without placing one (R64), and the pipeline waits with the frame (R7). -/
def State.runWork (s : State) (l : LaneId) (f : Frame) (first second : List WorkItem) : State :=
  let a := s.blockWork l f true first
  let b := a.1.blockWork l f a.2.isEmpty second
  if a.2.isEmpty && b.2.isEmpty then b.1.finishFrame l f
  else (b.1.setPassage l (some ⟨f, a.2, b.2⟩)).joinWaiters (.pipeline l)

/-- The matcher's work on a frame (R65, R74): the MISSED test only when no candidate is open as the frame
arrives and none opens on it (R72). -/
def State.matcherItems (s : State) (l : LaneId) (c : RunContext) (f : Frame) : List WorkItem :=
  let row := s.laneRow l
  if f.cls = .normal then
    .candidate ::
      (if f.phase = .pulling ∧ c.matcher.candidate.isNone
          ∧ (channelAt f.channels row.landmarkChannel).mag < row.landmarkThreshold
        then List.replicate (s.profile l).entries.length .missed else [])
  else []

/-- The evaluator's work on a frame: the call rules, on the evaluated frames of a PRODUCTION run (R99). -/
def evaluatorItems (kind : RunKind) (f : Frame) : List WorkItem :=
  if kind = .production ∧ f.phase = .pulling ∧ f.cls = .normal then (List.finRange 32).map .rule else []

/-- The frame captures references: a NORMAL or FAULT frame of the pull of a STANDARD run (R112). -/
def capturesOn (kind : RunKind) (f : Frame) : Bool := kind == .standard && f.phase == .pulling && reportsLoss f.cls

/-- What the stage and the evaluator do with a frame without waiting for any queue: its loss report (R81, R93) and
reference capture (R112). -/
def doneAtOnce (rows : Nat → StandardRow) (f : Frame) (c : RunContext) : RunContext :=
  let c' := if reportsLoss f.cls then reportLoss f c else c
  if capturesOn c.kind f then { c' with evaluator := captureFrame rows f c'.evaluator } else c'

/-- A frame handed on by the tracker: conditioned, its balance tracked, its loss reported and the references captured
at once, and the blocks' work begun, the matcher's with the given reversal work before it. The first flag picks which
block's records come first (R77, log 3). -/
def State.handOn (s : State) (l : LaneId) (evaluatorFirst : Bool) (cls : FrameClass) (ph : Phase)
    (moving exits : Bool) (before : Tracker) (slots : List Slot) (reversal : List WorkItem) : State :=
  match (s.lane l).run with
  | none => s
  | some c =>
    let f := frameOf cls ph moving exits before c.tracker (s.conditioned l c cls slots)
    let s' := s.modRun l fun c => doneAtOnce (s.standardRow l) f
      { c with
        balance := s.trackedBalance l c cls ph slots
        tracker := afterStamp (some cls) c.tracker }
    let m := reversal ++ s.matcherItems l c f
    let ev := evaluatorItems c.kind f
    if evaluatorFirst then s'.runWork l f ev m else s'.runWork l f m ev

/-- The tracker's fields replaced. -/
def State.setTracker (s : State) (l : LaneId) (t : Tracker) : State := s.modRun l fun c => { c with tracker := t }

/-- A motion report (R28, R48). -/
def State.motionReport (s : State) (l : LaneId) (moving : Bool) : State :=
  if moving then s.modRun l fun c => { c with stallTimer := motionTimer c.stallTimer } else s

/-- Start of insertion (R27, R46): the arm timer stops, the lane is INSERTING, the stall timer starts at 0,
paused if hold is asserted. -/
def State.startInsertion (s : State) (l : LaneId) : State :=
  let s' := (s.modRun l fun c => { c with armTimer := .stopped }).setRunState l .inserting
  s'.modRun l fun c => { c with stallTimer := if (s'.lane l).rx.hold then .paused 0 else .running 0 }

/-- A frame taken in ARMED (R26, R27). -/
def State.takeArmed (s : State) (l : LaneId) (evaluatorFirst : Bool) (e : FifoEntry) (moving : Bool)
    (before t : Tracker) : State :=
  if !moving then s.setTracker l (afterStamp none t)
  else
    match e.direction with
    | .push =>
      ((s.setTracker l t).startInsertion l).handOn l evaluatorFirst (faultOr e .normal) .inserting true false
        before e.slots []
    | .pull => (s.setTracker l (afterStamp none t)).enterClosing l .wrongDirection

/-- The reversal frame (R29, R70). -/
def State.takeReversal (s : State) (l : LaneId) (evaluatorFirst : Bool) (e : FifoEntry) (before t : Tracker) :
    State :=
  let v := stampedPos t
  let p := s.profile l
  let cls := faultOr e .normal
  let s1 := (s.setTracker l { t with reversal := some v, lowWater := some t.raw, still := false }).setRunState l .pulling
  let s2 := (s1.motionReport l true).modRun l fun c => { c with matcher := reversalStart p v c.matcher }
  s2.handOn l evaluatorFirst cls .pulling true (exitTest (s.laneRow l) cls t) before e.slots
    ((notReachedEntries p v).map .notReached ++ [.setCursor (reversalEntry p v)])

/-- A frame taken in INSERTING (R28, R29). -/
def State.takeInserting (s : State) (l : LaneId) (evaluatorFirst : Bool) (e : FifoEntry) (moving : Bool)
    (before t : Tracker) : State :=
  if moving && e.direction == .pull then s.takeReversal l evaluatorFirst e before t
  else
    ((s.setTracker l t).motionReport l moving).handOn l evaluatorFirst (faultOr e .normal) .inserting moving false
      before e.slots []

/-- A frame taken in PULLING (R30 to R34). -/
def State.takePulling (s : State) (l : LaneId) (evaluatorFirst : Bool) (e : FifoEntry) (moving : Bool)
    (before t : Tracker) : State :=
  let row := s.laneRow l
  let cls := pullClass row.clocking moving e t
  ((s.setTracker l (pullFields row.clocking moving cls t)).motionReport l moving).handOn l evaluatorFirst cls
    .pulling moving (exitTest row cls t) before e.slots []

/-- A removed entry passed to the tracker (R19). -/
def State.takeFrame (s : State) (l : LaneId) (evaluatorFirst : Bool) (e : FifoEntry) : State :=
  match (s.lane l).run with
  | none => s
  | some c =>
    let t := trackEntry (s.laneRow l).scale c.matcher.correction e c.tracker
    let moving := travelDelta c.tracker e.travel != 0
    match (s.lane l).runState with
    | .armed => s.takeArmed l evaluatorFirst e moving c.tracker t
    | .inserting => s.takeInserting l evaluatorFirst e moving c.tracker t
    | .pulling => s.takePulling l evaluatorFirst e moving c.tracker t
    | .offline | .idle | .closing => s

/-! ### Commands -/

/-- LANE_PIPELINE_TAKE (R7): a ready pipeline removes the oldest ingress entry and drops it or passes it on. -/
def State.pipelineTake (s : State) (l : LaneId) (evaluatorFirst : Bool) : State :=
  match (s.lane l).passage, (s.lane l).rx.fifo with
  | none, e :: rest =>
    let s' := (s.modRx l fun rx => { rx with fifo := rest }).weighLaneHold l
    if isActive (s.lane l).runState then s'.takeFrame l evaluatorFirst e else s'
  | _, _ => s

/-- LANE_PIPELINE_RESUME (R74, R103): a pipeline that holds a frame goes on with the frame's remaining work. -/
def State.pipelineResume (s : State) (l : LaneId) : State :=
  match (s.lane l).passage with
  | none => s
  | some p => (s.setPassage l none).runWork l p.frame p.first p.second

/-- LANE_PIPELINE_TAKE; nothing while the reset line is asserted (R180). -/
def execLanePipelineTake (l : LaneId) (evaluatorFirst : Bool) (s : State) : Host.Outcome State Fault Refusal :=
  .next (if s.resetLine then s else s.pipelineTake l evaluatorFirst)

/-- LANE_PIPELINE_RESUME; nothing while the reset line is asserted (R180). -/
def execLanePipelineResume (l : LaneId) (s : State) : Host.Outcome State Fault Refusal :=
  .next (if s.resetLine then s else s.pipelineResume l)

end Sys2Proof.Machine
end

