-- ==== Sys2Proof/Machine/Receiver.lean ====
section
/-! DEFINITION. The lane receiver and the run timers: SAMPLE_FRAME, LANE_FRAME_BREAK, SILENCE_TIMER_EXPIRY,
STATUS_PERIOD_EXPIRY, STATUS_WORD_COMPLETE (R1 to R15), ARM_TIMER_EXPIRY, STALL_TIMER_EXPIRY (R47, R48),
CLOSING_RESUME (R53), and the millisecond that passes on an empty queue (log 2). -/

namespace Sys2Proof.Machine

open Sys2Proof

/-! ### Frame acceptance (R1 to R6) -/

/-- Check 2 of R1 (R3): slot count, length, and the expected slot count of an enabled LANE row in force. -/
def formatOk (row : LaneRow) (words : List Word) : Bool :=
  sampleLengthOk words && (!row.enabled || row.slotCount == sampleSlotCount words)

/-- The classification of an accepted frame's sequence (R4). -/
inductive SequenceClass where
  | first
  | continuous
  | gap (lost : Nat)
  | repeated
  deriving DecidableEq, Repr

/-- R4. -/
def sequenceClass (previous : Option (BitVec 16)) (s : BitVec 16) : SequenceClass :=
  match previous with
  | none => .first
  | some p =>
    let d := (s - p).toNat
    if d = 1 then .continuous
    else if 2 ≤ d ∧ d ≤ 32768 then .gap (d - 1)
    else .repeated

/-- Lost frames noted (R4). -/
def lostNoted : SequenceClass → Nat
  | .gap n => n
  | _ => 0

/-- A discontinuity is counted in SEQUENCE (R4, R11). -/
def isDiscontinuity : SequenceClass → Bool
  | .gap _ | .repeated => true
  | .first | .continuous => false

/-- Slot s of a sample frame. -/
def slotOf (words : List Word) (s : Nat) : Slot :=
  { x := BitVec.ofNat 16 (bits (words.getD (3 + s) 0) 31 16)
    y := BitVec.ofNat 16 (bits (words.getD (3 + s) 0) 15 0)
    overRange := bitAt (words.getD 2 0) s }

/-- The ingress FIFO entry of a frame with its preceding loss (sample frame layout). -/
def entryOfFrame (words : List Word) (loss : Nat) : FifoEntry :=
  { sequence := sampleSequence words
    travel := words.getD 1 0
    direction := if bitAt (words.getD 0 0) 9 then .pull else .push
    unitFault := bitAt (words.getD 0 0) 8
    slots := (List.range (sampleSlotCount words)).map (slotOf words)
    precedingLoss := loss }

/-- CHECK counts a frame that fails check 1, or is broken off before its check (R2, R11). -/
def countCheck (rx : Receiver) : Receiver := { rx with check := satByte (rx.check + 1) }

/-- FORMAT counts a frame that fails check 2, and qualification restarts (R3, R11). -/
def countFormat (rx : Receiver) : Receiver := { rx with format := satByte (rx.format + 1), qualifying := 0 }

/-- Check 3 on an accepted frame: SEQUENCE and the previous sequence (R1, R4). -/
def noteSequence (s : BitVec 16) (cls : SequenceClass) (rx : Receiver) : Receiver :=
  { rx with
    previous := some s
    sequence := if isDiscontinuity cls then satByte (rx.sequence + 1) else rx.sequence }

/-- An accepted frame while UP finds room (R5). -/
def ingressPlace (words : List Word) (noted : Nat) (rx : Receiver) : Receiver :=
  { rx with
    silence := some 0
    fifo := rx.fifo ++ [entryOfFrame words (satHalf (noted + rx.pendingLoss))]
    pendingLoss := 0 }

/-- An accepted frame while UP finds 64 entries (R5). -/
def ingressOverflow (noted : Nat) (rx : Receiver) : Receiver :=
  { rx with
    silence := some 0
    overflow := satByte (rx.overflow + 1)
    pendingLoss := satHalf (rx.pendingLoss + 1 + noted) }

/-- The qualifying count a frame would reach (R9). -/
def qualifyCount (cls : SequenceClass) (count : Nat) : Nat := if isDiscontinuity cls then 1 else count + 1

/-- The link comes UP (R9). -/
def linkUp (rx : Receiver) : Receiver := { rx with link := .up, qualifying := 0, silence := some 0 }

/-- An accepted frame after check 3 (R5, R9). -/
def State.acceptFrame (s : State) (l : LaneId) (words : List Word) (cls : SequenceClass) : State :=
  let rx := (s.lane l).rx
  let s' := s.modRx l (noteSequence (sampleSequence words) cls)
  match rx.link with
  | .up =>
    if rx.fifo.length < Config.fifoCapacity then
      (s'.modRx l (ingressPlace words (lostNoted cls))).weighLaneHold l
    else s'.modRx l (ingressOverflow (lostNoted cls))
  | .down =>
    let n := qualifyCount cls rx.qualifying
    if 3 ≤ n then (s'.modRx l linkUp).weighLane l
    else s'.modRx l fun rx => { rx with qualifying := n }

/-- A sample frame ended: the four checks in order (R1). -/
def State.sampleFrameEnd (s : State) (l : LaneId) (words : List Word) : State :=
  if !sampleCheckOk words then s.modRx l countCheck
  else if !formatOk (s.laneRow l) words then s.modRx l countFormat
  else s.acceptFrame l words (sequenceClass (s.lane l).rx.previous (sampleSequence words))

/-- SAMPLE_FRAME; no frame is received while the reset line is asserted (R180). -/
def execSampleFrame (l : LaneId) (words : List Word) (s : State) : Host.Outcome State Fault Refusal :=
  .next (if s.resetLine then s else s.sampleFrameEnd l words)

/-- LANE_FRAME_BREAK (R2). -/
def execLaneFrameBreak (l : LaneId) (s : State) : Host.Outcome State Fault Refusal :=
  .next (if s.resetLine then s else s.modRx l countCheck)

/-! ### Link loss (R8, R10, R51) -/

/-- Steps 1 to 5 of R10. -/
def linkDown (rx : Receiver) : Receiver :=
  { rx with link := .down, silence := none, qualifying := 0, previous := none, pendingLoss := 0, fifo := [] }

/-- The run controller's answer to link DOWN (R51). -/
def State.linkLost (s : State) (l : LaneId) : State :=
  if isActive (s.lane l).runState then s.enterClosing l .linkLost else s.weighLane l

/-- The silence timer has reached its limit. -/
def silenceDue (rx : Receiver) : Bool := rx.link == .up && rx.silence.any (Config.silenceLimit ≤ ·)

/-- SILENCE_TIMER_EXPIRY (R10), when the timer has reached 50 ms. -/
def execSilenceTimerExpiry (l : LaneId) (s : State) : Host.Outcome State Fault Refusal :=
  .next (if !s.resetLine && silenceDue (s.lane l).rx then ((s.modRx l linkDown).weighLaneHold l).linkLost l else s)

/-! ### Lane status word (R15) -/

/-- STATUS_PERIOD_EXPIRY, when the period timer has reached 100 ms. -/
def execStatusPeriodExpiry (l : LaneId) (s : State) : Host.Outcome State Fault Refusal :=
  .next (if !s.resetLine && Config.statusPeriod ≤ (s.lane l).rx.statusTimer then s.modLane l statusChanged else s)

/-- The word in transmission completes; a pending change starts the next word. -/
def statusComplete (ln : Lane) : Lane :=
  match ln.rx.statusTx with
  | none => ln
  | some _ =>
    if ln.rx.statusPending then startStatusWord ln else { ln with rx := { ln.rx with statusTx := none } }

/-- STATUS_WORD_COMPLETE (R15). -/
def execStatusWordComplete (l : LaneId) (s : State) : Host.Outcome State Fault Refusal :=
  .next (if s.resetLine then s else s.modLane l statusComplete)

/-! ### Run timers (R47, R48) -/

/-- A running timer has run for a number of seconds. -/
def timerDue (seconds : Nat) : Timer → Bool
  | .running ms => 1000 * seconds ≤ ms
  | _ => false

/-- The arm timer has run for the captured arm timeout in ARMED. -/
def State.armDue (s : State) (l : LaneId) : Bool :=
  (s.lane l).runState == .armed && (s.lane l).run.any fun c => timerDue (s.laneRow l).armTimeout c.armTimer

/-- The stall timer has run for the captured stall timeout in INSERTING or PULLING. -/
def State.stallDue (s : State) (l : LaneId) : Bool :=
  inMotion (s.lane l).runState && (s.lane l).run.any fun c => timerDue (s.laneRow l).stallTimeout c.stallTimer

/-- ARM_TIMER_EXPIRY (R47). -/
def execArmTimerExpiry (l : LaneId) (s : State) : Host.Outcome State Fault Refusal :=
  .next (if !s.resetLine && s.armDue l then s.enterClosing l .noMotion else s)

/-- STALL_TIMER_EXPIRY (R48). -/
def execStallTimerExpiry (l : LaneId) (s : State) : Host.Outcome State Fault Refusal :=
  .next (if !s.resetLine && s.stallDue l then s.enterClosing l .stalled else s)

/-- A waiting closing sequence goes on with its remaining steps (R53). -/
def State.closingResume (s : State) (l : LaneId) : State :=
  match (s.lane l).run.bind (·.closing) with
  | some (step :: rest) => s.runClosing l (step :: rest)
  | _ => s

/-- CLOSING_RESUME (R53). -/
def execClosingResume (l : LaneId) (s : State) : Host.Outcome State Fault Refusal :=
  .next (if s.resetLine then s else s.closingResume l)

/-! ### The passage of time (log 2) -/

/-- A run timer after one more millisecond. -/
def tickTimer : Timer → Timer
  | .running ms => .running (satTo Config.runTimerLimit (ms + 1))
  | t => t

/-- A lane after one more millisecond: its running timers advance and stop at their limits. -/
def tickLane (ln : Lane) : Lane :=
  { ln with
    rx := { ln.rx with
      silence := ln.rx.silence.map fun ms => satTo Config.silenceLimit (ms + 1)
      statusTimer := satTo Config.statusPeriod (ln.rx.statusTimer + 1) }
    run := ln.run.map fun c => { c with armTimer := tickTimer c.armTimer, stallTimer := tickTimer c.stallTimer } }

/-- One millisecond passes; while the reset line is asserted nothing advances (R180). -/
def State.tick (s : State) : State := if s.resetLine then s else s.mapLanes fun _ => tickLane

end Sys2Proof.Machine
end

