-- ==== Sys2Proof/Machine/Groups.lean ====
section
/-! DEFINITION. The calibration group unit: closes, drift comparison, opening and supersede (R117 to R133). -/

namespace Sys2Proof.Machine

open Sys2Proof

/-- A group record after its group has closed (R117, R126). -/
def closedGroup (g : Group) : Group :=
  { g with state := .needsStandard, pending := false, opener := none, runs := [] }

/-- GROUP CLOSE of a group as it stands (R133). -/
def groupCloseRecord (l : LaneId) (g : Group) (v : GroupVerdict) (closing : Option (BitVec 32))
    (compare : Option (List (List CompareFlag))) : EventRecord :=
  .groupClose l g.number v closing compare g.runs

/-- The signature peak of a channel; the drift comparison is made only where it is present (R127, log 19). -/
def signaturePeak (sig : Option (List SignaturePeak)) (channel : Nat) : Peak :=
  match (sig.getD []).find? (·.channel == channel) with
  | some p => ⟨p.mag, p.phase⟩
  | none => ⟨0, 0⟩

/-- The compare flags of the drift comparison, per reference and list position (R127). -/
def driftFlags (rows : Nat → StandardRow) (e : Evaluator) (o : Opener) : List (List CompareFlag) :=
  (List.finRange 8).map fun k =>
    let row := rows k.val
    match e.captures[k] with
    | some r =>
      if row.used then
        List.zipWith (fun ch p => comparePeak row.driftMag row.driftPhase p (signaturePeak o.signature[k] ch))
          row.channels (capturedPeaks r)
      else []
    | none => []

/-- PASS when no flag is set, FAIL otherwise (R127). -/
def driftVerdict (flags : List (List CompareFlag)) : GroupVerdict :=
  if flags.all (·.all liesWithin) then .pass else .fail

/-- The opener signature of a run (R128). -/
def signatureOf (rows : Nat → StandardRow) (e : Evaluator) : Vector (Option (List SignaturePeak)) 8 :=
  vtab 8 fun k => e.captures[k].map fun r =>
    List.zipWith (fun ch p => ⟨ch, p.mag, p.phase⟩) (rows k.val).channels (capturedPeaks r)

/-- A run's captured generation of a kind. -/
def capturedGeneration (c : RunContext) (k : Kind) : BitVec 16 := c.captured[k.idx].generation

/-- The group a run opens (R128). -/
def openedGroup (rows : Nat → StandardRow) (c : RunContext) (g : Group) : Group :=
  { state := .opened, pending := false, number := g.number + 1,
    opener := some ⟨c.serial, capturedGeneration c .calibration, capturedGeneration c .standard,
      signatureOf rows c.evaluator⟩,
    runs := [] }

/-- GROUP OPEN (R132). -/
def groupOpenRecord (l : LaneId) (c : RunContext) (g : Group) : EventRecord :=
  .groupOpen l g.number c.serial (capturedGeneration c .calibration) (capturedGeneration c .standard)

/-- A pending supersede applied at a close that leaves the group otherwise as it is (R124, R125). -/
def supersedeAtClose (l : LaneId) (g : Group) : List EventRecord × Group :=
  if g.state = .opened ∧ g.pending then ([groupCloseRecord l g .superseded none none], closedGroup g) else ([], g)

/-- The first step of R126. -/
def closeFirstStep (l : LaneId) (rows : Nat → StandardRow) (c : RunContext) (g : Group) :
    List EventRecord × Group :=
  if g.state = .opened then
    if g.pending then ([groupCloseRecord l g .superseded none none], closedGroup g)
    else
      match g.opener with
      | some o =>
        let flags := driftFlags rows c.evaluator o
        ([groupCloseRecord l g (driftVerdict flags) (some c.serial) (some flags)], closedGroup g)
      | none => ([groupCloseRecord l g .pass (some c.serial) (some [])], closedGroup g)
  else ([], g)

/-- The second step of R126. -/
def closeSecondStep (l : LaneId) (rows : Nat → StandardRow) (calibration standard : BitVec 16)
    (c : RunContext) (g : Group) : List EventRecord × Group :=
  if c.verdict = some .accepted ∧ capturedGeneration c .calibration = calibration
      ∧ capturedGeneration c .standard = standard then
    let g' := openedGroup rows c g
    ([groupOpenRecord l c g'], g')
  else ([], { g with state := .needsStandard })

/-- The outcome of a close notice: the records in order and the group record after (R123 to R126). -/
def closeOutcome (l : LaneId) (rows : Nat → StandardRow) (calibration standard : BitVec 16)
    (c : RunContext) (g : Group) : List EventRecord × Group :=
  match c.kind, c.verdict with
  | .production, _ => supersedeAtClose l g
  | .standard, some .accepted | .standard, some .rejected =>
    let first := closeFirstStep l rows c g
    let second := closeSecondStep l rows calibration standard c first.2
    (first.1 ++ second.1, second.2)
  | .standard, _ => supersedeAtClose l g

/-- The current generation number of a kind. -/
def State.generation (s : State) (k : Kind) : BitVec 16 := (s.tables.kind k).generation

/-- The outcome of a lane's close notice on the state as it stands. -/
def State.closeOutcome (s : State) (l : LaneId) (c : RunContext) : List EventRecord × Group :=
  Machine.closeOutcome l (s.standardRow l) (s.generation .calibration) (s.generation .standard) c (s.group l)

/-- The lane's run whose close notice waits to be handled (R56, R123). -/
def State.noticed (s : State) (l : LaneId) : Option RunContext :=
  match (s.lane l).run with
  | some c => if c.closing = some [] then some c else none
  | none => none

/-- The lane's group closes at once at a commit of CALIBRATION or STANDARD (R129). -/
def State.supersededNow (s : State) (l : LaneId) : Bool :=
  (s.group l).state == .opened && (s.lane l).run.isNone

/-- A lane's group record after a commit of CALIBRATION or STANDARD (R129). -/
def State.supersededGroup (s : State) (l : LaneId) : Group :=
  let g := s.group l
  if s.supersededNow l then closedGroup g
  else if g.state = .opened then { g with pending := true }
  else g

/-- The GROUP CLOSE records of a commit of CALIBRATION or STANDARD, in lane order (R129). -/
def State.supersedeRecords (s : State) : List EventRecord :=
  ((List.finRange 8).filter s.supersededNow).map fun l => groupCloseRecord l (s.group l) .superseded none none

/-- The group unit's act at a commit of CALIBRATION or STANDARD (R129). -/
def State.supersedeGroups (s : State) : State :=
  { s.placeRecords s.supersedeRecords with groups := vtab 8 s.supersededGroup }

/-- The closing ends (R57): the run context is discarded and the lane becomes IDLE or OFFLINE. -/
def State.endClosing (s : State) (l : LaneId) : State := (s.modLane l fun ln => { ln with run := none }).settleLane l

end Sys2Proof.Machine
end

