-- ==== Sys2Proof/Machine/TableOps.lean ====
section
/-! DEFINITION. The table manager's own requests on the table memory: TABLE WRITE, TABLE READ, TABLE COPY,
DIRECTORY SET, DIRECTORY READ and the checks and flip of COMMIT (R164 to R175), and the layout of reply bodies
(R184). -/

namespace Sys2Proof.Machine

open Sys2Proof

/-! ### Replies (R177, R184) -/

/-- What a request is answered: status, PRIOR_DISCARDED and the body an OK reply carries. -/
structure Answer where
  status : Status
  prior : Bool
  body : List Word
  deriving DecidableEq, Repr

/-- An answer without a body. -/
def answer (st : Status) : Answer := ⟨st, false, []⟩

/-- The presence word: bit i is set when field i is present (R184, log 9). -/
def presenceWord (fields : List (Bool × List Word)) : Word :=
  pack ((List.range fields.length).map fun i => (flag (fields.getD i (false, [])).1, i, 1))

/-- A reply body: the presence word and the fields in order, an absent field as zero words (R184). -/
def replyBody (fields : List (Bool × List Word)) : List Word :=
  presenceWord fields :: fields.flatMap fun f => if f.1 then f.2 else f.2.map fun _ => 0

/-- An OK answer whose fields are all present. -/
def okWith (fields : List (List Word)) : Answer := ⟨.ok, false, replyBody (fields.map fun f => (true, f))⟩

/-- The reply placed for a request (R177): a reply whose status is not OK carries no body. -/
def State.answerRequest (s : State) (tag : BitVec 16) (a : Answer) : State :=
  s.placeReply ⟨tag, a.status, a.prior, if a.status = .ok then a.body else []⟩

/-! ### Copies -/

/-- A copy is captured by at least one open run (R166). -/
def State.isCaptured (s : State) (k : Kind) (c : CopyIndex) : Bool :=
  s.lanes.toList.any fun ln => ln.run.any fun r => r.captured[k.idx].copy == c

/-- The staging copy of a kind is captured. -/
def State.stagingCaptured (s : State) (k : Kind) : Bool := s.isCaptured k (s.tables.kind k).stagingIndex

/-- The staging copy's directory entry. -/
def Tables.stagingEntry (t : Tables) (k : Kind) : DirEntry := (t.kind k).entry (t.kind k).stagingIndex

/-- The current copy's directory entry. -/
def Tables.currentEntry (t : Tables) (k : Kind) : DirEntry := (t.kind k).entry (t.kind k).current

/-- A copy's directory entry replaced. -/
def KindState.setEntry (ks : KindState) (c : CopyIndex) (e : DirEntry) : KindState :=
  if c then { ks with copy1 := e } else { ks with copy0 := e }

/-- A kind's staging buffer holds a row (R170). -/
def isStaging : Staging → Bool
  | .empty => false
  | .staging _ _ => true

/-! ### TABLE WRITE (R169, R170, R171) -/

/-- The fields of a TABLE WRITE body. -/
structure WriteBody where
  kind : Nat
  last : Bool
  count : Nat
  part : Nat
  row : Nat
  words : List Word
  deriving DecidableEq, Repr

/-- The fields of a TABLE WRITE body (spec/11). -/
def writeBodyOf (body : List Word) : WriteBody :=
  let w := body.getD 0 0
  { kind := bits w 31 24, last := bitAt w 23, count := bits w 20 16, part := bits w 14 12, row := bits w 11 0,
    words := body.tail }

/-- Words stored from a position on, each marked received. -/
def storeWords : List (Option Word) → Nat → List Word → List (Option Word)
  | ws, _, [] => ws
  | ws, i, v :: vs => storeWords (ws.set i (some v)) (i + 1) vs

/-- The slots a part is stored into: those of the same row, or fresh ones (R170). -/
def stagedSlots (k : Kind) (row : Nat) : Staging → List (Option Word)
  | .empty => List.replicate (rowWords k) none
  | .staging r ws => if r = row then ws else List.replicate (rowWords k) none

/-- Another row's words are discarded by a write (R170). -/
def discardsOther (row : Nat) : Staging → Bool
  | .empty => false
  | .staging r _ => r != row

/-- Words received. -/
def receivedCount (ws : List (Option Word)) : Nat := (ws.filter Option.isSome).length

/-- The checks of R169; the kind and row of a write that passes. -/
def State.writeCheck (s : State) (body : List Word) : Status × Option Kind :=
  let b := writeBodyOf body
  if body.length = 0 ∨ 6 < b.part ∨ b.count = 0 ∨ 16 < b.count ∨ body.length ≠ 1 + b.count then (.badRequest, none)
  else
    match kindOf b.kind with
    | none => (.badKind, none)
    | some k =>
      if rowWords k < 16 * b.part + b.count then (.badRequest, none)
      else if (s.tables.stagingEntry k).limit ≤ b.row then (.outOfLimit, none)
      else if s.stagingCaptured k then (.inUse, none)
      else (.ok, some k)

/-- The staging buffer of a kind replaced. -/
def State.setStaging (s : State) (k : Kind) (b : Staging) : State :=
  s.modTables fun t => t.modKind k fun ks => { ks with staging := b }

/-- A checked row written into the staging copy (R171). -/
def State.writeRow (s : State) (k : Kind) (row : Nat) (ws : List Word) : State :=
  s.modTables fun t => { t with mem := memWriteBlock t.mem (rowAddress k (t.stagingEntry k) row) ws }

/-- A row completed: INCOMPLETE_ROW, BAD_VALUE or written (R171). -/
def State.completeRow (s : State) (k : Kind) (row : Nat) (slots : List (Option Word)) : State × Status :=
  let s' := s.setStaging k .empty
  if slots.any Option.isNone then (s', .incompleteRow)
  else
    let ws := slots.map (·.getD 0)
    if rowOk k ws then (s'.writeRow k row ws, .ok) else (s', .badValue)

/-- TABLE WRITE handled (R169, R170, R171). -/
def State.handleTableWrite (s : State) (body : List Word) : State × Answer :=
  match s.writeCheck body with
  | (st, none) => (s, answer st)
  | (_, some k) =>
    let b := writeBodyOf body
    let old := (s.tables.kind k).staging
    let slots := storeWords (stagedSlots k b.row old) (16 * b.part) b.words
    let prior := discardsOther b.row old
    if b.last then
      let r := s.completeRow k b.row slots
      (r.1, ⟨r.2, prior, []⟩)
    else
      (s.setStaging k (.staging b.row slots),
        { okWith [[natWord b.kind], [natWord b.row], [natWord (receivedCount slots)]] with prior := prior })

/-! ### TABLE READ (R172) -/

/-- The words of a part of a row. -/
def partWords (part : Nat) (ws : List Word) : List Word := (ws.drop (16 * part)).take 16

/-- The copy index a copy code names: 0 CURRENT, 1 STAGING. -/
def resolveCopy (ks : KindState) (code : Nat) : CopyIndex := if code = 0 then ks.current else ks.stagingIndex

/-- The OK answer of a TABLE READ (R172, R184). -/
def State.readAnswer (s : State) (k : Kind) (c : CopyIndex) (row : Nat) (ws : List Word) : Answer :=
  let ks := s.tables.kind k
  okWith [[natWord k.idx.val], [natWord (flag c)], [natWord row], [natWord ks.generation.toNat],
    [natWord (flag (c == ks.current))], ws]

/-- The latch holds a row of a copy. -/
def latchHolds (latch : Option Latch) (k : Kind) (c : CopyIndex) (row : Nat) : Option (List Word) :=
  match latch with
  | some h => if h.kind = k ∧ h.copy = c ∧ h.row = row then some h.words else none
  | none => none

/-- TABLE READ handled (R172). -/
def State.handleTableRead (s : State) (body : List Word) : State × Answer :=
  let w := body.getD 0 0
  let part := bits w 14 12
  let row := bits w 11 0
  if body.length ≠ 1 ∨ 1 < bits w 23 22 ∨ 6 < part then (s, answer .badRequest)
  else
    match kindOf (bits w 31 24) with
    | none => (s, answer .badKind)
    | some k =>
      let c := resolveCopy (s.tables.kind k) (bits w 23 22)
      if rowParts k ≤ part then (s, answer .badRequest)
      else if ((s.tables.kind k).entry c).limit ≤ row then (s, answer .outOfLimit)
      else if part = 0 then
        let ws := s.tables.row k c row
        (s.modTables fun t => { t with latch := some ⟨k, c, row, ws⟩ }, s.readAnswer k c row (partWords 0 ws))
      else
        match latchHolds s.tables.latch k c row with
        | some ws => (s, s.readAnswer k c row (partWords part ws))
        | none => (s, answer .notLatched)

/-! ### TABLE COPY (R173) -/

/-- The kind byte of a one-field body. -/
def bodyKind (body : List Word) : Option Kind := kindOf (bits (body.getD 0 0) 31 24)

/-- Rows copied word for word from the current copy into the staging copy. -/
def copyRows (k : Kind) (n : Nat) (t : Tables) : Tables :=
  { t with mem := memWriteBlock t.mem (t.stagingEntry k).base (memReadBlock t.mem (t.currentEntry k).base (n * rowWords k)) }

/-- TABLE COPY handled (R173). -/
def State.handleTableCopy (s : State) (body : List Word) : State × Answer :=
  if body.length ≠ 1 then (s, answer .badRequest)
  else
    match bodyKind body with
    | none => (s, answer .badKind)
    | some k =>
      if s.stagingCaptured k then (s, answer .inUse)
      else
        let n := min (s.tables.currentEntry k).limit (s.tables.stagingEntry k).limit
        ((s.modTables (copyRows k n)).setStaging k .empty,
          { okWith [[natWord n]] with prior := isStaging (s.tables.kind k).staging })

/-! ### Directory (R165, R167, R168) -/

/-- Two extents share no word; an empty extent shares none. -/
def extentsApart (ka : Kind) (a : DirEntry) (kb : Kind) (b : DirEntry) : Bool :=
  a.limit == 0 || b.limit == 0 || a.base + a.limit * rowWords ka ≤ b.base || b.base + b.limit * rowWords kb ≤ a.base

/-- The 16 directory entries. -/
def Tables.entries (t : Tables) : List (Kind × CopyIndex × DirEntry) :=
  Kind.all.flatMap fun k => [(k, false, (t.kind k).copy0), (k, true, (t.kind k).copy1)]

/-- A new entry for a copy overlaps another entry (check 5 of R167). -/
def Tables.overlaps (t : Tables) (k : Kind) (c : CopyIndex) (e : DirEntry) : Bool :=
  t.entries.any fun o => !(o.1 == k && o.2.1 == c) && !extentsApart k e o.1 o.2.2

/-- The content a new extent takes (R167): rows kept below both limits when the base is unchanged, rows above
the old limit zero; all zero when the base changes. -/
def extentContent (k : Kind) (old new : DirEntry) (m : Memory) : Memory :=
  if new.base = old.base then
    memWriteBlock m (rowAddress k old old.limit) (List.replicate ((new.limit - old.limit) * rowWords k) 0)
  else memWriteBlock m new.base (List.replicate (new.limit * rowWords k) 0)

/-- The staging entry set, its content made, and the kind's partial row discarded (R167). -/
def setExtent (k : Kind) (e : DirEntry) (t : Tables) : Tables :=
  { t with mem := extentContent k (t.stagingEntry k) e t.mem }.modKind k fun ks =>
    { ks.setEntry ks.stagingIndex e with staging := .empty }

/-- DIRECTORY SET handled (R167). -/
def State.handleDirectorySet (s : State) (body : List Word) : State × Answer :=
  let e : DirEntry := ⟨(body.getD 1 0).toNat, (body.getD 2 0).toNat⟩
  if body.length ≠ 3 then (s, answer .badRequest)
  else
    match bodyKind body with
    | none => (s, answer .badKind)
    | some k =>
      if s.stagingCaptured k then (s, answer .inUse)
      else if Config.tableWords ≤ e.base ∨ maxRows k < e.limit
          ∨ Config.tableWords < e.base + e.limit * rowWords k then (s, answer .outOfLimit)
      else if s.tables.overlaps k (s.tables.kind k).stagingIndex e then (s, answer .overlap)
      else
        (s.modTables (setExtent k e), { answer .ok with prior := isStaging (s.tables.kind k).staging })

/-- The words of a kind in the DIRECTORY READ reply (R168). -/
def State.directoryWords (s : State) (k : Kind) : List Word :=
  let ks := s.tables.kind k
  [natWord (flag ks.current), natWord ks.generation.toNat, natWord ks.copy0.base, natWord ks.copy0.limit,
    natWord ks.copy1.base, natWord ks.copy1.limit, natWord (flag (s.isCaptured k false)),
    natWord (flag (s.isCaptured k true))]

/-- DIRECTORY READ handled (R168). -/
def State.handleDirectoryRead (s : State) (body : List Word) : State × Answer :=
  if body.length ≠ 0 then (s, answer .badRequest) else (s, okWith [Kind.all.flatMap s.directoryWords])

/-! ### COMMIT (R174, R175) -/

/-- Kind i is in a mask when bit i is set (R164). -/
def maskHas (mask : Nat) (k : Kind) : Bool := mask.testBit k.idx.val

/-- The mask of a COMMIT body. -/
def commitMask (body : List Word) : Nat := bits (body.getD 0 0) 7 0

/-- The masked kinds. -/
def maskedKinds (mask : Nat) : List Kind := Kind.all.filter (maskHas mask)

/-- The checks of R174. -/
def Tables.commitCheck (t : Tables) (mask : Nat) : Status :=
  if (maskedKinds mask).any fun k => isStaging (t.kind k).staging then .partialRow
  else if (maskedKinds mask).any fun k => (t.stagingEntry k).limit == 0 then .noTable
  else .ok

/-- The mask includes CALIBRATION or STANDARD. -/
def maskSupersedes (mask : Nat) : Bool := maskHas mask .calibration || maskHas mask .standard

/-- The EVENT queue places a COMMIT's act would use if taken now (R129, R157, log 6). -/
def State.commitPlaces (s : State) (body : List Word) : Nat :=
  let mask := commitMask body
  if body.length = 1 ∧ maskSupersedes mask ∧ s.tables.commitCheck mask = .ok then s.supersedeRecords.length else 0

/-- A kind after a commit that names it. -/
def flipKind (ks : KindState) : KindState := { ks with current := !ks.current, generation := ks.generation + 1 }

/-- The masked kinds flipped together. -/
def flipKinds (mask : Nat) (t : Tables) : Tables :=
  { t with kinds := vtab 8 fun i => if mask.testBit i.val then flipKind t.kinds[i] else t.kinds[i] }

/-- Every lane weighed in lane order (R175). -/
def State.weighLanes (s : State) : List LaneId → State
  | [] => s
  | l :: ls => (s.weighLane l).weighLanes ls

/-- A commit that passes R174: the flip, the notice to the lanes, the group unit's act (R175, log 22). -/
def State.commitKinds (s : State) (mask : Nat) : State :=
  let s1 := s.modTables (flipKinds mask)
  let s2 := if maskHas mask .lane then s1.weighLanes (List.finRange 8) else s1
  if maskSupersedes mask then s2.supersedeGroups else s2

/-- The new generation numbers, in kind order. -/
def State.generationAnswer (s : State) : Answer :=
  okWith [Kind.all.map fun k => natWord (s.generation k).toNat]

end Sys2Proof.Machine
end

