-- ==== Sys2Proof/Machine/Room.lean ====
section
/-! DEFINITION. EVENT queue room as waiters need it (R157), the head of the request queue (R177), the act of a
close handling (R123), and the acts of the table manager on the table memory. -/

namespace Sys2Proof.Machine

open Sys2Proof

/-- The places the head request's act would use in the EVENT queue if it were taken now (R157, R177). -/
def State.requestPlaces (s : State) : Nat :=
  match s.tables.requests with
  | [] => 0
  | r :: _ =>
    match requestKindOf r.kind with
    | .laneArm | .groupEnd => 1
    | .commit => s.commitPlaces r.body
    | .tableWrite | .tableRead | .tableCopy | .directorySet | .directoryRead | .laneAbort | .laneQuery
    | .laneClear | .deviceQuery | .deviceReset | .unknown => 0

/-- The places a close handling's act would use if it were taken now. -/
def State.noticePlaces (s : State) (l : LaneId) : Nat :=
  match s.noticed l with
  | some c => (s.closeOutcome l c).1.length
  | none => 0

/-- The places a waiter needs, judged from the state in force (R157). -/
def State.placesNeeded (s : State) : Waiter → Nat
  | .pipeline _ | .closing _ => 1
  | .group l => s.noticePlaces l
  | .table => s.requestPlaces

/-- Waiters that need no place leave the list (R157). -/
def State.pruneWaiters (s : State) : State :=
  s.modTrunk fun t => { t with waiters := t.waiters.filter fun w => s.placesNeeded w != 0 }

/-! ### Close handling (R123) -/

/-- The close notice handled in one act: records, group record, end of the closing. -/
def State.handleNotice (s : State) (l : LaneId) (c : RunContext) : State :=
  let o := s.closeOutcome l c
  (((s.leaveWaiters (.group l)).placeRecords o.1).setGroup l o.2).endClosing l

/-! ### The head request (R177) -/

/-- The head request, when it is of a kind; none while the reset line is asserted (R180). -/
def State.headRequest (s : State) (kind : RequestKind) : Option Request :=
  if s.resetLine then none
  else
    match s.tables.requests with
    | r :: _ => if requestKindOf r.kind = kind then some r else none
    | [] => none

/-- The head request removed from the queue. -/
def State.dropHead (s : State) : State := s.modTables fun t => { t with requests := t.requests.tail }

/-- A request whose act needs REPLY queue room only: handled in one act, one reply placed; it waits while
there is no room (R159, R177). -/
def State.serve (s : State) (kind : RequestKind) (handle : State → List Word → State × Answer) : State :=
  match s.headRequest kind with
  | none => s
  | some r =>
    if s.replyRoom then
      let h := handle s.dropHead r.body
      h.1.answerRequest r.tag h.2
    else s

/-- An act with a reply and other placements, in the order the flag picks (R161, log 4). -/
def State.actAndAnswer (s : State) (replyFirst : Bool) (tag : BitVec 16) (a : Answer) (act : State → State) :
    State :=
  if replyFirst then act (s.answerRequest tag a) else (act s).answerRequest tag a

/-- A request whose act also needs EVENT queue room: without it the request joins the room waiters; with it,
it is taken when the REPLY queue has room (R40, R129, R131, R157, R177, log 17). -/
def State.serveWithRoom (s : State) (kind : RequestKind) (act : State → Request → State) : State :=
  match s.headRequest kind with
  | none => s
  | some r =>
    if s.roomFor .table s.requestPlaces then
      if s.replyRoom then act (s.dropHead.leaveWaiters .table) r else s
    else s.joinWaiters .table

/-! ### Commands of the table manager on the table memory -/

/-- TABLE_WRITE (R169). -/
def execTableWrite (s : State) : Host.Outcome State Fault Refusal :=
  .next (s.serve .tableWrite State.handleTableWrite)

/-- TABLE_READ (R172). -/
def execTableRead (s : State) : Host.Outcome State Fault Refusal :=
  .next (s.serve .tableRead State.handleTableRead)

/-- TABLE_COPY (R173). -/
def execTableCopy (s : State) : Host.Outcome State Fault Refusal :=
  .next (s.serve .tableCopy State.handleTableCopy)

/-- DIRECTORY_SET (R167). -/
def execDirectorySet (s : State) : Host.Outcome State Fault Refusal :=
  .next (s.serve .directorySet State.handleDirectorySet)

/-- DIRECTORY_READ (R168). -/
def execDirectoryRead (s : State) : Host.Outcome State Fault Refusal :=
  .next (s.serve .directoryRead State.handleDirectoryRead)

/-- A request of unknown kind is answered BAD_REQUEST (R177, R183). -/
def State.handleUnknown (s : State) (_body : List Word) : State × Answer := (s, answer .badRequest)

/-- UNKNOWN_REQUEST_KIND (R177). -/
def execUnknownRequestKind (s : State) : Host.Outcome State Fault Refusal :=
  .next (s.serve .unknown State.handleUnknown)

/-- COMMIT taken (R174, R175): refused, answered OK with nothing changed for mask 0 (log 7), or done. -/
def State.takeCommit (replyFirst : Bool) (s : State) (r : Request) : State :=
  let mask := commitMask r.body
  if r.body.length ≠ 1 then s.answerRequest r.tag (answer .badRequest)
  else if mask = 0 then s.answerRequest r.tag s.generationAnswer
  else if s.tables.commitCheck mask ≠ .ok then s.answerRequest r.tag (answer (s.tables.commitCheck mask))
  else
    let a := (s.modTables (flipKinds mask)).generationAnswer
    s.actAndAnswer replyFirst r.tag a (·.commitKinds mask)

end Sys2Proof.Machine
end

