-- ==== Sys2Proof/Machine/Reset.lean ====
section
/-! DEFINITION. The resets: DEVICE_RESET (R179), POWER_ON, LINE_RESET_ASSERT, LINE_RESET_RELEASE (R180, R181). -/

namespace Sys2Proof.Machine

open Sys2Proof

/-- The table manager after a line reset or DEVICE RESET: table memory, directory, current indices, generation
numbers and run-serial counter kept; staging buffers, latch and request queue emptied (R180, R181). -/
def resetTables (t : Tables) : Tables :=
  { t with
    kinds := vtab 8 fun i => { t.kinds[i] with staging := .empty }
    latch := none
    requests := [] }

/-- The part at its values after a line reset or DEVICE RESET; the reset line and the command queue are not
the part's to change. -/
def State.lineReset (s : State) : State :=
  { State.reset with tables := resetTables s.tables, resetLine := s.resetLine, pending := s.pending }

/-- Every lane silent: no status word in transmission (R180, while the reset line is asserted). -/
def State.silenced (s : State) : State :=
  s.mapLanes fun _ ln => { ln with rx := { ln.rx with statusTx := none } }

/-- A DEVICE RESET with a body that is not empty (R179). -/
def State.refuseReset (s : State) (_body : List Word) : State × Answer := (s, answer .badRequest)

/-- DEVICE_RESET (R179): with an empty body a reset at once, its own OK reply placed first; otherwise BAD_REQUEST
when the REPLY queue has room. -/
def execDeviceReset (s : State) : Host.Outcome State Fault Refusal :=
  .next (match s.headRequest .deviceReset with
    | none => s
    | some r =>
      if r.body.isEmpty then s.lineReset.answerRequest r.tag (answer .ok)
      else s.serve .deviceReset State.refuseReset)

/-- POWER_ON (R180): every piece of state at its initial value; a reset line already asserted goes on holding
the part silent (log 12). -/
def execPowerOn (s : State) : Host.Outcome State Fault Refusal :=
  .next (let s' := { State.reset with resetLine := s.resetLine, pending := s.pending }
    if s.resetLine then s'.silenced else s')

/-- LINE_RESET_ASSERT (R180): the part is held silent at its values after line reset. -/
def execLineResetAssert (s : State) : Host.Outcome State Fault Refusal :=
  .next { s.lineReset.silenced with resetLine := true }

/-- LINE_RESET_RELEASE (R180): the line reset takes effect and each lane starts a lane status word (R17). -/
def execLineResetRelease (s : State) : Host.Outcome State Fault Refusal :=
  .next (if s.resetLine then { s.lineReset with resetLine := false } else s)

end Sys2Proof.Machine
end

