-- ==== Sys2Proof/Machine/Runs.lean ====
section
/-! DEFINITION. Lane requests: LANE ARM and its admission (R40 to R45, R62), LANE ABORT (R50), LANE QUERY (R59),
LANE CLEAR (R12), GROUP END (R131), DEVICE QUERY (R178). -/

namespace Sys2Proof.Machine

open Sys2Proof

/-! ### LANE ARM -/

/-- What an admitted arm creates. -/
structure ArmPlan where
  lane : LaneId
  kind : RunKind
  tube : Option (Nat × Nat)
  profile : Nat
  serial : BitVec 32
  deriving DecidableEq, Repr

/-- A LANE ARM is refused with a status, or admitted. -/
inductive ArmDecision where
  | refuse (st : Status)
  | admitted (plan : ArmPlan)
  deriving DecidableEq, Repr

/-- A LAYOUT row valid for arming (R41, R63). -/
def State.layoutValid (s : State) (p : Nat) : Bool :=
  p < (s.tables.currentEntry .layout).limit && layoutCount (s.tables.currentRow .layout p) != 0

/-- The profile index of the first zone that matches a tube (R62). -/
def State.zoneProfileOf (s : State) (r c : Nat) : Option Nat :=
  ((List.range (s.tables.currentEntry .tubeMap).limit).find? fun i =>
    zoneMatches (s.tables.currentRow .tubeMap i) r c).map fun i => zoneProfile (s.tables.currentRow .tubeMap i)

/-- The profile of admission check 2 (R41, R62). -/
def State.armProfile (s : State) (kind : RunKind) (tube : Nat × Nat) (named : Nat) : Option Nat :=
  let p := match kind with
    | .production => s.zoneProfileOf tube.1 tube.2
    | .standard => some named
  p.filter s.layoutValid

/-- The run kind of a LANE ARM body code; any other value is BAD_REQUEST. -/
def armKindOf (code : Nat) : Option RunKind :=
  match code with
  | 1 => some .production
  | 2 => some .standard
  | _ => none

/-- A tube row or column in 1..1023 (10 bits). -/
def tubeNumberOk (n : Nat) : Bool := 1 ≤ n && n ≤ 1023

/-- The admission checks of R41 in order. -/
def State.admissionCheck (s : State) (l : LaneId) (kind : RunKind) (tube : Nat × Nat) (named : Nat) : ArmDecision :=
  match (s.lane l).runState with
  | .offline => .refuse .offline
  | .armed | .inserting | .pulling | .closing => .refuse .notIdle
  | .idle =>
    match s.armProfile kind tube named with
    | none => .refuse .noLayout
    | some p =>
      if kind = .production ∧ ((s.group l).state ≠ .opened ∨ (s.group l).pending) then .refuse .needsStandard
      else if kind = .production ∧ Config.groupCapacity ≤ (s.group l).runs.length then .refuse .groupFull
      else
        match s.tables.serial with
        | none => .refuse .outOfLimit
        | some n => .admitted ⟨l, kind, if kind = .production then some tube else none, p, n⟩

/-- The body checks of R40 and then the admission checks of R41. -/
def State.armDecision (s : State) (body : List Word) : ArmDecision :=
  let w1 := body.getD 1 0
  let tube := (bits w1 25 16, bits w1 9 0)
  match armKindOf (bits (body.getD 0 0) 23 16) with
  | none => .refuse .badRequest
  | some kind =>
    if body.length ≠ 2 then .refuse .badRequest
    else
      match bodyLane body with
      | none => .refuse .badLane
      | some l =>
        if kind = .production ∧ !(tubeNumberOk tube.1 && tubeNumberOk tube.2) then .refuse .badValue
        else s.admissionCheck l kind tube (bits w1 7 0)

/-- The run context at admission (R42, R18, R64, R85, R112, R135). -/
def State.newRun (s : State) (p : ArmPlan) : RunContext :=
  { serial := p.serial, kind := p.kind, tube := p.tube, profile := p.profile
    captured := vtab 8 fun i => ⟨s.tables.kinds[i].current, s.tables.kinds[i].generation⟩
    tracker :=
      { travelRef := none, raw := 0, remainder := 0, applied := 0, corrCount := 0, lowWater := none,
        reversal := none, lossStart := 0, carried := 0, still := false, backtracked := false, stamped := none }
    matcher :=
      { correction := 0, cursor := ⟨some 0, .push⟩, candidate := none, matched := 0, missed := 0,
        unexpected := 0, notReached := 0, shortInsertion := false }
    balance := vtab 16 fun c =>
      (calibrationRowOf (s.tables.currentRow .calibration (p.lane.val * 16 + c.val))).balance
    heldLoss := none
    evaluator :=
      { rules := Vector.replicate 32 none, indications := [], classCounts := Vector.replicate 16 0,
        overflow := false
        captures := vtab 8 fun k =>
          match p.kind with
          | .production => none
          | .standard => captureAtArm (standardRowOf (s.tables.currentRow .standard k.val)) }
    forwarder :=
      { block := none, blockNumber := 0, keep := Vector.replicate 32 .none, lastHandled := none, gaps := [],
        framesLost := 0, gapOverflow := false }
    standardIncomplete := false, verdict := none, armTimer := .running 0, stallTimer := .stopped,
    reason := none, closing := none }

/-- The run-serial counter after an admission that took n (R43). -/
def nextSerial (n : BitVec 32) : Option (BitVec 32) := if n = 4294967295#32 then none else some (n + 1)

/-- RUN OPEN (R45). -/
def runOpenRecord (p : ArmPlan) (c : RunContext) : EventRecord :=
  .runOpen p.lane c.serial c.kind c.tube c.profile (c.captured.toList.map (·.generation))

/-- The group record with an admitted production run listed (step 9 of R42, R119). -/
def listRun (p : ArmPlan) (g : Group) : Group :=
  match p.tube with
  | some t => { g with runs := g.runs ++ [⟨p.serial, t.1, t.2⟩] }
  | none => g

/-- The effects of admission but for the reply (R42): context, captured copies, degrade level, group list,
RUN OPEN, ARMED. A level that falls to 0 makes an IDLE transmitter choose (R161). -/
def State.admitRun (s : State) (p : ArmPlan) : State :=
  let c := s.newRun p
  let s1 := (s.modTables fun t => { t with serial := nextSerial p.serial }).modLane p.lane fun ln =>
    { ln with run := some c, degrade := 0 }
  let s2 := if (s.lane p.lane).degrade = 0 then s1 else s1.idleChoice
  let s3 := s2.setGroup p.lane (listRun p (s2.group p.lane))
  (s3.placeRecord (runOpenRecord p c)).setRunState p.lane .armed

/-- LANE ARM taken: refused with a status, or admitted. -/
def State.takeArm (replyFirst : Bool) (s : State) (r : Request) : State :=
  match s.armDecision r.body with
  | .refuse st => s.answerRequest r.tag (answer st)
  | .admitted p => s.actAndAnswer replyFirst r.tag (okWith [[p.serial]]) (·.admitRun p)

/-- LANE_ARM (R40). -/
def execLaneArm (replyFirst : Bool) (s : State) : Host.Outcome State Fault Refusal :=
  .next (s.serveWithRoom .laneArm (State.takeArm replyFirst))

/-! ### Requests that name a lane -/

/-- The lane of a one-word lane request, or the status that refuses it (R177, spec/11). -/
def laneOf (body : List Word) : Status × Option LaneId :=
  if body.length ≠ 1 then (.badRequest, none)
  else
    match bodyLane body with
    | none => (.badLane, none)
    | some l => (.ok, some l)

/-- LANE ABORT taken (R50). -/
def State.takeAbort (replyFirst : Bool) (s : State) (r : Request) : State :=
  match laneOf r.body with
  | (st, none) => s.answerRequest r.tag (answer st)
  | (_, some l) =>
    match (s.lane l).run with
    | some c =>
      if isActive (s.lane l).runState then
        s.actAndAnswer replyFirst r.tag (okWith [[c.serial]]) (·.enterClosing l .aborted)
      else s.answerRequest r.tag (answer .notActive)
    | none => s.answerRequest r.tag (answer .notActive)

/-- LANE_ABORT (R50): taken when the REPLY queue has room. -/
def execLaneAbort (replyFirst : Bool) (s : State) : Host.Outcome State Fault Refusal :=
  .next (match s.headRequest .laneAbort with
    | none => s
    | some r => if s.replyRoom then State.takeAbort replyFirst s.dropHead r else s)

/-- LANE CLEAR handled (R12). -/
def State.handleLaneClear (s : State) (body : List Word) : State × Answer :=
  match laneOf body with
  | (st, none) => (s, answer st)
  | (_, some l) =>
    let rx := (s.lane l).rx
    (s.modRx l fun rx => { rx with check := 0, format := 0, sequence := 0, overflow := 0 },
      okWith [[natWord rx.check], [natWord rx.format], [natWord rx.sequence], [natWord rx.overflow]])

/-- LANE_CLEAR (R12). -/
def execLaneClear (s : State) : Host.Outcome State Fault Refusal :=
  .next (s.serve .laneClear State.handleLaneClear)

/-- GROUP END taken (R131). -/
def State.takeGroupEnd (replyFirst : Bool) (s : State) (r : Request) : State :=
  match laneOf r.body with
  | (st, none) => s.answerRequest r.tag (answer st)
  | (_, some l) =>
    let g := s.group l
    if (s.lane l).run.isSome then s.answerRequest r.tag (answer .notIdle)
    else if g.state = .opened then
      let a := okWith [[natWord g.number.toNat], [natWord (groupStateCode .needsStandard)]]
      s.actAndAnswer replyFirst r.tag a fun s =>
        (s.placeRecord (groupCloseRecord l g .unverified none none)).setGroup l (closedGroup g)
    else s.answerRequest r.tag (okWith [[natWord g.number.toNat], [natWord (groupStateCode g.state)]])

/-- GROUP_END (R131). -/
def execGroupEnd (replyFirst : Bool) (s : State) : Host.Outcome State Fault Refusal :=
  .next (s.serveWithRoom .groupEnd (State.takeGroupEnd replyFirst))

/-! ### LANE QUERY (R59) -/

/-- State code and elapsed seconds of a run timer (R184, log 8). -/
def timerWords : Timer → List Word
  | .stopped => [0, 0]
  | .paused ms => [1, natWord (ms / 1000)]
  | .running ms => [2, natWord (ms / 1000)]

/-- Entry (255: none remaining) and direction of the landmark cursor (R184). -/
def cursorWords (c : Cursor) : List Word := [natWord (c.entry.getD 255), natWord (dirCode c.dir)]

/-- The fields of LANE QUERY that a run context gives, each absent without one (R59). -/
def runFields (closing : Bool) (r : Option RunContext) : List (Bool × List Word) :=
  match r with
  | none => [(false, [0, 0]), (false, [0, 0, 0]), (false, [0, 0]), (false, [0]), (false, [0, 0, 0, 0]),
      (false, [0, 0]), (false, [0, 0, 0]), (false, [0]), (false, [0])]
  | some c =>
    let tube := c.tube.getD (0, 0)
    [ (true, [c.serial, natWord (runKindCode c.kind)]),
      (true, [natWord tube.1, natWord tube.2, natWord (match c.kind with
        | .production => 0
        | .standard => c.profile)]),
      (c.tracker.stamped.isSome, [posWord c.tracker.raw, posWord (stampedOr c)]),
      (true, [posWord c.matcher.correction]),
      (true, timerWords c.armTimer ++ timerWords c.stallTimer),
      (true, cursorWords c.matcher.cursor),
      (true, [natWord c.evaluator.indications.length, natWord c.forwarder.gaps.length,
        natWord c.forwarder.framesLost]),
      (true, [natWord (closeFlagsNat (closeFlagsOf c))]),
      (closing, [natWord ((c.reason.map reasonCode).getD 0)]) ]
where
  /-- Corrected position of the last frame stamped. -/
  stampedOr (c : RunContext) : Int := c.tracker.stamped.getD 0

/-- The fields of LANE QUERY in the order of R59. -/
def State.laneFields (s : State) (l : LaneId) : List (Bool × List Word) :=
  let ln := s.lane l
  let g := s.group l
  [ (true, [natWord (runStateCode ln.runState)]),
    (true, [natWord (flag (ln.rx.link == .up))]),
    (true, [natWord (flag ln.rx.hold)]),
    (true, [natWord ln.rx.check, natWord ln.rx.format, natWord ln.rx.sequence, natWord ln.rx.overflow]),
    (true, [natWord (flag (laneRowOf (s.tables.currentRow .lane l.val)).enabled)]),
    (true, [natWord (groupStateCode g.state), natWord (flag g.pending), natWord g.number.toNat,
      natWord g.runs.length]),
    (g.opener.isSome, match g.opener with
      | some o => [o.serial, natWord o.calibration.toNat, natWord o.standard.toNat]
      | none => [0, 0, 0]),
    (true, [natWord ln.dataQueue.length, natWord ln.degrade]) ]
  ++ runFields (ln.runState == .closing) ln.run

/-- LANE QUERY handled (R59). -/
def State.handleLaneQuery (s : State) (body : List Word) : State × Answer :=
  match laneOf body with
  | (st, none) => (s, answer st)
  | (_, some l) => (s, ⟨.ok, false, replyBody (s.laneFields l)⟩)

/-- LANE_QUERY (R59). -/
def execLaneQuery (s : State) : Host.Outcome State Fault Refusal :=
  .next (s.serve .laneQuery State.handleLaneQuery)

/-! ### DEVICE QUERY (R178) -/

/-- Staging buffer state, row and words received (R178). -/
def stagingWords : Staging → List Word
  | .empty => [0, 0, 0]
  | .staging row ws => [1, natWord row, natWord (receivedCount ws)]

/-- The words of a kind in the DEVICE QUERY reply. -/
def State.deviceKindWords (s : State) (k : Kind) : List Word :=
  let ks := s.tables.kind k
  [natWord (flag ks.current), natWord ks.generation.toNat] ++ stagingWords ks.staging
    ++ [natWord (flag (s.stagingCaptured k))]

/-- A credit as two words, headers and then payload units (R184). -/
def creditWords (c : Credit) : List Word := [natWord c.headers, natWord c.payload]

/-- The fields of DEVICE QUERY in the order of R178. -/
def State.deviceFields (s : State) : List (List Word) :=
  [ [natWord 2608, natWord 1],
    Kind.all.flatMap s.deviceKindWords,
    creditWords s.trunk.pool,
    s.trunk.accounts.toList.flatMap creditWords,
    [natWord s.trunk.eventCredit],
    [natWord s.trunk.events.length, natWord s.trunk.replies.length, natWord s.tables.requests.length]
      ++ s.lanes.toList.map (fun ln => natWord ln.dataQueue.length),
    [s.tables.serial.getD 0],
    [natWord s.trunk.check] ]

/-- DEVICE QUERY handled (R178). -/
def State.handleDeviceQuery (s : State) (body : List Word) : State × Answer :=
  if body.length ≠ 0 then (s, answer .badRequest) else (s, okWith s.deviceFields)

/-- DEVICE_QUERY (R178). -/
def execDeviceQuery (s : State) : Host.Outcome State Fault Refusal :=
  .next (s.serve .deviceQuery State.handleDeviceQuery)

end Sys2Proof.Machine
end

