-- ==== Sys2Proof/Machine/Waiters.lean ====
section
/-! DEFINITION. The room waiters weighed and served in order (R157), after each removal of a record from the EVENT
queue and after the two acts that change how many places a waiter needs: CLOSE_HANDLING (R123) and COMMIT (R174). -/

namespace Sys2Proof.Machine

open Sys2Proof

/-! ### A waiter served -/

/-- The item a frame in passage waits at, and the passage once that item is done. -/
def Passage.front : Passage → Option (WorkItem × Passage)
  | ⟨f, item :: rest, second⟩ => some (item, ⟨f, rest, second⟩)
  | ⟨f, [], item :: rest⟩ => some (item, ⟨f, [], rest⟩)
  | ⟨_, [], []⟩ => none

/-- A record placed, if there is one. -/
def State.placeOption (s : State) : Option EventRecord → State
  | none => s
  | some e => s.placeRecord e

/-- A waiting pipeline is served: the item it waits at is done and its record placed. The rest of the frame's work is
LANE_PIPELINE_RESUME's (log 5). -/
def State.servePipeline (s : State) (l : LaneId) : State :=
  match (s.lane l).passage with
  | none => s.leaveWaiters (.pipeline l)
  | some p =>
    match p.front with
    | none => s.leaveWaiters (.pipeline l)
    | some (item, rest) =>
      let r := s.workItem l p.frame item
      ((r.1.setPassage l (some rest)).leaveWaiters (.pipeline l)).placeOption r.2

/-- A waiting closing sequence is served: the step it waits at is done and its record placed; after RUN CLOSE the close
notice has been given (R56). The remaining steps are CLOSING_RESUME's (log 5). -/
def State.serveClosing (s : State) (l : LaneId) : State :=
  match (s.lane l).run.bind (·.closing) with
  | some (step :: rest) =>
    let r := s.closeStep l step
    ((r.1.setClosing l (some rest)).leaveWaiters (.closing l)).placeOption r.2
  | some [] | none => s.leaveWaiters (.closing l)

/-- A waiting close handling is served: its act is taken (R123). -/
def State.serveGroup (s : State) (l : LaneId) : State :=
  match s.noticed l with
  | none => s.leaveWaiters (.group l)
  | some c => s.handleNotice l c

/-- The waiting head request is served: its act is taken (R40, R129, R131). The reply is placed after the act's other
placements; while a waiter is listed the transmitter is SENDING, or IDLE without EVENT credit, so the order shows nowhere
(R161, log 4). -/
def State.serveTable (s : State) : State :=
  match s.tables.requests with
  | [] => s.leaveWaiters .table
  | r :: _ =>
    let s' := s.dropHead.leaveWaiters .table
    match requestKindOf r.kind with
    | .commit => s'.takeCommit false r
    | .laneArm => s'.takeArm false r
    | .groupEnd => s'.takeGroupEnd false r
    | .tableWrite | .tableRead | .tableCopy | .directorySet | .directoryRead | .laneAbort | .laneQuery
    | .laneClear | .deviceQuery | .deviceReset | .unknown => s.leaveWaiters .table

/-- A waiter served (R157). -/
def State.serveWaiter (s : State) : Waiter → State
  | .pipeline l => s.servePipeline l
  | .closing l => s.serveClosing l
  | .group l => s.serveGroup l
  | .table => s.serveTable

/-! ### The list weighed -/

/-- A waiter that stands first can be served: its places are free, and a request also finds REPLY queue room (R157,
R177, log 17). -/
def State.canServe (s : State) (w : Waiter) : Bool :=
  s.trunk.events.length + s.placesNeeded w ≤ Config.eventCapacity && (w != .table || s.replyRoom)

/-- The list weighed, at most n waiters being served: waiters that need no place leave it; the first is served if it can
be, then the next; one that cannot be served holds back those behind it. -/
def State.weighAtMost : Nat → State → State
  | 0, s => s.pruneWaiters
  | n + 1, s =>
    match s.pruneWaiters.trunk.waiters with
    | [] => s.pruneWaiters
    | w :: _ =>
      if s.pruneWaiters.canServe w then (s.pruneWaiters.serveWaiter w).weighAtMost n else s.pruneWaiters

/-- The room waiters weighed (R157). -/
def State.weighWaiters (s : State) : State := s.weighAtMost s.trunk.waiters.length

/-! ### CLOSE_HANDLING and COMMIT -/

/-- A close notice is handled when the EVENT queue has room for every record of its outcome; the other waiters are then
weighed, since the group record and the run context have changed. -/
def State.closeHandling (s : State) (l : LaneId) : State :=
  match s.noticed l with
  | none => s
  | some c =>
    if s.roomFor (.group l) (s.closeOutcome l c).1.length then (s.handleNotice l c).weighWaiters
    else s.joinWaiters (.group l)

/-- CLOSE_HANDLING (R123, R57). -/
def execCloseHandling (l : LaneId) (s : State) : Host.Outcome State Fault Refusal :=
  .next (if s.resetLine then s else s.closeHandling l)

/-- COMMIT (R174): taken; the waiters are then weighed, since generation numbers and group records may have changed. -/
def execCommit (replyFirst : Bool) (s : State) : Host.Outcome State Fault Refusal :=
  .next (s.serveWithRoom .commit fun s r => (s.takeCommit replyFirst r).weighWaiters)

end Sys2Proof.Machine
end

