-- ==== Sys2Proof/Machine/Station.lean ====
section
/-! DEFINITION. The station link inbound and the transmitter's end of frame: STATION_FRAME_BREAK,
STATION_FRAME_INVALID, EVENT_CREDIT, DATA_CREDIT, REQUEST_ARRIVAL, TRANSMIT_COMPLETE (R150 to R153, R161,
R176, R183). -/

namespace Sys2Proof.Machine

open Sys2Proof

/-- The station CHECK counter raised (R151). -/
def State.countStation (s : State) : State := s.modTrunk fun t => { t with check := satByte (t.check + 1) }

/-- An EVENT CREDIT (R152); an IDLE transmitter chooses (R161), and when that removes a record the waiters are weighed
(R157). -/
def State.grantEvent (s : State) (header : Nat) : State :=
  let s' := s.modTrunk fun t => { t with eventCredit := satTo Config.eventCreditCap (t.eventCredit + header) }
  match s.trunk.tx with
  | .idle => s'.arbiterChoice.weighWaiters
  | .sending _ => s'

/-- The floors of the lane's LANE row in force; an OFFLINE lane receives nothing (R153). -/
def State.floors (s : State) (l : LaneId) : Credit :=
  if (s.lane l).runState = .offline then ⟨0, 0⟩ else ⟨(s.laneRow l).headerFloor, (s.laneRow l).payloadFloor⟩

/-- What one dimension of an account receives: what it lacks of its floor, no more than is left. -/
def shareOf (floor account left : Nat) : Nat := min (floor - account) left

/-- Credit distributed to lanes in order; the accounts and what is left (R153). -/
def distribute (floors : LaneId → Credit) : List LaneId → Vector Credit 8 → Credit → Vector Credit 8 × Credit
  | [], accounts, left => (accounts, left)
  | l :: ls, accounts, left =>
    let a := accounts[l]
    let h := shareOf (floors l).headers a.headers left.headers
    let p := shareOf (floors l).payload a.payload left.payload
    distribute floors ls (accounts.set l ⟨a.headers + h, a.payload + p⟩) ⟨left.headers - h, left.payload - p⟩

/-- A DATA CREDIT (R153). -/
def State.grantData (s : State) (header payload : Nat) : State :=
  let d := distribute s.floors (List.finRange 8) s.trunk.accounts ⟨header, payload⟩
  (s.modTrunk fun t => { t with accounts := d.1, pool := addToPool t.pool d.2 }).idleChoice

/-- A checked REQUEST arrives (R176). -/
def State.requestArrives (s : State) (r : Request) : State :=
  if s.tables.requests.length < Config.requestCapacity then
    s.modTables fun t => { t with requests := t.requests ++ [r] }
  else if s.replyRoom then s.placeReply ⟨r.tag, .busy, false, []⟩
  else s

/-- A downstream frame ended: it is what its words say (R150, R183, log 10). -/
def State.stationFrameEnd (s : State) (words : List Word) : State :=
  match classifyStation words with
  | .invalid => s.countStation
  | .request tag kind body => s.requestArrives ⟨tag, kind, body⟩
  | .dataCredit header payload => s.grantData header payload
  | .eventCredit header => s.grantEvent header

/-- A downstream frame end; no frame is received while the reset line is asserted (R180). -/
def State.stationFrame (s : State) (words : List Word) : State :=
  if s.resetLine then s else s.stationFrameEnd words

/-- STATION_FRAME_BREAK (R150). -/
def execStationFrameBreak (s : State) : Host.Outcome State Fault Refusal :=
  .next (if s.resetLine then s else s.countStation)

/-- STATION_FRAME_INVALID (R183). -/
def execStationFrameInvalid (words : List Word) (s : State) : Host.Outcome State Fault Refusal :=
  .next (s.stationFrame words)

/-- EVENT_CREDIT (R152). -/
def execEventCredit (words : List Word) (s : State) : Host.Outcome State Fault Refusal :=
  .next (s.stationFrame words)

/-- DATA_CREDIT (R153). -/
def execDataCredit (words : List Word) (s : State) : Host.Outcome State Fault Refusal :=
  .next (s.stationFrame words)

/-- REQUEST_ARRIVAL (R176). -/
def execRequestArrival (words : List Word) (s : State) : Host.Outcome State Fault Refusal :=
  .next (s.stationFrame words)

/-- The transmitter completes its frame and the arbiter chooses again (R161); the room waiters are weighed (R157). -/
def State.transmitComplete (s : State) : State :=
  match s.trunk.tx with
  | .idle => s
  | .sending _ => (s.modTrunk fun t => { t with tx := .idle }).arbiterChoice.weighWaiters

/-- TRANSMIT_COMPLETE (R161). -/
def execTransmitComplete (s : State) : Host.Outcome State Fault Refusal :=
  .next (if s.resetLine then s else s.transmitComplete)

end Sys2Proof.Machine
end

