-- ==== Sys2Proof/Machine/Dispatch.lean ====
section
/-! DEFINITION. The meaning of every command: one arm per constructor of Instr. -/

namespace Sys2Proof.Machine

open Sys2Proof

def exec (i : Instr) (s : State) : Host.Outcome State Fault Refusal :=
  match i with
  | .sampleFrame l words => Sys2Proof.Machine.execSampleFrame l words s
  | .laneFrameBreak l => Sys2Proof.Machine.execLaneFrameBreak l s
  | .silenceTimerExpiry l => Sys2Proof.Machine.execSilenceTimerExpiry l s
  | .statusPeriodExpiry l => Sys2Proof.Machine.execStatusPeriodExpiry l s
  | .statusWordComplete l => Sys2Proof.Machine.execStatusWordComplete l s
  | .lanePipelineTake l evaluatorFirst => Sys2Proof.Machine.execLanePipelineTake l evaluatorFirst s
  | .lanePipelineResume l => Sys2Proof.Machine.execLanePipelineResume l s
  | .armTimerExpiry l => Sys2Proof.Machine.execArmTimerExpiry l s
  | .stallTimerExpiry l => Sys2Proof.Machine.execStallTimerExpiry l s
  | .closingResume l => Sys2Proof.Machine.execClosingResume l s
  | .closeHandling l => Sys2Proof.Machine.execCloseHandling l s
  | .stationFrameBreak => Sys2Proof.Machine.execStationFrameBreak s
  | .stationFrameInvalid words => Sys2Proof.Machine.execStationFrameInvalid words s
  | .eventCredit words => Sys2Proof.Machine.execEventCredit words s
  | .dataCredit words => Sys2Proof.Machine.execDataCredit words s
  | .transmitComplete => Sys2Proof.Machine.execTransmitComplete s
  | .requestArrival words => Sys2Proof.Machine.execRequestArrival words s
  | .tableWrite => Sys2Proof.Machine.execTableWrite s
  | .tableRead => Sys2Proof.Machine.execTableRead s
  | .tableCopy => Sys2Proof.Machine.execTableCopy s
  | .directorySet => Sys2Proof.Machine.execDirectorySet s
  | .directoryRead => Sys2Proof.Machine.execDirectoryRead s
  | .commit replyFirst => Sys2Proof.Machine.execCommit replyFirst s
  | .laneArm replyFirst => Sys2Proof.Machine.execLaneArm replyFirst s
  | .laneAbort replyFirst => Sys2Proof.Machine.execLaneAbort replyFirst s
  | .laneQuery => Sys2Proof.Machine.execLaneQuery s
  | .laneClear => Sys2Proof.Machine.execLaneClear s
  | .groupEnd replyFirst => Sys2Proof.Machine.execGroupEnd replyFirst s
  | .deviceQuery => Sys2Proof.Machine.execDeviceQuery s
  | .deviceReset => Sys2Proof.Machine.execDeviceReset s
  | .unknownRequestKind => Sys2Proof.Machine.execUnknownRequestKind s
  | .powerOn => Sys2Proof.Machine.execPowerOn s
  | .lineResetAssert => Sys2Proof.Machine.execLineResetAssert s
  | .lineResetRelease => Sys2Proof.Machine.execLineResetRelease s

end Sys2Proof.Machine
end

