-- ==== Sys2Proof/Machine/Step.lean ====
section
/-! DEFINITION. One step of the part: the command at the front of the queue, or, on an empty queue, one
millisecond (log 2). -/

namespace Sys2Proof.Machine

open Sys2Proof

/-- The command at the front of `pending` is run on the state with the queue's rest; an empty queue lets one
millisecond pass. -/
def step (s : State) : Host.Outcome State Fault Refusal :=
  match s.pending with
  | c :: rest => exec c { s with pending := rest }
  | [] => .next s.tick

/-- The state with the command a word spells put at the front of its queue; no word spells one (log 26). -/
def State.withFetchWord (s : State) (nbits w : Nat) : State :=
  match decodeTableWord nbits w with
  | some c => { s with pending := c :: s.pending }
  | none => s

end Sys2Proof.Machine
end

