-- ==== Sys2Proof/Safety.lean ====
section
/-! DEFINITION. What the claims about the part are stated with: the sizes every piece of state keeps, when a lane
has a run context, the directory laws, and the canonical form of the table memory. -/

namespace Sys2Proof.Machine

open Sys2Proof

/-- The run states with a run context (R38). -/
def needsRun (st : RunState) : Bool := isActive st || st == .closing

/-- The lane has a run context exactly in the states of R38. -/
def Lane.contextRight (ln : Lane) : Prop := needsRun ln.runState = ln.run.isSome

/-- Every lane has a run context exactly in the states of R38. -/
def State.contextsRight (s : State) : Prop := ∀ l, (s.lane l).contextRight

/-! ### Ranges -/

/-- A run timer holds at most the longest time that can be set (R38). -/
def Timer.fits : Timer → Prop
  | .stopped => True
  | .paused ms | .running ms => ms ≤ Config.runTimerLimit

/-- The tracker keeps its ranges (R21, R23, R25). -/
structure Tracker.fits (t : Tracker) : Prop where
  remainder : t.remainder ≤ 65535
  corrCount : t.corrCount ≤ 255
  carried : t.carried ≤ 65535

/-- The matcher's four counts keep their ranges (R75). -/
structure Matcher.fits (m : Matcher) : Prop where
  matched : m.matched ≤ 255
  missed : m.missed ≤ 255
  unexpected : m.unexpected ≤ 255
  notReached : m.notReached ≤ 255

/-- The evaluator's list and counts keep their ranges (R100, R106). -/
structure Evaluator.fits (e : Evaluator) : Prop where
  indications : e.indications.length ≤ Config.indicationCapacity
  classes : ∀ k : Fin 16, e.classCounts[k] ≤ 255
  rules : ∀ (r : Fin 32) (o : RuleOpen), e.rules[r] = some o → o.trueCount ≤ 255

/-- The forwarder's list and counts keep their ranges (R142, R146, R147). -/
structure Forwarder.fits (f : Forwarder) : Prop where
  gaps : f.gaps.length ≤ Config.gapCapacity
  lost : f.framesLost ≤ 65535
  number : f.blockNumber ≤ 65535

/-- A run context keeps its ranges; the held loss report's is the model's choice past 65535 (R93, log 28). -/
structure RunContext.fits (c : RunContext) : Prop where
  tracker : c.tracker.fits
  matcher : c.matcher.fits
  evaluator : c.evaluator.fits
  forwarder : c.forwarder.fits
  held : ∀ h, c.heldLoss = some h → h.lost ≤ 65535
  arm : c.armTimer.fits
  stall : c.stallTimer.fits

/-- A receiver keeps its ranges (R5, R9, R10, R11, R15). -/
structure Receiver.fits (rx : Receiver) : Prop where
  fifo : rx.fifo.length ≤ Config.fifoCapacity
  loss : ∀ e ∈ rx.fifo, e.precedingLoss ≤ 65535
  qualifying : rx.qualifying ≤ 2
  pendingLoss : rx.pendingLoss ≤ 65535
  check : rx.check ≤ 255
  format : rx.format ≤ 255
  sequence : rx.sequence ≤ 255
  overflow : rx.overflow ≤ 255
  silence : ∀ ms, rx.silence = some ms → ms ≤ Config.silenceLimit
  status : rx.statusTimer ≤ Config.statusPeriod

/-- A lane keeps its ranges (R94, R143, R144). -/
structure Lane.fits (ln : Lane) : Prop where
  rx : ln.rx.fits
  delay : ln.delay.length ≤ Config.delayCapacity
  dataQueue : ln.dataQueue.length ≤ Config.dataQueueCapacity
  degrade : ln.degrade ≤ 4
  run : ∀ c, ln.run = some c → c.fits

/-- The trunk's counts keep their ranges, an account those of the floors it is filled to, and no producer stands twice
among the room waiters (R151, R152, R153, R157). -/
structure Trunk.fits (t : Trunk) : Prop where
  check : t.check ≤ 255
  eventCredit : t.eventCredit ≤ Config.eventCreditCap
  poolHeaders : t.pool.headers ≤ Config.poolHeaderCap
  poolPayload : t.pool.payload ≤ Config.poolPayloadCap
  accounts : ∀ l : LaneId, t.accounts[l].headers ≤ 15 ∧ t.accounts[l].payload ≤ 4095
  waiters : t.waiters.Nodup

/-- A group's run list keeps its range (R119). -/
def Group.fits (g : Group) : Prop := g.runs.length ≤ Config.groupCapacity

/-- Every queue, list, count and timer of the part keeps its range (R157, R159, R176 and the rules above). -/
structure State.fits (s : State) : Prop where
  lanes : ∀ l, (s.lane l).fits
  groups : ∀ l, (s.group l).fits
  trunk : s.trunk.fits
  events : s.trunk.events.length ≤ Config.eventCapacity
  replies : s.trunk.replies.length ≤ Config.replyCapacity
  requests : s.tables.requests.length ≤ Config.requestCapacity

/-! ### Table laws -/

/-- A directory entry of a kind lies within the table memory (first law of R165). -/
def DirEntry.inMemory (k : Kind) (e : DirEntry) : Prop :=
  e.limit ≠ 0 → e.base + e.limit * rowWords k ≤ Config.tableWords

/-- The directory laws of R165: every extent lies in the table memory, and the extents of two entries share no
word. -/
def Tables.directoryLaw (t : Tables) : Prop :=
  (∀ k c, ((t.kind k).entry c).inMemory k)
    ∧ ∀ k c k' c', ¬ (k = k' ∧ c = c') → extentsApart k ((t.kind k).entry c) k' ((t.kind k').entry c') = true

/-- A staging buffer holds one slot per row word (R169). -/
def Staging.sized (k : Kind) : Staging → Prop
  | .empty => True
  | .staging _ ws => ws.length = rowWords k

/-- Every staging buffer holds one slot per word of its kind's row. -/
def Tables.stagingSized (t : Tables) : Prop := ∀ k, (t.kind k).staging.sized k

/-- The invariants of the part together: ranges, run contexts, the canonical form of the table memory, the directory
laws and the staging buffers' sizes. -/
def State.sound (s : State) : Prop :=
  s.fits ∧ s.contextsRight ∧ s.tables.mem.wf = true ∧ s.tables.directoryLaw ∧ s.tables.stagingSized

/-! ### When a command has its effect -/

/-- A frame passes checks 1 and 2 of R1: it is an accepted frame. -/
def State.accepts (s : State) (l : LaneId) (words : List Word) : Prop :=
  sampleCheckOk words = true ∧ formatOk (s.laneRow l) words = true

/-- The transmitter is SENDING. -/
def Trunk.isSending (t : Trunk) : Prop := ∃ ws, t.tx = .sending ws

/-- The reset line is released and the request at the head of the request queue is of a kind. -/
def State.headIs (s : State) (k : RequestKind) (r : Request) : Prop :=
  s.resetLine = false ∧ s.tables.requests.head? = some r ∧ requestKindOf r.kind = k

/-- The head request is of a kind and the REPLY queue has room for its reply (R177). -/
def State.serves (s : State) (k : RequestKind) (r : Request) : Prop :=
  s.headIs k r ∧ s.trunk.replies.length < Config.replyCapacity

/-- The EVENT queue has n free places for a producer and no other producer stands first among the room waiters
(R157). -/
def State.eventRoom (s : State) (w : Waiter) (n : Nat) : Prop :=
  s.trunk.events.length + n ≤ Config.eventCapacity ∧ (s.trunk.waiters = [] ∨ s.trunk.waiters.head? = some w)

/-- One of the three resets takes effect (R180): power-on and the release of the line, and a DEVICE RESET with an
empty body. -/
def State.resetsTo (s t : State) : Prop :=
  (s.resetLine = false ∧ exec .powerOn s = .next t) ∨ (s.resetLine = true ∧ exec .lineResetRelease s = .next t)
    ∨ ∃ r, s.headIs .deviceReset r ∧ r.body = [] ∧ exec .deviceReset s = .next t

/-- A lane's frame is about to be taken by the tracker in a run state: the lane has the run context c, no frame in
passage, and e is the oldest entry of its ingress FIFO (R7, R19). -/
def State.taking (s : State) (l : LaneId) (st : RunState) (c : RunContext) (e : FifoEntry) : Prop :=
  s.resetLine = false ∧ (s.lane l).runState = st ∧ (s.lane l).run = some c ∧ (s.lane l).passage = none
    ∧ (s.lane l).rx.fifo.head? = some e

/-- The tracker after travel, stamp and loss of an entry, before any class is given (R20 to R25). -/
def State.tracked (s : State) (l : LaneId) (c : RunContext) (e : FifoEntry) : Tracker :=
  trackEntry (s.laneRow l).scale c.matcher.correction e c.tracker

/-- The entry is a moving frame of the run (R20). -/
def moves (c : RunContext) (e : FifoEntry) : Prop := ∃ r, c.tracker.travelRef = some r ∧ e.travel ≠ r

/-- DATA credit kept in the part: pool and accounts together (R156). -/
def Trunk.headerSum (t : Trunk) : Nat := t.pool.headers + (t.accounts.toList.map (·.headers)).sum

/-- Payload units kept in the part (R156). -/
def Trunk.payloadSum (t : Trunk) : Nat := t.pool.payload + (t.accounts.toList.map (·.payload)).sum

/-- A TABLE WRITE passes the five checks of R169 for a kind. -/
def State.admitsWrite (s : State) (k : Kind) (body : List Word) : Prop :=
  let b := writeBodyOf body
  b.part ≤ 6 ∧ 1 ≤ b.count ∧ b.count ≤ 16 ∧ body.length = 1 + b.count ∧ kindOf b.kind = some k
    ∧ 16 * b.part + b.count ≤ rowWords k ∧ b.row < (s.tables.stagingEntry k).limit ∧ s.stagingCaptured k = false

/-- The row slots once an admitted part has been stored (R170). -/
def State.slotsAfter (s : State) (k : Kind) (body : List Word) : List (Option Word) :=
  let b := writeBodyOf body
  storeWords (match (s.tables.kind k).staging with
    | .staging r ws => if r = b.row then ws else List.replicate (rowWords k) none
    | .empty => List.replicate (rowWords k) none) (16 * b.part) b.words

/-- A write discards the words received for another row (R170). -/
def State.discards (s : State) (k : Kind) (body : List Word) : Prop :=
  ∃ r ws, (s.tables.kind k).staging = .staging r ws ∧ r ≠ (writeBodyOf body).row

/-- Intervals in decreasing order, no two touching (R146). -/
def gapsApart : List Interval → Prop
  | g :: h :: rest => h.deep + 1 < g.shallow ∧ gapsApart (h :: rest)
  | _ => True

/-- Every interval has its deep end at or above its shallow end. -/
def gapsFormed (gs : List Interval) : Prop := ∀ g ∈ gs, g.shallow ≤ g.deep

/-- A position lies in an interval of the list. -/
def gapsCover (gs : List Interval) (q : Int) : Prop := ∃ g ∈ gs, g.shallow ≤ q ∧ q ≤ g.deep

/-- A change of a field of the lane status word is announced: a word with the values in force is started, or the change
is marked pending while one is in transmission (R15). -/
def Lane.announces (before after : Lane) : Prop :=
  (before.rx.statusTx = none →
    after.rx.statusTx = some (statusWordOf after.rx.hold after.runState (after.run.map (·.serial)))
    ∧ after.rx.statusTimer = 0 ∧ after.rx.statusPending = false)
  ∧ ∀ w, before.rx.statusTx = some w →
    after.rx.statusTx = some w ∧ after.rx.statusTimer = before.rx.statusTimer ∧ after.rx.statusPending = true

/-! ### Lanes apart from each other -/

/-- A receiver but for hold and the lane status word. -/
def Receiver.core (rx : Receiver) : Receiver :=
  { rx with hold := false, statusTimer := 0, statusTx := none, statusPending := false }

/-- A run context but for the stall timer, which hold pauses and restarts (R48). -/
def RunContext.unheld (c : RunContext) : RunContext := { c with stallTimer := .stopped }

/-- A lane but for what the shared blocks may change in it: hold, its status word, the stall timer under hold, and
the DATA queue with its degrade level. -/
def Lane.own (ln : Lane) : Lane :=
  { ln with rx := ln.rx.core, run := ln.run.map RunContext.unheld, dataQueue := [], degrade := 0 }

end Sys2Proof.Machine
end

