-- ==== Sys2Proof/Certificates/Slice0/Obligations.lean ====
section
/-! DEFINITION. The statements for the provers: what each command does, what each shared rule of the manual says, and
the invariants that every step keeps. -/

open Sys2Proof Sys2Proof.Machine

/-! ### The queue of commands and time -/

/-- A step runs the command at the front of the queue on the state with the queue's rest. -/
def Obligations.StepRunsFront : Prop :=
  ∀ (c : Instr) (rest : List Instr) (s : State), s.pending = c :: rest → step s = exec c { s with pending := rest }

/-- On an empty queue a step lets one millisecond pass (the model's choice, log 2): running timers advance and stop
at their limits (a run timer at 255,000 ms), and nothing else changes; while the reset line is asserted nothing advances. -/
def Obligations.EmptyQueueLetsTimePass : Prop :=
  (∀ s : State, s.pending = [] → ∃ t, step s = .next t
    ∧ (s.resetLine = true → t = s)
    ∧ (s.resetLine = false → t.groups = s.groups ∧ t.trunk = s.trunk ∧ t.tables = s.tables ∧ t.resetLine = s.resetLine
      ∧ t.pending = []
      ∧ ∀ l, t.lane l = { s.lane l with
          rx := { (s.lane l).rx with
            silence := (s.lane l).rx.silence.map fun ms => min 50 (ms + 1)
            statusTimer := min 100 ((s.lane l).rx.statusTimer + 1) }
          run := (s.lane l).run.map fun c =>
            { c with armTimer := tickTimer c.armTimer, stallTimer := tickTimer c.stallTimer } }))
  ∧ (tickTimer .stopped = .stopped
    ∧ ∀ ms, tickTimer (.paused ms) = .paused ms ∧ tickTimer (.running ms) = .running (min 255000 (ms + 1)))

/-- Every command completes (the model's reading, log 27); it leaves the queue of commands alone, and only the two line
commands move the reset line, which power-on keeps as it stands (the model's choice, log 12); while the line is asserted
only power-on and the line itself change anything (R180). -/
def Obligations.CommandsComplete : Prop :=
  (∀ (c : Instr) (s : State), ∃ t, exec c s = .next t ∧ t.pending = s.pending
     ∧ ((c = .lineResetAssert ∧ t.resetLine = true) ∨ (c = .lineResetRelease ∧ t.resetLine = false)
       ∨ (c ≠ .lineResetAssert ∧ c ≠ .lineResetRelease ∧ t.resetLine = s.resetLine)))
  ∧ (∀ (c : Instr) (s : State), s.resetLine = true → c ≠ .powerOn → c ≠ .lineResetAssert → c ≠ .lineResetRelease →
       exec c s = .next s)

/-! ### Resets -/

/-- Power-on gives the part the values of State.reset, and while the line is asserted it sends no status word (log 12).
The assertion of the reset line puts the part, silent, at its values after line reset; the release starts every lane's
status word (R180); a release of a line that is not asserted changes nothing (the model's reading, log 1). -/
def Obligations.ResetCommandsDone : Prop :=
  (∀ s : State,
     (s.resetLine = false → exec .powerOn s = .next { State.reset with pending := s.pending })
     ∧ (s.resetLine = true → ∃ t, exec .powerOn s = .next t ∧ t.trunk = Trunk.reset ∧ t.tables = Tables.powerOn
       ∧ (∀ l, t.group l = Group.reset)
       ∧ ∀ l, t.lane l = { Lane.reset with rx := { Receiver.reset with statusTx := none } }))
  ∧ (∀ s : State,
       (∃ t, exec .lineResetAssert s = .next t ∧ t.resetLine = true ∧ t.trunk = Trunk.reset
         ∧ t.tables = resetTables s.tables ∧ (∀ l, t.group l = Group.reset)
         ∧ ∀ l, t.lane l = { Lane.reset with rx := { Receiver.reset with statusTx := none } })
       ∧ (s.resetLine = true → ∃ t, exec .lineResetRelease s = .next t ∧ t.resetLine = false ∧ t.trunk = Trunk.reset
         ∧ t.tables = resetTables s.tables ∧ (∀ l, t.group l = Group.reset) ∧ ∀ l, t.lane l = Lane.reset)
       ∧ (s.resetLine = false → exec .lineResetRelease s = .next s))

/-- A DEVICE RESET with an empty body resets the part whatever the REPLY queue holds, and its OK reply is the first
frame to be sent (that the arbiter chooses it in the same act is the model's reading, log 25); with a body it is answered
BAD_REQUEST and resets nothing (R179). -/
def Obligations.DeviceResetDone : Prop :=
  ∀ (s : State) (r : Request),
    (s.headIs .deviceReset r → r.body = [] → ∃ t, exec .deviceReset s = .next t
      ∧ t.trunk = { Trunk.reset with tx := .sending (replyWords ⟨r.tag, .ok, false, []⟩) }
      ∧ t.tables = resetTables s.tables ∧ (∀ l, t.group l = Group.reset) ∧ ∀ l, t.lane l = Lane.reset)
    ∧ (s.serves .deviceReset r → r.body ≠ [] →
      exec .deviceReset s = .next (s.dropHead.placeReply ⟨r.tag, .badRequest, false, []⟩))

/-- Every reset leaves each lane receiver at the same values and starts its status word (R17), and each lane OFFLINE,
without a run context, frame in passage, delay-line entry, block or degrade level (R60, R96, R149). -/
def Obligations.LanesAfterReset : Prop :=
  (∀ s t : State, s.resetsTo t → ∀ l, (t.lane l).rx =
     { link := .down, qualifying := 0, previous := none, silence := none, pendingLoss := 0, fifo := [], check := 0,
       format := 0, sequence := 0, overflow := 0, hold := false, statusTimer := 0,
       statusTx := some (statusWordOf false .offline none), statusPending := false })
  ∧ (∀ s t : State, s.resetsTo t → ∀ l, (t.lane l).runState = .offline ∧ (t.lane l).run = none
       ∧ (t.lane l).passage = none ∧ (t.lane l).delay = [] ∧ (t.lane l).dataQueue = [] ∧ (t.lane l).degrade = 0)

/-- Every reset gives every lane's group record the same values (R118). -/
def Obligations.GroupsAfterReset : Prop :=
  ∀ s t : State, s.resetsTo t → ∀ l, (t.group l).state = .none ∧ (t.group l).pending = false
    ∧ (t.group l).number = 0 ∧ (t.group l).opener = none ∧ (t.group l).runs = []

/-- Every reset empties the transmitter's queues and counts, the read latch, the request queue and the staging buffers
(R163, R181); the transmitter is IDLE but for the OK reply of a DEVICE RESET, which the arbiter has chosen in the same
act (log 25). A line reset and a DEVICE RESET keep the table memory, the directory, the current indices, the generation
numbers and the run-serial counter (R180); power-on makes every word of the table memory 0, every base and limit 0, every
current index and generation number 0 and the run-serial counter 1 (R181). -/
def Obligations.SharedBlocksAfterReset : Prop :=
  (∀ s t : State, s.resetsTo t →
     t.trunk.check = 0 ∧ t.trunk.pool = ⟨0, 0⟩ ∧ (∀ l : LaneId, t.trunk.accounts[l] = ⟨0, 0⟩) ∧ t.trunk.eventCredit = 0
     ∧ t.trunk.events = [] ∧ t.trunk.waiters = [] ∧ t.trunk.pressure = false ∧ t.trunk.replies = []
     ∧ t.trunk.lastServed = 7
     ∧ (t.trunk.tx = .idle ∨ ∃ r, s.headIs .deviceReset r ∧ t.trunk.tx = .sending (replyWords ⟨r.tag, .ok, false, []⟩))
     ∧ t.tables.latch = none ∧ t.tables.requests = [] ∧ ∀ k, (t.tables.kind k).staging = .empty)
  ∧ (∀ s t : State, (exec .lineResetAssert s = .next t ∨ (s.resetLine = true ∧ exec .lineResetRelease s = .next t)
         ∨ ∃ r, s.headIs .deviceReset r ∧ r.body = [] ∧ exec .deviceReset s = .next t) →
       t.tables.mem = s.tables.mem ∧ t.tables.serial = s.tables.serial
       ∧ ∀ k, (t.tables.kind k).copy0 = (s.tables.kind k).copy0 ∧ (t.tables.kind k).copy1 = (s.tables.kind k).copy1
         ∧ (t.tables.kind k).current = (s.tables.kind k).current
         ∧ (t.tables.kind k).generation = (s.tables.kind k).generation)
  ∧ (∀ s t : State, exec .powerOn s = .next t →
       t.tables.mem = [] ∧ (∀ a, memRead t.tables.mem a = 0) ∧ t.tables.serial = some 1
       ∧ ∀ k, (t.tables.kind k).copy0 = ⟨0, 0⟩ ∧ (t.tables.kind k).copy1 = ⟨0, 0⟩
         ∧ (t.tables.kind k).current = false ∧ (t.tables.kind k).generation = 0)

/-! ### Lane receiver -/

/-- A frame that fails its frame check, has no check word (log 11) or is broken off is discarded and counted in CHECK; a
frame that passes it and fails the format check is discarded and counted in FORMAT, and the qualifying count restarts;
nothing else changes (R2, R3, R11). -/
def Obligations.BadFramesCounted : Prop :=
  (∀ (l : LaneId) (s : State), s.resetLine = false →
     exec (.laneFrameBreak l) s = .next (s.modRx l fun rx => { rx with check := min 255 (rx.check + 1) })
     ∧ ∀ words : List Word,
       (words = [] ∨ ∃ body c, words = body ++ [c] ∧ crc16 body ≠ c.setWidth 16) →
       exec (.sampleFrame l words) s = .next (s.modRx l fun rx => { rx with check := min 255 (rx.check + 1) }))
  ∧ (∀ (l : LaneId) (s : State) (body : List Word) (c : Word), s.resetLine = false → crc16 body = c.setWidth 16 →
       (let words := body ++ [c]
        let n := bits (words.getD 0 0) 4 0
        n = 0 ∨ 16 < n ∨ words.length ≠ 4 + n ∨ ((s.laneRow l).enabled = true ∧ (s.laneRow l).slotCount ≠ n)) →
       exec (.sampleFrame l (body ++ [c])) s =
         .next (s.modRx l fun rx => { rx with format := min 255 (rx.format + 1), qualifying := 0 }))

/-- The sequence check of an accepted frame: its classification by the distance to the previous sequence, the SEQUENCE
counter, the lost frames noted, and where they go (R4). -/
def Obligations.SequenceChecked : Prop :=
  ∀ (l : LaneId) (words : List Word) (s : State), s.resetLine = false → s.accepts l words →
    ∃ (t : State) (lost : Nat) (broken : Bool), exec (.sampleFrame l words) s = .next t
      ∧ (match (s.lane l).rx.previous with
        | none => lost = 0 ∧ broken = false
        | some p =>
          let d := (sampleSequence words - p).toNat
          (d = 1 → lost = 0 ∧ broken = false) ∧ (2 ≤ d ∧ d ≤ 32768 → lost = d - 1 ∧ broken = true)
            ∧ (d = 0 ∨ 32769 ≤ d → lost = 0 ∧ broken = true))
      ∧ (t.lane l).rx.previous = some (sampleSequence words)
      ∧ (t.lane l).rx.sequence = (if broken then min 255 ((s.lane l).rx.sequence + 1) else (s.lane l).rx.sequence)
      ∧ ((s.lane l).rx.link = .up → (s.lane l).rx.fifo.length < 64 →
        (t.lane l).rx.fifo = (s.lane l).rx.fifo ++ [entryOfFrame words (min 65535 (lost + (s.lane l).rx.pendingLoss))])

/-- An accepted frame while the link is UP is placed with its preceding loss, or, with 64 entries held, discarded and
counted in OVERFLOW and in the pending loss; the silence timer restarts either way (R5). While the link is DOWN it
counts toward qualification; a third one brings the link UP, and the run controller weighs the lane (R9, R51). -/
def Obligations.AcceptedFramesPlaced : Prop :=
  (∀ (l : LaneId) (words : List Word) (s : State), s.resetLine = false → s.accepts l words → (s.lane l).rx.link = .up →
     let cls := sequenceClass (s.lane l).rx.previous (sampleSequence words)
     let counted := fun rx : Receiver => if isDiscontinuity cls then min 255 (rx.sequence + 1) else rx.sequence
     ((s.lane l).rx.fifo.length < 64 →
       exec (.sampleFrame l words) s = .next ((s.modRx l fun rx =>
         { rx with
           previous := some (sampleSequence words), sequence := counted rx, silence := some 0, pendingLoss := 0,
           fifo := rx.fifo ++ [entryOfFrame words (min 65535 (lostNoted cls + rx.pendingLoss))] }).weighLaneHold l))
     ∧ (64 ≤ (s.lane l).rx.fifo.length →
       exec (.sampleFrame l words) s = .next (s.modRx l fun rx =>
         { rx with
           previous := some (sampleSequence words), sequence := counted rx, silence := some 0,
           overflow := min 255 (rx.overflow + 1), pendingLoss := min 65535 (rx.pendingLoss + 1 + lostNoted cls) })))
  ∧ (∀ (l : LaneId) (words : List Word) (s : State), s.resetLine = false → s.accepts l words → (s.lane l).rx.link = .down →
       let cls := sequenceClass (s.lane l).rx.previous (sampleSequence words)
       let counted := fun rx : Receiver => if isDiscontinuity cls then min 255 (rx.sequence + 1) else rx.sequence
       let n := if isDiscontinuity cls then 1 else (s.lane l).rx.qualifying + 1
       (n < 3 → exec (.sampleFrame l words) s = .next (s.modRx l fun rx =>
           { rx with previous := some (sampleSequence words), sequence := counted rx, qualifying := n }))
       ∧ (3 ≤ n → exec (.sampleFrame l words) s = .next ((s.modRx l fun rx =>
           { rx with
             previous := some (sampleSequence words), sequence := counted rx, link := .up, qualifying := 0,
             silence := some 0 }).weighLane l)))

/-- OFFLINE and IDLE are decided by the current LANE row and the link, for a lane without a run context only; a passage
to OFFLINE returns the lane's account to the pool and its degrade level to 0 (R39, R154). -/
def Obligations.LaneWeighed : Prop :=
  ∀ (s : State) (l : LaneId),
    ((s.lane l).run.isSome = true → s.weighLane l = s)
    ∧ ((s.lane l).run = none →
      ((s.weighLane l).lane l).runState =
        (if bitAt (wordAt (s.tables.currentRow .lane l.val) 0) 0 = true ∧ (s.lane l).rx.link = .up then .idle else .offline)
      ∧ ((s.lane l).runState = .idle → ((s.weighLane l).lane l).runState = .offline → s.trunk.isSending →
        (s.weighLane l).trunk.accounts[l] = ⟨0, 0⟩
        ∧ (s.weighLane l).trunk.pool = ⟨min 4095 (s.trunk.pool.headers + s.trunk.accounts[l].headers),
            min 262143 (s.trunk.pool.payload + s.trunk.accounts[l].payload)⟩
        ∧ ((s.weighLane l).lane l).degrade = 0))

/-- When the silence timer has reached 50 ms the link goes DOWN with the effects of R10, and the run controller takes
the lane to OFFLINE or to CLOSING with LINK_LOST (R51); before that the command does nothing (log 1). -/
def Obligations.SilenceTakesLinkDown : Prop :=
  ∀ (l : LaneId) (s : State), s.resetLine = false →
    (∀ ms, (s.lane l).rx.link = .up → (s.lane l).rx.silence = some ms → 50 ≤ ms →
      ∃ t, exec (.silenceTimerExpiry l) s = .next t
        ∧ (t.lane l).rx.core = Receiver.core { (s.lane l).rx with
            link := .down, silence := none, qualifying := 0, previous := none, pendingLoss := 0, fifo := [] }
        ∧ ((s.lane l).run = none → (s.lane l).contextRight → (t.lane l).runState = .offline ∧ (t.lane l).run = none)
        ∧ (∀ c, (s.lane l).run = some c → isActive (s.lane l).runState = true →
          (t.lane l).runState = .closing
          ∧ ∃ d, (t.lane l).run = some d ∧ d.serial = c.serial ∧ d.reason = some .linkLost)
        ∧ (∀ c, (s.lane l).run = some c → (s.lane l).runState = .closing →
          (t.lane l).runState = .closing ∧ ∃ d, (t.lane l).run = some d ∧ d.reason = c.reason))
    ∧ (((s.lane l).rx.link = .down ∨ (s.lane l).rx.silence = none ∨ ∃ ms, (s.lane l).rx.silence = some ms ∧ ms < 50) →
      exec (.silenceTimerExpiry l) s = .next s)

/-- The lane status word: at the period's end a word is started with the values in force, or the change is marked
pending while one is in transmission; when a word completes, a pending change starts the next one (R15). A command that
comes before its event changes nothing (log 1). -/
def Obligations.StatusWordSent : Prop :=
  ∀ (l : LaneId) (s : State), s.resetLine = false →
    let started := s.modRx l fun rx =>
      { rx with
        statusTx := some (statusWordOf rx.hold (s.lane l).runState ((s.lane l).run.map (·.serial)))
        statusTimer := 0, statusPending := false }
    ((s.lane l).rx.statusTimer < 100 → exec (.statusPeriodExpiry l) s = .next s)
    ∧ (100 ≤ (s.lane l).rx.statusTimer → (s.lane l).rx.statusTx = none → exec (.statusPeriodExpiry l) s = .next started)
    ∧ (∀ w, 100 ≤ (s.lane l).rx.statusTimer → (s.lane l).rx.statusTx = some w →
      exec (.statusPeriodExpiry l) s = .next (s.modRx l fun rx => { rx with statusPending := true }))
    ∧ (∀ w, (s.lane l).rx.statusTx = some w → (s.lane l).rx.statusPending = true →
      exec (.statusWordComplete l) s = .next started)
    ∧ (∀ w, (s.lane l).rx.statusTx = some w → (s.lane l).rx.statusPending = false →
      exec (.statusWordComplete l) s = .next (s.modRx l fun rx => { rx with statusTx := none }))
    ∧ ((s.lane l).rx.statusTx = none → exec (.statusWordComplete l) s = .next s)

/-- Hold as R13 gives it for a run state, an ingress occupancy, event pressure and the value held; the stall timer under
hold and motion, and its start with the insertion (R46, R48). Hold weighed on a lane takes that value; a change of hold
and a change of run state, with the run serial it brings, start a lane status word with the values in force, or mark the
change pending while a word is in transmission; weighing that leaves hold as it is changes nothing (R13, R15). -/
def Obligations.HoldAndStallTimer : Prop :=
  (∀ (st : RunState) (n : Nat) (pressure hold : Bool),
     let moving := st = .inserting ∨ st = .pulling
     (moving → (48 ≤ n ∨ pressure = true) → holdAfter st n pressure hold = true)
     ∧ (moving → n ≤ 16 → pressure = false → holdAfter st n pressure hold = false)
     ∧ (moving → 17 ≤ n → n ≤ 47 → pressure = false → holdAfter st n pressure hold = hold)
     ∧ (¬ moving → holdAfter st n pressure hold = false))
  ∧ (∀ (st : RunState) (ms : Nat), (st = .inserting ∨ st = .pulling) →
       stallUnderHold st false true (.running ms) = .paused ms
       ∧ stallUnderHold st true false (.paused ms) = .running 0
       ∧ motionTimer (.running ms) = .running 0 ∧ motionTimer (.paused ms) = .paused 0
       ∧ (∀ t h, stallUnderHold st h h t = t))
  ∧ (∀ (s : State) (l : LaneId) (c : RunContext), (s.lane l).run = some c →
       ∃ d, ((s.startInsertion l).lane l).run = some d ∧ ((s.startInsertion l).lane l).runState = .inserting
         ∧ d.stallTimer = (if ((s.startInsertion l).lane l).rx.hold then .paused 0 else .running 0))
  ∧ (∀ (pressure : Bool) (ln : Lane),
       let new := holdAfter ln.runState ln.rx.fifo.length pressure ln.rx.hold
       (new = ln.rx.hold → weighHold pressure ln = ln)
       ∧ (new ≠ ln.rx.hold → (weighHold pressure ln).rx.hold = new ∧ (weighHold pressure ln).runState = ln.runState
         ∧ (weighHold pressure ln).run = ln.run.map (fun c =>
           { c with stallTimer := stallUnderHold ln.runState ln.rx.hold new c.stallTimer })
         ∧ ln.announces (weighHold pressure ln)))
  ∧ (∀ (pressure : Bool) (st : RunState) (ln : Lane),
       let new := holdAfter st ln.rx.fifo.length pressure ln.rx.hold
       (enterRunState pressure st ln).rx.hold = new ∧ (enterRunState pressure st ln).runState = st
       ∧ (enterRunState pressure st ln).run = ln.run.map (fun c =>
         { c with stallTimer := stallUnderHold st ln.rx.hold new c.stallTimer })
       ∧ ln.announces (enterRunState pressure st ln))
  ∧ (∀ (s : State) (l : LaneId) (st : RunState),
       (s.weighLaneHold l).lane l = weighHold s.trunk.pressure (s.lane l)
       ∧ (s.setRunState l st).lane l = enterRunState s.trunk.pressure st (s.lane l)
       ∧ ∀ k, k ≠ l → (s.weighLaneHold l).lane k = s.lane k ∧ (s.setRunState l st).lane k = s.lane k)

/-- Frames and events of one lane leave the other lanes' own state, every group record, the table manager, the reset
line and the queue of commands alone. -/
def Obligations.OtherLanesUntouched : Prop :=
  ∀ (l k : LaneId) (words : List Word) (b : Bool) (c : Instr) (s t : State),
    c = .sampleFrame l words ∨ c = .laneFrameBreak l ∨ c = .silenceTimerExpiry l ∨ c = .statusPeriodExpiry l
      ∨ c = .statusWordComplete l ∨ c = .lanePipelineTake l b ∨ c = .lanePipelineResume l ∨ c = .armTimerExpiry l
      ∨ c = .stallTimerExpiry l ∨ c = .closingResume l →
    exec c s = .next t →
    (k ≠ l → (t.lane k).own = (s.lane k).own) ∧ t.groups = s.groups ∧ t.tables = s.tables
      ∧ t.resetLine = s.resetLine ∧ t.pending = s.pending

/-! ### Axial tracker and pipeline -/

/-- Travel: delta modulo 2^32 (0 for the run's first frame), whole au and remainder of delta times scale plus remainder,
added for PUSH and subtracted for PULL, the raw position saturating (R20, R21, R22). Stamp: raw position plus the
correction held, saturating; the correction count is raised, wrapping, when the correction differs from the applied
one, which then takes its value (R23). The tracker takes an entry in the order travel, stamp, lost frames (R19): the stamp is
made of the new raw position, the preceding loss and a unit fault are gathered (R25), and its other fields stand. -/
def Obligations.TravelAndStamp : Prop :=
  (∀ (scale : Nat) (e : FifoEntry) (t : Tracker),
     let delta := match t.travelRef with
       | none => 0
       | some r => (e.travel.toNat + 2 ^ 32 - r.toNat) % 2 ^ 32
     let sum := delta * scale + t.remainder
     let moved : Int := match e.direction with
       | .push => t.raw + ((sum / 65536 : Nat) : Int)
       | .pull => t.raw - ((sum / 65536 : Nat) : Int)
     (advanceTravel scale e t).travelRef = some e.travel
     ∧ (advanceTravel scale e t).remainder = sum % 65536
     ∧ (advanceTravel scale e t).raw = max (-2147483648) (min 2147483647 moved))
  ∧ (∀ (correction : Int) (t : Tracker),
       (stampTracker correction t).stamped = some (max (-2147483648) (min 2147483647 (t.raw + correction)))
       ∧ (stampTracker correction t).applied = correction
       ∧ (correction = t.applied → (stampTracker correction t).corrCount = t.corrCount)
       ∧ (correction ≠ t.applied → (stampTracker correction t).corrCount = (t.corrCount + 1) % 256)
       ∧ (stampTracker correction t).raw = t.raw)
  ∧ (∀ (scale : Nat) (correction : Int) (e : FifoEntry) (t : Tracker),
       let a := advanceTravel scale e t
       trackEntry scale correction e t = { t with
         travelRef := a.travelRef, raw := a.raw, remainder := a.remainder, applied := correction
         corrCount := if correction = t.applied then t.corrCount else (t.corrCount + 1) % 256
         stamped := some (max (-2147483648) (min 2147483647 (a.raw + correction)))
         carried := min 65535 (min 65535 (t.carried + e.precedingLoss) + (if e.unitFault then 1 else 0)) })
  ∧ (∀ (s : State) (l : LaneId) (c : RunContext) (e : FifoEntry),
       s.tracked l c e = trackEntry (s.laneRow l).scale c.matcher.correction e c.tracker)

/-- The carried loss: preceding loss and unit fault are gathered, saturating; a frame handed on as NORMAL or FAULT takes
it and leaves 0, any other frame leaves it; a backtrack frame leaves the loss start position (R24, R25). The loss report
of a NORMAL or FAULT frame is made when the frame is handed on, before any of the blocks' work that may wait for room: its
lost frames go into frames lost, and with lost frames or a unit fault the held loss report is started or widened and grows
by them (R81, R93); that the held count stops at 65535 is the model's choice (log 28). -/
def Obligations.LossCarried : Prop :=
  (∀ (e : FifoEntry) (t : Tracker) (cls : FrameClass) (ph : Phase) (m x : Bool) (before : Tracker) (chs : List Channel),
    (gatherCarried e t).carried
      = min 65535 (min 65535 (t.carried + e.precedingLoss) + (if e.unitFault then 1 else 0))
    ∧ ((cls = .normal ∨ cls = .fault) → (frameOf cls ph m x before t chs).lost = t.carried
      ∧ (afterStamp (some cls) t).carried = 0)
    ∧ ((cls = .backtrack ∨ cls = .stationary) → (frameOf cls ph m x before t chs).lost = 0
      ∧ (afterStamp (some cls) t).carried = t.carried)
    ∧ (afterStamp none t).carried = t.carried
    ∧ (frameOf cls ph m x before t chs).lossStart = before.lossStart
    ∧ (afterStamp (some .backtrack) t).lossStart = t.lossStart
    ∧ (∀ p, t.stamped = some p → cls ≠ .backtrack → (afterStamp (some cls) t).lossStart = p))
  ∧ (∀ (rows : Nat → StandardRow) (f : Frame) (c : RunContext),
       let u := doneAtOnce rows f c
       ((f.cls = .backtrack ∨ f.cls = .stationary) → u = c)
       ∧ ((f.cls = .normal ∨ f.cls = .fault) →
         u.forwarder = { c.forwarder with framesLost := min 65535 (c.forwarder.framesLost + f.lost) }
         ∧ ((f.cls = .normal ∧ f.lost = 0) → u.heldLoss = c.heldLoss)
         ∧ ((f.cls = .fault ∨ 0 < f.lost) →
           (c.heldLoss = none → u.heldLoss = some ⟨f.lost, min f.lossStart f.corrected, max f.lossStart f.corrected⟩)
           ∧ ∀ h, c.heldLoss = some h → u.heldLoss = some ⟨min 65535 (h.lost + f.lost),
             min h.lower (min f.lossStart f.corrected), max h.upper (max f.lossStart f.corrected)⟩)))
  ∧ (∀ (s : State) (l : LaneId) (first : Bool) (cls : FrameClass) (ph : Phase) (m x : Bool) (before : Tracker)
       (slots : List Slot) (reversal : List WorkItem) (c : RunContext), (s.lane l).run = some c →
       let f := frameOf cls ph m x before c.tracker (s.conditioned l c cls slots)
       let s' := s.modRun l fun c => doneAtOnce (s.standardRow l) f
         { c with balance := s.trackedBalance l c cls ph slots, tracker := afterStamp (some cls) c.tracker }
       let matching := reversal ++ s.matcherItems l c f
       s.handOn l first cls ph m x before slots reversal =
         (if first then s'.runWork l f (evaluatorItems c.kind f) matching
           else s'.runWork l f matching (evaluatorItems c.kind f)))

/-- The class of a frame in PULLING, what it leaves of still, the low-water mark and BACKTRACKED (R30 to R33), and the
exit test (R34). -/
def Obligations.PullClassified : Prop :=
  (∀ (clocking : Clocking) (moving : Bool) (e : FifoEntry) (t : Tracker) (low : Int), t.lowWater = some low →
     let cls := pullClass clocking moving e t
     let u := pullFields clocking moving cls t
     (low < t.raw → cls = .backtrack ∧ u.lowWater = some low ∧ u.backtracked = true)
     ∧ (t.raw ≤ low → u.lowWater = some t.raw ∧ u.backtracked = t.backtracked
       ∧ (e.unitFault = true → cls = .fault)
       ∧ (e.unitFault = false → (moving = true ∨ clocking = .travel ∨ t.still = false) → cls = .normal)
       ∧ (e.unitFault = false → moving = false → clocking = .time → t.still = true → cls = .stationary))
     ∧ (moving = true → u.still = false)
     ∧ (moving = false → clocking = .time → cls = .normal → u.still = true)
     ∧ (moving = false → (clocking = .travel ∨ cls ≠ .normal) → u.still = t.still))
  ∧ (∀ (row : LaneRow) (cls : FrameClass) (t : Tracker) (p : Int), t.stamped = some p →
       (exitTest row cls t = true ↔ cls ≠ .backtrack ∧ p ≤ -row.exitMargin))

/-- A removed entry is dropped in OFFLINE, IDLE and CLOSING; the command takes nothing while the pipeline waits or finds
no entry (R7, log 1). -/
def Obligations.TakeDropsOutsideRun : Prop :=
  ∀ (l : LaneId) (b : Bool) (s : State) (e : FifoEntry) (rest : List FifoEntry), s.resetLine = false →
    (((s.lane l).passage.isSome = true ∨ (s.lane l).rx.fifo = []) → exec (.lanePipelineTake l b) s = .next s)
    ∧ ((s.lane l).passage = none → (s.lane l).rx.fifo = e :: rest →
      ((s.lane l).runState = .offline ∨ (s.lane l).runState = .idle ∨ (s.lane l).runState = .closing) →
      exec (.lanePipelineTake l b) s = .next ((s.modRx l fun rx => { rx with fifo := rest }).weighLaneHold l))

/-- In ARMED a zero-travel frame is kept back and changes nothing but the tracker (R26); the first moving frame starts the
insertion when it is PUSH and closes the run with WRONG_DIRECTION when it is PULL (R27, R46). -/
def Obligations.ArmedFramesTaken : Prop :=
  (∀ (l : LaneId) (b : Bool) (s : State) (c : RunContext) (e : FifoEntry), s.taking l .armed c e → ¬ moves c e →
     ∃ t, exec (.lanePipelineTake l b) s = .next t ∧ (t.lane l).runState = .armed
       ∧ (t.lane l).run = some { c with tracker := afterStamp none (s.tracked l c e) }
       ∧ (t.lane l).rx.fifo = (s.lane l).rx.fifo.tail ∧ (t.lane l).delay = (s.lane l).delay
       ∧ (t.lane l).passage = none ∧ t.trunk = s.trunk)
  ∧ (∀ (l : LaneId) (b : Bool) (s : State) (c : RunContext) (e : FifoEntry), s.taking l .armed c e → moves c e →
       e.direction = .push →
       ∃ t d, exec (.lanePipelineTake l b) s = .next t ∧ (t.lane l).runState = .inserting ∧ (t.lane l).run = some d
         ∧ d.armTimer = .stopped ∧ d.serial = c.serial ∧ d.reason = c.reason
         ∧ d.tracker = afterStamp (some (if e.unitFault then .fault else .normal)) (s.tracked l c e))
  ∧ (∀ (l : LaneId) (b : Bool) (s : State) (c : RunContext) (e : FifoEntry), s.taking l .armed c e → moves c e →
       e.direction = .pull →
       ∃ t d, exec (.lanePipelineTake l b) s = .next t ∧ (t.lane l).runState = .closing ∧ (t.lane l).run = some d
         ∧ d.serial = c.serial ∧ d.reason = some .wrongDirection ∧ d.armTimer = .stopped ∧ d.stallTimer = .stopped
         ∧ d.tracker.carried = 0)

/-- In INSERTING a frame other than the reversal frame is handed on as NORMAL or FAULT (R28); the reversal frame records
the reversal position and the low-water mark, clears still and makes the lane PULLING, where it stays when the frame does
not meet the exit test (R29, R49). -/
def Obligations.InsertingFramesTaken : Prop :=
  (∀ (l : LaneId) (b : Bool) (s : State) (c : RunContext) (e : FifoEntry), s.taking l .inserting c e →
     ¬ (moves c e ∧ e.direction = .pull) →
     ∃ t d, exec (.lanePipelineTake l b) s = .next t ∧ (t.lane l).runState = .inserting ∧ (t.lane l).run = some d
       ∧ d.serial = c.serial ∧ d.reason = c.reason
       ∧ d.tracker = afterStamp (some (if e.unitFault then .fault else .normal)) (s.tracked l c e))
  ∧ (∀ (l : LaneId) (b : Bool) (s : State) (c : RunContext) (e : FifoEntry), s.taking l .inserting c e → moves c e →
       e.direction = .pull → -(s.laneRow l).exitMargin < stampedPos (s.tracked l c e) →
       ∃ t d, exec (.lanePipelineTake l b) s = .next t ∧ (t.lane l).runState = .pulling ∧ (t.lane l).run = some d
         ∧ d.serial = c.serial ∧ d.reason = c.reason
         ∧ d.tracker.reversal = some (stampedPos (s.tracked l c e)) ∧ d.tracker.lowWater = some (s.tracked l c e).raw
         ∧ d.tracker.still = false)

/-- A frame of PULLING that does not meet the exit test is handed on under its class and leaves the lane PULLING
(R30 to R34). -/
def Obligations.PullingFrameHandedOn : Prop :=
  ∀ (l : LaneId) (b : Bool) (s : State) (c : RunContext) (e : FifoEntry), s.taking l .pulling c e →
    (let t' := s.tracked l c e
     let moving := travelDelta c.tracker e.travel != 0
     let cls := pullClass (s.laneRow l).clocking moving e t'
     exitTest (s.laneRow l) cls t' = false →
     ∃ t d, exec (.lanePipelineTake l b) s = .next t ∧ (t.lane l).runState = .pulling ∧ (t.lane l).run = some d
      ∧ d.serial = c.serial ∧ d.reason = c.reason
      ∧ d.tracker = afterStamp (some cls) (pullFields (s.laneRow l).clocking moving cls t'))

/-- The end of a frame's passage: a NORMAL frame enters the delay line, at the tail while fewer than 512 entries are held,
and otherwise after the oldest entry has been removed and handed to the forwarder; any other frame is set aside (R94). In
PULLING a frame with the exit event then closes the run COMPLETE (R34, R49); in CLOSING the carried loss it leaves is handed
to the forwarder without a gap and the closing sequence begins (R52). -/
def Obligations.PassageEnds : Prop :=
  (∀ (s : State) (l : LaneId) (f : Frame) (c : RunContext), (s.lane l).run = some c →
    ((s.lane l).runState = .pulling → f.exits = true →
      ((s.finishFrame l f).lane l).runState = .closing
      ∧ ∃ d, ((s.finishFrame l f).lane l).run = some d ∧ d.reason = some .complete ∧ d.serial = c.serial)
    ∧ ((s.lane l).runState = .inserting ∨ ((s.lane l).runState = .pulling ∧ f.exits = false) →
      s.finishFrame l f = (if f.cls = .normal then s.enterDelay l f else s))
    ∧ ((s.lane l).runState = .closing →
      s.finishFrame l f = ((if f.cls = .normal then s.enterDelay l f else s).modRun l handCarried).startClosing l))
  ∧ (∀ (s : State) (l : LaneId) (f : Frame) (c : RunContext), (s.lane l).run = some c →
       let entry : DelayEntry :=
         { corrected := f.corrected, phase := f.phase, channels := f.channels.map fun ch => ⟨ch.formed, ch.x, ch.y⟩
           gapBefore := c.heldLoss.map fun h => ⟨h.upper, h.lower⟩ }
       let taken := s.modRun l fun c => { c with heldLoss := none }
       ((s.lane l).delay.length < 512 →
         s.enterDelay l f = taken.modLane l fun ln => { ln with delay := (s.lane l).delay ++ [entry] })
       ∧ ∀ d ds, (s.lane l).delay = d :: ds → 511 ≤ ds.length →
         s.enterDelay l f = ((taken.modLane l fun ln => { ln with delay := ds }).handleEntry l d).modLane l fun ln =>
           { ln with delay := ds ++ [entry] })
  ∧ (∀ c : RunContext, handCarried c = { c with
       forwarder := { c.forwarder with framesLost := min 65535 (c.forwarder.framesLost + c.tracker.carried) }
       tracker := { c.tracker with carried := 0 } })

/-- The two blocks' work on a frame: an item that places no record is done at once; an item with a record is done when the
record is placed, or waits with the items behind it, unchanged, until there is room (R74, R103, R157; that its state change
is made with the record, not before the wait, is log 23). While the block that places first waits the other does all its
work that places no record (R64, R77; log 3); the pipeline then waits with the frame, and when nothing is left the passage
ends (R7). RESUME goes on with what is left; it does nothing without a frame (log 1); that the wait ends by this command, or
by the removal that serves the waiter, is log 5. -/
def Obligations.PipelineResumes : Prop :=
  (∀ (s : State) (l : LaneId) (f : Frame) (mayPlace : Bool), s.blockWork l f mayPlace [] = (s, [])
     ∧ ∀ (item : WorkItem) (rest : List WorkItem) (s' : State),
       (s.workItem l f item = (s', none) → s.blockWork l f mayPlace (item :: rest) = s'.blockWork l f mayPlace rest)
       ∧ ∀ e, s.workItem l f item = (s', some e) →
         (mayPlace = true → s.eventRoom (.pipeline l) 1 → s.blockWork l f mayPlace (item :: rest)
           = ((s'.leaveWaiters (.pipeline l)).placeRecord e).blockWork l f mayPlace rest)
         ∧ (mayPlace = false ∨ ¬ s.eventRoom (.pipeline l) 1 → s.blockWork l f mayPlace (item :: rest) = (s, item :: rest)))
  ∧ (∀ (s : State) (l : LaneId) (f : Frame) (first second : List WorkItem),
       let a := s.blockWork l f true first
       let b := a.1.blockWork l f a.2.isEmpty second
       (a.2 = [] → b.2 = [] → s.runWork l f first second = b.1.finishFrame l f)
       ∧ (a.2 ≠ [] ∨ b.2 ≠ [] → ((s.runWork l f first second).lane l) = { b.1.lane l with passage := some ⟨f, a.2, b.2⟩ }
         ∧ (s.runWork l f first second).trunk = { b.1.trunk with
           waiters := if Waiter.pipeline l ∈ b.1.trunk.waiters then b.1.trunk.waiters
             else b.1.trunk.waiters ++ [.pipeline l] }
         ∧ ∀ k, k ≠ l → (s.runWork l f first second).lane k = b.1.lane k))
  ∧ (∀ (l : LaneId) (s : State) (f : Frame) (first second : List WorkItem), s.resetLine = false →
       (s.lane l).passage = some ⟨f, first, second⟩ →
       exec (.lanePipelineResume l) s = .next ((s.setPassage l none).runWork l f first second))
  ∧ (∀ (l : LaneId) (s : State), (s.lane l).passage = none → exec (.lanePipelineResume l) s = .next s)

/-! ### Run timers, closing, groups -/

/-- The arm timer's expiry in ARMED and the stall timer's in INSERTING or PULLING close the run; before the captured
timeout has run the commands do nothing (R47, R48, R52; log 1, log 2). -/
def Obligations.RunTimersExpire : Prop :=
  ∀ (l : LaneId) (s : State) (c : RunContext) (ms : Nat), s.resetLine = false → (s.lane l).run = some c →
    ((s.lane l).runState = .armed → c.armTimer = .running ms →
      (1000 * (s.laneRow l).armTimeout ≤ ms → ∃ t d, exec (.armTimerExpiry l) s = .next t
        ∧ (t.lane l).runState = .closing ∧ (t.lane l).run = some d ∧ d.serial = c.serial
        ∧ d.reason = some .noMotion ∧ d.armTimer = .stopped ∧ d.stallTimer = .stopped)
      ∧ (ms < 1000 * (s.laneRow l).armTimeout → exec (.armTimerExpiry l) s = .next s))
    ∧ (((s.lane l).runState = .inserting ∨ (s.lane l).runState = .pulling) →
      (c.stallTimer = .running ms → 1000 * (s.laneRow l).stallTimeout ≤ ms →
        ∃ t d, exec (.stallTimerExpiry l) s = .next t
        ∧ (t.lane l).runState = .closing ∧ (t.lane l).run = some d ∧ d.serial = c.serial
        ∧ d.reason = some .stalled ∧ d.armTimer = .stopped ∧ d.stallTimer = .stopped)
      ∧ (c.stallTimer = .running ms → ms < 1000 * (s.laneRow l).stallTimeout → exec (.stallTimerExpiry l) s = .next s)
      ∧ (c.stallTimer = .paused ms → exec (.stallTimerExpiry l) s = .next s))

/-- The closing sequence (R53): the 32 rules, the open candidate, the drain, the last block, the verdict and RUN CLOSE, in
this order, each done when its record, if it has one, is placed; without room the sequence waits and its steps stand (log
23); with no step left the close notice has been given (R56). A rule still open closes by run end (R111); the candidate is
dropped; the drain hands every delay-line entry to the forwarder, oldest first, and then enters a held loss report as a gap
(R95); the last block is closed and every keep record is NONE (R148); a STANDARD run takes its verdict, and NOT_EVALUATED
sets STANDARD_INCOMPLETE (R54). CLOSING_RESUME goes on with the steps that are left; a lane whose sequence does not wait is
left as it is (log 1). -/
def Obligations.ClosingResumes : Prop :=
  (∀ (s : State) (l : LaneId),
     s.startClosing l = s.runClosing l
       ((List.finRange 32).map .rule ++ [.dropCandidate, .drain, .finalBlock, .verdict, .runClose])
     ∧ s.runClosing l [] = s.setClosing l (some [])
     ∧ ∀ (step : CloseStep) (rest : List CloseStep) (s' : State),
       (s.closeStep l step = (s', none) → s.runClosing l (step :: rest) = s'.runClosing l rest)
       ∧ ∀ e, s.closeStep l step = (s', some e) →
         (s.eventRoom (.closing l) 1 →
           s.runClosing l (step :: rest) = ((s'.leaveWaiters (.closing l)).placeRecord e).runClosing l rest)
         ∧ (¬ s.eventRoom (.closing l) 1 → s.runClosing l (step :: rest)
           = (s.setClosing l (some (step :: rest))).modTrunk fun t => { t with
             waiters := if Waiter.closing l ∈ t.waiters then t.waiters else t.waiters ++ [.closing l] }))
  ∧ (∀ (s : State) (l : LaneId) (c : RunContext), (s.lane l).run = some c →
       (∀ r : Fin 32, (c.evaluator.rules[r] = none → s.closeStep l (.rule r) = (s, none))
         ∧ ∀ o, c.evaluator.rules[r] = some o →
           let closed := closeRule l (s.profile l) (s.keepRow l).indicationKeep r
             (callRuleOf (s.capturedRow l .callRules r.val)) true o c
           s.closeStep l (.rule r) = (s.modRun l fun _ => closed.1, closed.2))
       ∧ s.closeStep l .dropCandidate
         = (s.modRun l fun c => { c with matcher := { c.matcher with candidate := none } }, none)
       ∧ (let drained := (s.modLane l fun ln => { ln with delay := [] }).handleEntries l (s.lane l).delay
          ∀ d, (drained.lane l).run = some d →
            (d.heldLoss = none → s.closeStep l .drain = (drained, none))
            ∧ ∀ h, d.heldLoss = some h → s.closeStep l .drain = (drained.modRun l fun c =>
              { c with heldLoss := none, forwarder := gapEnter ⟨h.upper, h.lower⟩ c.forwarder }, none))
       ∧ s.closeStep l .finalBlock
         = ((s.closeBlock l).modRun l fun c =>
             { c with forwarder := { c.forwarder with keep := Vector.replicate 32 .none } }, none)
       ∧ (c.kind = .production → s.closeStep l .verdict = (s, none))
       ∧ (c.kind = .standard → let v := verdictOf (s.standardRow l) c
          s.closeStep l .verdict = (s.modRun l fun c =>
            { c with verdict := some v, standardIncomplete := c.standardIncomplete || v == .notEvaluated }, none))
       ∧ s.closeStep l .runClose = (s, some (.runClose l c.serial (runCloseRecord c))))
  ∧ (∀ (s : State) (l : LaneId) (e : DelayEntry) (es : List DelayEntry), s.handleEntries l [] = s
       ∧ s.handleEntries l (e :: es) = (s.handleEntry l e).handleEntries l es)
  ∧ (∀ (l : LaneId) (s : State), s.resetLine = false →
       (∀ c step rest, (s.lane l).run = some c → c.closing = some (step :: rest) →
         exec (.closingResume l) s = .next (s.runClosing l (step :: rest)))
       ∧ ((∀ c, (s.lane l).run = some c → c.closing = none ∨ c.closing = some []) → exec (.closingResume l) s = .next s))

/-- The outcome of a close notice by run kind, verdict, supersede pending and group state (R123 to R126). A group closed
keeps its number, needs a standard run, has no pending supersede, no opener and no run listed (R117, R133). The drift
comparison takes each used reference and each listed channel, in order, against the opener's signature peak under the drift
tolerances, and its verdict is PASS when no flag is set, else FAIL (R127); a group opened takes the run's captures, the peak
of every listed channel of each used reference, as its signature (R128). -/
def Obligations.CloseOutcomes : Prop :=
  (∀ (l : LaneId) (rows : Nat → StandardRow) (cal std : BitVec 16) (c : RunContext) (g : Group),
    let quiet := c.kind = .production ∨ (c.kind = .standard ∧ c.verdict = some .notEvaluated)
    let judged := c.kind = .standard ∧ (c.verdict = some .accepted ∨ c.verdict = some .rejected)
    let opens := c.verdict = some .accepted ∧ (c.captured[Kind.calibration.idx]).generation = cal
      ∧ (c.captured[Kind.standard.idx]).generation = std
    let superseded := EventRecord.groupClose l g.number .superseded none none g.runs
    let o := closeOutcome l rows cal std c g
    (quiet → g.pending = false → o = ([], g))
    ∧ (quiet → g.state = .opened → g.pending = true → o.1 = [superseded] ∧ o.2 = closedGroup g)
    ∧ (judged → ¬ opens → o.2.state = .needsStandard ∧ o.2.number = g.number)
    ∧ (judged → opens → o.2.state = .opened ∧ o.2.pending = false ∧ o.2.number = g.number + 1 ∧ o.2.runs = []
      ∧ (∃ op, o.2.opener = some op ∧ op.serial = c.serial ∧ op.calibration = cal ∧ op.standard = std
        ∧ op.signature = signatureOf rows c.evaluator)
      ∧ o.1.getLast? = some (.groupOpen l (g.number + 1) c.serial cal std))
    ∧ (judged → g.state = .opened → g.pending = true → o.1.head? = some superseded)
    ∧ (judged → g.state = .opened → g.pending = false → ∀ op, g.opener = some op →
      o.1.head? = some (.groupClose l g.number (driftVerdict (driftFlags rows c.evaluator op)) (some c.serial)
        (some (driftFlags rows c.evaluator op)) g.runs))
    ∧ (judged → g.state ≠ .opened → ¬ opens → o.1 = [])
    ∧ o.1.length ≤ 2)
  ∧ (∀ g : Group, closedGroup g = ⟨.needsStandard, false, g.number, none, []⟩)
  ∧ (∀ (rows : Nat → StandardRow) (e : Evaluator) (op : Opener),
       (driftFlags rows e op).length = 8
       ∧ (∀ k : Fin 8, (e.captures[k] = none ∨ (rows k).used = false) → (driftFlags rows e op)[k]? = some [])
       ∧ (∀ (k : Fin 8) (r : RefCapture), e.captures[k] = some r → (rows k).used = true →
         ∃ flags, (driftFlags rows e op)[k]? = some flags ∧ flags.length = min (rows k).channels.length r.peaks.length
           ∧ ∀ (i ch : Nat) (p : Peak) (sig : List SignaturePeak) (x : SignaturePeak), (rows k).channels[i]? = some ch → r.peaks[i]? = some (some p) →
             op.signature[k] = some sig → sig.find? (fun q => q.channel == ch) = some x →
             flags[i]? = some (comparePeak (rows k).driftMag (rows k).driftPhase p ⟨x.mag, x.phase⟩)))
  ∧ (∀ flags : List (List CompareFlag),
       ((∀ fs ∈ flags, ∀ f ∈ fs, f.magError = false ∧ f.phaseError = false) → driftVerdict flags = .pass)
       ∧ ((∃ fs ∈ flags, ∃ f ∈ fs, f.magError = true ∨ f.phaseError = true) → driftVerdict flags = .fail))
  ∧ (∀ (rows : Nat → StandardRow) (e : Evaluator) (k : Fin 8),
       (e.captures[k] = none → (signatureOf rows e)[k] = none)
       ∧ ∀ r, e.captures[k] = some r → ∃ sig, (signatureOf rows e)[k] = some sig
         ∧ ∀ (i ch : Nat) (p : Peak), (rows k).channels[i]? = some ch → r.peaks[i]? = some (some p) →
           sig[i]? = some ⟨ch, p.mag, p.phase⟩)

/-- The close notice is handled in one act when the EVENT queue has room for its records: the group record takes the
outcome, the run context is discarded, and the lane takes the state R39 gives it (R57, R123), and the room waiters are
weighed again (R157; log 5); without room it waits; a lane without a notice to be handled is left as it is (log 1). -/
def Obligations.NoticeHandled : Prop :=
  (∀ (l : LaneId) (s : State) (c : RunContext), s.resetLine = false → (s.lane l).run = some c → c.closing = some [] →
     ((s.eventRoom (.group l) (s.closeOutcome l c).1.length ∨ (s.closeOutcome l c).1 = []) →
       let t := s.handleNotice l c
       exec (.closeHandling l) s = .next t.weighWaiters ∧ t.group l = (s.closeOutcome l c).2 ∧ (t.lane l).run = none
         ∧ (∀ k, k ≠ l → t.group k = s.group k ∧ (t.lane k).own = (s.lane k).own)
         ∧ (t.lane l).runState =
           (if bitAt (wordAt (s.tables.currentRow .lane l.val) 0) 0 = true ∧ (s.lane l).rx.link = .up then .idle
             else .offline)
         ∧ (s.trunk.isSending → t.trunk.events = s.trunk.events ++ (s.closeOutcome l c).1))
     ∧ ((s.closeOutcome l c).1 ≠ [] → ¬ s.eventRoom (.group l) (s.closeOutcome l c).1.length →
       ∃ t, exec (.closeHandling l) s = .next t ∧ t.lanes = s.lanes ∧ t.groups = s.groups
         ∧ Waiter.group l ∈ t.trunk.waiters))
  ∧ (∀ (l : LaneId) (s : State), (∀ c, (s.lane l).run = some c → c.closing ≠ some []) →
       exec (.closeHandling l) s = .next s)

/-! ### Station link -/

/-- What a downstream frame is by its words: check word, kind, length and credit class; a frame that is broken off or
invalid is counted in the station CHECK counter and changes nothing else (R150, R151, R183). That a frame of no words fails
its check is log 11, and that the words decide, whichever command names the frame, is log 10. -/
def Obligations.DownstreamDiscards : Prop :=
  (∀ (body : List Word) (c : Word),
     let words := body ++ [c]
     let w0 := words.getD 0 0
     let w1 := words.getD 1 0
     classifyStation [] = .invalid
     ∧ (crc32 body ≠ c → classifyStation words = .invalid)
     ∧ (crc32 body = c → bits w0 31 24 ≠ 1 → bits w0 31 24 ≠ 2 → classifyStation words = .invalid)
     ∧ (crc32 body = c → bits w0 31 24 = 1 → words.length < 3 → classifyStation words = .invalid)
     ∧ (crc32 body = c → bits w0 31 24 = 1 → 3 ≤ words.length →
       classifyStation words = .request (BitVec.ofNat 16 (bits w1 31 16)) (bits w1 7 0) (body.drop 2))
     ∧ (crc32 body = c → bits w0 31 24 = 2 → words.length ≠ 4 ∨ 2 ≤ bits w1 31 24 → classifyStation words = .invalid)
     ∧ (crc32 body = c → bits w0 31 24 = 2 → words.length = 4 → bits w1 31 24 = 0 →
       classifyStation words = .dataCredit (bits w1 9 0) (bits (words.getD 2 0) 15 0))
     ∧ (crc32 body = c → bits w0 31 24 = 2 → words.length = 4 → bits w1 31 24 = 1 →
       classifyStation words = .eventCredit (bits w1 9 0)))
  ∧ (∀ (s : State) (words : List Word), s.resetLine = false →
       exec .stationFrameBreak s = .next (s.modTrunk fun t => { t with check := min 255 (t.check + 1) })
       ∧ (classifyStation words = .invalid →
         exec (.stationFrameInvalid words) s = .next (s.modTrunk fun t => { t with check := min 255 (t.check + 1) })))

/-- An EVENT CREDIT adds its header increment, capped at 4095; while the transmitter is IDLE the arbiter then chooses
(R152, R161), and the room waiters are weighed (R157; log 5). A DATA CREDIT: each lane that is not OFFLINE receives, in lane
order, what it lacks of its floor, no more than is left; what is left after lane 7 goes to the pool, capped (R153); while the
transmitter is IDLE the arbiter then chooses (R161). -/
def Obligations.CreditGranted : Prop :=
  (∀ (s : State) (words : List Word) (h : Nat), s.resetLine = false → classifyStation words = .eventCredit h →
     let granted := s.modTrunk fun t => { t with eventCredit := min 4095 (t.eventCredit + h) }
     (s.trunk.isSending → exec (.eventCredit words) s = .next granted)
     ∧ (s.trunk.tx = .idle → exec (.eventCredit words) s = .next granted.arbiterChoice.weighWaiters))
  ∧ (∀ (s : State) (words : List Word) (h p : Nat), s.resetLine = false → classifyStation words = .dataCredit h p →
       ∃ (t : State) (lefth leftp : Nat → Nat),
         (s.trunk.isSending → exec (.dataCredit words) s = .next t)
         ∧ (s.trunk.tx = .idle → exec (.dataCredit words) s = .next t.arbiterChoice)
         ∧ lefth 0 = h ∧ leftp 0 = p
         ∧ (∀ l : LaneId,
           let open' := (s.lane l).runState ≠ .offline
           let gh := if open' then min ((s.laneRow l).headerFloor - s.trunk.accounts[l].headers) (lefth l.val) else 0
           let gp := if open' then min ((s.laneRow l).payloadFloor - s.trunk.accounts[l].payload) (leftp l.val) else 0
           t.trunk.accounts[l] = ⟨s.trunk.accounts[l].headers + gh, s.trunk.accounts[l].payload + gp⟩
           ∧ lefth (l.val + 1) = lefth l.val - gh ∧ leftp (l.val + 1) = leftp l.val - gp)
         ∧ t.trunk.pool = ⟨min 4095 (s.trunk.pool.headers + lefth 8), min 262143 (s.trunk.pool.payload + leftp 8)⟩
         ∧ t.lanes = s.lanes ∧ t.groups = s.groups ∧ t.tables = s.tables
         ∧ t.trunk.events = s.trunk.events ∧ t.trunk.replies = s.trunk.replies ∧ t.trunk.eventCredit = s.trunk.eventCredit
         ∧ t.trunk.tx = s.trunk.tx)

/-- Credit is kept whole (R156). A DATA CREDIT raises pool and accounts together by its increments less what the pool's cap
discards, and an account's return moves it to the pool less what the cap discards (R153, R154); a block the arbiter sends
takes one header and its payload units from account and pool together, and its lane becomes the last lane served (R155,
R160); the arbiter's other choices leave them. EVENT CREDIT raises the EVENT credit count by its increment less what the cap
discards, a record the arbiter sends costs one, and its other choices cost none (R152, R160). -/
def Obligations.CreditKeptWhole : Prop :=
  (∀ (s : State) (words : List Word) (h p : Nat), s.resetLine = false → classifyStation words = .dataCredit h p →
     ∃ t : State, (s.trunk.isSending → exec (.dataCredit words) s = .next t)
       ∧ (s.trunk.tx = .idle → exec (.dataCredit words) s = .next t.arbiterChoice)
       ∧ t.trunk.headerSum ≤ s.trunk.headerSum + h ∧ t.trunk.payloadSum ≤ s.trunk.payloadSum + p
       ∧ (t.trunk.pool.headers < 4095 → t.trunk.headerSum = s.trunk.headerSum + h)
       ∧ (t.trunk.pool.payload < 262143 → t.trunk.payloadSum = s.trunk.payloadSum + p))
  ∧ (∀ (s : State) (l : LaneId), s.trunk.isSending →
       let t := s.returnAccount l
       t.trunk.accounts[l] = ⟨0, 0⟩ ∧ (∀ k : LaneId, k ≠ l → t.trunk.accounts[k] = s.trunk.accounts[k])
       ∧ (t.lane l).degrade = 0
       ∧ t.trunk.headerSum ≤ s.trunk.headerSum ∧ t.trunk.payloadSum ≤ s.trunk.payloadSum
       ∧ (t.trunk.pool.headers < 4095 → t.trunk.headerSum = s.trunk.headerSum)
       ∧ (t.trunk.pool.payload < 262143 → t.trunk.payloadSum = s.trunk.payloadSum))
  ∧ (∀ (s : State) (l : LaneId) (b : Block) (rest : List Block), (s.lane l).dataQueue = b :: rest → s.fundable l = true →
       (s.sendBlock l).trunk.headerSum + 1 = s.trunk.headerSum
       ∧ (s.sendBlock l).trunk.payloadSum + blockPayload b = s.trunk.payloadSum
       ∧ (s.sendBlock l).trunk.eventCredit = s.trunk.eventCredit
       ∧ (s.sendBlock l).trunk.tx = .sending (blockWords l b) ∧ (s.sendBlock l).trunk.lastServed = l
       ∧ ((s.sendBlock l).lane l).dataQueue = rest
       ∧ ((s.sendBlock l).lane l).degrade
         = (if rest.length ≤ 2 then (s.lane l).degrade - 1 else (s.lane l).degrade))
  ∧ (∀ (s : State) (words : List Word) (h : Nat), s.resetLine = false → classifyStation words = .eventCredit h →
       s.trunk.isSending → ∃ t, exec (.eventCredit words) s = .next t
         ∧ t.trunk.eventCredit ≤ s.trunk.eventCredit + h
         ∧ (t.trunk.eventCredit < 4095 → t.trunk.eventCredit = s.trunk.eventCredit + h)
         ∧ t.trunk.headerSum = s.trunk.headerSum ∧ t.trunk.payloadSum = s.trunk.payloadSum)
  ∧ (∀ (s : State),
       (∀ e es, s.trunk.replies = [] → s.trunk.events = e :: es → 1 ≤ s.trunk.eventCredit →
         s.arbiterChoice.trunk.eventCredit + 1 = s.trunk.eventCredit ∧ s.arbiterChoice.trunk.events = es
         ∧ s.arbiterChoice.trunk.headerSum = s.trunk.headerSum ∧ s.arbiterChoice.trunk.payloadSum = s.trunk.payloadSum)
       ∧ ((s.trunk.replies ≠ [] ∨ s.trunk.events = [] ∨ s.trunk.eventCredit = 0) →
         s.arbiterChoice.trunk.eventCredit = s.trunk.eventCredit ∧ s.arbiterChoice.trunk.events = s.trunk.events)
       ∧ (s.trunk.replies ≠ [] → s.arbiterChoice.trunk.headerSum = s.trunk.headerSum
         ∧ s.arbiterChoice.trunk.payloadSum = s.trunk.payloadSum))

/-- A head block is fundable when, in each dimension, the lane's account, with the pool for a lane that is not congested,
holds its cost (R155). When a frame completes, the arbiter takes the oldest reply, else the oldest record when there is
EVENT credit, else the first fundable head block from the lane after the last one served, else the transmitter stays IDLE
(R160, R161); the room waiters are weighed after the choice (R157; log 5). An IDLE transmitter completes no frame
(log 1). -/
def Obligations.ArbiterChooses : Prop :=
  (∀ (s : State) (l : LaneId),
     ((s.lane l).dataQueue = [] → s.fundable l = false)
     ∧ ∀ b rest, (s.lane l).dataQueue = b :: rest →
       let pool := if (s.lane l).degrade = 0 then s.trunk.pool else ⟨0, 0⟩
       (s.fundable l = true ↔
         1 ≤ s.trunk.accounts[l].headers + pool.headers ∧ blockPayload b ≤ s.trunk.accounts[l].payload + pool.payload)
       ∧ (s.sendBlock l).trunk.accounts[l]
         = ⟨s.trunk.accounts[l].headers - 1, s.trunk.accounts[l].payload - blockPayload b⟩)
  ∧ (∀ s : State, s.resetLine = false →
       let idle := s.modTrunk fun t => { t with tx := .idle }
       (s.trunk.tx = .idle → exec .transmitComplete s = .next s)
       ∧ (s.trunk.isSending →
         (∀ r rs, s.trunk.replies = r :: rs → exec .transmitComplete s =
           .next (s.modTrunk fun t => { t with replies := rs, tx := .sending (replyWords r) }).weighWaiters)
         ∧ (∀ e es, s.trunk.replies = [] → s.trunk.events = e :: es → 1 ≤ s.trunk.eventCredit →
           exec .transmitComplete s = .next ((s.modTrunk fun t =>
             { t with events := es, eventCredit := t.eventCredit - 1, tx := .sending (recordWords e) }).weighPressure.weighWaiters))
         ∧ (s.trunk.replies = [] → (s.trunk.events = [] ∨ s.trunk.eventCredit = 0) →
           (∀ i : Fin 8, s.fundable (s.trunk.lastServed + 1 + i) = true →
             (∀ j : Fin 8, j < i → s.fundable (s.trunk.lastServed + 1 + j) = false) →
             exec .transmitComplete s = .next (idle.sendBlock (s.trunk.lastServed + 1 + i)).weighWaiters)
           ∧ ((∀ l, s.fundable l = false) → exec .transmitComplete s = .next idle.weighWaiters))))

/-- A REQUEST arrives: queued while the request queue has room; answered BUSY at once when it is full and the REPLY
queue has room; otherwise discarded (R176). -/
def Obligations.RequestArrives : Prop :=
  ∀ (s : State) (words : List Word) (tag : BitVec 16) (kind : Nat) (body : List Word), s.resetLine = false →
    classifyStation words = .request tag kind body →
    (s.tables.requests.length < 8 → exec (.requestArrival words) s =
      .next (s.modTables fun t => { t with requests := t.requests ++ [⟨tag, kind, body⟩] }))
    ∧ (8 ≤ s.tables.requests.length → s.trunk.replies.length < 16 →
      exec (.requestArrival words) s = .next (s.placeReply ⟨tag, .busy, false, []⟩))
    ∧ (8 ≤ s.tables.requests.length → 16 ≤ s.trunk.replies.length → exec (.requestArrival words) s = .next s)

/-- A reply is placed at the tail of the REPLY queue, and goes out at once while the transmitter is IDLE with that queue
empty; a record is placed at the tail of the EVENT queue, and event pressure follows the occupancy and is passed to every
lane (R157, R158, R159, R161). The room waiters weighed: those that need no place leave the list; the first that is left is
served when its places are free, a request only with REPLY queue room (R177), and then the next; one that cannot be served
holds back the others (R157). A waiter needs one place for a lane's record or RUN CLOSE, the records of its outcome for a
close handling, and for the head request those of its act. A waiter served leaves the list and places its record, or its act
is taken (log 5). -/
def Obligations.RepliesAndRecordsPlaced : Prop :=
  (∀ (s : State) (r : Reply),
     (s.trunk.isSending → s.placeReply r = s.modTrunk fun t => { t with replies := t.replies ++ [r] })
     ∧ (s.trunk.tx = .idle → s.trunk.replies = [] →
       s.placeReply r = s.modTrunk fun t => { t with tx := .sending (replyWords r) }))
  ∧ (∀ (s : State) (e : EventRecord), s.trunk.isSending →
       (s.placeRecord e).trunk.events = s.trunk.events ++ [e]
       ∧ (s.placeRecord e).trunk.pressure =
         (if s.trunk.pressure then decide (25 ≤ s.trunk.events.length + 1) else decide (48 ≤ s.trunk.events.length + 1))
       ∧ ∀ l, (s.placeRecord e).lane l =
         (if (s.placeRecord e).trunk.pressure = s.trunk.pressure then s.lane l
           else weighHold (s.placeRecord e).trunk.pressure (s.lane l)))
  ∧ (∀ s : State,
       let p := s.modTrunk fun t => { t with waiters := t.waiters.filter fun w => s.placesNeeded w != 0 }
       (p.trunk.waiters = [] → s.weighWaiters = p)
       ∧ ∀ w rest, p.trunk.waiters = w :: rest →
         let free := p.trunk.events.length + p.placesNeeded w ≤ 64 ∧ (w = .table → p.trunk.replies.length < 16)
         (free → s.weighWaiters = (p.serveWaiter w).weighWaiters) ∧ (¬ free → s.weighWaiters = p))
  ∧ (∀ (s : State) (l : LaneId), s.placesNeeded (.pipeline l) = 1 ∧ s.placesNeeded (.closing l) = 1
       ∧ (∀ c, s.noticed l = some c → s.placesNeeded (.group l) = (s.closeOutcome l c).1.length)
       ∧ (s.noticed l = none → s.placesNeeded (.group l) = 0)
       ∧ (s.tables.requests = [] → s.placesNeeded .table = 0)
       ∧ ∀ r rs, s.tables.requests = r :: rs → s.placesNeeded .table = (match requestKindOf r.kind with
         | .laneArm | .groupEnd => 1
         | .commit => s.commitPlaces r.body
         | _ => 0))
  ∧ (∀ (s : State) (l : LaneId),
       (∀ f item first second s' e, (s.lane l).passage = some ⟨f, item :: first, second⟩ →
         s.workItem l f item = (s', some e) → s.serveWaiter (.pipeline l) =
           (((s'.setPassage l (some ⟨f, first, second⟩)).leaveWaiters (.pipeline l)).placeRecord e))
       ∧ (∀ f item second s' e, (s.lane l).passage = some ⟨f, [], item :: second⟩ →
         s.workItem l f item = (s', some e) → s.serveWaiter (.pipeline l) =
           (((s'.setPassage l (some ⟨f, [], second⟩)).leaveWaiters (.pipeline l)).placeRecord e))
       ∧ (∀ c step rest s' e, (s.lane l).run = some c → c.closing = some (step :: rest) →
         s.closeStep l step = (s', some e) → s.serveWaiter (.closing l) =
           (((s'.setClosing l (some rest)).leaveWaiters (.closing l)).placeRecord e))
       ∧ (∀ c, s.noticed l = some c → s.serveWaiter (.group l) = s.handleNotice l c)
       ∧ (∀ r rs, s.tables.requests = r :: rs →
         let taken := s.dropHead.leaveWaiters .table
         (requestKindOf r.kind = .commit → s.serveWaiter .table = taken.takeCommit false r)
         ∧ (requestKindOf r.kind = .laneArm → s.serveWaiter .table = taken.takeArm false r)
         ∧ (requestKindOf r.kind = .groupEnd → s.serveWaiter .table = taken.takeGroupEnd false r)))

/-! ### Table manager -/

/-- TABLE WRITE: the first check that fails gives the status, and nothing changes (R169). -/
def Obligations.WriteChecked : Prop :=
  ∀ (s : State) (r : Request), s.serves .tableWrite r →
    let b := writeBodyOf r.body
    let refused := fun st => exec .tableWrite s = .next (s.dropHead.placeReply ⟨r.tag, st, false, []⟩)
    let formed := b.part ≤ 6 ∧ 1 ≤ b.count ∧ b.count ≤ 16 ∧ r.body.length = 1 + b.count
    (¬ formed → refused .badRequest)
    ∧ (formed → kindOf b.kind = none → refused .badKind)
    ∧ ∀ k, formed → kindOf b.kind = some k →
      (rowWords k < 16 * b.part + b.count → refused .badRequest)
      ∧ (16 * b.part + b.count ≤ rowWords k → (s.tables.stagingEntry k).limit ≤ b.row → refused .outOfLimit)
      ∧ (16 * b.part + b.count ≤ rowWords k → b.row < (s.tables.stagingEntry k).limit → s.stagingCaptured k = true →
        refused .inUse)

/-- An admitted TABLE WRITE without the last-part flag is stored in the kind's staging buffer, and the reply tells how many
words are there; with the flag the row is completed: INCOMPLETE_ROW with a word missing, BAD_VALUE when the row check
fails, and otherwise the row is written whole; PRIOR_DISCARDED when another row's words were discarded (R170,
R171; the presence word 7 of the first reply is log 9). A row written changes the words of that row of the staging copy and no other word of the table memory (R165). -/
def Obligations.WriteStored : Prop :=
  (∀ (s : State) (r : Request) (k : Kind) (prior : Bool), s.serves .tableWrite r → s.admitsWrite k r.body →
     (prior = true ↔ s.discards k r.body) → (writeBodyOf r.body).last = false →
     exec .tableWrite s = .next ((s.dropHead.setStaging k
       (.staging (writeBodyOf r.body).row (s.slotsAfter k r.body))).placeReply
         ⟨r.tag, .ok, prior, [7, natWord k.idx.val, natWord (writeBodyOf r.body).row,
           natWord ((s.slotsAfter k r.body).filter Option.isSome).length]⟩))
  ∧ (∀ (s : State) (r : Request) (k : Kind) (prior : Bool), s.serves .tableWrite r → s.admitsWrite k r.body →
       (prior = true ↔ s.discards k r.body) → (writeBodyOf r.body).last = true →
       let emptied := s.dropHead.setStaging k .empty
       (none ∈ s.slotsAfter k r.body →
         exec .tableWrite s = .next (emptied.placeReply ⟨r.tag, .incompleteRow, prior, []⟩))
       ∧ ∀ ws : List Word, s.slotsAfter k r.body = ws.map some →
         (rowOk k ws = false → exec .tableWrite s = .next (emptied.placeReply ⟨r.tag, .badValue, prior, []⟩))
         ∧ (rowOk k ws = true → exec .tableWrite s =
           .next ((emptied.writeRow k (writeBodyOf r.body).row ws).placeReply ⟨r.tag, .ok, prior, []⟩)))
  ∧ (∀ (s : State) (k : Kind) (row : Nat) (ws : List Word), s.tables.mem.wf = true → ws.length = rowWords k →
       (s.tables.stagingEntry k).base + (row + 1) * rowWords k ≤ 65536 →
       let base := (s.tables.stagingEntry k).base + row * rowWords k
       ∀ a, memRead (s.writeRow k row ws).tables.mem a =
         (if base ≤ a ∧ a < base + rowWords k then ws.getD (a - base) 0 else memRead s.tables.mem a))

/-- TABLE READ: a body of another length, a copy code above 1 or a part above 6 is refused BAD_REQUEST, an unknown kind
BAD_KIND, a part that the kind's rows do not have BAD_REQUEST, a row at or beyond the limit OUT_OF_LIMIT; part 0 copies the
row into the latch and answers with its first part; a later part is served from the latch when it holds the same row, and
answered NOT_LATCHED otherwise (R172). The presence word 63 of the reply, six fields from bit 0, is log 9. -/
def Obligations.RowRead : Prop :=
  (∀ (s : State) (r : Request), s.serves .tableRead r →
     let refused := fun st => exec .tableRead s = .next (s.dropHead.placeReply ⟨r.tag, st, false, []⟩)
     let code := bits (r.body.getD 0 0) 23 22
     let part := bits (r.body.getD 0 0) 14 12
     let kind := kindOf (bits (r.body.getD 0 0) 31 24)
     (r.body.length ≠ 1 ∨ 1 < code ∨ 6 < part → refused .badRequest)
     ∧ (r.body.length = 1 → code ≤ 1 → part ≤ 6 → kind = none → refused .badKind)
     ∧ ∀ k, r.body.length = 1 → code ≤ 1 → part ≤ 6 → kind = some k → rowParts k ≤ part → refused .badRequest)
  ∧ ∀ (s : State) (r : Request) (k : Kind), s.serves .tableRead r → r.body.length = 1 →
    bits (r.body.getD 0 0) 23 22 ≤ 1 → kindOf (bits (r.body.getD 0 0) 31 24) = some k →
    bits (r.body.getD 0 0) 14 12 < rowParts k →
    let part := bits (r.body.getD 0 0) 14 12
    let row := bits (r.body.getD 0 0) 11 0
    let ks := s.tables.kind k
    let c := if bits (r.body.getD 0 0) 23 22 = 0 then ks.current else !ks.current
    let served := fun ws : List Word => Reply.mk r.tag .ok false
      ([63, natWord k.idx.val, natWord (flag c), natWord row, natWord ks.generation.toNat, natWord (flag (c == ks.current))]
        ++ (ws.drop (16 * part)).take 16)
    ((ks.entry c).limit ≤ row → exec .tableRead s = .next (s.dropHead.placeReply ⟨r.tag, .outOfLimit, false, []⟩))
    ∧ (row < (ks.entry c).limit → part = 0 → exec .tableRead s =
      .next ((s.dropHead.modTables fun t => { t with latch := some ⟨k, c, row, s.tables.row k c row⟩ }).placeReply
        (served (s.tables.row k c row))))
    ∧ (row < (ks.entry c).limit → part ≠ 0 →
      (∀ ws, s.tables.latch = some ⟨k, c, row, ws⟩ → exec .tableRead s = .next (s.dropHead.placeReply (served ws)))
      ∧ ((∀ ws, s.tables.latch ≠ some ⟨k, c, row, ws⟩) →
        exec .tableRead s = .next (s.dropHead.placeReply ⟨r.tag, .notLatched, false, []⟩)))

/-- TABLE COPY: a body of another length is refused BAD_REQUEST, an unknown kind BAD_KIND, and a captured staging copy
IN_USE; otherwise the rows below both limits are copied word for word, the other words of the table memory, the directory,
the current indices, the generation numbers and the read latch stand, the staging buffer is emptied, and the reply carries
the number of rows (R173; its presence word 1 is log 9). -/
def Obligations.TableCopied : Prop :=
  (∀ (s : State) (r : Request), s.serves .tableCopy r →
     let refused := fun st => exec .tableCopy s = .next (s.dropHead.placeReply ⟨r.tag, st, false, []⟩)
     let kind := kindOf (bits (r.body.getD 0 0) 31 24)
     (r.body.length ≠ 1 → refused .badRequest) ∧ (r.body.length = 1 → kind = none → refused .badKind)
     ∧ ∀ k, r.body.length = 1 → kind = some k → s.stagingCaptured k = true → refused .inUse)
  ∧ (∀ (s : State) (r : Request) (k : Kind), s.serves .tableCopy r → r.body.length = 1 →
    kindOf (bits (r.body.getD 0 0) 31 24) = some k →
    s.stagingCaptured k = false → s.tables.mem.wf = true → s.tables.directoryLaw →
      let n := min (s.tables.currentEntry k).limit (s.tables.stagingEntry k).limit
      ∃ u : State, exec .tableCopy s = .next (u.placeReply
          ⟨r.tag, .ok, isStaging (s.tables.kind k).staging, [1, natWord n]⟩)
        ∧ u.lanes = s.lanes ∧ u.groups = s.groups ∧ u.trunk = s.trunk
        ∧ u.tables.latch = s.tables.latch ∧ u.tables.serial = s.tables.serial
        ∧ u.tables.requests = s.tables.requests.tail
        ∧ u.tables.kind k = { s.tables.kind k with staging := .empty }
        ∧ (∀ k', k' ≠ k → u.tables.kind k' = s.tables.kind k')
        ∧ (∀ row, row < n → u.tables.row k (!(s.tables.kind k).current) row = s.tables.row k (s.tables.kind k).current row)
        ∧ ∀ a, (a < (s.tables.stagingEntry k).base ∨ (s.tables.stagingEntry k).base + n * rowWords k ≤ a) →
          memRead u.tables.mem a = memRead s.tables.mem a)

/-- DIRECTORY SET: the first check that fails gives the status, and nothing changes; a set that passes gives the staging
entry its base and limit, the current entry stands, rows are kept below both limits when the base stands, every other row
of the new extent is zero, and a partial row is discarded (R167). -/
def Obligations.DirectorySetHandled : Prop :=
  (∀ (s : State) (r : Request), s.serves .directorySet r →
     let base := (r.body.getD 1 0).toNat
     let limit := (r.body.getD 2 0).toNat
     let refused := fun st => exec .directorySet s = .next (s.dropHead.placeReply ⟨r.tag, st, false, []⟩)
     (r.body.length ≠ 3 → refused .badRequest)
     ∧ (r.body.length = 3 → kindOf (bits (r.body.getD 0 0) 31 24) = none → refused .badKind)
     ∧ ∀ k, r.body.length = 3 → kindOf (bits (r.body.getD 0 0) 31 24) = some k →
       let fits := base ≤ 65535 ∧ limit ≤ maxRows k ∧ base + limit * rowWords k ≤ 65536
       let shares := limit ≠ 0 ∧ ∃ k' c', ¬ (k' = k ∧ c' = !(s.tables.kind k).current)
         ∧ ((s.tables.kind k').entry c').limit ≠ 0
         ∧ base < ((s.tables.kind k').entry c').base + ((s.tables.kind k').entry c').limit * rowWords k'
         ∧ ((s.tables.kind k').entry c').base < base + limit * rowWords k
       (s.stagingCaptured k = true → refused .inUse)
       ∧ (s.stagingCaptured k = false → ¬ fits → refused .outOfLimit)
       ∧ (s.stagingCaptured k = false → fits → shares → refused .overlap))
  ∧ (∀ (s : State) (r : Request) (k : Kind), s.serves .directorySet r → r.body.length = 3 →
       kindOf (bits (r.body.getD 0 0) 31 24) = some k → s.stagingCaptured k = false → s.tables.mem.wf = true →
       (r.body.getD 1 0).toNat ≤ 65535 → (r.body.getD 2 0).toNat ≤ maxRows k →
       (r.body.getD 1 0).toNat + (r.body.getD 2 0).toNat * rowWords k ≤ 65536 →
       s.tables.overlaps k (!(s.tables.kind k).current) ⟨(r.body.getD 1 0).toNat, (r.body.getD 2 0).toNat⟩ = false →
       let old := s.tables.stagingEntry k
       let new : DirEntry := ⟨(r.body.getD 1 0).toNat, (r.body.getD 2 0).toNat⟩
       ∃ u : State, exec .directorySet s = .next (u.placeReply ⟨r.tag, .ok, isStaging (s.tables.kind k).staging, []⟩)
         ∧ u.lanes = s.lanes ∧ u.groups = s.groups ∧ u.trunk = s.trunk ∧ u.tables.latch = s.tables.latch
         ∧ u.tables.stagingEntry k = new ∧ u.tables.currentEntry k = s.tables.currentEntry k
         ∧ (u.tables.kind k).staging = .empty
         ∧ (∀ k', k' ≠ k → u.tables.kind k' = s.tables.kind k')
         ∧ (∀ row, row < new.limit → new.base = old.base → row < old.limit →
           u.tables.row k (!(s.tables.kind k).current) row = s.tables.row k (!(s.tables.kind k).current) row)
         ∧ (∀ row, row < new.limit → (new.base ≠ old.base ∨ old.limit ≤ row) →
           u.tables.row k (!(s.tables.kind k).current) row = zeroRow k)
         ∧ ∀ a, (a < new.base ∨ new.base + new.limit * rowWords k ≤ a) → memRead u.tables.mem a = memRead s.tables.mem a)

/-- DIRECTORY READ, LANE QUERY and DEVICE QUERY change nothing but the request queue and answer with a snapshot (R59,
R168, R178); a request of unknown kind is answered BAD_REQUEST (R177, R183). The presence words, bit i for row i of the
reply's table and zero words for an absent field, are log 9; the elapsed seconds of a run timer, truncated, are log 8. -/
def Obligations.AnsweredWithoutEffect : Prop :=
  (∀ (s : State) (r : Request), s.serves .directoryRead r →
     (r.body = [] → exec .directoryRead s = .next (s.dropHead.placeReply ⟨r.tag, .ok, false,
       1 :: [Kind.tubeMap, .layout, .lane, .calibration, .mix, .callRules, .keep, .standard].flatMap fun k =>
         let ks := s.tables.kind k
         [natWord (flag ks.current), natWord ks.generation.toNat, natWord ks.copy0.base, natWord ks.copy0.limit,
           natWord ks.copy1.base, natWord ks.copy1.limit, natWord (flag (s.isCaptured k false)),
           natWord (flag (s.isCaptured k true))]⟩))
     ∧ (r.body ≠ [] → exec .directoryRead s = .next (s.dropHead.placeReply ⟨r.tag, .badRequest, false, []⟩)))
  ∧ (∀ (s : State) (r : Request), s.serves .laneQuery r → r.body.length = 1 →
       (bodyLane r.body = none → exec .laneQuery s = .next (s.dropHead.placeReply ⟨r.tag, .badLane, false, []⟩))
       ∧ ∀ l, bodyLane r.body = some l →
         let opener := (s.group l).opener
         let present := match (s.lane l).run with
           | none => 191 + 64 * flag opener.isSome
           | some c => 64447 + 64 * flag opener.isSome + 1024 * flag c.tracker.stamped.isSome
             + 65536 * flag ((s.lane l).runState == .closing)
         let openerWords : List Word := match opener with
           | none => [0, 0, 0]
           | some o => [o.serial, natWord o.calibration.toNat, natWord o.standard.toNat]
         let runWords : List Word := match (s.lane l).run with
           | none => List.replicate 19 0
           | some c => [c.serial, natWord (runKindCode c.kind)]
             ++ [natWord (c.tube.getD (0, 0)).1, natWord (c.tube.getD (0, 0)).2,
               if c.kind = .production then 0 else natWord c.profile]
             ++ (match c.tracker.stamped with
               | none => [0, 0]
               | some p => [posWord c.tracker.raw, posWord p])
             ++ [posWord c.matcher.correction] ++ timerWords c.armTimer ++ timerWords c.stallTimer
             ++ [natWord (c.matcher.cursor.entry.getD 255), natWord (dirCode c.matcher.cursor.dir)]
             ++ [natWord c.evaluator.indications.length, natWord c.forwarder.gaps.length, natWord c.forwarder.framesLost]
             ++ [natWord (closeFlagsNat (closeFlagsOf c))]
             ++ [if (s.lane l).runState = .closing then natWord ((c.reason.map reasonCode).getD 0) else 0]
         exec .laneQuery s = .next (s.dropHead.placeReply ⟨r.tag, .ok, false, natWord present ::
           [natWord (runStateCode (s.lane l).runState), natWord (flag ((s.lane l).rx.link == .up)),
             natWord (flag (s.lane l).rx.hold), natWord (s.lane l).rx.check, natWord (s.lane l).rx.format,
             natWord (s.lane l).rx.sequence, natWord (s.lane l).rx.overflow,
             natWord (flag (bitAt (wordAt (s.tables.currentRow .lane l.val) 0) 0)),
             natWord (groupStateCode (s.group l).state), natWord (flag (s.group l).pending),
             natWord (s.group l).number.toNat, natWord (s.group l).runs.length]
           ++ openerWords ++ [natWord (s.lane l).dataQueue.length, natWord (s.lane l).degrade] ++ runWords⟩)
         ∧ timerWords .stopped = [0, 0] ∧ ∀ ms, timerWords (.paused ms) = [1, natWord (ms / 1000)]
           ∧ timerWords (.running ms) = [2, natWord (ms / 1000)])
  ∧ (∀ (s : State) (r : Request), s.serves .deviceQuery r →
       (r.body = [] → exec .deviceQuery s = .next (s.dropHead.placeReply ⟨r.tag, .ok, false,
         255 :: natWord 2608 :: natWord 1
           :: ([Kind.tubeMap, .layout, .lane, .calibration, .mix, .callRules, .keep, .standard].flatMap fun k =>
             [natWord (flag (s.tables.kind k).current), natWord (s.tables.kind k).generation.toNat]
               ++ (match (s.tables.kind k).staging with
                 | .empty => [0, 0, 0]
                 | .staging row ws => [1, natWord row, natWord (ws.filter Option.isSome).length])
               ++ [natWord (flag (s.stagingCaptured k))])
           ++ [natWord s.trunk.pool.headers, natWord s.trunk.pool.payload]
           ++ (s.trunk.accounts.toList.flatMap fun a => [natWord a.headers, natWord a.payload])
           ++ [natWord s.trunk.eventCredit]
           ++ [natWord s.trunk.events.length, natWord s.trunk.replies.length, natWord (s.tables.requests.length - 1)]
           ++ (s.lanes.toList.map fun ln => natWord ln.dataQueue.length)
           ++ [s.tables.serial.getD 0, natWord s.trunk.check]⟩))
       ∧ (r.body ≠ [] → exec .deviceQuery s = .next (s.dropHead.placeReply ⟨r.tag, .badRequest, false, []⟩)))
  ∧ (∀ (s : State) (r : Request), s.serves .unknown r →
       exec .unknownRequestKind s = .next (s.dropHead.placeReply ⟨r.tag, .badRequest, false, []⟩))

/-- COMMIT: mask 0 is answered OK and changes nothing (with the generation numbers: the model's reading, log 7); a masked
kind with a partial row, or with a staging copy of limit 0, refuses the commit for every kind, without EVENT queue room
(log 6); one that passes and has the room R129 asks for flips every masked kind's current index and raises its generation
number in one act, closes or marks the groups when the mask names CALIBRATION or STANDARD, with one GROUP CLOSE for each
lane whose group closes at once, in lane order (log 22), and weighs OFFLINE and IDLE again when it names LANE (R129, R174,
R175). The room waiters are then weighed again (R157; log 5). That the eight numbers of the reply are one field is log 9. -/
def Obligations.CommitHandled : Prop :=
  (∀ (s : State) (r : Request) (first : Bool), s.serves .commit r →
     let mask := commitMask r.body
     let partialRow := ∃ k, mask.testBit k.idx.val = true ∧ (s.tables.kind k).staging ≠ .empty
     let empty := ∃ k, mask.testBit k.idx.val = true ∧ (s.tables.stagingEntry k).limit = 0
     let answered := fun st => exec (.commit first) s
       = .next ((s.dropHead.leaveWaiters .table).placeReply ⟨r.tag, st, false, []⟩).weighWaiters
     (r.body.length ≠ 1 → answered .badRequest)
     ∧ (r.body.length = 1 → mask = 0 → exec (.commit first) s = .next ((s.dropHead.leaveWaiters .table).placeReply
         ⟨r.tag, .ok, false, 1 :: [Kind.tubeMap, .layout, .lane, .calibration, .mix, .callRules, .keep, .standard].map
           fun k => natWord (s.tables.kind k).generation.toNat⟩).weighWaiters)
     ∧ (r.body.length = 1 → partialRow → answered .partialRow)
     ∧ (r.body.length = 1 → ¬ partialRow → empty → answered .noTable))
  ∧ (∀ (s : State) (r : Request) (first : Bool), s.serves .commit r → r.body.length = 1 →
       let mask := commitMask r.body
       let supersedes := mask.testBit 3 = true ∨ mask.testBit 7 = true
       let closes := fun l : LaneId => (s.group l).state = .opened ∧ (s.lane l).run = none
       mask ≠ 0 → (∀ k, mask.testBit k.idx.val = true →
         (s.tables.kind k).staging = .empty ∧ (s.tables.stagingEntry k).limit ≠ 0) →
       (supersedes → s.eventRoom .table s.supersedeRecords.length ∨ ∀ l, ¬ closes l) →
       let t := (s.dropHead.leaveWaiters .table).takeCommit first r
       exec (.commit first) s = .next t.weighWaiters ∧ t.tables.mem = s.tables.mem
         ∧ (s.trunk.isSending → t.trunk.replies = s.trunk.replies ++ [⟨r.tag, .ok, false,
             1 :: [Kind.tubeMap, .layout, .lane, .calibration, .mix, .callRules, .keep, .standard].map
               fun k => natWord (t.tables.kind k).generation.toNat⟩])
         ∧ (s.trunk.isSending → t.trunk.events = s.trunk.events ++ (if supersedes then s.supersedeRecords else []))
         ∧ (∀ k, t.tables.kind k = (if mask.testBit k.idx.val then
             { s.tables.kind k with
               current := !(s.tables.kind k).current, generation := (s.tables.kind k).generation + 1 }
             else s.tables.kind k))
         ∧ (∀ l, t.group l = (if supersedes ∧ closes l then closedGroup (s.group l)
             else if supersedes ∧ (s.group l).state = .opened then { s.group l with pending := true }
             else s.group l))
         ∧ (∀ l, (s.lane l).run.isSome = true → (t.lane l).runState = (s.lane l).runState)
         ∧ (∀ l, (s.lane l).run = none → mask.testBit 2 = true → (t.lane l).runState =
             (if bitAt (wordAt (t.tables.currentRow .lane l.val) 0) 0 = true ∧ (s.lane l).rx.link = .up then .idle
               else .offline)))
  ∧ (∀ s : State, s.supersedeRecords
       = ((List.finRange 8).filter fun l => (s.group l).state == .opened && (s.lane l).run.isNone).map fun l =>
         .groupClose l (s.group l).number .superseded none none (s.group l).runs)

/-- A request whose REPLY queue has no room, or that is not of the command's kind, waits: nothing changes (R159, R177;
log 1). A LANE ARM or GROUP END without EVENT queue room, and a COMMIT that needs places and finds too few, joins the room
waiters, once, and changes nothing else (R157); that want of REPLY queue room alone never lists a request, and that a
request joins or keeps its place while the REPLY queue is full too, is log 17. A COMMIT needs the places of the GROUP CLOSE
records it would place, and none when it would be refused (R129; log 6). -/
def Obligations.RequestsWait : Prop :=
  (∀ (s : State) (c : Instr) (k : RequestKind),
     (c, k) ∈ [(Instr.tableWrite, RequestKind.tableWrite), (.tableRead, .tableRead), (.tableCopy, .tableCopy),
       (.directorySet, .directorySet), (.directoryRead, .directoryRead), (.laneQuery, .laneQuery),
       (.laneClear, .laneClear), (.deviceQuery, .deviceQuery), (.unknownRequestKind, .unknown),
       (.laneAbort false, .laneAbort), (.laneAbort true, .laneAbort)] →
     ((∀ r, ¬ s.headIs k r) ∨ 16 ≤ s.trunk.replies.length) → exec c s = .next s)
  ∧ (∀ (s : State) (c : Instr) (k : RequestKind) (b : Bool),
       (c, k) ∈ [(Instr.laneArm b, RequestKind.laneArm), (.groupEnd b, .groupEnd), (.commit b, .commit)] →
       ((∀ r, ¬ s.headIs k r) → exec c s = .next s)
       ∧ ∀ r, s.headIs k r →
         let n := if k = .commit then s.commitPlaces r.body else 1
         (n ≠ 0 → ¬ s.eventRoom .table n → exec c s = .next (s.modTrunk fun t =>
           { t with waiters := if Waiter.table ∈ t.waiters then t.waiters else t.waiters ++ [.table] }))
         ∧ (n = 0 ∨ s.eventRoom .table n → 16 ≤ s.trunk.replies.length → exec c s = .next s))
  ∧ (∀ (s : State) (body : List Word),
       let mask := commitMask body
       let passes := body.length = 1 ∧ ∀ k : Kind, mask.testBit k.idx.val = true →
         (s.tables.kind k).staging = .empty ∧ (s.tables.stagingEntry k).limit ≠ 0
       (passes → (mask.testBit 3 = true ∨ mask.testBit 7 = true) → s.commitPlaces body = s.supersedeRecords.length)
       ∧ (¬ (passes ∧ (mask.testBit 3 = true ∨ mask.testBit 7 = true)) → s.commitPlaces body = 0))

/-! ### Lane and device requests -/

/-- LANE ARM: a bad body is refused BAD_REQUEST, BAD_LANE or BAD_VALUE (R40); with a good one the first admission check
that fails gives the status, and nothing changes but the request and its place among the waiters (R41); the tube map
search takes the first matching zone below the limit (R62). -/
def Obligations.ArmRefused : Prop :=
  (∀ (s : State) (r : Request) (first : Bool), s.serves .laneArm r → s.eventRoom .table 1 →
     let code := bits (r.body.getD 0 0) 23 16
     let lane := bits (r.body.getD 0 0) 31 24
     let refused := fun st =>
       exec (.laneArm first) s = .next ((s.dropHead.leaveWaiters .table).placeReply ⟨r.tag, st, false, []⟩)
     ((code ≠ 1 ∧ code ≠ 2) ∨ r.body.length ≠ 2 → refused .badRequest)
     ∧ (code = 1 ∨ code = 2 → r.body.length = 2 → 8 ≤ lane → refused .badLane)
     ∧ (code = 1 → r.body.length = 2 → lane < 8 →
       bits (r.body.getD 1 0) 25 16 = 0 ∨ bits (r.body.getD 1 0) 9 0 = 0 → refused .badValue))
  ∧ (∀ (s : State) (r : Request) (first : Bool) (l : LaneId) (kind : RunKind), s.serves .laneArm r →
       s.eventRoom .table 1 → r.body.length = 2 → bodyLane r.body = some l →
       armKindOf (bits (r.body.getD 0 0) 23 16) = some kind →
       let row := bits (r.body.getD 1 0) 25 16
       let col := bits (r.body.getD 1 0) 9 0
       (kind = .production → 1 ≤ row ∧ 1 ≤ col) →
       let profile := match kind with
         | .production => s.zoneProfileOf row col
         | .standard => some (bits (r.body.getD 1 0) 7 0)
       let valid := ∃ p, profile = some p ∧ p < (s.tables.currentEntry .layout).limit
         ∧ layoutCount (s.tables.currentRow .layout p) ≠ 0
       let refused := fun st =>
         exec (.laneArm first) s = .next ((s.dropHead.leaveWaiters .table).placeReply ⟨r.tag, st, false, []⟩)
       let idle := (s.lane l).runState = .idle
       let opened := (s.group l).state = .opened ∧ (s.group l).pending = false
       ((s.lane l).runState = .offline → refused .offline)
       ∧ (¬ idle → (s.lane l).runState ≠ .offline → refused .notIdle)
       ∧ (idle → ¬ valid → refused .noLayout)
       ∧ (idle → valid → kind = .production → ¬ opened → refused .needsStandard)
       ∧ (idle → valid → kind = .production → opened → 240 ≤ (s.group l).runs.length → refused .groupFull)
       ∧ (idle → valid → (kind = .production → opened ∧ (s.group l).runs.length < 240) → s.tables.serial = none →
         refused .outOfLimit))
  ∧ (∀ (s : State) (row col p : Nat),
       s.zoneProfileOf row col = some p ↔
         ∃ i, i < (s.tables.currentEntry .tubeMap).limit ∧ zoneMatches (s.tables.currentRow .tubeMap i) row col = true
           ∧ (∀ j, j < i → zoneMatches (s.tables.currentRow .tubeMap j) row col = false)
           ∧ p = bits (wordAt (s.tables.currentRow .tubeMap i) 2) 7 0)

/-- LANE ARM that passes every check: the run is created and ARMED, takes the serial, captures the current copies, the
counter advances, a production run is listed in its group, RUN OPEN and the OK reply are placed (R42, R43, R119); the
presence word 1 of the reply is log 9. -/
def Obligations.ArmAdmitted : Prop :=
  ∀ (s : State) (r : Request) (first : Bool) (p : ArmPlan), s.serves .laneArm r → s.eventRoom .table 1 →
    s.armDecision r.body = .admitted p →
    ∃ t, exec (.laneArm first) s = .next t
      ∧ (t.lane p.lane).runState = .armed ∧ (t.lane p.lane).run = some (s.newRun p)
      ∧ (t.lane p.lane).degrade = 0
      ∧ s.tables.serial = some p.serial
      ∧ t.tables = { s.tables with
          requests := s.tables.requests.tail
          serial := if p.serial.toNat = 4294967295 then none else some (p.serial + 1) }
      ∧ t.group p.lane = { s.group p.lane with
          runs := (s.group p.lane).runs ++ (match p.tube with
            | some tube => [⟨p.serial, tube.1, tube.2⟩]
            | none => []) }
      ∧ (∀ k, k ≠ p.lane → t.group k = s.group k ∧ (t.lane k).own = (s.lane k).own)
      ∧ (s.trunk.isSending → t.trunk.replies = s.trunk.replies ++ [⟨r.tag, .ok, false, [1, p.serial]⟩]
        ∧ t.trunk.events = s.trunk.events ++ [.runOpen p.lane p.serial p.kind p.tube p.profile
            ([Kind.tubeMap, .layout, .lane, .calibration, .mix, .callRules, .keep, .standard].map s.generation)])

/-- The values of a run context at admission (R18, R42, R64, R85, R112, R135). -/
def Obligations.RunStartsFresh : Prop :=
  ∀ (s : State) (p : ArmPlan),
    let c := s.newRun p
    c.serial = p.serial ∧ c.kind = p.kind ∧ c.tube = p.tube ∧ c.profile = p.profile
    ∧ (∀ k : Kind, (c.captured[k.idx]) = ⟨(s.tables.kind k).current, (s.tables.kind k).generation⟩)
    ∧ c.tracker = ⟨none, 0, 0, 0, 0, none, none, 0, 0, false, false, none⟩
    ∧ c.matcher = ⟨0, ⟨some 0, .push⟩, none, 0, 0, 0, 0, false⟩
    ∧ (∀ i : Fin 16, c.balance[i]
        = (calibrationRowOf (s.tables.currentRow .calibration (p.lane.val * 16 + i.val))).balance)
    ∧ c.heldLoss = none ∧ c.evaluator.indications = [] ∧ c.evaluator.overflow = false
    ∧ (∀ i : Fin 32, c.evaluator.rules[i] = none) ∧ (∀ i : Fin 16, c.evaluator.classCounts[i] = 0)
    ∧ (∀ i : Fin 8, c.evaluator.captures[i] =
        (if p.kind = .standard ∧ (standardRowOf (s.tables.currentRow .standard i.val)).used = true then
          some ⟨.unseen, (standardRowOf (s.tables.currentRow .standard i.val)).channels.map fun _ => none⟩
        else none))
    ∧ c.forwarder.block = none ∧ c.forwarder.blockNumber = 0 ∧ (∀ i : Fin 32, c.forwarder.keep[i] = .none)
    ∧ c.forwarder.lastHandled = none ∧ c.forwarder.gaps = [] ∧ c.forwarder.framesLost = 0
    ∧ c.forwarder.gapOverflow = false ∧ c.standardIncomplete = false ∧ c.verdict = none
    ∧ c.armTimer = .running 0 ∧ c.stallTimer = .stopped ∧ c.reason = none ∧ c.closing = none

/-- LANE ABORT: a bad lane, a lane that is OFFLINE, IDLE or CLOSING, or an open run that then closes ABORTED (R50). LANE
CLEAR: the reply carries the four counters as they stood, and they are set to 0 in the same act (R12). LANE ABORT's operand
picks the order of its reply and the closing's records (log 4). The presence words 1 and 15 of the replies are log 9. -/
def Obligations.AbortAndClear : Prop :=
  (∀ (s : State) (r : Request) (first : Bool), s.serves .laneAbort r → r.body.length = 1 →
     (bodyLane r.body = none →
       exec (.laneAbort first) s = .next (s.dropHead.placeReply ⟨r.tag, .badLane, false, []⟩))
     ∧ ∀ l, bodyLane r.body = some l →
       (((s.lane l).runState = .offline ∨ (s.lane l).runState = .idle ∨ (s.lane l).runState = .closing) →
         exec (.laneAbort first) s = .next (s.dropHead.placeReply ⟨r.tag, .notActive, false, []⟩))
       ∧ (∀ c, (s.lane l).run = some c →
         ((s.lane l).runState = .armed ∨ (s.lane l).runState = .inserting ∨ (s.lane l).runState = .pulling) →
         ∃ t d, exec (.laneAbort first) s = .next t ∧ (t.lane l).runState = .closing ∧ (t.lane l).run = some d
           ∧ d.serial = c.serial ∧ d.reason = some .aborted ∧ d.armTimer = .stopped ∧ d.stallTimer = .stopped
           ∧ (∀ k, k ≠ l → (t.lane k).own = (s.lane k).own) ∧ t.groups = s.groups
           ∧ exec (.laneAbort false) s =
             .next ((s.dropHead.enterClosing l .aborted).placeReply ⟨r.tag, .ok, false, [1, c.serial]⟩)
           ∧ exec (.laneAbort true) s =
             .next ((s.dropHead.placeReply ⟨r.tag, .ok, false, [1, c.serial]⟩).enterClosing l .aborted)))
  ∧ (∀ (s : State) (r : Request), s.serves .laneClear r → r.body.length = 1 →
       (bodyLane r.body = none → exec .laneClear s = .next (s.dropHead.placeReply ⟨r.tag, .badLane, false, []⟩))
       ∧ ∀ l, bodyLane r.body = some l →
         exec .laneClear s = .next ((s.dropHead.modRx l fun rx =>
           { rx with check := 0, format := 0, sequence := 0, overflow := 0 }).placeReply ⟨r.tag, .ok, false,
             [15, natWord (s.lane l).rx.check, natWord (s.lane l).rx.format, natWord (s.lane l).rx.sequence,
               natWord (s.lane l).rx.overflow]⟩))

/-- GROUP END: refused for a bad lane and while a run is open; an OPEN group closes UNVERIFIED; the OK reply carries the
group number and the state after (R131). The command's operand picks the order of reply and record (log 4); the presence
word 3 of the reply is log 9. -/
def Obligations.GroupEnded : Prop :=
  ∀ (s : State) (r : Request) (first : Bool), s.serves .groupEnd r → s.eventRoom .table 1 → r.body.length = 1 →
    let taken := s.dropHead.leaveWaiters .table
    (bodyLane r.body = none → exec (.groupEnd first) s = .next (taken.placeReply ⟨r.tag, .badLane, false, []⟩))
    ∧ ∀ l, bodyLane r.body = some l →
      ((s.lane l).run.isSome = true → exec (.groupEnd first) s = .next (taken.placeReply ⟨r.tag, .notIdle, false, []⟩))
      ∧ ((s.lane l).run = none → (s.group l).state ≠ .opened → exec (.groupEnd first) s =
        .next (taken.placeReply ⟨r.tag, .ok, false,
          [3, natWord (s.group l).number.toNat, natWord (groupStateCode (s.group l).state)]⟩))
      ∧ ((s.lane l).run = none → (s.group l).state = .opened →
        let closed := EventRecord.groupClose l (s.group l).number .unverified none none (s.group l).runs
        let reply : Reply := ⟨r.tag, .ok, false, [3, natWord (s.group l).number.toNat, 2]⟩
        (exec (.groupEnd false) s =
          .next (((taken.placeRecord closed).setGroup l (closedGroup (s.group l))).placeReply reply))
        ∧ exec (.groupEnd true) s =
          .next (((taken.placeReply reply).placeRecord closed).setGroup l (closedGroup (s.group l))))

/-- Which commands may change a group record, the table memory and directory, and the current indices and generation
numbers (R117, R166). A command that weighs the room waiters may serve a waiting COMMIT, LANE ARM, GROUP END or close
handling (R157; log 5): with none of these listed it changes none of them for another's sake. -/
def Obligations.OwnersOfSharedState : Prop :=
  ∀ (c : Instr) (s t : State), exec c s = .next t →
    let weighs := c = .transmitComplete ∨ (∃ ws, c = .eventCredit ws ∨ c = .dataCredit ws ∨ c = .requestArrival ws
      ∨ c = .stationFrameInvalid ws) ∨ (∃ l, c = .closeHandling l) ∨ ∃ b, c = .commit b
    (c ≠ .tableWrite → c ≠ .tableCopy → c ≠ .directorySet → c ≠ .powerOn →
      t.tables.mem = s.tables.mem ∧ ∀ k i, (t.tables.kind k).entry i = (s.tables.kind k).entry i)
    ∧ ((∀ b, c ≠ .commit b) → c ≠ .powerOn → (weighs → Waiter.table ∉ s.trunk.waiters) →
      ∀ k, (t.tables.kind k).current = (s.tables.kind k).current
        ∧ (t.tables.kind k).generation = (s.tables.kind k).generation)
    ∧ ((∀ b, c ≠ .commit b ∧ c ≠ .laneArm b ∧ c ≠ .groupEnd b) → (∀ l, c ≠ .closeHandling l) → c ≠ .deviceReset →
      c ≠ .powerOn → c ≠ .lineResetAssert → c ≠ .lineResetRelease →
      (weighs → Waiter.table ∉ s.trunk.waiters ∧ ∀ l, Waiter.group l ∉ s.trunk.waiters) → t.groups = s.groups)

/-! ### Shared rules -/

/-- Gain and clipping of a mapped channel, and its over-range (R88); the turn by cosine and sine held in 1/16384, truncated
toward zero, with the values R87 lists, quarter turns apart at every angle and of length 16384 but for the rounding (R87);
the magnitude is the integer part of the square root of X² + Y² for every component pair, and the phases at the four axes
are exact (R91). A mix channel is its primary less the image of its secondary, clipped; without an enabled row it is
unformed (R83, R90). A NORMAL frame of INSERTING with no candidate open moves the balance of every mapped channel that a
slot feeds and whose rate is 1..8 by the sample less the balance over 2^rate, truncated; any other frame leaves it (R86). -/
def Obligations.ConditionedChannel : Prop :=
  (∀ (cal : CalibrationRow) (bal : XY) (slot : Slot),
     let turned := rotate cal.rotation ⟨slot.x.toInt - bal.x, slot.y.toInt - bal.y⟩
     let gx := (turned.x * cal.gain).tdiv 256
     let gy := (turned.y * cal.gain).tdiv 256
     let ch := mappedChannel cal bal slot
     ch.formed = true ∧ ch.x = max (-32768) (min 32767 gx) ∧ ch.y = max (-32768) (min 32767 gy)
     ∧ (ch.overRange = true ↔ gx < -32768 ∨ 32767 < gx ∨ gy < -32768 ∨ 32767 < gy ∨ slot.overRange = true)
     ∧ ch.mag = magnitudeOf ch.x ch.y ∧ ch.phase = phaseOf ch.x ch.y)
  ∧ (∀ x y : Int, -32768 ≤ x → x ≤ 32767 → -32768 ≤ y → y ≤ 32767 →
       (magnitudeOf x y : Int) * magnitudeOf x y ≤ x * x + y * y
       ∧ x * x + y * y < ((magnitudeOf x y : Int) + 1) * ((magnitudeOf x y : Int) + 1))
  ∧ (phaseOf 0 0 = 0 ∧ ∀ n : Int, 0 < n → phaseOf n 0 = 0 ∧ phaseOf 0 n = 900 ∧ phaseOf (-n) 0 = 1800 ∧ phaseOf 0 (-n) = 2700)
  ∧ (∀ (tenths : Nat) (v : XY), rotate tenths v
       = ⟨(v.x * (cosSin tenths).x - v.y * (cosSin tenths).y).tdiv 16384,
          (v.x * (cosSin tenths).y + v.y * (cosSin tenths).x).tdiv 16384⟩)
  ∧ (cosSin 0 = ⟨16384, 0⟩ ∧ cosSin 300 = ⟨14189, 8192⟩ ∧ cosSin 450 = ⟨11585, 11585⟩ ∧ cosSin 900 = ⟨0, 16384⟩
     ∧ cosSin 1800 = ⟨-16384, 0⟩ ∧ cosSin 2700 = ⟨0, -16384⟩)
  ∧ (∀ a : Nat, (a < 2700 → cosSin (a + 900) = ⟨-(cosSin a).y, (cosSin a).x⟩)
       ∧ (a < 3600 → ((cosSin a).x * (cosSin a).x + (cosSin a).y * (cosSin a).y - 268435456).natAbs ≤ 23172))
  ∧ (∀ (m : MixRow) (p q : Channel),
       let x := p.x - (m.xx * q.x + m.xy * q.y).tdiv 4096
       let y := p.y - (m.yx * q.x + m.yy * q.y).tdiv 4096
       let ch := mixChannel m p q
       (m.enabled = false → ch = ⟨false, 0, 0, false, 0, 0⟩)
       ∧ (m.enabled = true → ch.formed = true ∧ ch.x = max (-32768) (min 32767 x) ∧ ch.y = max (-32768) (min 32767 y)
         ∧ (ch.overRange = true ↔
           x < -32768 ∨ 32767 < x ∨ y < -32768 ∨ 32767 < y ∨ p.overRange = true ∨ q.overRange = true)
         ∧ ch.mag = magnitudeOf ch.x ch.y ∧ ch.phase = phaseOf ch.x ch.y))
  ∧ (∀ (s : State) (l : LaneId) (c : RunContext) (cls : FrameClass) (ph : Phase) (slots : List Slot),
       let u := s.trackedBalance l c cls ph slots
       (¬ (cls = .normal ∧ ph = .inserting ∧ c.matcher.candidate = none) → u = c.balance)
       ∧ (cls = .normal → ph = .inserting → c.matcher.candidate = none → ∀ ch : Fin 16,
         (feedingSlot (s.laneRow l).slotMap slots ch.val = none → u[ch] = c.balance[ch])
         ∧ ∀ slot, feedingSlot (s.laneRow l).slotMap slots ch.val = some slot →
           let k := (s.calibrationRow l ch.val).rate
           ((k = 0 ∨ 8 < k) → u[ch] = c.balance[ch])
           ∧ (1 ≤ k → k ≤ 8 → u[ch]
             = ⟨(c.balance[ch]).x + (slot.x.toInt - (c.balance[ch]).x).tdiv (2 ^ k),
                (c.balance[ch]).y + (slot.y.toInt - (c.balance[ch]).y).tdiv (2 ^ k)⟩)))

/-- The comparison of a capture with a reference value under a magnitude and a phase tolerance (R121). How a reference's
capture state moves on a NORMAL frame of the pull by its position and the window (R113), the peaks it tracks and the floor
they must reach (R115), how a loss interval that shares a position with the window breaks it, before the frame moves it
(R114), and that only frames of a STANDARD run's pull capture, at once (R112). The verdict of a run: NOT_EVALUATED when it
did not close COMPLETE or a used reference is not captured, otherwise ACCEPTED when every compared channel lies within the
acceptance tolerances, else REJECTED (R54, R122). -/
def Obligations.CaptureCompared : Prop :=
  (∀ (magTol phaseTol : Nat) (capture reference : Peak), capture.phase ≤ 3599 → reference.phase ≤ 3599 →
    let dm := ((capture.mag : Int) - reference.mag).natAbs
    let da := ((capture.phase : Int) - reference.phase).natAbs
    let distance := if da ≤ 1800 then da else 3600 - da
    ((comparePeak magTol phaseTol capture reference).magError = true ↔ magTol * reference.mag < dm * 100)
    ∧ ((comparePeak magTol phaseTol capture reference).phaseError = true ↔ phaseTol < distance)
    ∧ (liesWithin (comparePeak magTol phaseTol capture reference) = true ↔
      dm * 100 ≤ magTol * reference.mag ∧ distance ≤ phaseTol))
  ∧ (∀ (row : StandardRow) (f : Frame) (r : RefCapture),
       let deep := row.nominal + row.halfWidth < f.corrected
       let shallow := f.corrected < row.nominal - row.halfWidth
       let u := captureStep row f r
       let put := fun st : CaptureState => { r with state := st }
       (r.state = .unseen → (deep → u = put .deep) ∧ (¬ deep → u = put .broken))
       ∧ (r.state = .deep → (deep → u = r) ∧ (¬ deep → shallow → u = put .broken)
         ∧ (¬ deep → ¬ shallow → u = trackReference row f r))
       ∧ (r.state = .inside → (deep → u = r) ∧ (¬ deep → ¬ shallow → u = trackReference row f r)
         ∧ (¬ deep → shallow → (∀ p ∈ r.peaks, ∃ q, p = some q ∧ row.floor ≤ q.mag) → u = put .captured)
         ∧ (¬ deep → shallow → ¬ (∀ p ∈ r.peaks, ∃ q, p = some q ∧ row.floor ≤ q.mag) → u = put .belowFloor))
       ∧ ((r.state = .captured ∨ r.state = .belowFloor ∨ r.state = .broken) → u = r))
  ∧ (∀ (row : StandardRow) (f : Frame) (r : RefCapture),
       (trackReference row f r).state = .inside
       ∧ ∀ (i ch : Nat) (p : Option Peak), row.channels[i]? = some ch → r.peaks[i]? = some p →
         let now : Peak := ⟨(channelAt f.channels ch).mag, (channelAt f.channels ch).phase⟩
         (p = none → (trackReference row f r).peaks[i]? = some (some now))
         ∧ ∀ old, p = some old →
           (old.mag < now.mag → (trackReference row f r).peaks[i]? = some (some now))
           ∧ (now.mag ≤ old.mag → (trackReference row f r).peaks[i]? = some (some old)))
  ∧ (∀ (row : StandardRow) (f : Frame) (r : RefCapture),
       let tested := f.cls = .fault ∨ 0 < f.lost
       let shares := row.nominal - row.halfWidth ≤ max f.lossStart f.corrected
         ∧ min f.lossStart f.corrected ≤ row.nominal + row.halfWidth
       let open' := r.state = .unseen ∨ r.state = .deep ∨ r.state = .inside
       (tested → shares → open' → captureReference row f r = { r with state := .broken })
       ∧ (¬ (tested ∧ shares ∧ open') →
         captureReference row f r = (if f.cls = .normal then captureStep row f r else r)))
  ∧ (∀ (rows : Nat → StandardRow) (f : Frame) (c : RunContext),
       let captures := c.kind = .standard ∧ f.phase = .pulling ∧ (f.cls = .normal ∨ f.cls = .fault)
       (¬ captures → (doneAtOnce rows f c).evaluator = c.evaluator)
       ∧ (captures → ∀ k : Fin 8, (doneAtOnce rows f c).evaluator.captures[k]
         = (c.evaluator.captures[k]).map (captureReference (rows k) f)))
  ∧ (∀ (rows : Nat → StandardRow) (c : RunContext),
       let captured := ∀ k : Fin 8, (rows k).used = true → ∃ r, c.evaluator.captures[k] = some r ∧ r.state = .captured
       let within := ∀ (k : Fin 8) (r : RefCapture), (rows k).used = true → c.evaluator.captures[k] = some r →
         ∀ (i : Nat) (p x : Peak), (r.peaks.map fun q => q.getD ⟨0, 0⟩)[i]? = some p → (rows k).expected[i]? = some x →
           liesWithin (comparePeak (rows k).accMag (rows k).accPhase p x) = true
       ((c.reason ≠ some .complete ∨ ¬ captured) → verdictOf rows c = .notEvaluated)
       ∧ (c.reason = some .complete → captured → within → verdictOf rows c = .accepted)
       ∧ (c.reason = some .complete → captured → ¬ within → verdictOf rows c = .rejected))

/-- The effective exponent by degrade level and keep state, capped at 7 (R139). A stretch entered in the gap list leaves at
most 16 intervals, well formed, apart and deepest first, that cover every position covered before and the stretch, and no
other position unless 16 intervals were held and none was touched, which sets GAP_LIST_OVERFLOW (R146). The keep record's
moves (R138). An entry handled (R140): a gap before closes the open block and is entered; a block of another keep state or
exponent is closed; outside keep at level 4 the open block is closed and the stretch entered as a gap; otherwise the entry
is gathered into the open block, begun for it if none is open. A full group, and what is left of one at a close, forms a
DATA entry, the first values or the truncated mean; 32 entries close the block (R141). A closed block takes the next number
and goes to the DATA queue's tail while fewer than 8 are held, the degrade level rising by 1, at most to 4, when 6 or more
are then held; else it is discarded, its stretch is a gap and the level rises (R142, R143, R144). -/
def Obligations.ForwarderRules : Prop :=
  (∀ row : KeepRow,
     (∀ level, level ≤ 3 → effectiveExponent row false level = some (min 7 (row.outside + level)))
     ∧ effectiveExponent row false 4 = none
     ∧ (∀ level, level ≤ 2 → effectiveExponent row true level = some (min 7 row.inside))
     ∧ effectiveExponent row true 3 = some (min 7 (row.inside + 1))
     ∧ effectiveExponent row true 4 = some (min 7 (row.inside + 2)))
  ∧ (∀ (g : Interval) (f : Forwarder), g.shallow ≤ g.deep → gapsFormed f.gaps → gapsApart f.gaps → f.gaps.length ≤ 16 →
       let u := gapEnter g f
       gapsFormed u.gaps ∧ gapsApart u.gaps ∧ u.gaps.length ≤ 16
       ∧ (∀ q, gapsCover f.gaps q ∨ (g.shallow ≤ q ∧ q ≤ g.deep) → gapsCover u.gaps q)
       ∧ ((f.gaps.length < 16 ∨ f.gaps.any (gapsTouch g) = true) → u.gapOverflow = f.gapOverflow
         ∧ ∀ q, gapsCover u.gaps q → gapsCover f.gaps q ∨ (g.shallow ≤ q ∧ q ≤ g.deep))
       ∧ (f.gaps.length = 16 → f.gaps.any (gapsTouch g) = false → u.gapOverflow = true))
  ∧ (∀ b q d x : Int,
       keepOpened b .none = .opened b ∧ keepOpened b (.opened d) = .opened d ∧ keepOpened b (.bounded d x) = .opened (max d b)
       ∧ keepBounded b .none = .none ∧ keepBounded b (.opened d) = .bounded d b ∧ keepBounded b (.bounded d x) = .bounded d x
       ∧ keepRetired q .none = .none ∧ keepRetired q (.opened d) = .opened d
       ∧ keepRetired q (.bounded d x) = (if q < min d x then .none else .bounded d x))
  ∧ (∀ (average : Bool) (values : List XY) (q : Int) (b : OpenBlock),
       let gathered : Gather := if b.gather.count = 0 then ⟨1, values⟩
         else ⟨b.gather.count + 1, if average then List.zipWith (fun v w => ⟨v.x + w.x, v.y + w.y⟩) b.gather.values values
           else b.gather.values⟩
       let formed := if average then
           gathered.values.map fun v => XY.mk (v.x.tdiv gathered.count) (v.y.tdiv gathered.count)
         else gathered.values
       (gathered.count < 2 ^ b.exponent → addToBlock average values q b = { b with lastPos := q, gather := gathered })
       ∧ (2 ^ b.exponent ≤ gathered.count → addToBlock average values q b
         = { b with lastPos := q, gather := ⟨0, []⟩, entries := b.entries ++ [formed] }))
  ∧ (∀ (s : State) (l : LaneId) (c : RunContext), (s.lane l).run = some c →
       (c.forwarder.block = none → s.closeBlock l = s)
       ∧ ∀ b, c.forwarder.block = some b →
         let row := s.keepRow l
         let left := b.gather.values.map fun v =>
           if row.average then XY.mk (v.x.tdiv b.gather.count) (v.y.tdiv b.gather.count) else v
         let closed : Block :=
           { serial := c.serial, number := c.forwarder.blockNumber, firstPos := b.firstPos, exponent := b.exponent
             inside := b.inside, mask := row.mask
             entries := if b.gather.count = 0 then b.entries else b.entries ++ [left] }
         let t := s.modRun l fun c => { c with forwarder :=
           { c.forwarder with block := none, blockNumber := (c.forwarder.blockNumber + 1) % 65536 } }
         let n := (s.lane l).dataQueue.length
         let queued := t.modLane l fun ln => { ln with
           dataQueue := ln.dataQueue ++ [closed], degrade := if 6 ≤ n + 1 then min 4 (ln.degrade + 1) else ln.degrade }
         (n < 8 → s.trunk.isSending → s.closeBlock l = queued)
         ∧ (n < 8 → s.trunk.tx = .idle → s.closeBlock l = queued.arbiterChoice)
         ∧ (8 ≤ n → let stretch : Interval := ⟨max b.firstPos b.lastPos, min b.firstPos b.lastPos⟩
           s.closeBlock l = (t.modRun l fun c => { c with forwarder := gapEnter stretch c.forwarder }).modLane l fun ln =>
             { ln with degrade := min 4 (ln.degrade + 1) }))
  ∧ (∀ (s : State) (l : LaneId) (e : DelayEntry),
       let row := s.keepRow l
       let gapped := match e.gapBefore with
         | none => s
         | some g => (s.closeBlock l).modRun l fun c => { c with forwarder := gapEnter g c.forwarder }
       let handled := fun t : State => t.modRun l fun c => { c with forwarder := { c.forwarder with
         lastHandled := some e.corrected
         keep := if e.phase = .pulling then vtab 32 fun r => keepRetired e.corrected c.forwarder.keep[r]
           else c.forwarder.keep } }
       (row.mask = 0 → s.handleEntry l e = handled gapped)
       ∧ (row.mask ≠ 0 → ∀ c, (gapped.lane l).run = some c →
         let inside := insideKeep (gapped.profile l) row c.forwarder.keep e.corrected
         let exponent := effectiveExponent row inside (gapped.lane l).degrade
         let differs := ∃ b, c.forwarder.block = some b ∧ (b.inside ≠ inside ∨ ∃ x, exponent = some x ∧ x ≠ b.exponent)
         ∃ t : State, (differs → t = gapped.closeBlock l) ∧ (¬ differs → t = gapped)
           ∧ (effectiveExponent row inside (t.lane l).degrade = none →
             let stretch := fun last : Int => Interval.mk (max last e.corrected) (min last e.corrected)
             s.handleEntry l e = handled ((t.closeBlock l).modRun l fun c => { c with
               forwarder := gapEnter (stretch (c.forwarder.lastHandled.getD e.corrected)) c.forwarder }))
           ∧ ∀ x, effectiveExponent row inside (t.lane l).degrade = some x →
             let b := addToBlock row.average (forwardedValues row.mask e) e.corrected ((t.openBlock l).getD
               ⟨x, inside, e.corrected, e.corrected, [], ⟨0, []⟩⟩)
             let joined := t.modRun l fun c => { c with forwarder := { c.forwarder with block := some b } }
             s.handleEntry l e = handled (if 32 ≤ b.entries.length then joined.closeBlock l else joined)))

/-- A condition code of a call rule on a channel (R98). A true result opens an IDLE rule and extends an OPEN one, a false
result closes an OPEN rule (R100, R101); a rule that closes gives its keep interval its bound, returns to IDLE, and files an
indication when its count has reached the minimum length (R101, R104). An indication is merged into the first entry of its
rule whose span lies within the merge distance (R105); otherwise its class count is raised, and it is appended while fewer
than 64 are listed, else placed unlisted with INDICATION_OVERFLOW (R106). -/
def Obligations.ConditionsRead : Prop :=
  (∀ (r : CallRule) (c : Channel) (near : Bool),
    let a := r.threshold ≤ c.mag
    let p := if r.sectorLow ≤ r.sectorHigh then r.sectorLow ≤ c.phase ∧ c.phase ≤ r.sectorHigh
      else r.sectorLow ≤ c.phase ∨ c.phase ≤ r.sectorHigh
    let holds := conditionHolds r c near = true
    (r.code = 0 → ¬ holds) ∧ (r.code = 1 → (holds ↔ a)) ∧ (r.code = 2 → (holds ↔ a ∧ p))
    ∧ (r.code = 3 → (holds ↔ a ∧ ¬ p)) ∧ (r.code = 4 → (holds ↔ a ∧ near = true))
    ∧ (r.code = 5 → (holds ↔ a ∧ near = false)) ∧ (r.code = 6 → (holds ↔ a ∧ p ∧ near = false))
    ∧ (r.code = 7 → (holds ↔ a ∧ p ∧ near = true)) ∧ (r.code = 8 → (holds ↔ a ∧ 0 < c.y))
    ∧ (r.code = 9 → (holds ↔ a ∧ c.y < 0)) ∧ (r.code = 10 → (holds ↔ c.overRange = true)))
  ∧ (∀ (l : LaneId) (p : Layout) (distance : Int) (r : Fin 32) (rule : CallRule) (f : Frame) (c : RunContext),
       let ch := channelAt f.channels rule.channel
       let holds := conditionHolds rule ch (nearLandmark p p.halfWidth f.corrected)
       let u := evaluateRule l p distance r rule f c
       (rule.code = 0 → u = (c, none))
       ∧ (rule.code ≠ 0 → holds = true → c.evaluator.rules[r] = none → u = ({ c with
           evaluator := { c.evaluator with rules := c.evaluator.rules.set r (some
             { startPos := f.corrected, startCount := f.corrCount, endPos := f.corrected, endCount := f.corrCount
               peakPos := f.corrected, peakMag := ch.mag, peakPhase := ch.phase, trueCount := 1
               overSeen := ch.overRange }) }
           forwarder := modKeep r (keepOpened (sat32 (f.corrected + distance))) c.forwarder }, none))
       ∧ (rule.code ≠ 0 → holds = true → ∀ o, c.evaluator.rules[r] = some o → u = ({ c with
           evaluator := { c.evaluator with rules := c.evaluator.rules.set r (some { o with
             endPos := f.corrected, endCount := f.corrCount, trueCount := min 255 (o.trueCount + 1)
             overSeen := o.overSeen || ch.overRange
             peakPos := if o.peakMag < ch.mag then f.corrected else o.peakPos
             peakMag := if o.peakMag < ch.mag then ch.mag else o.peakMag
             peakPhase := if o.peakMag < ch.mag then ch.phase else o.peakPhase }) } }, none))
       ∧ (rule.code ≠ 0 → holds = false → c.evaluator.rules[r] = none → u = (c, none))
       ∧ (rule.code ≠ 0 → holds = false → ∀ o, c.evaluator.rules[r] = some o →
         u = closeRule l p distance r rule false o c))
  ∧ (∀ (l : LaneId) (p : Layout) (distance : Int) (r : Fin 32) (rule : CallRule) (runEnd : Bool) (o : RuleOpen)
       (c : RunContext),
       let idle := { c with
         evaluator := { c.evaluator with rules := c.evaluator.rules.set r none }
         forwarder := modKeep r (keepBounded (sat32 (o.endPos - distance))) c.forwarder }
       let filed := fileIndication l c.serial rule.mergeDistance
         { rule := r.val, cls := rule.cls, startPos := o.startPos, endPos := o.endPos, peakPos := o.peakPos
           peakMag := o.peakMag, peakPhase := o.peakPhase, spansCorrection := o.startCount != o.endCount
           atLandmark := nearLandmark p p.halfWidth o.peakPos, overRangeSeen := o.overSeen, closedByRunEnd := runEnd }
         idle.evaluator
       (o.trueCount < rule.minLength → closeRule l p distance r rule runEnd o c = (idle, none))
       ∧ (rule.minLength ≤ o.trueCount →
         closeRule l p distance r rule runEnd o c = ({ idle with evaluator := filed.1 }, some filed.2)))
  ∧ (∀ (l : LaneId) (serial : BitVec 32) (d : Int) (i : Indication) (e : Evaluator),
       let qualifies := fun x : IndicationEntry => x.rule = i.rule
         ∧ min i.startPos i.endPos ≤ max x.startPos x.endPos + d ∧ min x.startPos x.endPos ≤ max i.startPos i.endPos + d
       let u := fileIndication l serial d i e
       (∀ k x, e.indications[k]? = some x → qualifies x → (∀ j y, j < k → e.indications[j]? = some y → ¬ qualifies y) →
         let merged := { x with
           startPos := max (max x.startPos x.endPos) (max i.startPos i.endPos)
           endPos := min (min x.startPos x.endPos) (min i.startPos i.endPos)
           peakPos := if x.peakMag < i.peakMag then i.peakPos else x.peakPos
           peakMag := if x.peakMag < i.peakMag then i.peakMag else x.peakMag
           peakPhase := if x.peakMag < i.peakMag then i.peakPhase else x.peakPhase }
         u = ({ e with indications := e.indications.set k merged }, .indicationUpdate l serial k merged))
       ∧ ((∀ x ∈ e.indications, ¬ qualifies x) →
         u.1.rules = e.rules ∧ u.1.captures = e.captures
         ∧ (∀ k : Fin 16, u.1.classCounts[k]
           = (if k.val = i.cls then min 255 (e.classCounts[k] + 1) else e.classCounts[k]))
         ∧ (e.indications.length < 64 → u.1.indications = e.indications ++ [⟨i.rule, max i.startPos i.endPos,
             min i.startPos i.endPos, i.peakPos, i.peakMag, i.peakPhase⟩] ∧ u.1.overflow = e.overflow
           ∧ u.2 = .indication l serial (some e.indications.length) i)
         ∧ (64 ≤ e.indications.length → u.1.indications = e.indications ∧ u.1.overflow = true
           ∧ u.2 = .indication l serial none i)))

/-- The candidate on an examined frame: it opens at the threshold, keeps the earlier of equal peaks, and closes below half
the threshold, when it is judged by the frame's lane phase (R66, R67); a MATCHED outcome changes the correction by nominal
less peak, saturating, and is counted (R73, R75). In the push a sheet-class candidate is MATCHED on the inlet or the outlet
by its window and the cursor, and passed over otherwise (R69); in the pull a candidate is MATCHED on the cursor entry of its
class and window, and UNEXPECTED otherwise (R71). The MISSED test passes one entry and moves the cursor (R72); it is made
only on a frame of the pull on which no candidate was open and none opens (R72, R74). The reversal drops the candidate, sets
SHORT_INSERTION, reports the entries beyond its reach deepest first and sets the pull cursor below them (R70). -/
def Obligations.LandmarksFollowed : Prop :=
  (∀ (p : Layout) (threshold mag : Nat) (f : Frame) (m : Matcher),
     let r := candidateWork p threshold f mag m
     (m.candidate = none → threshold ≤ mag → r = ({ m with candidate := some ⟨f.corrected, f.corrected, mag⟩ }, none))
     ∧ (m.candidate = none → mag < threshold → r = (m, none))
     ∧ ∀ c, m.candidate = some c →
       (threshold ≤ 2 * mag → c.peakMag < mag →
         r = ({ m with candidate := some ⟨c.openPos, f.corrected, mag⟩ }, none))
       ∧ (threshold ≤ 2 * mag → mag ≤ c.peakMag → r = (m, none))
       ∧ (2 * mag < threshold →
         let length : Int := ((c.openPos - f.corrected).natAbs : Int)
         (f.phase = .inserting → r = judgePush p c length { m with candidate := none })
         ∧ (f.phase = .pulling → r = judgePull p c length { m with candidate := none })))
  ∧ (∀ (dir : Dir) (k : Nat) (e : LayoutEntry) (peak length : Int) (next : Option Nat) (m : Matcher),
       let r := matchEntry dir k e peak length next m
       r.1.correction = max (-2147483648) (min 2147483647 (m.correction + (e.nominal - peak)))
       ∧ r.1.matched = min 255 (m.matched + 1) ∧ r.1.cursor = ⟨next, m.cursor.dir⟩
       ∧ r.1.missed = m.missed ∧ r.1.unexpected = m.unexpected ∧ r.1.notReached = m.notReached
       ∧ r.2.outcome = .matched ∧ r.2.entry = some k ∧ r.2.peak = some peak
       ∧ r.2.offset = some (r.1.correction - m.correction)
       ∧ r.2.dir = dir ∧ r.2.kind = entryLandmarkKind e ∧ r.2.length = length.toNat
       ∧ r.1.candidate = m.candidate ∧ r.1.shortInsertion = m.shortInsertion)
  ∧ (∀ (p : Layout) (c : Candidate) (length : Int) (m : Matcher) (first last : LayoutEntry),
       p.entries[0]? = some first → p.entries[p.entries.length - 1]? = some last →
       let n := p.entries.length
       let within := fun e : LayoutEntry => e.nominal - e.tolerance ≤ c.peakPos ∧ c.peakPos ≤ e.nominal + e.tolerance
       let matched := fun (k : Nat) (e : LayoutEntry) (next : Option Nat) =>
         let r := matchEntry .push k e c.peakPos length next m
         judgePush p c length m = (r.1, some r.2)
       let passed := judgePush p c length m = (m, none)
       (length < p.sheetMin → passed) ∧ (m.cursor.entry = none → passed)
       ∧ (p.sheetMin ≤ length → m.cursor.entry = some 0 → within first → matched 0 first (some (n - 1)))
       ∧ (p.sheetMin ≤ length → m.cursor.entry = some 0 → ¬ within first → within last → matched (n - 1) last none)
       ∧ (p.sheetMin ≤ length → m.cursor.entry = some 0 → ¬ within first → ¬ within last → passed)
       ∧ (∀ k, p.sheetMin ≤ length → m.cursor.entry = some (k + 1) →
         (within last → matched (n - 1) last none) ∧ (¬ within last → passed)))
  ∧ (∀ (p : Layout) (c : Candidate) (length : Int) (m : Matcher),
       let sheet := decide (p.sheetMin ≤ length)
       let fits := fun e : LayoutEntry => entrySheetClass e = sheet
         ∧ e.nominal - e.tolerance ≤ c.peakPos ∧ c.peakPos ≤ e.nominal + e.tolerance
       (∀ k e, m.cursor.entry = some k → p.entries[k]? = some e → fits e →
         let r := matchEntry .pull k e c.peakPos length (if k = 0 then none else some (k - 1)) m
         judgePull p c length m = (r.1, some r.2))
       ∧ ((∀ k e, m.cursor.entry = some k → p.entries[k]? = some e → ¬ fits e) →
         judgePull p c length m = ({ m with unexpected := min 255 (m.unexpected + 1) }, some
           { outcome := .unexpected, dir := .pull, entry := m.cursor.entry
             kind := if sheet then .sheetClass else .supportClass, peak := some c.peakPos, offset := none
             length := length.toNat })))
  ∧ (∀ (p : Layout) (q : Int) (m : Matcher),
       (m.cursor.entry = none → missedWork p q m = (m, none))
       ∧ ∀ k e, m.cursor.entry = some k → p.entries[k]? = some e →
         let moved := { m with cursor := ⟨if k = 0 then none else some (k - 1), m.cursor.dir⟩ }
         (e.nominal - e.tolerance ≤ q → missedWork p q m = (m, none))
         ∧ (q < e.nominal - e.tolerance → e.required = false → missedWork p q m = (moved, none))
         ∧ (q < e.nominal - e.tolerance → e.required = true →
           missedWork p q m = ({ moved with missed := min 255 (m.missed + 1) }, some
             { outcome := .missed, dir := .pull, entry := some k, kind := entryLandmarkKind e, peak := none, offset := none
               length := 0 })))
  ∧ (∀ (s : State) (l : LaneId) (c : RunContext) (f : Frame),
       let mag := (channelAt f.channels (s.laneRow l).landmarkChannel).mag
       let tests := f.phase = .pulling ∧ c.matcher.candidate = none ∧ mag < (s.laneRow l).landmarkThreshold
       (f.cls ≠ .normal → s.matcherItems l c f = [])
       ∧ (f.cls = .normal → tests →
         s.matcherItems l c f = .candidate :: List.replicate (s.profile l).entries.length .missed)
       ∧ (f.cls = .normal → ¬ tests → s.matcherItems l c f = [.candidate]))
  ∧ (∀ (p : Layout) (v : Int) (m : Matcher),
       let n := p.entries.length
       let beyond := fun e : LayoutEntry => v < e.nominal - e.tolerance
       reversalStart p v m = { m with
         candidate := none, shortInsertion := m.shortInsertion || decide (v < p.tubeLength - p.farTolerance) }
       ∧ ((∀ e ∈ p.entries, ¬ beyond e) → notReachedEntries p v = []
         ∧ reversalEntry p v = (if n = 0 then none else some (n - 1)))
       ∧ (∀ k e, p.entries[k]? = some e → beyond e → (∀ j x, j < k → p.entries[j]? = some x → ¬ beyond x) →
         notReachedEntries p v = (List.range (n - k)).map (fun i => n - 1 - i)
         ∧ reversalEntry p v = (if k = 0 then none else some (k - 1)))
       ∧ (∀ k e, p.entries[k]? = some e → notReachedWork p k m = ({ m with notReached := min 255 (m.notReached + 1) }, some
           { outcome := .notReached, dir := .pull, entry := some k, kind := entryLandmarkKind e, peak := none
             offset := none, length := 0 }))
       ∧ ∀ e, setPullCursor e m = { m with cursor := ⟨e, .pull⟩ })

/-- An enabled LANE row is accepted exactly when its fields lie in the ranges of R16, a disabled one always; the all-zero
row of every kind is accepted: it is the inert row (R165). -/
def Obligations.RowsChecked : Prop :=
  (∀ row : List Word,
     let slots := bits (wordAt row 0) 12 8
     let entry := fun i : Nat => bits (wordAt row (2 + i / 4)) (31 - 8 * (i % 4)) (24 - 8 * (i % 4))
     (bitAt (wordAt row 0) 0 = false → laneRowOk row = true)
     ∧ (bitAt (wordAt row 0) 0 = true → (laneRowOk row = true ↔
       1 ≤ slots ∧ slots ≤ 16
       ∧ (∀ i, i < 16 → entry i ≤ 15 ∨ entry i = 255)
       ∧ (∀ i j, i < j → j < 16 → entry i ≤ 15 → entry i ≠ entry j)
       ∧ (∀ i, i < 16 → slots ≤ i → entry i = 255)
       ∧ bits (wordAt row 0) 17 16 ≤ 1 ∧ (wordAt row 1).toNat ≠ 0
       ∧ bits (wordAt row 6) 4 0 ≤ 19
       ∧ 1 ≤ bits (wordAt row 6) 31 16 ∧ bits (wordAt row 6) 31 16 ≤ 46341
       ∧ 1 ≤ bits (wordAt row 7) 7 0 ∧ 1 ≤ bits (wordAt row 7) 15 8)))
  ∧ (∀ k : Kind, rowOk k (zeroRow k) = true)

/-! ### Invariants that every step keeps -/

/-- Every queue, list, count and timer keeps its range: of each lane the ingress FIFO (64), the preceding and pending loss,
the qualifying count, the error counters, the silence and status timers, the delay line (512), the DATA queue (8) and the
degrade level (4); of a run the travel remainder, the correction count, the carried loss, the landmark and class counts, the
true-frame counts, the indication list (64), the gap list (16), the block number, the frames lost, the held loss report and
the run timers (255,000 ms), the held report's 65535 being the model's choice (log 28); of each group its run list (240); of
the trunk its counters, credits, pool and accounts, the EVENT (64) and REPLY (16) queues and the room waiters, none twice;
and the request queue (8). -/
def Obligations.RangesKept : Prop := ∀ s t : State, s.sound → step s = .next t → t.fits

/-- A lane has a run context exactly in ARMED, INSERTING, PULLING and CLOSING (R38). -/
def Obligations.RunContextsKept : Prop := ∀ s t : State, s.contextsRight → step s = .next t → t.contextsRight

/-- The table memory keeps its canonical form, and the directory laws of R165 and the staging buffers' sizes hold. -/
def Obligations.TableLawsKept : Prop :=
  ∀ s t : State, s.tables.mem.wf = true → s.tables.directoryLaw → s.tables.stagingSized → step s = .next t →
    t.tables.mem.wf = true ∧ t.tables.directoryLaw ∧ t.tables.stagingSized

/-- No word and no directory entry of a captured copy changes while a run that captured it stays open: every row of it
reads after a step as before (R44, R166). -/
def Obligations.CapturedRowsStand : Prop :=
  ∀ (s t : State) (k : Kind) (c : CopyIndex), s.tables.mem.wf = true → s.tables.directoryLaw → s.tables.stagingSized →
    step s = .next t → s.isCaptured k c = true → t.isCaptured k c = true →
    (t.tables.kind k).entry c = (s.tables.kind k).entry c ∧ ∀ row, t.tables.row k c row = s.tables.row k c row

/-- The invariants hold right after reset. -/
def Obligations.SoundAtReset : Prop := State.reset.sound
end

