-- ==== Sys2Proof/Laws/State.lean ====
section
/-! SUPPORT. What each update of the state does to each field, so that no proof unfolds a record update. -/

namespace Sys2Proof.Machine

open Sys2Proof

@[simp] theorem State.modLane_groups (s : State) (l : LaneId) (f : Lane → Lane) :
    (s.modLane l f).groups = s.groups := rfl
@[simp] theorem State.modLane_trunk (s : State) (l : LaneId) (f : Lane → Lane) :
    (s.modLane l f).trunk = s.trunk := rfl
@[simp] theorem State.modLane_tables (s : State) (l : LaneId) (f : Lane → Lane) :
    (s.modLane l f).tables = s.tables := rfl
@[simp] theorem State.modLane_resetLine (s : State) (l : LaneId) (f : Lane → Lane) :
    (s.modLane l f).resetLine = s.resetLine := rfl
@[simp] theorem State.modLane_pending (s : State) (l : LaneId) (f : Lane → Lane) :
    (s.modLane l f).pending = s.pending := rfl
@[simp] theorem State.modRx_groups (s : State) (l : LaneId) (f : Receiver → Receiver) :
    (s.modRx l f).groups = s.groups := rfl
@[simp] theorem State.modRx_trunk (s : State) (l : LaneId) (f : Receiver → Receiver) :
    (s.modRx l f).trunk = s.trunk := rfl
@[simp] theorem State.modRx_tables (s : State) (l : LaneId) (f : Receiver → Receiver) :
    (s.modRx l f).tables = s.tables := rfl
@[simp] theorem State.modRx_resetLine (s : State) (l : LaneId) (f : Receiver → Receiver) :
    (s.modRx l f).resetLine = s.resetLine := rfl
@[simp] theorem State.modRx_pending (s : State) (l : LaneId) (f : Receiver → Receiver) :
    (s.modRx l f).pending = s.pending := rfl
@[simp] theorem State.modRun_groups (s : State) (l : LaneId) (f : RunContext → RunContext) :
    (s.modRun l f).groups = s.groups := rfl
@[simp] theorem State.modRun_trunk (s : State) (l : LaneId) (f : RunContext → RunContext) :
    (s.modRun l f).trunk = s.trunk := rfl
@[simp] theorem State.modRun_tables (s : State) (l : LaneId) (f : RunContext → RunContext) :
    (s.modRun l f).tables = s.tables := rfl
@[simp] theorem State.modRun_resetLine (s : State) (l : LaneId) (f : RunContext → RunContext) :
    (s.modRun l f).resetLine = s.resetLine := rfl
@[simp] theorem State.modRun_pending (s : State) (l : LaneId) (f : RunContext → RunContext) :
    (s.modRun l f).pending = s.pending := rfl
@[simp] theorem State.modFwd_groups (s : State) (l : LaneId) (f : Forwarder → Forwarder) :
    (s.modFwd l f).groups = s.groups := rfl
@[simp] theorem State.modFwd_trunk (s : State) (l : LaneId) (f : Forwarder → Forwarder) :
    (s.modFwd l f).trunk = s.trunk := rfl
@[simp] theorem State.modFwd_tables (s : State) (l : LaneId) (f : Forwarder → Forwarder) :
    (s.modFwd l f).tables = s.tables := rfl
@[simp] theorem State.modFwd_resetLine (s : State) (l : LaneId) (f : Forwarder → Forwarder) :
    (s.modFwd l f).resetLine = s.resetLine := rfl
@[simp] theorem State.modFwd_pending (s : State) (l : LaneId) (f : Forwarder → Forwarder) :
    (s.modFwd l f).pending = s.pending := rfl
@[simp] theorem State.setTracker_groups (s : State) (l : LaneId) (t : Tracker) :
    (s.setTracker l t).groups = s.groups := rfl
@[simp] theorem State.setTracker_trunk (s : State) (l : LaneId) (t : Tracker) :
    (s.setTracker l t).trunk = s.trunk := rfl
@[simp] theorem State.setTracker_tables (s : State) (l : LaneId) (t : Tracker) :
    (s.setTracker l t).tables = s.tables := rfl
@[simp] theorem State.setTracker_resetLine (s : State) (l : LaneId) (t : Tracker) :
    (s.setTracker l t).resetLine = s.resetLine := rfl
@[simp] theorem State.setTracker_pending (s : State) (l : LaneId) (t : Tracker) :
    (s.setTracker l t).pending = s.pending := rfl
@[simp] theorem State.setPassage_groups (s : State) (l : LaneId) (p : Option Passage) :
    (s.setPassage l p).groups = s.groups := rfl
@[simp] theorem State.setPassage_trunk (s : State) (l : LaneId) (p : Option Passage) :
    (s.setPassage l p).trunk = s.trunk := rfl
@[simp] theorem State.setPassage_tables (s : State) (l : LaneId) (p : Option Passage) :
    (s.setPassage l p).tables = s.tables := rfl
@[simp] theorem State.setPassage_resetLine (s : State) (l : LaneId) (p : Option Passage) :
    (s.setPassage l p).resetLine = s.resetLine := rfl
@[simp] theorem State.setPassage_pending (s : State) (l : LaneId) (p : Option Passage) :
    (s.setPassage l p).pending = s.pending := rfl
@[simp] theorem State.setClosing_groups (s : State) (l : LaneId) (c : Option (List CloseStep)) :
    (s.setClosing l c).groups = s.groups := rfl
@[simp] theorem State.setClosing_trunk (s : State) (l : LaneId) (c : Option (List CloseStep)) :
    (s.setClosing l c).trunk = s.trunk := rfl
@[simp] theorem State.setClosing_tables (s : State) (l : LaneId) (c : Option (List CloseStep)) :
    (s.setClosing l c).tables = s.tables := rfl
@[simp] theorem State.setClosing_resetLine (s : State) (l : LaneId) (c : Option (List CloseStep)) :
    (s.setClosing l c).resetLine = s.resetLine := rfl
@[simp] theorem State.setClosing_pending (s : State) (l : LaneId) (c : Option (List CloseStep)) :
    (s.setClosing l c).pending = s.pending := rfl
@[simp] theorem State.weighLaneHold_groups (s : State) (l : LaneId) :
    (s.weighLaneHold l).groups = s.groups := rfl
@[simp] theorem State.weighLaneHold_trunk (s : State) (l : LaneId) :
    (s.weighLaneHold l).trunk = s.trunk := rfl
@[simp] theorem State.weighLaneHold_tables (s : State) (l : LaneId) :
    (s.weighLaneHold l).tables = s.tables := rfl
@[simp] theorem State.weighLaneHold_resetLine (s : State) (l : LaneId) :
    (s.weighLaneHold l).resetLine = s.resetLine := rfl
@[simp] theorem State.weighLaneHold_pending (s : State) (l : LaneId) :
    (s.weighLaneHold l).pending = s.pending := rfl
@[simp] theorem State.setRunState_groups (s : State) (l : LaneId) (st : RunState) :
    (s.setRunState l st).groups = s.groups := rfl
@[simp] theorem State.setRunState_trunk (s : State) (l : LaneId) (st : RunState) :
    (s.setRunState l st).trunk = s.trunk := rfl
@[simp] theorem State.setRunState_tables (s : State) (l : LaneId) (st : RunState) :
    (s.setRunState l st).tables = s.tables := rfl
@[simp] theorem State.setRunState_resetLine (s : State) (l : LaneId) (st : RunState) :
    (s.setRunState l st).resetLine = s.resetLine := rfl
@[simp] theorem State.setRunState_pending (s : State) (l : LaneId) (st : RunState) :
    (s.setRunState l st).pending = s.pending := rfl
@[simp] theorem State.mapLanes_groups (s : State) (f : LaneId → Lane → Lane) :
    (s.mapLanes f).groups = s.groups := rfl
@[simp] theorem State.mapLanes_trunk (s : State) (f : LaneId → Lane → Lane) :
    (s.mapLanes f).trunk = s.trunk := rfl
@[simp] theorem State.mapLanes_tables (s : State) (f : LaneId → Lane → Lane) :
    (s.mapLanes f).tables = s.tables := rfl
@[simp] theorem State.mapLanes_resetLine (s : State) (f : LaneId → Lane → Lane) :
    (s.mapLanes f).resetLine = s.resetLine := rfl
@[simp] theorem State.mapLanes_pending (s : State) (f : LaneId → Lane → Lane) :
    (s.mapLanes f).pending = s.pending := rfl
@[simp] theorem State.modTrunk_lanes (s : State) (f : Trunk → Trunk) :
    (s.modTrunk f).lanes = s.lanes := rfl
@[simp] theorem State.modTrunk_groups (s : State) (f : Trunk → Trunk) :
    (s.modTrunk f).groups = s.groups := rfl
@[simp] theorem State.modTrunk_tables (s : State) (f : Trunk → Trunk) :
    (s.modTrunk f).tables = s.tables := rfl
@[simp] theorem State.modTrunk_resetLine (s : State) (f : Trunk → Trunk) :
    (s.modTrunk f).resetLine = s.resetLine := rfl
@[simp] theorem State.modTrunk_pending (s : State) (f : Trunk → Trunk) :
    (s.modTrunk f).pending = s.pending := rfl
@[simp] theorem State.joinWaiters_lanes (s : State) (w : Waiter) :
    (s.joinWaiters w).lanes = s.lanes := rfl
@[simp] theorem State.joinWaiters_groups (s : State) (w : Waiter) :
    (s.joinWaiters w).groups = s.groups := rfl
@[simp] theorem State.joinWaiters_tables (s : State) (w : Waiter) :
    (s.joinWaiters w).tables = s.tables := rfl
@[simp] theorem State.joinWaiters_resetLine (s : State) (w : Waiter) :
    (s.joinWaiters w).resetLine = s.resetLine := rfl
@[simp] theorem State.joinWaiters_pending (s : State) (w : Waiter) :
    (s.joinWaiters w).pending = s.pending := rfl
@[simp] theorem State.leaveWaiters_lanes (s : State) (w : Waiter) :
    (s.leaveWaiters w).lanes = s.lanes := rfl
@[simp] theorem State.leaveWaiters_groups (s : State) (w : Waiter) :
    (s.leaveWaiters w).groups = s.groups := rfl
@[simp] theorem State.leaveWaiters_tables (s : State) (w : Waiter) :
    (s.leaveWaiters w).tables = s.tables := rfl
@[simp] theorem State.leaveWaiters_resetLine (s : State) (w : Waiter) :
    (s.leaveWaiters w).resetLine = s.resetLine := rfl
@[simp] theorem State.leaveWaiters_pending (s : State) (w : Waiter) :
    (s.leaveWaiters w).pending = s.pending := rfl
@[simp] theorem State.pruneWaiters_lanes (s : State) :
    (s.pruneWaiters).lanes = s.lanes := rfl
@[simp] theorem State.pruneWaiters_groups (s : State) :
    (s.pruneWaiters).groups = s.groups := rfl
@[simp] theorem State.pruneWaiters_tables (s : State) :
    (s.pruneWaiters).tables = s.tables := rfl
@[simp] theorem State.pruneWaiters_resetLine (s : State) :
    (s.pruneWaiters).resetLine = s.resetLine := rfl
@[simp] theorem State.pruneWaiters_pending (s : State) :
    (s.pruneWaiters).pending = s.pending := rfl
@[simp] theorem State.modTables_lanes (s : State) (f : Tables → Tables) :
    (s.modTables f).lanes = s.lanes := rfl
@[simp] theorem State.modTables_groups (s : State) (f : Tables → Tables) :
    (s.modTables f).groups = s.groups := rfl
@[simp] theorem State.modTables_trunk (s : State) (f : Tables → Tables) :
    (s.modTables f).trunk = s.trunk := rfl
@[simp] theorem State.modTables_resetLine (s : State) (f : Tables → Tables) :
    (s.modTables f).resetLine = s.resetLine := rfl
@[simp] theorem State.modTables_pending (s : State) (f : Tables → Tables) :
    (s.modTables f).pending = s.pending := rfl
@[simp] theorem State.setStaging_lanes (s : State) (k : Kind) (b : Staging) :
    (s.setStaging k b).lanes = s.lanes := rfl
@[simp] theorem State.setStaging_groups (s : State) (k : Kind) (b : Staging) :
    (s.setStaging k b).groups = s.groups := rfl
@[simp] theorem State.setStaging_trunk (s : State) (k : Kind) (b : Staging) :
    (s.setStaging k b).trunk = s.trunk := rfl
@[simp] theorem State.setStaging_resetLine (s : State) (k : Kind) (b : Staging) :
    (s.setStaging k b).resetLine = s.resetLine := rfl
@[simp] theorem State.setStaging_pending (s : State) (k : Kind) (b : Staging) :
    (s.setStaging k b).pending = s.pending := rfl
@[simp] theorem State.writeRow_lanes (s : State) (k : Kind) (r : Nat) (ws : List Word) :
    (s.writeRow k r ws).lanes = s.lanes := rfl
@[simp] theorem State.writeRow_groups (s : State) (k : Kind) (r : Nat) (ws : List Word) :
    (s.writeRow k r ws).groups = s.groups := rfl
@[simp] theorem State.writeRow_trunk (s : State) (k : Kind) (r : Nat) (ws : List Word) :
    (s.writeRow k r ws).trunk = s.trunk := rfl
@[simp] theorem State.writeRow_resetLine (s : State) (k : Kind) (r : Nat) (ws : List Word) :
    (s.writeRow k r ws).resetLine = s.resetLine := rfl
@[simp] theorem State.writeRow_pending (s : State) (k : Kind) (r : Nat) (ws : List Word) :
    (s.writeRow k r ws).pending = s.pending := rfl
@[simp] theorem State.dropHead_lanes (s : State) :
    (s.dropHead).lanes = s.lanes := rfl
@[simp] theorem State.dropHead_groups (s : State) :
    (s.dropHead).groups = s.groups := rfl
@[simp] theorem State.dropHead_trunk (s : State) :
    (s.dropHead).trunk = s.trunk := rfl
@[simp] theorem State.dropHead_resetLine (s : State) :
    (s.dropHead).resetLine = s.resetLine := rfl
@[simp] theorem State.dropHead_pending (s : State) :
    (s.dropHead).pending = s.pending := rfl
@[simp] theorem State.setGroup_lanes (s : State) (l : LaneId) (g : Group) :
    (s.setGroup l g).lanes = s.lanes := rfl
@[simp] theorem State.setGroup_trunk (s : State) (l : LaneId) (g : Group) :
    (s.setGroup l g).trunk = s.trunk := rfl
@[simp] theorem State.setGroup_tables (s : State) (l : LaneId) (g : Group) :
    (s.setGroup l g).tables = s.tables := rfl
@[simp] theorem State.setGroup_resetLine (s : State) (l : LaneId) (g : Group) :
    (s.setGroup l g).resetLine = s.resetLine := rfl
@[simp] theorem State.setGroup_pending (s : State) (l : LaneId) (g : Group) :
    (s.setGroup l g).pending = s.pending := rfl
@[simp] theorem State.modTrunk_trunk (s : State) (f : Trunk → Trunk) : (s.modTrunk f).trunk = f s.trunk := rfl
@[simp] theorem State.modTables_tables (s : State) (f : Tables → Tables) :
    (s.modTables f).tables = f s.tables := rfl

/-! ### Reading a lane or a group after an update -/

theorem vmod_same {α : Type} {n : Nat} (v : Vector α n) (i : Fin n) (f : α → α) : (vmod v i f)[i] = f v[i] := by
  simp [vmod]

theorem vmod_other {α : Type} {n : Nat} (v : Vector α n) (i j : Fin n) (f : α → α) (h : j ≠ i) :
    (vmod v i f)[j] = v[j] := by
  have : (i : Nat) ≠ j := fun e => h (Fin.ext e.symm)
  simp [vmod, this]

theorem vtab_get {α : Type} (n : Nat) (f : Fin n → α) (i : Fin n) : (vtab n f)[i] = f i := by
  simp [vtab]

@[simp] theorem State.lane_modLane_same (s : State) (l : LaneId) (f : Lane → Lane) :
    (s.modLane l f).lane l = f (s.lane l) := vmod_same _ _ _

theorem State.lane_modLane_other (s : State) (l k : LaneId) (f : Lane → Lane) (h : k ≠ l) :
    (s.modLane l f).lane k = s.lane k := vmod_other _ _ _ _ h

theorem State.lane_modLane (s : State) (l k : LaneId) (f : Lane → Lane) :
    (s.modLane l f).lane k = if k = l then f (s.lane k) else s.lane k := by
  split
  · subst_vars; exact s.lane_modLane_same _ f
  · exact s.lane_modLane_other l k f ‹_›

@[simp] theorem State.lane_mapLanes (s : State) (f : LaneId → Lane → Lane) (l : LaneId) :
    (s.mapLanes f).lane l = f l (s.lane l) := vtab_get 8 _ l

@[simp] theorem State.lane_modTrunk (s : State) (f : Trunk → Trunk) (l : LaneId) :
    (s.modTrunk f).lane l = s.lane l := rfl
@[simp] theorem State.lane_modTables (s : State) (f : Tables → Tables) (l : LaneId) :
    (s.modTables f).lane l = s.lane l := rfl
@[simp] theorem State.lane_setGroup (s : State) (k l : LaneId) (g : Group) :
    (s.setGroup k g).lane l = s.lane l := rfl
@[simp] theorem State.lane_joinWaiters (s : State) (w : Waiter) (l : LaneId) :
    (s.joinWaiters w).lane l = s.lane l := rfl
@[simp] theorem State.lane_leaveWaiters (s : State) (w : Waiter) (l : LaneId) :
    (s.leaveWaiters w).lane l = s.lane l := rfl
@[simp] theorem State.lane_pruneWaiters (s : State) (l : LaneId) : s.pruneWaiters.lane l = s.lane l := rfl
@[simp] theorem State.lane_dropHead (s : State) (l : LaneId) : s.dropHead.lane l = s.lane l := rfl
@[simp] theorem State.lane_setStaging (s : State) (k : Kind) (b : Staging) (l : LaneId) :
    (s.setStaging k b).lane l = s.lane l := rfl
@[simp] theorem State.lane_writeRow (s : State) (k : Kind) (r : Nat) (ws : List Word) (l : LaneId) :
    (s.writeRow k r ws).lane l = s.lane l := rfl

@[simp] theorem State.group_setGroup_same (s : State) (l : LaneId) (g : Group) : (s.setGroup l g).group l = g := by
  simp [State.group, State.setGroup]

theorem State.group_setGroup_other (s : State) (l k : LaneId) (g : Group) (h : k ≠ l) :
    (s.setGroup l g).group k = s.group k := by
  have : (l : Nat) ≠ k := fun e => h (Fin.ext e.symm)
  simp [State.group, State.setGroup, this]

end Sys2Proof.Machine
end

