-- ==== Sys2Proof/Laws/Calm.lean ====
section
/-! SUPPORT. What the shared operations of the lanes and the trunk can do, said once.

`Calm s t` holds when an act only works on lanes and trunk: table manager, group records, reset line and
command queue stand, no record and no reply is added, every lane keeps its ranges and its run context where it
had one. Every operation below is calm; a proof cites its lemma and never unfolds it. -/

namespace Sys2Proof.Machine

open Sys2Proof

/-- What a calm act does to one lane. -/
structure LaneStep (a b : Lane) : Prop where
  fits : a.fits → b.fits
  run : b.run.isSome = a.run.isSome
  right : a.contextRight → b.contextRight

/-- What a calm act does to the part. -/
structure Calm (s t : State) : Prop where
  tables : t.tables = s.tables
  groups : t.groups = s.groups
  line : t.resetLine = s.resetLine
  pending : t.pending = s.pending
  events : t.trunk.events.length ≤ s.trunk.events.length
  replies : t.trunk.replies.length ≤ s.trunk.replies.length
  trunk : s.trunk.fits → t.trunk.fits
  lanes : ∀ k, LaneStep (s.lane k) (t.lane k)

theorem LaneStep.refl (a : Lane) : LaneStep a a := ⟨id, rfl, id⟩

theorem LaneStep.trans {a b c : Lane} (h : LaneStep a b) (g : LaneStep b c) : LaneStep a c :=
  ⟨fun x => g.fits (h.fits x), g.run.trans h.run, fun x => g.right (h.right x)⟩

theorem Calm.refl (s : State) : Calm s s :=
  ⟨rfl, rfl, rfl, rfl, Nat.le_refl _, Nat.le_refl _, id, fun _ => LaneStep.refl _⟩

theorem Calm.trans {s t u : State} (h : Calm s t) (g : Calm t u) : Calm s u :=
  ⟨g.tables.trans h.tables, g.groups.trans h.groups, g.line.trans h.line, g.pending.trans h.pending,
   Nat.le_trans g.events h.events, Nat.le_trans g.replies h.replies, fun x => g.trunk (h.trunk x),
   fun k => (h.lanes k).trans (g.lanes k)⟩

/-! ### One lane, every lane, the trunk -/

theorem Calm.modLane {s : State} {l : LaneId} {f : Lane → Lane} (h : LaneStep (s.lane l) (f (s.lane l))) :
    Calm s (s.modLane l f) :=
  ⟨rfl, rfl, rfl, rfl, Nat.le_refl _, Nat.le_refl _, id, fun k => by
    by_cases e : k = l
    · subst e; rw [State.lane_modLane_same]; exact h
    · rw [State.lane_modLane_other _ _ _ _ e]; exact LaneStep.refl _⟩

theorem Calm.mapLanes {s : State} {f : LaneId → Lane → Lane} (h : ∀ k, LaneStep (s.lane k) (f k (s.lane k))) :
    Calm s (s.mapLanes f) :=
  ⟨rfl, rfl, rfl, rfl, Nat.le_refl _, Nat.le_refl _, id, fun k => by rw [State.lane_mapLanes]; exact h k⟩

theorem Calm.modTrunk {s : State} {f : Trunk → Trunk} (he : (f s.trunk).events.length ≤ s.trunk.events.length)
    (hr : (f s.trunk).replies.length ≤ s.trunk.replies.length) (hf : s.trunk.fits → (f s.trunk).fits) :
    Calm s (s.modTrunk f) :=
  ⟨rfl, rfl, rfl, rfl, he, hr, hf, fun _ => LaneStep.refl _⟩

/-- A receiver changed within its ranges. -/
theorem LaneStep.rx {a : Lane} {rx : Receiver} (h : a.rx.fits → rx.fits) : LaneStep a { a with rx := rx } :=
  ⟨fun x => { x with rx := h x.rx }, rfl, id⟩

/-- A lane's run context changed within its ranges. -/
theorem LaneStep.runAt {a : Lane} {f : RunContext → RunContext} (h : ∀ c, a.run = some c → c.fits → (f c).fits) :
    LaneStep a { a with run := a.run.map f } :=
  ⟨fun x => { x with
      run := fun c hc => by
        cases hr : a.run with
        | none => simp [hr] at hc
        | some d =>
          simp only [hr, Option.map_some, Option.some.injEq] at hc
          rw [← hc]; exact h d hr (x.run d hr) },
    by simp, fun x => by simpa [Lane.contextRight] using x⟩

/-- A run context changed within its ranges, whatever it is. -/
theorem LaneStep.run' {a : Lane} {f : RunContext → RunContext} (h : ∀ c, c.fits → (f c).fits) :
    LaneStep a { a with run := a.run.map f } := LaneStep.runAt fun c _ => h c

theorem Calm.modRx {s : State} {l : LaneId} {f : Receiver → Receiver}
    (h : (s.lane l).rx.fits → (f (s.lane l).rx).fits) : Calm s (s.modRx l f) := Calm.modLane (LaneStep.rx h)

theorem Calm.modRun {s : State} {l : LaneId} {f : RunContext → RunContext} (h : ∀ c, c.fits → (f c).fits) :
    Calm s (s.modRun l f) := Calm.modLane (LaneStep.run' h)

/-- The lane's run context changed within its ranges. -/
theorem Calm.modRunAt {s : State} {l : LaneId} {f : RunContext → RunContext}
    (h : ∀ c, (s.lane l).run = some c → c.fits → (f c).fits) : Calm s (s.modRun l f) := Calm.modLane (LaneStep.runAt h)

/-- A run context replaced by one within its ranges. -/
theorem Calm.setRun {s : State} {l : LaneId} {c d : RunContext} (hr : (s.lane l).run = some c)
    (h : c.fits → d.fits) : Calm s (s.modRun l fun _ => d) :=
  Calm.modLane
    ⟨fun x => { x with
        run := fun e he => by
          simp only [hr, Option.map_some, Option.some.injEq] at he
          rw [← he]; exact h (x.run c hr) },
      by simp, fun x => by simpa [Lane.contextRight] using x⟩

/-- A producer that joins stands in the list once. -/
theorem nodup_joined {ws : List Waiter} (h : ws.Nodup) (w : Waiter) :
    (if ws.contains w then ws else ws ++ [w]).Nodup := by
  split
  · exact h
  · rename_i hn
    refine List.nodup_append.mpr ⟨h, by simp, fun a ha b hb e => hn ?_⟩
    rw [List.mem_singleton.mp hb] at e
    rw [← e]
    simpa using ha

theorem Calm.joinWaiters (s : State) (w : Waiter) : Calm s (s.joinWaiters w) :=
  Calm.modTrunk (Nat.le_refl _) (Nat.le_refl _) fun x => { x with waiters := nodup_joined x.waiters w }

theorem Calm.leaveWaiters (s : State) (w : Waiter) : Calm s (s.leaveWaiters w) :=
  Calm.modTrunk (Nat.le_refl _) (Nat.le_refl _) fun x => { x with waiters := x.waiters.filter _ }

theorem Calm.pruneWaiters (s : State) : Calm s s.pruneWaiters :=
  Calm.modTrunk (Nat.le_refl _) (Nat.le_refl _) fun x => { x with waiters := x.waiters.filter _ }

theorem Calm.setPassage (s : State) (l : LaneId) (p : Option Passage) : Calm s (s.setPassage l p) :=
  Calm.modLane ⟨fun x => { x with }, rfl, id⟩

theorem Calm.setClosing (s : State) (l : LaneId) (c : Option (List CloseStep)) : Calm s (s.setClosing l c) :=
  Calm.modRun fun _ h => { h with }

/-! ### Status signals -/

theorem LaneStep.statusChanged (a : Lane) : LaneStep a (statusChanged a) := by
  unfold Machine.statusChanged
  split
  · exact LaneStep.rx fun x => { x with status := Nat.zero_le _ }
  · exact LaneStep.rx fun x => { x with }

theorem fits_stallUnderHold (st : RunState) (old new : Bool) {t : Timer} (h : t.fits) :
    (stallUnderHold st old new t).fits := by
  unfold stallUnderHold
  split
  · cases t <;> exact h
  · split
    · exact Nat.zero_le _
    · exact h

theorem LaneStep.holdWeighed (p : Bool) (a : Lane) : LaneStep a (holdWeighed p a) := by
  let new := holdAfter a.runState a.rx.fifo.length p a.rx.hold
  exact (LaneStep.rx (a := a) (rx := { a.rx with hold := new }) fun x => { x with }).trans
    (LaneStep.run' (a := { a with rx := { a.rx with hold := new } })
      (f := fun c => { c with stallTimer := stallUnderHold a.runState a.rx.hold new c.stallTimer })
      fun _ h => { h with stall := fits_stallUnderHold _ _ _ h.stall })

theorem LaneStep.weighHold (p : Bool) (a : Lane) : LaneStep a (weighHold p a) := by
  unfold Machine.weighHold
  simp only []
  split
  · exact LaneStep.holdWeighed p a
  · exact (LaneStep.holdWeighed p a).trans (LaneStep.statusChanged _)

/-- A change of run state between two states that both have, or both lack, a run context. -/
theorem LaneStep.enterRunState (p : Bool) {st : RunState} {a : Lane} (h : needsRun st = needsRun a.runState) :
    LaneStep a (enterRunState p st a) := by
  have h1 : LaneStep a { a with runState := st } := ⟨fun x => { x with }, rfl, fun x => by rw [Lane.contextRight] at x ⊢; rw [h]; exact x⟩
  exact (h1.trans (LaneStep.holdWeighed p _)).trans (LaneStep.statusChanged _)

theorem Calm.weighLaneHold (s : State) (l : LaneId) : Calm s (s.weighLaneHold l) :=
  Calm.modLane (LaneStep.weighHold _ _)

theorem Calm.setRunState {s : State} {l : LaneId} {st : RunState} (h : needsRun st = needsRun (s.lane l).runState) :
    Calm s (s.setRunState l st) := Calm.modLane (LaneStep.enterRunState _ h)

/-! ### The trunk -/

theorem Calm.weighPressure (s : State) : Calm s s.weighPressure := by
  unfold State.weighPressure
  simp only []
  split
  · exact Calm.refl s
  · exact (Calm.modTrunk (Nat.le_refl _) (Nat.le_refl _) fun x => { x with }).trans (Calm.mapLanes fun _ => LaneStep.weighHold _ _)

/-- An account replaced within its range. -/
theorem accounts_set {v : Vector Credit 8} (h : ∀ k : LaneId, v[k].headers ≤ 15 ∧ v[k].payload ≤ 4095) (l : LaneId)
    {c : Credit} (hc : c.headers ≤ 15 ∧ c.payload ≤ 4095) :
    ∀ k : LaneId, (v.set l c)[k].headers ≤ 15 ∧ (v.set l c)[k].payload ≤ 4095 := by
  intro k
  by_cases e : k = l
  · subst e
    simpa using hc
  · have : (v.set l c)[k] = v[k] := by
      simp only [Fin.getElem_fin]
      exact Vector.getElem_set_ne _ _ fun x => e (Fin.ext x.symm)
    rw [this]
    exact h k

theorem Calm.sendBlock (s : State) (l : LaneId) : Calm s (s.sendBlock l) := by
  unfold State.sendBlock
  split
  · exact Calm.refl s
  · rename_i b rest hq
    refine (Calm.modLane ⟨fun x => ?_, rfl, id⟩).trans (Calm.modTrunk (Nat.le_refl _) (Nat.le_refl _) fun x => ?_)
    · refine { x with dataQueue := ?_, degrade := ?_ }
      · have := x.dataQueue
        rw [hq] at this
        simp only [List.length_cons] at this ⊢
        omega
      · have := x.degrade
        simp only [degradeAfterDequeue]
        split <;> omega
    · exact { x with
        poolHeaders := Nat.le_trans (Nat.sub_le _ _) x.poolHeaders
        poolPayload := Nat.le_trans (Nat.sub_le _ _) x.poolPayload
        accounts := accounts_set x.accounts l ⟨Nat.le_trans (Nat.sub_le _ _) (x.accounts l).1,
          Nat.le_trans (Nat.sub_le _ _) (x.accounts l).2⟩ }

theorem Calm.arbiterChoice (s : State) : Calm s s.arbiterChoice := by
  have hb : Calm s (match (searchOrder s.trunk.lastServed).find? s.fundable with
      | some l => s.sendBlock l
      | none => s) := by
    split
    · exact Calm.sendBlock s _
    · exact Calm.refl s
  unfold State.arbiterChoice
  split
  · rename_i hr
    refine Calm.modTrunk (Nat.le_refl _) ?_ fun x => { x with }
    simp [hr]
  · simp only []
    split
    · rename_i e es he
      split
      · refine (Calm.modTrunk ?_ (Nat.le_refl _) fun x => ?_).trans (Calm.weighPressure _)
        · simp [he]
        · exact { x with eventCredit := Nat.le_trans (Nat.sub_le _ _) x.eventCredit }
      · exact hb
    · exact hb

theorem Calm.idleChoice (s : State) : Calm s s.idleChoice := by
  unfold State.idleChoice
  split
  · exact Calm.arbiterChoice s
  · exact Calm.refl s

theorem satTo_le (cap n : Nat) : satTo cap n ≤ cap := by
  unfold satTo; split <;> omega

theorem Calm.returnAccount (s : State) (l : LaneId) : Calm s (s.returnAccount l) := by
  unfold State.returnAccount
  refine (Calm.modLane ⟨fun x => { x with degrade := Nat.zero_le _ }, rfl, id⟩).trans
    ((Calm.modTrunk (Nat.le_refl _) (Nat.le_refl _) fun x => ?_).trans (Calm.idleChoice _))
  exact { x with
    poolHeaders := satTo_le _ _
    poolPayload := satTo_le _ _
    accounts := accounts_set x.accounts l ⟨Nat.zero_le _, Nat.zero_le _⟩ }

/-- A lane without a run context settles: it is OFFLINE or IDLE afterwards, or as it was. -/
theorem restState_needs (s : State) (l : LaneId) : needsRun (s.restState l) = false := by
  unfold State.restState; split <;> rfl

theorem lane_setRunState_runState (s : State) (l : LaneId) (st : RunState) :
    ((s.setRunState l st).lane l).runState = st := by
  simp only [State.setRunState, State.lane_modLane_same, enterRunState, statusChanged]
  split <;> rfl

theorem lane_setRunState_run (s : State) (l : LaneId) (st : RunState) :
    ((s.setRunState l st).lane l).run.isSome = (s.lane l).run.isSome := by
  simp only [State.setRunState, State.lane_modLane_same, enterRunState, statusChanged]
  split <;> simp [startStatusWord, holdWeighed]

theorem setRunState_fits (s : State) (l : LaneId) (st : RunState) (h : (s.lane l).fits) :
    ((s.setRunState l st).lane l).fits := by
  simp only [State.setRunState, State.lane_modLane_same, enterRunState]
  have h1 : Lane.fits { s.lane l with runState := st } := { h with }
  exact (LaneStep.statusChanged _).fits ((LaneStep.holdWeighed _ _).fits h1)

/-- A settled lane, whatever its state was: the other lanes as in a calm act, its own ranges kept, and its run
state right when it has no run context. -/
structure Settled (l : LaneId) (s t : State) : Prop where
  tables : t.tables = s.tables
  groups : t.groups = s.groups
  line : t.resetLine = s.resetLine
  pending : t.pending = s.pending
  events : t.trunk.events.length ≤ s.trunk.events.length
  replies : t.trunk.replies.length ≤ s.trunk.replies.length
  trunk : s.trunk.fits → t.trunk.fits
  others : ∀ k, k ≠ l → LaneStep (s.lane k) (t.lane k)
  fits : (s.lane l).fits → (t.lane l).fits
  run : (t.lane l).run.isSome = (s.lane l).run.isSome
  right : (s.lane l).run.isSome = false → (t.lane l).contextRight

theorem Settled.calmAfter {l : LaneId} {s t u : State} (h : Settled l s t) (g : Calm t u) : Settled l s u :=
  ⟨g.tables.trans h.tables, g.groups.trans h.groups, g.line.trans h.line, g.pending.trans h.pending,
   Nat.le_trans g.events h.events, Nat.le_trans g.replies h.replies, fun x => g.trunk (h.trunk x),
   fun k e => (h.others k e).trans (g.lanes k), fun x => (g.lanes l).fits (h.fits x),
   (g.lanes l).run.trans h.run, fun x => (g.lanes l).right (h.right x)⟩

theorem settled_setRunState (s : State) (l : LaneId) (st : RunState) (h : needsRun st = false) :
    Settled l s (s.setRunState l st) := by
  refine ⟨rfl, rfl, rfl, rfl, Nat.le_refl _, Nat.le_refl _, id, fun k e => ?_, setRunState_fits s l st,
    lane_setRunState_run s l st, fun x => ?_⟩
  · rw [State.setRunState, State.lane_modLane_other _ _ _ _ e]; exact LaneStep.refl _
  · rw [Lane.contextRight, lane_setRunState_runState, lane_setRunState_run, x, h]

theorem settled_settleLane (s : State) (l : LaneId) : Settled l s (s.settleLane l) := by
  unfold State.settleLane
  simp only []
  split
  · rename_i he
    refine ⟨rfl, rfl, rfl, rfl, Nat.le_refl _, Nat.le_refl _, id, fun k _ => LaneStep.refl _, id, rfl, fun x => ?_⟩
    rw [Lane.contextRight, x, ← he]; exact restState_needs s l
  · split
    · exact (settled_setRunState s l _ (restState_needs s l)).calmAfter (Calm.returnAccount _ _)
    · exact settled_setRunState s l _ (restState_needs s l)

theorem Calm.weighLane (s : State) (l : LaneId) : Calm s (s.weighLane l) := by
  unfold State.weighLane
  split
  · exact Calm.refl s
  · rename_i h
    have hs := settled_settleLane s l
    have hn : (s.lane l).run.isSome = false := by simpa using h
    refine ⟨hs.tables, hs.groups, hs.line, hs.pending, hs.events, hs.replies, hs.trunk, fun k => ?_⟩
    by_cases e : k = l
    · subst e; exact ⟨hs.fits, hs.run, fun _ => hs.right hn⟩
    · exact hs.others k e

theorem Calm.weighLanes (ls : List LaneId) : ∀ s : State, Calm s (s.weighLanes ls) := by
  induction ls with
  | nil => exact Calm.refl
  | cons l ls ih => exact fun s => (Calm.weighLane s l).trans (ih _)

end Sys2Proof.Machine
end

