-- ==== Sys2Proof/Laws/Lanes.lean ====
section
/-! SUPPORT. What the lane blocks' operations can do, said once: the forwarder is calm; the pipeline and the
closing sequence add records only where the EVENT queue has room. -/

namespace Sys2Proof.Machine

open Sys2Proof

/-! ### Gap list and indication list -/

theorem length_gapInsert (g : Interval) : ∀ gs : List Interval, (gapInsert g gs).length = gs.length + 1
  | [] => rfl
  | h :: gs => by
    unfold gapInsert
    split
    · rfl
    · simp [length_gapInsert g gs]

theorem length_filter_lt {α : Type} (p : α → Bool) : ∀ l : List α, l.any p = true →
    (l.filter fun x => !p x).length < l.length
  | [], h => by simp at h
  | a :: l, h => by
    by_cases ha : p a = true
    · simp only [List.filter_cons, ha, Bool.not_true, Bool.false_eq_true, if_false, List.length_cons]
      exact Nat.lt_succ_of_le (List.length_filter_le _ _)
    · have hl : l.any p = true := by simpa [ha] using h
      have := length_filter_lt p l hl
      simp only [List.filter_cons, ha, Bool.not_false, if_true, List.length_cons]
      omega

theorem length_gapMerge_le (g : Interval) (gs : List Interval) : (gapMerge g gs).length ≤ gs.length + 1 := by
  unfold gapMerge
  rw [length_gapInsert]
  exact Nat.succ_le_succ (List.length_filter_le _ _)

theorem length_gapMerge_touch (g : Interval) (gs : List Interval) (h : gs.any (gapsTouch g) = true) :
    (gapMerge g gs).length ≤ gs.length := by
  unfold gapMerge
  rw [length_gapInsert]
  exact length_filter_lt _ _ h

/-- The gap list holds at most 16 intervals (R146). -/
theorem gapEnter_length (g : Interval) (f : Forwarder) (h : f.gaps.length ≤ Config.gapCapacity) :
    (gapEnter g f).gaps.length ≤ Config.gapCapacity := by
  unfold gapEnter
  split
  · rename_i ht; exact Nat.le_trans (length_gapMerge_touch g _ ht) h
  · split
    · rename_i hl; rw [length_gapInsert]; exact hl
    · rename_i hl
      split
      · refine Nat.le_trans (length_gapMerge_le _ _) ?_
        rw [List.length_dropLast]
        have : 0 < Config.gapCapacity := by decide
        omega
      · exact h

theorem gapEnter_lost (g : Interval) (f : Forwarder) : (gapEnter g f).framesLost = f.framesLost := by
  unfold gapEnter
  split
  · rfl
  · split
    · rfl
    · split <;> rfl

theorem gapEnter_number (g : Interval) (f : Forwarder) : (gapEnter g f).blockNumber = f.blockNumber := by
  unfold gapEnter
  split
  · rfl
  · split
    · rfl
    · split <;> rfl

/-- A stretch entered keeps the forwarder's ranges. -/
theorem fits_gapEnter (g : Interval) {f : Forwarder} (h : f.fits) : (gapEnter g f).fits :=
  ⟨gapEnter_length g _ h.gaps, by rw [gapEnter_lost]; exact h.lost, by rw [gapEnter_number]; exact h.number⟩

theorem satByte_le (n : Nat) : satByte n ≤ 255 := satTo_le _ _

/-- A class count raised keeps its range. -/
theorem countClass_le (cls : Nat) {counts : Vector Nat 16} (h : ∀ k : Fin 16, counts[k] ≤ 255) (k : Fin 16) :
    (countClass cls counts)[k] ≤ 255 := by
  unfold countClass
  rw [vtab_get]
  split
  · exact satByte_le _
  · exact h k

/-- An indication filed keeps the evaluator's ranges: the list holds at most 64 entries (R106). -/
theorem fits_fileIndication (l : LaneId) (serial : BitVec 32) (d : Int) (i : Indication) {e : Evaluator}
    (h : e.fits) : (fileIndication l serial d i e).1.fits := by
  unfold fileIndication
  split
  · exact { h with indications := by simpa using h.indications }
  · simp only []
    split
    · rename_i hl
      exact { h with
        indications := by rw [List.length_append]; exact hl
        classes := countClass_le _ h.classes }
    · exact { h with classes := countClass_le _ h.classes }

/-- A rule's open state replaced keeps the evaluator's ranges. -/
theorem fits_setRule (r : Fin 32) {o : Option RuleOpen} {e : Evaluator} (h : e.fits)
    (ho : ∀ x, o = some x → x.trueCount ≤ 255) : (setRule r o e).fits :=
  { h with
    rules := fun k x hx => by
      by_cases hk : k = r
      · subst hk
        exact ho x (by simpa [setRule] using hx)
      · have : (e.rules.set r o)[k] = e.rules[k] := by
          simp only [Fin.getElem_fin]
          exact Vector.getElem_set_ne _ _ fun y => hk (Fin.ext y.symm)
        exact h.rules k x (this ▸ hx) }

/-! ### The forwarder -/

theorem Calm.modFwd {s : State} {l : LaneId} {f : Forwarder → Forwarder} (h : ∀ g, g.fits → (f g).fits) :
    Calm s (s.modFwd l f) := Calm.modRun fun _ x => { x with forwarder := h _ x.forwarder }

theorem Calm.enterGap (s : State) (l : LaneId) (g : Interval) : Calm s (s.modFwd l (gapEnter g)) :=
  Calm.modFwd fun _ h => fits_gapEnter g h

theorem degradeUp_le (n : Nat) : degradeUp n ≤ 4 := satTo_le _ _

theorem Calm.offerBlock (s : State) (l : LaneId) (b : Block) (g : Interval) : Calm s (s.offerBlock l b g) := by
  unfold State.offerBlock
  simp only []
  split
  · rename_i hn
    refine (Calm.modLane ⟨fun x => { x with dataQueue := ?_, degrade := ?_ }, rfl, id⟩).trans (Calm.idleChoice _)
    · simp only [List.length_append, List.length_cons, List.length_nil]
      exact hn
    · simp only []
      split
      · exact degradeUp_le _
      · exact x.degrade
  · exact (Calm.enterGap s l g).trans (Calm.modLane ⟨fun x => { x with degrade := degradeUp_le _ }, rfl, id⟩)

theorem Calm.closeBlock (s : State) (l : LaneId) : Calm s (s.closeBlock l) := by
  unfold State.closeBlock
  split
  · exact Calm.refl s
  · split
    · exact Calm.refl s
    · refine Calm.trans ?_ (Calm.offerBlock _ _ _ _)
      exact Calm.modFwd fun _ h => { h with number := Nat.le_of_lt_succ (Nat.mod_lt _ (by decide)) }

theorem Calm.addEntry (s : State) (l : LaneId) (row : KeepRow) (i : Bool) (x : Nat) (e : DelayEntry) :
    Calm s (s.addEntry l row i x e) := by
  unfold State.addEntry
  simp only []
  split
  · refine Calm.trans ?_ (Calm.closeBlock _ _)
    exact Calm.modFwd fun _ h => { h with }
  · exact Calm.modFwd fun _ h => { h with }

theorem Calm.skipEntry (s : State) (l : LaneId) (q : Int) : Calm s (s.skipEntry l q) :=
  (Calm.closeBlock s l).trans (Calm.modFwd fun _ h => fits_gapEnter _ h)

theorem Calm.forwardEntry (s : State) (l : LaneId) (row : KeepRow) (e : DelayEntry) :
    Calm s (s.forwardEntry l row e) := by
  unfold State.forwardEntry
  split
  · exact Calm.refl s
  · rename_i c _
    simp only []
    have h3 : ∀ i x, Calm s (if blockDiffers (s.openBlock l) i x then s.closeBlock l else s) := by
      intro i x
      split
      · exact Calm.closeBlock s l
      · exact Calm.refl s
    split
    · exact (h3 _ _).trans (Calm.skipEntry _ _ _)
    · exact (h3 _ _).trans (Calm.addEntry _ _ _ _ _ _)

theorem Calm.enterGapBefore (s : State) (l : LaneId) (g : Option Interval) : Calm s (s.enterGapBefore l g) := by
  unfold State.enterGapBefore
  split
  · exact Calm.refl s
  · exact (Calm.closeBlock s l).trans (Calm.enterGap _ _ _)

theorem Calm.handleEntry (s : State) (l : LaneId) (e : DelayEntry) : Calm s (s.handleEntry l e) := by
  unfold State.handleEntry
  simp only []
  refine (Calm.enterGapBefore s l e.gapBefore).trans ?_
  split
  · exact Calm.modFwd fun _ h => { h with }
  · exact (Calm.forwardEntry _ _ _ _).trans (Calm.modFwd fun _ h => { h with })

theorem Calm.handleEntries (l : LaneId) (es : List DelayEntry) : ∀ s : State, Calm s (s.handleEntries l es) := by
  induction es with
  | nil => exact Calm.refl
  | cons e es ih => exact fun s => (Calm.handleEntry s l e).trans (ih _)

/-- A delay line replaced by one within its length. -/
theorem Calm.setDelay {s : State} {l : LaneId} {d : List DelayEntry} (h : d.length ≤ Config.delayCapacity) :
    Calm s (s.modLane l fun ln => { ln with delay := d }) :=
  Calm.modLane ⟨fun x => { x with delay := h }, rfl, id⟩

theorem Calm.enterDelay (s : State) (l : LaneId) (f : Frame) : Calm s (s.enterDelay l f) := by
  unfold State.enterDelay
  simp only []
  have hm : Calm s (s.modRun l fun c => { c with heldLoss := none }) := Calm.modRun fun _ h => { h with held := nofun }
  refine hm.trans ?_
  generalize s.modRun l (fun c => { c with heldLoss := none }) = t
  split
  · exact Calm.setDelay (by simp only [List.length_cons, List.length_nil]; decide)
  · rename_i d ds hd
    split
    · rename_i hl
      refine Calm.setDelay ?_
      simp only [List.length_append, List.length_cons, List.length_nil]
      omega
    · by_cases hc : (t.lane l).delay.length ≤ Config.delayCapacity
      · rw [hd] at hc
        simp only [List.length_cons] at hc
        refine (Calm.setDelay (Nat.le_of_succ_le hc)).trans ((Calm.handleEntry _ _ _).trans (Calm.setDelay ?_))
        simpa using hc
      · have hnf : ¬ (t.lane l).fits := fun x => hc x.delay
        have h1 : Calm t (t.modLane l fun ln => { ln with delay := ds }) :=
          Calm.modLane ⟨fun x => absurd x hnf, rfl, id⟩
        have h2 := h1.trans (Calm.handleEntry _ l d)
        refine ⟨h2.tables, h2.groups, h2.line, h2.pending, h2.events, h2.replies, h2.trunk, fun k => ?_⟩
        by_cases e : k = l
        · subst e
          rw [State.lane_modLane_same]
          exact ⟨fun x => absurd x hnf, (h2.lanes k).run, (h2.lanes k).right⟩
        · rw [State.lane_modLane_other _ _ _ _ e]; exact h2.lanes k

theorem Calm.drainDelay (s : State) (l : LaneId) : Calm s (s.drainDelay l) := by
  unfold State.drainDelay
  simp only []
  have h : Calm s ((s.modLane l fun ln => { ln with delay := [] }).handleEntries l (s.lane l).delay) :=
    (Calm.setDelay (by decide)).trans (Calm.handleEntries _ _ _)
  split
  · exact h
  · exact h.trans (Calm.modRun fun c hc => { hc with forwarder := fits_gapEnter _ hc.forwarder, held := nofun })

theorem Calm.finishForwarding (s : State) (l : LaneId) : Calm s (s.finishForwarding l) :=
  (Calm.closeBlock s l).trans (Calm.modFwd fun _ h => { h with })

/-! ### Work that may place records -/

/-- What an act of a lane's pipeline or closing sequence does: as a calm act, but it may add records as long as
the EVENT queue holds them. -/
structure Work (s t : State) : Prop where
  tables : t.tables = s.tables
  groups : t.groups = s.groups
  line : t.resetLine = s.resetLine
  pending : t.pending = s.pending
  events : s.trunk.events.length ≤ Config.eventCapacity → t.trunk.events.length ≤ Config.eventCapacity
  replies : t.trunk.replies.length ≤ s.trunk.replies.length
  trunk : s.trunk.fits → t.trunk.fits
  lanes : ∀ k, LaneStep (s.lane k) (t.lane k)

theorem Calm.work {s t : State} (h : Calm s t) : Work s t :=
  ⟨h.tables, h.groups, h.line, h.pending, fun x => Nat.le_trans h.events x, h.replies, h.trunk, h.lanes⟩

theorem Work.trans {s t u : State} (h : Work s t) (g : Work t u) : Work s u :=
  ⟨g.tables.trans h.tables, g.groups.trans h.groups, g.line.trans h.line, g.pending.trans h.pending,
   fun x => g.events (h.events x), Nat.le_trans g.replies h.replies, fun x => g.trunk (h.trunk x),
   fun k => (h.lanes k).trans (g.lanes k)⟩

theorem Work.refl (s : State) : Work s s := (Calm.refl s).work

/-- A placed record: one more at most in the EVENT queue, everything else as in a calm act. -/
theorem placeRecord_events (s : State) (e : EventRecord) :
    (s.placeRecord e).trunk.events.length ≤ s.trunk.events.length + 1 := by
  unfold State.placeRecord
  refine Nat.le_trans (Calm.idleChoice _).events (Nat.le_trans (Calm.weighPressure _).events ?_)
  simp

/-- A record placed where the EVENT queue has room for it. -/
theorem Work.placeRecord {s : State} (e : EventRecord) (h : s.trunk.events.length + 1 ≤ Config.eventCapacity) :
    Work s (s.placeRecord e) := by
  have h1 : Work s (s.modTrunk fun t => { t with events := t.events ++ [e] }) :=
    ⟨rfl, rfl, rfl, rfl, fun _ => by simpa using h, Nat.le_refl _, fun x => { x with }, fun _ => LaneStep.refl _⟩
  exact h1.trans ((Calm.weighPressure _).trans (Calm.idleChoice _)).work

/-- Room for k places. -/
theorem room_of_roomFor {s : State} {w : Waiter} {k : Nat} (hk : k ≠ 0) (h : s.roomFor w k = true) :
    s.trunk.events.length + k ≤ Config.eventCapacity := by
  unfold State.roomFor at h
  simp only [Bool.or_eq_true, beq_iff_eq, hk, false_or, Bool.and_eq_true, decide_eq_true_eq] at h
  exact h.1

/-! ### The closing sequence -/

/-- A keep record changed and the evaluator replaced within its ranges. -/
theorem fits_evaluated {c : RunContext} (r : Fin 32) (g : KeepRecord → KeepRecord) {e : Evaluator} (h : c.fits)
    (he : e.fits) : RunContext.fits { c with forwarder := modKeep r g c.forwarder, evaluator := e } :=
  { h with forwarder := { h.forwarder with }, evaluator := he }

theorem fits_closeRule (l : LaneId) (p : Layout) (d : Int) (r : Fin 32) (rule : CallRule) (b : Bool) (o : RuleOpen)
    {c : RunContext} (h : c.fits) : (closeRule l p d r rule b o c).1.fits := by
  unfold closeRule
  simp only []
  have he : (setRule r none c.evaluator).fits := fits_setRule r h.evaluator nofun
  split
  · exact fits_evaluated r _ h (fits_fileIndication _ _ _ _ he)
  · exact fits_evaluated r _ h he

theorem fits_endRule (l : LaneId) (p : Layout) (d : Int) (r : Fin 32) (rule : CallRule) {c : RunContext}
    (h : c.fits) : (endRule l p d r rule c).1.fits := by
  unfold endRule
  split
  · exact h
  · exact fits_closeRule _ _ _ _ _ _ _ h

theorem fits_evaluateRule (l : LaneId) (p : Layout) (d : Int) (r : Fin 32) (rule : CallRule) (f : Frame)
    {c : RunContext} (h : c.fits) : (evaluateRule l p d r rule f c).1.fits := by
  unfold evaluateRule
  split
  · exact h
  · simp only []
    split
    · split
      · refine fits_evaluated r _ h (fits_setRule r h.evaluator fun x hx => ?_)
        rw [← Option.some.inj hx]
        exact (by decide : 1 ≤ 255)
      · refine { h with evaluator := fits_setRule r h.evaluator fun x hx => ?_ }
        rw [← Option.some.inj hx]
        unfold ruleExtended
        simp only []
        split <;> exact satByte_le _
    · split
      · exact h
      · exact fits_closeRule _ _ _ _ _ _ _ h

theorem Calm.closeStep (s : State) (l : LaneId) (st : CloseStep) : Calm s (s.closeStep l st).1 := by
  unfold State.closeStep
  split
  · exact Calm.refl s
  · rename_i c hc
    cases st with
    | rule r => exact Calm.setRun hc (fits_endRule _ _ _ _ _)
    | dropCandidate => exact Calm.modRun fun _ h => { h with matcher := { h.matcher with } }
    | drain => exact Calm.drainDelay s l
    | finalBlock => exact Calm.finishForwarding s l
    | verdict =>
      refine Calm.modRun fun c h => ?_
      unfold formVerdict
      split
      · exact h
      · exact { h with }
    | runClose => exact Calm.refl s

theorem Work.runClosing (l : LaneId) (steps : List CloseStep) : ∀ s : State, Work s (s.runClosing l steps) := by
  induction steps with
  | nil => exact fun s => (Calm.setClosing s l _).work
  | cons st rest ih =>
    intro s
    have hc := Calm.closeStep s l st
    unfold State.runClosing
    generalize hst : s.closeStep l st = r at hc
    obtain ⟨s', o⟩ := r
    cases o with
    | none => exact hc.work.trans (ih s')
    | some e =>
      simp only []
      split
      · rename_i hr
        have hroom := room_of_roomFor (by decide) hr
        have hl := Calm.leaveWaiters s' (.closing l)
        refine (hc.trans hl).work.trans ((Work.placeRecord e ?_).trans (ih _))
        exact Nat.le_trans (Nat.add_le_add_right (Nat.le_trans hl.events hc.events) 1) hroom
      · exact ((Calm.setClosing s l _).trans (Calm.joinWaiters _ _)).work

theorem fits_handCarried {c : RunContext} (h : c.fits) : (handCarried c).fits :=
  { h with
    forwarder := { h.forwarder with lost := satTo_le _ _ }
    tracker := { h.tracker with carried := Nat.zero_le _ } }

/-- Entry to CLOSING from a state with a run context. -/
theorem Work.enterClosing {s : State} {l : LaneId} (reason : CloseReason)
    (h : needsRun (s.lane l).runState = true) : Work s (s.enterClosing l reason) := by
  unfold State.enterClosing
  simp only []
  have h1 : Calm s (s.modRun l fun c => { c with reason := some reason, armTimer := .stopped, stallTimer := .stopped }) :=
    Calm.modRun fun _ x => { x with arm := trivial, stall := trivial }
  have h2 : Calm s (((s.modRun l fun c =>
      { c with reason := some reason, armTimer := .stopped, stallTimer := .stopped }).setRunState l .closing).modRun l
        handCarried) := by
    refine h1.trans ((Calm.setRunState ?_).trans (Calm.modRun fun _ x => fits_handCarried x))
    simp only [State.modRun, State.lane_modLane_same]
    rw [h]; rfl
  split
  · exact h2.work
  · exact h2.work.trans (Work.runClosing l closeSteps _)

/-! ### The pipeline -/

theorem fits_reportLoss (f : Frame) (hl : f.lost ≤ 65535) {c : RunContext} (h : c.fits) : (reportLoss f c).fits := by
  have hf : (addLost f.lost c.forwarder).fits := { h.forwarder with lost := satTo_le _ _ }
  unfold reportLoss
  simp only []
  split
  · refine { h with forwarder := hf, held := fun x hx => ?_ }
    rw [← Option.some.inj hx]
    split
    · exact hl
    · exact satTo_le _ _
  · exact { h with forwarder := hf }

/-- What is done at once with a frame keeps the ranges. -/
theorem fits_doneAtOnce (rows : Nat → StandardRow) (f : Frame) (hl : f.lost ≤ 65535) {c : RunContext} (h : c.fits) :
    (doneAtOnce rows f c).fits := by
  unfold doneAtOnce
  simp only []
  have h1 : (if reportsLoss f.cls = true then reportLoss f c else c).fits := by
    split
    · exact fits_reportLoss f hl h
    · exact h
  split
  · exact { h1 with evaluator := { h1.evaluator with } }
  · exact h1

/-! ### The matcher's counts -/

theorem fits_countOutcome (o : LandmarkOutcome) {m : Matcher} (h : m.fits) : (countOutcome o m).fits := by
  cases o with
  | matched => exact { h with matched := satByte_le _ }
  | missed => exact { h with missed := satByte_le _ }
  | unexpected => exact { h with unexpected := satByte_le _ }
  | notReached => exact { h with notReached := satByte_le _ }

theorem fits_judgePush (p : Layout) (cand : Candidate) (length : Int) {m : Matcher} (h : m.fits) :
    (judgePush p cand length m).1.fits := by
  have outlet : ∀ o : Option LayoutEntry, (match o with
      | some e => if inWindow e cand.peakPos then
          let r := matchEntry .push (p.entries.length - 1) e cand.peakPos length none m
          (r.1, some r.2)
        else (m, none)
      | none => ((m, none) : Matcher × Option LandmarkRecord)).1.fits := by
    intro o
    split
    · split
      · exact ⟨satByte_le _, h.missed, h.unexpected, h.notReached⟩
      · exact h
    · exact h
  unfold judgePush
  split
  · exact h
  · simp only []
    split
    · exact h
    · split
      · split
        · exact ⟨satByte_le _, h.missed, h.unexpected, h.notReached⟩
        · exact outlet _
      · exact h
    · exact outlet _

theorem fits_judgePull (p : Layout) (cand : Candidate) (length : Int) {m : Matcher} (h : m.fits) :
    (judgePull p cand length m).1.fits := by
  unfold judgePull
  simp only []
  split
  · exact fits_countOutcome .unexpected h
  · split
    · exact fits_countOutcome .unexpected h
    · split
      · exact ⟨satByte_le _, h.missed, h.unexpected, h.notReached⟩
      · exact fits_countOutcome .unexpected h

theorem fits_candidateWork (p : Layout) (threshold : Nat) (f : Frame) (mag : Nat) {m : Matcher} (h : m.fits) :
    (candidateWork p threshold f mag m).1.fits := by
  unfold candidateWork
  split
  · split
    · exact { h with }
    · exact h
  · split
    · split
      · exact { h with }
      · exact h
    · simp only []
      split
      · exact fits_judgePush _ _ _ { h with }
      · exact fits_judgePull _ _ _ { h with }

theorem fits_missedWork (p : Layout) (q : Int) {m : Matcher} (h : m.fits) : (missedWork p q m).1.fits := by
  unfold missedWork
  split
  · exact h
  · split
    · exact h
    · split
      · simp only []
        split
        · exact fits_countOutcome .missed { h with }
        · exact { h with }
      · exact h

theorem fits_workOn (s : State) (l : LaneId) (f : Frame) (i : WorkItem) {c : RunContext} (h : c.fits) :
    (s.workOn l f i c).1.fits := by
  cases i with
  | notReached k => exact { h with matcher := fits_countOutcome .notReached h.matcher }
  | setCursor e => exact { h with matcher := { h.matcher with } }
  | candidate => exact { h with matcher := fits_candidateWork _ _ _ _ h.matcher }
  | missed => exact { h with matcher := fits_missedWork _ _ h.matcher }
  | rule r => exact fits_evaluateRule _ _ _ _ _ _ h

theorem Calm.workItem (s : State) (l : LaneId) (f : Frame) (i : WorkItem) : Calm s (s.workItem l f i).1 := by
  unfold State.workItem
  split
  · exact Calm.refl s
  · rename_i c hc
    exact Calm.setRun hc (fits_workOn s l f i)

theorem Work.finishFrame (s : State) (l : LaneId) (f : Frame) : Work s (s.finishFrame l f) := by
  unfold State.finishFrame
  simp only []
  have h1 : Calm s (if f.cls = .normal then s.enterDelay l f else s) := by
    split
    · exact Calm.enterDelay s l f
    · exact Calm.refl s
  refine h1.work.trans ?_
  generalize (if f.cls = .normal then s.enterDelay l f else s) = t
  split
  · rename_i hp
    split
    · exact Work.enterClosing _ (by rw [hp]; rfl)
    · exact Work.refl t
  · exact (Calm.modRun fun _ x => fits_handCarried x).work.trans (Work.runClosing l closeSteps _)
  all_goals exact Work.refl t

theorem carried_afterStamp (cls : Option FrameClass) {t : Tracker} (h : t.carried ≤ 65535) :
    (afterStamp cls t).carried ≤ 65535 := by
  simp only [afterStamp]; split
  · exact Nat.zero_le _
  · exact h

/-- Everything one block's work on a frame can do before it ends or waits. -/
theorem Work.blockWork (l : LaneId) (f : Frame) (mayPlace : Bool) (items : List WorkItem) : ∀ s : State,
    Work s (s.blockWork l f mayPlace items).1 := by
  induction items with
  | nil => exact Work.refl
  | cons i rest ih =>
    intro s
    have hc := Calm.workItem s l f i
    unfold State.blockWork
    generalize hst : s.workItem l f i = r at hc
    obtain ⟨s', o⟩ := r
    cases o with
    | none => exact hc.work.trans (ih s')
    | some e =>
      simp only []
      split
      · rename_i hr
        rw [Bool.and_eq_true] at hr
        have hroom := room_of_roomFor (by decide) hr.2
        have hl := Calm.leaveWaiters s' (.pipeline l)
        refine (hc.trans hl).work.trans ((Work.placeRecord e ?_).trans (ih _))
        exact Nat.le_trans (Nat.add_le_add_right (Nat.le_trans hl.events hc.events) 1) hroom
      · exact Work.refl s

theorem Work.runWork (s : State) (l : LaneId) (f : Frame) (first second : List WorkItem) :
    Work s (s.runWork l f first second) := by
  unfold State.runWork
  simp only []
  have ha := Work.blockWork l f true first s
  have hb := Work.blockWork l f (s.blockWork l f true first).2.isEmpty second (s.blockWork l f true first).1
  refine (ha.trans hb).trans ?_
  split
  · exact Work.finishFrame _ l f
  · exact ((Calm.setPassage _ l _).trans (Calm.joinWaiters _ _)).work

theorem Work.handOn (s : State) (l : LaneId) (b : Bool) (cls : FrameClass) (ph : Phase) (m x : Bool) (t : Tracker)
    (slots : List Slot) (rev : List WorkItem) : Work s (s.handOn l b cls ph m x t slots rev) := by
  unfold State.handOn
  split
  · exact Work.refl s
  · rename_i c hc
    simp only []
    have h1 : Calm s (s.modRun l fun d => doneAtOnce (s.standardRow l)
        (frameOf cls ph m x t c.tracker (s.conditioned l c cls slots))
        { d with balance := s.trackedBalance l d cls ph slots, tracker := afterStamp (some cls) d.tracker }) := by
      refine Calm.modRunAt fun d hr hd => fits_doneAtOnce _ _ ?_
        { hd with tracker := { hd.tracker with carried := carried_afterStamp _ hd.tracker.carried } }
      rw [Option.some.inj (hc.symm.trans hr)]
      simp only [frameOf]
      split
      · exact hd.tracker.carried
      · exact Nat.zero_le _
    split
    · exact h1.work.trans (Work.runWork _ l _ _ _)
    · exact h1.work.trans (Work.runWork _ l _ _ _)

/-- The tracker replaced by one within its ranges. -/
theorem Calm.setTracker {s : State} {l : LaneId} {t : Tracker} (h : ∀ c, (s.lane l).run = some c → c.fits → t.fits) :
    Calm s (s.setTracker l t) := Calm.modRunAt fun c hr x => { x with tracker := h c hr x }

/-- Travel, stamp and loss keep the tracker's ranges. -/
theorem fits_trackEntry (scale : Nat) (corr : Int) (e : FifoEntry) {t : Tracker} (h : t.fits) :
    (trackEntry scale corr e t).fits :=
  { remainder := Nat.le_of_lt_succ (Nat.mod_lt _ (by decide))
    corrCount := by
      show (if corr = t.applied then t.corrCount else (t.corrCount + 1) % 256) ≤ 255
      by_cases hc : corr = t.applied
      · rw [if_pos hc]; exact h.corrCount
      · rw [if_neg hc]; exact Nat.le_of_lt_succ (Nat.mod_lt _ (by decide))
    carried := satTo_le _ _ }

theorem fits_afterStamp (cls : Option FrameClass) {t : Tracker} (h : t.fits) : (afterStamp cls t).fits :=
  { h with carried := carried_afterStamp cls h.carried }

theorem fits_pullFields (clocking : Clocking) (moving : Bool) (cls : FrameClass) {t : Tracker} (h : t.fits) :
    (pullFields clocking moving cls t).fits := { h with }

theorem fits_motionTimer {t : Timer} (h : t.fits) : (motionTimer t).fits := by
  cases t with
  | stopped => exact h
  | paused ms => exact Nat.zero_le _
  | running ms => exact Nat.zero_le _

theorem Calm.motionReport (s : State) (l : LaneId) (m : Bool) : Calm s (s.motionReport l m) := by
  unfold State.motionReport
  split
  · exact Calm.modRun fun _ h => { h with stall := fits_motionTimer h.stall }
  · exact Calm.refl s

theorem Calm.startInsertion {s : State} {l : LaneId} (h : needsRun (s.lane l).runState = true) :
    Calm s (s.startInsertion l) := by
  unfold State.startInsertion
  simp only []
  refine Calm.trans ?_ (Calm.modRun fun _ x => { x with stall := ?_ })
  · refine Calm.trans ?_ (Calm.setRunState ?_)
    · exact Calm.modRun fun _ x => { x with arm := trivial }
    simp only [State.modRun, State.lane_modLane_same]
    rw [h]; rfl
  · split
    · exact Nat.zero_le _
    · exact Nat.zero_le _

theorem Work.takeArmed {s : State} {l : LaneId} (b : Bool) (e : FifoEntry) (m : Bool) (before : Tracker) {t : Tracker}
    (h : needsRun (s.lane l).runState = true) (ht : ∀ c, (s.lane l).run = some c → c.fits → t.fits) :
    Work s (s.takeArmed l b e m before t) := by
  unfold State.takeArmed
  split
  · exact (Calm.setTracker fun c hr x => fits_afterStamp _ (ht c hr x)).work
  · split
    · refine Work.trans (Calm.work ?_) (Work.handOn _ _ _ _ _ _ _ _ _ _)
      refine Calm.trans ?_ (Calm.startInsertion ?_)
      · exact Calm.setTracker ht
      · simp only [State.setTracker, State.modRun, State.lane_modLane_same]; exact h
    · refine Work.trans (Calm.work ?_) (Work.enterClosing _ ?_)
      · exact Calm.setTracker fun c hr x => fits_afterStamp _ (ht c hr x)
      · simp only [State.setTracker, State.modRun, State.lane_modLane_same]; exact h

theorem Work.takeReversal {s : State} {l : LaneId} (b : Bool) (e : FifoEntry) (before : Tracker) {t : Tracker}
    (h : needsRun (s.lane l).runState = true) (ht : ∀ c, (s.lane l).run = some c → c.fits → t.fits) :
    Work s (s.takeReversal l b e before t) := by
  unfold State.takeReversal
  simp only []
  refine Work.trans (Calm.work ?_) (Work.handOn _ _ _ _ _ _ _ _ _ _)
  refine Calm.trans ?_ (Calm.modRun fun _ x => { x with matcher := { x.matcher with } })
  refine Calm.trans ?_ (Calm.motionReport _ _ _)
  refine Calm.trans ?_ (Calm.setRunState ?_)
  · exact Calm.setTracker fun c hr x => { ht c hr x with }
  simp only [State.setTracker, State.modRun, State.lane_modLane_same]
  rw [h]; rfl

theorem Work.takeFrame (s : State) (l : LaneId) (b : Bool) (e : FifoEntry) : Work s (s.takeFrame l b e) := by
  unfold State.takeFrame
  split
  · exact Work.refl s
  · rename_i c hc
    simp only []
    have ht : ∀ d, (s.lane l).run = some d → d.fits →
        (trackEntry (s.laneRow l).scale c.matcher.correction e c.tracker).fits := fun d hd x =>
      fits_trackEntry _ _ _ (by rw [Option.some.inj (hc.symm.trans hd)]; exact x.tracker)
    split
    · rename_i hs; exact Work.takeArmed _ _ _ _ (by rw [hs]; rfl) ht
    · rename_i hs
      unfold State.takeInserting
      split
      · exact Work.takeReversal _ _ _ (by rw [hs]; rfl) ht
      · refine Work.trans (Calm.work ?_) (Work.handOn _ _ _ _ _ _ _ _ _ _)
        refine Calm.trans ?_ (Calm.motionReport _ _ _)
        exact Calm.setTracker ht
    · unfold State.takePulling
      simp only []
      refine Work.trans (Calm.work ?_) (Work.handOn _ _ _ _ _ _ _ _ _ _)
      refine Calm.trans ?_ (Calm.motionReport _ _ _)
      exact Calm.setTracker fun d hd x => fits_pullFields _ _ _ (ht d hd x)
    all_goals exact Work.refl s

/-- Everything LANE_PIPELINE_TAKE can do. -/
theorem Work.pipelineTake (s : State) (l : LaneId) (b : Bool) : Work s (s.pipelineTake l b) := by
  unfold State.pipelineTake
  split
  · rename_i e rest _ hf
    simp only []
    have h1 : Calm s ((s.modRx l fun rx => { rx with fifo := rest }).weighLaneHold l) := by
      refine (Calm.modRx fun x => { x with fifo := ?_, loss := ?_ }).trans (Calm.weighLaneHold _ _)
      · have := x.fifo
        rw [hf] at this
        exact Nat.le_of_succ_le this
      · intro a ha
        exact x.loss a (by rw [hf]; exact List.mem_cons_of_mem _ ha)
    split
    · exact h1.work.trans (Work.takeFrame _ _ _ _)
    · exact h1.work
  · exact Work.refl s

/-- Everything LANE_PIPELINE_RESUME can do. -/
theorem Work.pipelineResume (s : State) (l : LaneId) : Work s (s.pipelineResume l) := by
  unfold State.pipelineResume
  split
  · exact Work.refl s
  · exact (Calm.setPassage s l none).work.trans (Work.runWork _ _ _ _ _)

/-- Everything CLOSING_RESUME can do. -/
theorem Work.closingResume (s : State) (l : LaneId) : Work s (s.closingResume l) := by
  unfold State.closingResume
  split
  · exact Work.runClosing _ _ _
  · exact Work.refl s

/-! ### The lane receiver -/

theorem Calm.acceptFrame (s : State) (l : LaneId) (words : List Word) (cls : SequenceClass) :
    Calm s (s.acceptFrame l words cls) := by
  unfold State.acceptFrame
  simp only []
  have h0 : Calm s (s.modRx l (noteSequence (sampleSequence words) cls)) := by
    refine Calm.modRx fun x => { x with sequence := ?_ }
    simp only [noteSequence]
    split
    · exact satByte_le _
    · exact x.sequence
  refine h0.trans ?_
  have hf : ((s.modRx l (noteSequence (sampleSequence words) cls)).lane l).rx.fifo = (s.lane l).rx.fifo := by
    simp [State.modRx, noteSequence]
  generalize s.modRx l (noteSequence (sampleSequence words) cls) = t at hf ⊢
  have hz : ∀ ms, some 0 = some ms → ms ≤ Config.silenceLimit := fun ms e => by
    rw [← Option.some.inj e]; exact Nat.zero_le _
  split
  · split
    · rename_i hl
      refine (Calm.modRx fun x => { x with fifo := ?_, loss := ?_, pendingLoss := Nat.zero_le _, silence := hz }).trans
        (Calm.weighLaneHold _ _)
      · simp only [ingressPlace, List.length_append, List.length_cons, List.length_nil]
        rw [hf]
        exact hl
      · intro a ha
        rcases List.mem_append.mp ha with h | h
        · exact x.loss a h
        · rw [List.mem_singleton.mp h]; exact satTo_le _ _
    · exact Calm.modRx fun x => { x with pendingLoss := satTo_le _ _, overflow := satByte_le _, silence := hz }
  · split
    · exact (Calm.modRx fun x => { x with qualifying := Nat.zero_le _, silence := hz }).trans (Calm.weighLane _ _)
    · rename_i hq
      exact Calm.modRx fun x => { x with qualifying := Nat.le_of_lt_succ (Nat.lt_of_not_le hq) }

/-- Everything SAMPLE_FRAME can do. -/
theorem Calm.sampleFrameEnd (s : State) (l : LaneId) (words : List Word) : Calm s (s.sampleFrameEnd l words) := by
  unfold State.sampleFrameEnd
  split
  · exact Calm.modRx fun x => { x with check := satByte_le _ }
  · split
    · exact Calm.modRx fun x => { x with format := satByte_le _, qualifying := Nat.zero_le _ }
    · exact Calm.acceptFrame _ _ _ _

theorem Work.linkLost (s : State) (l : LaneId) : Work s (s.linkLost l) := by
  unfold State.linkLost
  split
  · rename_i h
    exact Work.enterClosing _ (by unfold needsRun; rw [h]; rfl)
  · exact (Calm.weighLane s l).work

theorem fits_tickTimer {t : Timer} (h : t.fits) : (tickTimer t).fits := by
  cases t with
  | stopped => exact h
  | paused ms => exact h
  | running ms => exact satTo_le _ _

theorem LaneStep.tick (a : Lane) : LaneStep a (tickLane a) := by
  refine LaneStep.trans ?_ (LaneStep.run' (a := { a with rx := (tickLane a).rx })
    (f := fun c => { c with armTimer := tickTimer c.armTimer, stallTimer := tickTimer c.stallTimer })
    fun _ h => { h with arm := fits_tickTimer h.arm, stall := fits_tickTimer h.stall })
  refine LaneStep.rx fun x => { x with silence := fun ms h => ?_, status := satTo_le _ _ }
  obtain ⟨n, _, rfl⟩ := Option.map_eq_some_iff.mp h
  exact satTo_le _ _

/-- Everything a millisecond can do. -/
theorem Calm.tick (s : State) : Calm s s.tick := by
  unfold State.tick
  split
  · exact Calm.refl s
  · exact Calm.mapLanes fun _ => LaneStep.tick _

end Sys2Proof.Machine
end

