-- ==== Sys2Proof/Laws/Memory.lean ====
section
/-! SUPPORT. The table memory: what a read gives after a write, and that every write keeps the canonical form. -/

namespace Sys2Proof.Machine

open Sys2Proof

/-! ### The canonical form -/

theorem memSorted_cons {lo a : Nat} {w : Word} {m : Memory} :
    memSorted lo ((a, w) :: m) = true ↔
      lo ≤ a ∧ a < Config.tableWords ∧ w ≠ 0 ∧ memSorted (a + 1) m = true := by
  simp [memSorted, and_assoc]

theorem memSorted_weaken {lo lo' : Nat} (h : lo' ≤ lo) : ∀ {m : Memory}, memSorted lo m = true → memSorted lo' m = true
  | [], _ => rfl
  | (_, _) :: _, hm => by
    rw [memSorted_cons] at hm ⊢
    exact ⟨Nat.le_trans h hm.1, hm.2⟩

/-- An address below every listed one reads 0. -/
theorem memRead_below {lo n : Nat} (h : n < lo) : ∀ {m : Memory}, memSorted lo m = true → memRead m n = 0
  | [], _ => rfl
  | (a, w) :: m, hm => by
    rw [memSorted_cons] at hm
    have hne : a ≠ n := by omega
    simp only [memRead, hne, if_false]
    exact memRead_below (lo := a + 1) (by omega) hm.2.2.2

/-- An address outside the table memory reads 0. -/
theorem memRead_outside {lo n : Nat} (h : Config.tableWords ≤ n) : ∀ {m : Memory}, memSorted lo m = true → memRead m n = 0
  | [], _ => rfl
  | (a, w) :: m, hm => by
    rw [memSorted_cons] at hm
    have hne : a ≠ n := by omega
    simp only [memRead, hne, if_false]
    exact memRead_outside h hm.2.2.2

theorem memSorted_memInsert {n : Nat} {v : Word} (hn : n < Config.tableWords) :
    ∀ {m : Memory} {lo : Nat}, lo ≤ n → memSorted lo m = true → memSorted lo (memInsert m n v) = true
  | [], lo, hlo, _ => by
    unfold memInsert
    split
    · rfl
    · exact memSorted_cons.mpr ⟨hlo, hn, ‹_›, rfl⟩
  | (a, w) :: m, lo, hlo, hm => by
    have hm' := memSorted_cons.mp hm
    unfold memInsert
    split
    · split
      · exact hm
      · rename_i hna hv
        rw [memSorted_cons]
        exact ⟨hlo, hn, hv, memSorted_cons.mpr ⟨hna, hm'.2⟩⟩
    · split
      · rename_i hna
        split
        · exact memSorted_weaken (by omega) hm'.2.2.2
        · rename_i hv
          rw [memSorted_cons]
          exact ⟨hlo, hn, hv, by rw [hna]; exact hm'.2.2.2⟩
      · rw [memSorted_cons]
        exact ⟨hm'.1, hm'.2.1, hm'.2.2.1, memSorted_memInsert hn (by omega) hm'.2.2.2⟩

/-- A read after a word is put into the list. -/
theorem memRead_memInsert {n k : Nat} {v : Word} :
    ∀ {m : Memory} {lo : Nat}, memSorted lo m = true → memRead (memInsert m n v) k = if k = n then v else memRead m k
  | [], lo, _ => by
    unfold memInsert
    split
    · rename_i hv
      by_cases hk : k = n
      · rw [if_pos hk, hv]; rfl
      · rw [if_neg hk]
    · by_cases hk : k = n
      · simp [memRead, hk]
      · have : n ≠ k := fun e => hk e.symm
        simp [memRead, hk, this]
  | (a, w) :: m, lo, hm => by
    have hm' := memSorted_cons.mp hm
    unfold memInsert
    split
    · rename_i hna
      have ha : memSorted a ((a, w) :: m) = true := memSorted_cons.mpr ⟨Nat.le_refl _, hm'.2⟩
      split
      · rename_i hv
        by_cases hk : k = n
        · rw [if_pos hk, hk, hv]; exact memRead_below hna ha
        · rw [if_neg hk]
      · by_cases hk : k = n
        · simp [memRead, hk]
        · have : n ≠ k := fun e => hk e.symm
          simp [memRead, hk, this]
    · split
      · rename_i hna
        split
        · rename_i hv
          by_cases hk : k = n
          · rw [if_pos hk, hk, hv]; exact memRead_below (lo := a + 1) (by omega) hm'.2.2.2
          · have : a ≠ k := by omega
            simp [memRead, hk, this]
        · by_cases hk : k = n
          · simp [memRead, hk]
          · have h1 : n ≠ k := fun e => hk e.symm
            have h2 : a ≠ k := by omega
            simp [memRead, hk, h1, h2]
      · rename_i h1 h2
        by_cases hak : a = k
        · have : k ≠ n := by omega
          simp [memRead, hak, this]
        · simp only [memRead, hak, if_false]
          exact memRead_memInsert hm'.2.2.2

/-! ### One word -/

/-- Every write of a word keeps the canonical form. -/
theorem Memory.wf_memWrite {m : Memory} (h : m.wf = true) (n : Nat) (v : Word) : (memWrite m n v).wf = true := by
  unfold memWrite
  split
  · exact memSorted_memInsert ‹_› (Nat.zero_le n) h
  · exact h

/-- A read after a write of a word. -/
theorem memRead_memWrite {m : Memory} (h : m.wf = true) (n k : Nat) (v : Word) :
    memRead (memWrite m n v) k = if k = n ∧ n < Config.tableWords then v else memRead m k := by
  unfold memWrite
  by_cases hn : n < Config.tableWords
  · simp only [hn, if_true, and_true]; exact memRead_memInsert h
  · simp [hn]

/-! ### Consecutive words -/

/-- Every write of consecutive words keeps the canonical form. -/
theorem Memory.wf_memWriteBlock (ws : List Word) : ∀ {m : Memory} (base : Nat), m.wf = true →
    (memWriteBlock m base ws).wf = true := by
  induction ws with
  | nil => intro m base h; exact h
  | cons w ws ih => intro m base h; exact ih (base + 1) (Memory.wf_memWrite h base w)

/-- A read outside the written words gives what it gave before. -/
theorem memRead_memWriteBlock_outside (ws : List Word) : ∀ {m : Memory} (base k : Nat), m.wf = true →
    (k < base ∨ base + ws.length ≤ k) → memRead (memWriteBlock m base ws) k = memRead m k := by
  induction ws with
  | nil => intro m base k _ _; rfl
  | cons w ws ih =>
    intro m base k h hk
    simp only [List.length_cons] at hk
    rw [memWriteBlock, ih (base + 1) k (Memory.wf_memWrite h base w) (by omega), memRead_memWrite h,
      if_neg (by omega)]

/-- A read inside the written words gives the word written. -/
theorem memRead_memWriteBlock_inside (ws : List Word) : ∀ {m : Memory} (base i : Nat), m.wf = true →
    i < ws.length → base + i < Config.tableWords → memRead (memWriteBlock m base ws) (base + i) = ws.getD i 0 := by
  induction ws with
  | nil => intro m base i _ hi; exact absurd hi (Nat.not_lt_zero _)
  | cons w ws ih =>
    intro m base i h hi hb
    rw [memWriteBlock]
    cases i with
    | zero =>
      rw [memRead_memWriteBlock_outside ws (base + 1) (base + 0) (Memory.wf_memWrite h base w) (by omega),
        memRead_memWrite h, if_pos (by omega)]
      simp
    | succ i =>
      have := ih (m := memWrite m base w) (base + 1) i (Memory.wf_memWrite h base w)
        (by simpa using hi) (by omega)
      rw [show base + (i + 1) = base + 1 + i by omega, this]
      simp

/-- A block of consecutive words reads alike in two memories that agree on it. -/
theorem memReadBlock_congr {m m' : Memory} {base n : Nat}
    (h : ∀ k, base ≤ k → k < base + n → memRead m k = memRead m' k) : memReadBlock m base n = memReadBlock m' base n := by
  unfold memReadBlock
  apply List.map_congr_left
  intro i hi
  rw [List.mem_range] at hi
  exact h _ (by omega) (by omega)

/-- Words written are read back as a block. -/
theorem memReadBlock_memWriteBlock {m : Memory} (h : m.wf = true) (base : Nat) (ws : List Word)
    (hb : base + ws.length ≤ Config.tableWords) : memReadBlock (memWriteBlock m base ws) base ws.length = ws := by
  apply List.ext_getElem
  · simp [memReadBlock]
  · intro i h1 h2
    have hi : i < ws.length := by simpa [memReadBlock] using h1
    simp only [memReadBlock, List.getElem_map, List.getElem_range]
    rw [memRead_memWriteBlock_inside ws base i h hi (by omega)]
    simp [hi]

/-! ### Equal memories are equal data -/

theorem memSorted_ext : ∀ {m m' : Memory} {lo lo' : Nat}, memSorted lo m = true → memSorted lo' m' = true →
    (∀ n, memRead m n = memRead m' n) → m = m'
  | [], [], _, _, _, _, _ => rfl
  | [], (a, w) :: m', lo, lo', _, h', he => by
    have h2 := memSorted_cons.mp h'
    have := he a
    simp only [memRead, if_true] at this
    exact absurd this.symm h2.2.2.1
  | (a, w) :: m, [], lo, lo', h, _, he => by
    have h2 := memSorted_cons.mp h
    have := he a
    simp only [memRead, if_true] at this
    exact absurd this h2.2.2.1
  | (a, w) :: m, (b, v) :: m', lo, lo', h, h', he => by
    have h1 := memSorted_cons.mp h
    have h2 := memSorted_cons.mp h'
    have hab : a = b := by
      rcases Nat.lt_trichotomy a b with hlt | heq | hgt
      · have := he a
        rw [memRead_below (lo := b) hlt (memSorted_cons.mpr ⟨Nat.le_refl _, h2.2⟩)] at this
        simp only [memRead, if_true] at this
        exact absurd this h1.2.2.1
      · exact heq
      · have := he b
        rw [memRead_below (lo := a) hgt (memSorted_cons.mpr ⟨Nat.le_refl _, h1.2⟩)] at this
        simp only [memRead, if_true] at this
        exact absurd this.symm h2.2.2.1
    subst hab
    have hwv : w = v := by have := he a; simpa [memRead] using this
    subst hwv
    have : m = m' := memSorted_ext h1.2.2.2 h2.2.2.2 (by
      intro n
      by_cases hn : n < a + 1
      · rw [memRead_below hn h1.2.2.2, memRead_below hn h2.2.2.2]
      · have := he n
        have hne : a ≠ n := by omega
        simpa [memRead, hne] using this)
    rw [this]

/-- Two memories in canonical form that read alike everywhere are the same list. -/
theorem Memory.wf_ext {m m' : Memory} (h : m.wf = true) (h' : m'.wf = true)
    (he : ∀ n, memRead m n = memRead m' n) : m = m' := memSorted_ext h h' he

end Sys2Proof.Machine
end

