-- ==== Sys2Proof/Laws/Tables.lean ====
section
/-! SUPPORT. What the table manager's operations can do to the table memory and the directory, said once. -/

namespace Sys2Proof.Machine

open Sys2Proof

/-! ### Kinds -/

theorem Kind.idx_inj : ∀ k k' : Kind, k.idx = k'.idx → k = k' := by
  intro k k'; cases k <;> cases k' <;> decide

theorem Tables.kind_modKind_same (t : Tables) (k : Kind) (f : KindState → KindState) :
    (t.modKind k f).kind k = f (t.kind k) := vmod_same _ _ _

theorem Tables.kind_modKind_other (t : Tables) (k k' : Kind) (f : KindState → KindState) (h : k' ≠ k) :
    (t.modKind k f).kind k' = t.kind k' := vmod_other _ _ _ _ fun e => h (Kind.idx_inj _ _ e)

/-- A kind changed without its directory entries. -/
theorem Tables.entry_modKind (t : Tables) (k k' : Kind) (f : KindState → KindState) (c : CopyIndex)
    (h : ∀ ks c, (f ks).entry c = ks.entry c) : ((t.modKind k f).kind k').entry c = (t.kind k').entry c := by
  by_cases e : k' = k
  · subst e; rw [Tables.kind_modKind_same, h]
  · rw [Tables.kind_modKind_other _ _ _ _ e]

/-! ### Extents -/

/-- A word of the extent of a nonempty entry. -/
def inExtent (k : Kind) (e : DirEntry) (a : Nat) : Prop := e.base ≤ a ∧ a < e.base + e.limit * rowWords k

theorem extentsApart_iff (ka : Kind) (a : DirEntry) (kb : Kind) (b : DirEntry) :
    extentsApart ka a kb b = true ↔ a.limit = 0 ∨ b.limit = 0 ∨ a.base + a.limit * rowWords ka ≤ b.base
      ∨ b.base + b.limit * rowWords kb ≤ a.base := by
  simp [extentsApart, or_assoc]

theorem extentsApart_symm {ka : Kind} {a : DirEntry} {kb : Kind} {b : DirEntry}
    (h : extentsApart ka a kb b = true) : extentsApart kb b ka a = true := by
  rw [extentsApart_iff] at h ⊢; omega

/-- Two extents that are apart share no word. -/
theorem inExtent_apart {ka : Kind} {a : DirEntry} {kb : Kind} {b : DirEntry} (h : extentsApart ka a kb b = true)
    {x : Nat} (ha : inExtent ka a x) : ¬ inExtent kb b x := by
  rw [extentsApart_iff] at h
  unfold inExtent at *
  rcases h with h | h | h | h
  · rw [h] at ha; omega
  · rw [h]; omega
  · omega
  · omega

theorem rowWords_pos (k : Kind) : 0 < rowWords k := by cases k <;> decide

/-- The words of a row below the limit lie in the extent. -/
theorem row_inExtent {k : Kind} {e : DirEntry} {r i : Nat} (hr : r < e.limit) (hi : i < rowWords k) :
    inExtent k e (rowAddress k e r + i) := by
  have h : (r + 1) * rowWords k ≤ e.limit * rowWords k := Nat.mul_le_mul_right _ hr
  rw [Nat.succ_mul] at h
  unfold inExtent rowAddress
  omega

/-- A row reads alike in two memories that agree on its copy's extent. -/
theorem row_congr {t t' : Tables} {k : Kind} {c : CopyIndex} (he : (t'.kind k).entry c = (t.kind k).entry c)
    (hm : ∀ a, inExtent k ((t.kind k).entry c) a → memRead t'.mem a = memRead t.mem a) (r : Nat) :
    t'.row k c r = t.row k c r := by
  unfold Tables.row
  simp only [he]
  split
  · rename_i hr
    apply memReadBlock_congr
    intro a h1 h2
    apply hm
    have := row_inExtent (k := k) (e := (t.kind k).entry c) (i := a - rowAddress k ((t.kind k).entry c) r) hr (by omega)
    rwa [Nat.add_sub_cancel' h1] at this
  · rfl

/-! ### What an act does to the tables -/

/-- What an act of the table manager keeps: the canonical form of the table memory, the directory laws, the
length of staged rows, and, with all three, every row of a captured copy. -/
structure TablesKept (s t : State) : Prop where
  mem : s.tables.mem.wf = true → t.tables.mem.wf = true
  law : s.tables.directoryLaw → t.tables.directoryLaw
  sized : s.tables.stagingSized → t.tables.stagingSized
  rows : s.tables.mem.wf = true → s.tables.directoryLaw → s.tables.stagingSized → ∀ k c,
    s.isCaptured k c = true → ∀ r, t.tables.row k c r = s.tables.row k c r

theorem TablesKept.of_eq {s t : State} (h : t.tables = s.tables) : TablesKept s t :=
  ⟨fun x => by rw [h]; exact x, fun x => by rw [h]; exact x, fun x => by rw [h]; exact x,
    fun _ _ _ k c _ r => by rw [h]⟩

/-- An act that changes neither the memory nor an entry. -/
theorem TablesKept.of_entries {s t : State} (hm : t.tables.mem = s.tables.mem)
    (he : ∀ k c, (t.tables.kind k).entry c = (s.tables.kind k).entry c)
    (hs : s.tables.stagingSized → t.tables.stagingSized) : TablesKept s t :=
  ⟨fun x => by rw [hm]; exact x,
   fun x => ⟨fun k c => by rw [he]; exact x.1 k c, fun k c k' c' h => by rw [he, he]; exact x.2 k c k' c' h⟩, hs,
   fun _ _ _ k c _ r => row_congr (he k c) (fun a _ => by rw [hm]) r⟩

/-- Memory and directory stand, and staged rows keep their length. -/
structure EntriesKept (s t : State) : Prop where
  mem : t.tables.mem = s.tables.mem
  entry : ∀ k c, (t.tables.kind k).entry c = (s.tables.kind k).entry c
  sized : s.tables.stagingSized → t.tables.stagingSized

theorem EntriesKept.of_eq {s t : State} (h : t.tables = s.tables) : EntriesKept s t :=
  ⟨by rw [h], fun _ _ => by rw [h], fun x => by rw [h]; exact x⟩

theorem EntriesKept.trans {s t u : State} (h : EntriesKept s t) (g : EntriesKept t u) : EntriesKept s u :=
  ⟨g.mem.trans h.mem, fun k c => (g.entry k c).trans (h.entry k c), fun x => g.sized (h.sized x)⟩

theorem EntriesKept.kept {s t : State} (h : EntriesKept s t) : TablesKept s t :=
  TablesKept.of_entries h.mem h.entry h.sized

theorem TablesKept.calm {s t u : State} (h : TablesKept s t) (g : Calm t u) : TablesKept s u :=
  ⟨fun x => by rw [g.tables]; exact h.mem x, fun x => by rw [g.tables]; exact h.law x,
   fun x => by rw [g.tables]; exact h.sized x, fun a b d k c x r => by rw [g.tables]; exact h.rows a b d k c x r⟩

/-- An act that keeps the entries and writes only words of a staging copy that no run captured. -/
theorem TablesKept.of_write {s t : State} {k0 : Kind}
    (he : ∀ k c, (t.tables.kind k).entry c = (s.tables.kind k).entry c)
    (hc : s.stagingCaptured k0 = false)
    (hwf : s.tables.mem.wf = true → t.tables.mem.wf = true)
    (hs : s.tables.stagingSized → t.tables.stagingSized)
    (hm : s.tables.mem.wf = true → s.tables.stagingSized → ∀ a, ¬ inExtent k0 (s.tables.stagingEntry k0) a →
      memRead t.tables.mem a = memRead s.tables.mem a) : TablesKept s t :=
  ⟨hwf,
   fun x => ⟨fun k c => by rw [he]; exact x.1 k c, fun k c k' c' h => by rw [he, he]; exact x.2 k c k' c' h⟩, hs,
   fun hw law hz k c hcap r => by
    apply row_congr (he k c)
    intro a ha
    apply hm hw hz
    have hne : ¬ (k = k0 ∧ c = (s.tables.kind k0).stagingIndex) := by
      rintro ⟨rfl, rfl⟩
      unfold State.stagingCaptured at hc
      rw [hc] at hcap
      exact Bool.noConfusion hcap
    exact inExtent_apart (law.2 k c k0 _ hne) ha⟩

theorem setStaging_mem (s : State) (k : Kind) (b : Staging) : (s.setStaging k b).tables.mem = s.tables.mem := rfl

theorem setStaging_entry (s : State) (k k' : Kind) (b : Staging) (c : CopyIndex) :
    ((s.setStaging k b).tables.kind k').entry c = (s.tables.kind k').entry c :=
  Tables.entry_modKind _ _ _ _ _ fun _ _ => rfl

theorem setStaging_stagingEntry (s : State) (k : Kind) (b : Staging) :
    (s.setStaging k b).tables.stagingEntry k = s.tables.stagingEntry k := by
  unfold Tables.stagingEntry
  have h : (s.setStaging k b).tables.kind k = { s.tables.kind k with staging := b } := Tables.kind_modKind_same _ _ _
  rw [h]; rfl

theorem sized_setStaging {s : State} {k : Kind} {b : Staging} (hb : s.tables.stagingSized → b.sized k)
    (h : s.tables.stagingSized) : (s.setStaging k b).tables.stagingSized := by
  intro k'
  by_cases e : k' = k
  · subst e
    have hk : (s.setStaging k' b).tables.kind k' = { s.tables.kind k' with staging := b } :=
      Tables.kind_modKind_same _ _ _
    rw [hk]; exact hb h
  · have hk : (s.setStaging k b).tables.kind k' = s.tables.kind k' := Tables.kind_modKind_other _ _ _ _ e
    rw [hk]; exact h k'

/-- A staging buffer changes neither memory nor directory. -/
theorem TablesKept.setStaging (s : State) (k : Kind) (b : Staging) (hb : s.tables.stagingSized → b.sized k) :
    TablesKept s (s.setStaging k b) :=
  TablesKept.of_entries rfl (fun _ _ => setStaging_entry _ _ _ _ _) (sized_setStaging hb)

theorem length_storeWords (vs : List Word) : ∀ (ws : List (Option Word)) (i : Nat),
    (storeWords ws i vs).length = ws.length := by
  induction vs with
  | nil => intro ws i; rfl
  | cons v vs ih => intro ws i; rw [storeWords, ih, List.length_set]

/-- The slots a part is stored into: one per row word. -/
theorem length_stagedSlots {k : Kind} {row : Nat} {b : Staging} (h : b.sized k) :
    (stagedSlots k row b).length = rowWords k := by
  cases b with
  | empty => exact List.length_replicate
  | staging r ws =>
    unfold stagedSlots
    simp only []
    split
    · exact h
    · exact List.length_replicate

/-! ### TABLE WRITE -/

/-- Words written below the limit of a copy lie in its extent. -/
theorem write_inExtent {k : Kind} {e : DirEntry} {m : Memory} {r : Nat} {ws : List Word} (hm : m.wf = true)
    (hr : r < e.limit) (hl : ws.length ≤ rowWords k) {a : Nat} (ha : ¬ inExtent k e a) :
    memRead (memWriteBlock m (rowAddress k e r) ws) a = memRead m a := by
  apply memRead_memWriteBlock_outside _ _ _ hm
  by_cases h1 : a < rowAddress k e r
  · exact Or.inl h1
  · right
    by_cases h2 : rowAddress k e r + ws.length ≤ a
    · exact h2
    · exfalso
      apply ha
      have := row_inExtent (k := k) (e := e) (i := a - rowAddress k e r) hr (by omega)
      rwa [Nat.add_sub_cancel' (Nat.le_of_not_lt h1)] at this

/-- A row completed (R171). -/
theorem kept_completeRow {s : State} {k : Kind} {r : Nat} {ws : List (Option Word)}
    (hr : r < (s.tables.stagingEntry k).limit) (hl : s.tables.stagingSized → ws.length ≤ rowWords k)
    (hc : s.stagingCaptured k = false) : TablesKept s (s.completeRow k r ws).1 := by
  have h0 : TablesKept s (s.setStaging k .empty) := TablesKept.setStaging s k _ fun _ => trivial
  unfold State.completeRow
  simp only []
  split
  · exact h0
  · split
    · refine TablesKept.of_write (k0 := k) (fun k' c' => setStaging_entry s k k' _ c') hc
        (fun h => Memory.wf_memWriteBlock _ _ h) h0.sized ?_
      intro h hz a ha
      have he : ((s.setStaging k .empty).tables.stagingEntry k) = s.tables.stagingEntry k :=
        setStaging_stagingEntry s k _
      have := write_inExtent (k := k) (e := s.tables.stagingEntry k) (ws := ws.map (·.getD 0)) h hr
        (by rw [List.length_map]; exact hl hz) ha
      rw [← he] at this
      exact this
    · exact h0

/-- A captured copy is seen in the lanes only. -/
theorem isCaptured_congr {s t : State} (h : t.lanes = s.lanes) (k : Kind) (c : CopyIndex) :
    t.isCaptured k c = s.isCaptured k c := by unfold State.isCaptured; rw [h]

/-! ### The directory -/

theorem Kind.mem_all (k : Kind) : k ∈ Kind.all := by cases k <;> decide

theorem KindState.entry_setEntry_same (ks : KindState) (c : CopyIndex) (e : DirEntry) : (ks.setEntry c e).entry c = e := by
  cases c <;> rfl

theorem KindState.entry_setEntry_other (ks : KindState) (c c' : CopyIndex) (e : DirEntry) (h : c' ≠ c) :
    (ks.setEntry c e).entry c' = ks.entry c' := by
  cases c <;> cases c' <;> first | rfl | exact absurd rfl h

/-- An entry that overlaps no other is apart from every other. -/
theorem apart_of_not_overlaps {t : Tables} {k : Kind} {c : CopyIndex} {e : DirEntry} (h : t.overlaps k c e = false)
    (k' : Kind) (c' : CopyIndex) (hne : ¬ (k' = k ∧ c' = c)) : extentsApart k e k' ((t.kind k').entry c') = true := by
  unfold Tables.overlaps Tables.entries at h
  rw [List.any_eq_false] at h
  have hmem : (k', c', (t.kind k').entry c') ∈
      Kind.all.flatMap fun k => [(k, false, (t.kind k).copy0), (k, true, (t.kind k).copy1)] := by
    rw [List.mem_flatMap]
    refine ⟨k', Kind.mem_all k', ?_⟩
    cases c' <;> simp [KindState.entry]
  have := h _ hmem
  simp only [Bool.and_eq_true, Bool.not_eq_true', Bool.and_eq_false_iff, beq_eq_false_iff_ne, not_and,
    Bool.not_eq_false] at this
  apply this
  by_cases hk : k' = k
  · exact Or.inr fun hcc => hne ⟨hk, hcc⟩
  · exact Or.inl hk

/-- What setting an extent does to each entry. -/
theorem setExtent_entry (k : Kind) (e : DirEntry) (t : Tables) (k' : Kind) (c' : CopyIndex) :
    ((setExtent k e t).kind k').entry c' =
      if k' = k ∧ c' = (t.kind k).stagingIndex then e else (t.kind k').entry c' := by
  unfold setExtent
  by_cases hk : k' = k
  · subst hk
    rw [Tables.kind_modKind_same]
    have hks : ∀ m : Memory, Tables.kind { t with mem := m } k' = t.kind k' := fun _ => rfl
    rw [hks]
    by_cases hc : c' = (t.kind k').stagingIndex
    · rw [if_pos ⟨rfl, hc⟩, hc]; exact KindState.entry_setEntry_same _ _ _
    · rw [if_neg fun h => hc h.2]; exact KindState.entry_setEntry_other _ _ _ _ hc
  · rw [Tables.kind_modKind_other _ _ _ _ hk, if_neg fun h => hk h.1]; rfl

/-- Only words of the new extent change. -/
theorem extentContent_outside {k : Kind} {old new : DirEntry} {m : Memory} (hm : m.wf = true) {a : Nat}
    (ha : ¬ inExtent k new a) : memRead (extentContent k old new m) a = memRead m a := by
  unfold extentContent
  split
  · rename_i hb
    apply memRead_memWriteBlock_outside _ _ _ hm
    rw [List.length_replicate, Nat.sub_mul]
    have h1 : rowAddress k old old.limit = new.base + old.limit * rowWords k := by rw [rowAddress, hb]
    rw [h1]
    unfold inExtent at ha
    have : a < new.base ∨ new.base + new.limit * rowWords k ≤ a := by omega
    rcases this with h | h
    · left; omega
    · by_cases hle : old.limit * rowWords k ≤ new.limit * rowWords k
      · right; omega
      · by_cases h2 : a < new.base + old.limit * rowWords k
        · left; exact h2
        · right; omega
  · apply memRead_memWriteBlock_outside _ _ _ hm
    rw [List.length_replicate]
    unfold inExtent at ha
    omega

theorem extentContent_wf {k : Kind} {old new : DirEntry} {m : Memory} (hm : m.wf = true) :
    (extentContent k old new m).wf = true := by
  unfold extentContent
  split <;> exact Memory.wf_memWriteBlock _ _ hm

/-- A DIRECTORY SET that passes its checks. -/
theorem kept_setExtent {s : State} {k : Kind} {e : DirEntry} (hc : s.stagingCaptured k = false)
    (hb : e.base + e.limit * rowWords k ≤ Config.tableWords)
    (ho : s.tables.overlaps k (s.tables.kind k).stagingIndex e = false) :
    TablesKept s (s.modTables (setExtent k e)) := by
  have hent := setExtent_entry k e s.tables
  refine ⟨fun h => extentContent_wf h, fun law => ⟨fun k' c' => ?_, fun k1 c1 k2 c2 hne => ?_⟩,
    fun hz k' => ?_, fun hw law _ k' c' hcap r => ?_⟩
  · rw [State.modTables_tables, hent]
    split
    · rename_i h; rw [h.1]; exact fun _ => hb
    · exact law.1 k' c'
  · rw [State.modTables_tables, hent, hent]
    by_cases h1 : k1 = k ∧ c1 = (s.tables.kind k).stagingIndex
    · by_cases h2 : k2 = k ∧ c2 = (s.tables.kind k).stagingIndex
      · exact absurd ⟨h1.1.trans h2.1.symm, h1.2.trans h2.2.symm⟩ hne
      · rw [if_pos h1, if_neg h2, h1.1]; exact apart_of_not_overlaps ho k2 c2 h2
    · by_cases h2 : k2 = k ∧ c2 = (s.tables.kind k).stagingIndex
      · rw [if_neg h1, if_pos h2, h2.1]; exact extentsApart_symm (apart_of_not_overlaps ho k1 c1 h1)
      · rw [if_neg h1, if_neg h2]; exact law.2 k1 c1 k2 c2 hne
  · by_cases hk : k' = k
    · subst hk
      have : ((s.modTables (setExtent k' e)).tables.kind k').staging = .empty := by
        rw [State.modTables_tables, setExtent, Tables.kind_modKind_same]
      rw [this]; trivial
    · have : (s.modTables (setExtent k e)).tables.kind k' = s.tables.kind k' := by
        rw [State.modTables_tables, setExtent, Tables.kind_modKind_other _ _ _ _ hk]; rfl
      rw [this]; exact hz k'
  · have hne : ¬ (k' = k ∧ c' = (s.tables.kind k).stagingIndex) := by
      rintro ⟨rfl, rfl⟩
      unfold State.stagingCaptured at hc
      rw [hc] at hcap
      exact Bool.noConfusion hcap
    apply row_congr
    · rw [State.modTables_tables, hent, if_neg hne]
    · intro a ha
      exact extentContent_outside hw (inExtent_apart (extentsApart_symm (apart_of_not_overlaps ho k' c' hne)) ha)

/-! ### TABLE COPY -/

theorem kept_copyRows {s : State} {k : Kind} {n : Nat} (hc : s.stagingCaptured k = false)
    (hn : n ≤ (s.tables.stagingEntry k).limit) : TablesKept s (s.modTables (copyRows k n)) := by
  refine TablesKept.of_write (k0 := k) (fun _ _ => rfl) hc (fun h => Memory.wf_memWriteBlock _ _ h)
    (fun h => h) ?_
  intro h _ a ha
  have hl : n * rowWords k ≤ (s.tables.stagingEntry k).limit * rowWords k := Nat.mul_le_mul_right _ hn
  apply memRead_memWriteBlock_outside _ _ _ h
  simp only [memReadBlock, List.length_map, List.length_range]
  unfold inExtent at ha
  omega

/-! ### COMMIT -/

theorem flipKinds_entry (mask : Nat) (t : Tables) (k : Kind) (c : CopyIndex) :
    ((flipKinds mask t).kind k).entry c = (t.kind k).entry c := by
  have : (flipKinds mask t).kind k = if mask.testBit k.idx.val then flipKind (t.kind k) else t.kind k :=
    vtab_get 8 _ _
  rw [this]
  split
  · cases c <;> rfl
  · rfl

theorem flipKinds_staging (mask : Nat) (t : Tables) (k : Kind) :
    ((flipKinds mask t).kind k).staging = (t.kind k).staging := by
  have : (flipKinds mask t).kind k = if mask.testBit k.idx.val then flipKind (t.kind k) else t.kind k :=
    vtab_get 8 _ _
  rw [this]
  split <;> rfl

theorem EntriesKept.flip (s : State) (mask : Nat) : EntriesKept s (s.modTables (flipKinds mask)) :=
  ⟨rfl, flipKinds_entry mask s.tables, fun h k => by rw [State.modTables_tables, flipKinds_staging]; exact h k⟩

end Sys2Proof.Machine
end

