-- ==== Sys2Proof/Laws/Requests.lean ====
section
/-! SUPPORT. What the trunk's inbound acts and the table manager's acts can do, said once: the table laws they
keep, the ranges they keep, and the run contexts they leave. -/

namespace Sys2Proof.Machine

open Sys2Proof

/-- What an act keeps: the table laws, the command queue and the reset line, every range and every lane's
run context where it belongs. -/
structure Act (s t : State) : Prop where
  tables : TablesKept s t
  pending : t.pending = s.pending
  line : t.resetLine = s.resetLine
  fits : s.fits → t.fits
  right : s.contextsRight → t.contextsRight

/-- Group records that stand keep their ranges. -/
theorem fits_groups {s t : State} (h : t.groups = s.groups) (x : ∀ l, (s.group l).fits) (l : LaneId) :
    (t.group l).fits := by
  unfold State.group
  rw [h]
  exact x l

theorem Work.fits {s t : State} (h : Work s t) (x : s.fits) : t.fits :=
  { lanes := fun l => (h.lanes l).fits (x.lanes l)
    groups := fits_groups h.groups x.groups
    trunk := h.trunk x.trunk
    events := h.events x.events
    replies := Nat.le_trans h.replies x.replies
    requests := by rw [h.tables]; exact x.requests }

theorem Work.right {s t : State} (h : Work s t) (x : s.contextsRight) : t.contextsRight :=
  fun l => (h.lanes l).right (x l)

theorem Work.act {s t : State} (h : Work s t) : Act s t :=
  ⟨TablesKept.of_eq h.tables, h.pending, h.line, h.fits, h.right⟩

theorem Calm.act {s t : State} (h : Calm s t) : Act s t := h.work.act

theorem Act.refl (s : State) : Act s s := (Calm.refl s).act

/-- An act that also leaves the table memory and the directory alone. -/
structure Kept (s t : State) : Prop where
  entries : EntriesKept s t
  pending : t.pending = s.pending
  line : t.resetLine = s.resetLine
  fits : s.fits → t.fits
  right : s.contextsRight → t.contextsRight

theorem Kept.act {s t : State} (h : Kept s t) : Act s t := ⟨h.entries.kept, h.pending, h.line, h.fits, h.right⟩

theorem Work.kept {s t : State} (h : Work s t) : Kept s t :=
  ⟨EntriesKept.of_eq h.tables, h.pending, h.line, h.fits, h.right⟩

theorem Calm.kept {s t : State} (h : Calm s t) : Kept s t := h.work.kept

theorem Kept.refl (s : State) : Kept s s := (Calm.refl s).kept

theorem Kept.trans {s t u : State} (h : Kept s t) (g : Kept t u) : Kept s u :=
  ⟨h.entries.trans g.entries, g.pending.trans h.pending, g.line.trans h.line, fun x => g.fits (h.fits x),
   fun x => g.right (h.right x)⟩

/-- Tables changed outside the memory, the directory and the staging buffers. -/
theorem EntriesKept.modTables {s : State} {f : Tables → Tables} (hm : (f s.tables).mem = s.tables.mem)
    (hk : (f s.tables).kinds = s.tables.kinds) : EntriesKept s (s.modTables f) := by
  have h : ∀ k, (f s.tables).kind k = s.tables.kind k := fun k => by unfold Tables.kind; rw [hk]
  exact ⟨hm, fun k c => by rw [State.modTables_tables, h], fun x k => by rw [State.modTables_tables, h]; exact x k⟩

/-! ### Replies -/

/-- A reply placed where the REPLY queue has room. -/
structure Replied (s t : State) : Prop where
  tables : t.tables = s.tables
  groups : t.groups = s.groups
  line : t.resetLine = s.resetLine
  pending : t.pending = s.pending
  events : t.trunk.events.length ≤ s.trunk.events.length
  replies : t.trunk.replies.length ≤ s.trunk.replies.length + 1
  trunk : s.trunk.fits → t.trunk.fits
  lanes : ∀ k, LaneStep (s.lane k) (t.lane k)

theorem Replied.placeReply (s : State) (r : Reply) : Replied s (s.placeReply r) := by
  have h := Calm.idleChoice (s.modTrunk fun t => { t with replies := t.replies ++ [r] })
  have he : (s.modTrunk fun t => { t with replies := t.replies ++ [r] }).trunk.replies.length =
      s.trunk.replies.length + 1 := by simp
  exact ⟨h.tables, h.groups, h.line, h.pending, h.events, by rw [← he]; exact h.replies,
    fun x => h.trunk { x with }, h.lanes⟩

theorem Replied.answerRequest (s : State) (tag : BitVec 16) (a : Answer) : Replied s (s.answerRequest tag a) :=
  Replied.placeReply s _

theorem Replied.fits {s t : State} (h : Replied s t) (hr : s.trunk.replies.length < Config.replyCapacity)
    (x : s.fits) : t.fits :=
  { lanes := fun l => (h.lanes l).fits (x.lanes l)
    groups := fits_groups h.groups x.groups
    trunk := h.trunk x.trunk
    events := Nat.le_trans h.events x.events
    replies := Nat.le_trans h.replies hr
    requests := by rw [h.tables]; exact x.requests }

theorem Replied.right {s t : State} (h : Replied s t) (x : s.contextsRight) : t.contextsRight :=
  fun l => (h.lanes l).right (x l)

/-- An act on a state that keeps its replies, then its reply. -/
theorem Act.answer {s t : State} (h : Act s t) (hl : t.trunk.replies.length ≤ s.trunk.replies.length)
    (hr : s.trunk.replies.length < Config.replyCapacity) (tag : BitVec 16) (a : Answer) :
    Act s (t.answerRequest tag a) := by
  have g := Replied.answerRequest t tag a
  exact ⟨⟨fun x => by rw [g.tables]; exact h.tables.mem x, fun x => by rw [g.tables]; exact h.tables.law x,
      fun x => by rw [g.tables]; exact h.tables.sized x,
      fun a b d k c x r => by rw [g.tables]; exact h.tables.rows a b d k c x r⟩,
    g.pending.trans h.pending, g.line.trans h.line, fun x => g.fits (Nat.lt_of_le_of_lt hl hr) (h.fits x),
    fun x => g.right (h.right x)⟩

/-- The same of an act that leaves the directory alone. -/
theorem Kept.answer {s t : State} (h : Kept s t) (hl : t.trunk.replies.length ≤ s.trunk.replies.length)
    (hr : s.trunk.replies.length < Config.replyCapacity) (tag : BitVec 16) (a : Answer) :
    Kept s (t.answerRequest tag a) := by
  have g := Replied.answerRequest t tag a
  exact ⟨h.entries.trans (EntriesKept.of_eq g.tables), g.pending.trans h.pending, g.line.trans h.line,
    fun x => g.fits (Nat.lt_of_le_of_lt hl hr) (h.fits x), fun x => g.right (h.right x)⟩

/-! ### The head request -/

/-- The head request removed. -/
theorem Kept.dropHead (s : State) : Kept s s.dropHead :=
  ⟨EntriesKept.modTables rfl rfl, rfl, rfl,
   fun x => { x with
     requests := by
       simp only [State.dropHead, State.modTables_tables, List.length_tail]
       exact Nat.le_trans (Nat.sub_le _ _) x.requests }, fun x => x⟩

theorem Act.dropHead (s : State) : Act s s.dropHead := (Kept.dropHead s).act

/-- An act that changes tables only, and of those not the request queue. -/
theorem Act.of_tables {s t : State} (hk : TablesKept s t) (hl : t.lanes = s.lanes) (ht : t.trunk = s.trunk)
    (hp : t.pending = s.pending) (hline : t.resetLine = s.resetLine)
    (hq : t.tables.requests = s.tables.requests) (hg : t.groups = s.groups) : Act s t := by
  have hlane : ∀ l, t.lane l = s.lane l := fun l => by unfold State.lane; rw [hl]
  refine ⟨hk, hp, hline, fun x =>
    { lanes := fun l => by rw [hlane]; exact x.lanes l
      groups := fits_groups hg x.groups
      trunk := by rw [ht]; exact x.trunk
      events := by rw [ht]; exact x.events
      replies := by rw [ht]; exact x.replies
      requests := by rw [hq]; exact x.requests }, fun x l => by rw [hlane]; exact x l⟩

/-! ### The requests on the table memory -/

theorem Act.handleTableWrite (s : State) (body : List Word) : Act s (s.handleTableWrite body).1 := by
  unfold State.handleTableWrite
  split
  · exact Act.refl s
  · rename_i st k hw
    have hcheck : (writeBodyOf body).row < (s.tables.stagingEntry k).limit ∧ s.stagingCaptured k = false := by
      unfold State.writeCheck at hw
      simp only [] at hw
      split at hw
      · simp at hw
      · split at hw
        · simp at hw
        · split at hw
          · simp at hw
          · split at hw
            · simp at hw
            · rename_i h2
              split at hw
              · simp at hw
              · rename_i h3
                simp only [Prod.mk.injEq, Option.some.injEq] at hw
                rw [← hw.2]
                exact ⟨Nat.lt_of_not_le h2, by simpa using h3⟩
    have hlen : s.tables.stagingSized → (storeWords (stagedSlots k (writeBodyOf body).row (s.tables.kind k).staging)
        (16 * (writeBodyOf body).part) (writeBodyOf body).words).length = rowWords k := fun hz => by
      rw [length_storeWords]; exact length_stagedSlots (hz k)
    simp only []
    split
    · refine Act.of_tables (kept_completeRow hcheck.1 (fun hz => Nat.le_of_eq (hlen hz)) hcheck.2) ?_ ?_ ?_ ?_ ?_ ?_
      all_goals
        unfold State.completeRow
        simp only []
        split
        · rfl
        · split <;> rfl
    · exact Act.of_tables (TablesKept.setStaging s k _ hlen) rfl rfl rfl rfl rfl rfl

theorem Act.handleTableRead (s : State) (body : List Word) : Act s (s.handleTableRead body).1 := by
  unfold State.handleTableRead
  simp only []
  split
  · exact Act.refl s
  · split
    · exact Act.refl s
    · split
      · exact Act.refl s
      · split
        · exact Act.refl s
        · split
          · dsimp only
            exact Act.of_tables (EntriesKept.modTables rfl rfl).kept rfl rfl rfl rfl rfl rfl
          · split
            · exact Act.refl s
            · exact Act.refl s

theorem Act.handleTableCopy (s : State) (body : List Word) : Act s (s.handleTableCopy body).1 := by
  unfold State.handleTableCopy
  split
  · exact Act.refl s
  · split
    · exact Act.refl s
    · rename_i k _
      split
      · exact Act.refl s
      · rename_i hc
        have h1 := kept_copyRows (s := s) (k := k) (n := min (s.tables.currentEntry k).limit
          (s.tables.stagingEntry k).limit) (by simpa using hc) (Nat.min_le_right _ _)
        refine Act.of_tables ⟨h1.mem, fun x => ?_, fun x => sized_setStaging (fun _ => trivial) (h1.sized x),
          fun a b d k' c x r => ?_⟩ rfl rfl rfl rfl rfl rfl
        · have := h1.law x
          exact ⟨fun k' c => by rw [setStaging_entry]; exact this.1 k' c,
            fun k1 c1 k2 c2 h => by rw [setStaging_entry, setStaging_entry]; exact this.2 k1 c1 k2 c2 h⟩
        · rw [← h1.rows a b d k' c x r]
          exact row_congr (setStaging_entry _ _ _ _ _) (fun _ _ => rfl) r

theorem Act.handleDirectorySet (s : State) (body : List Word) : Act s (s.handleDirectorySet body).1 := by
  unfold State.handleDirectorySet
  simp only []
  split
  · exact Act.refl s
  · split
    · exact Act.refl s
    · split
      · exact Act.refl s
      · rename_i hc
        split
        · exact Act.refl s
        · rename_i hb
          split
          · exact Act.refl s
          · rename_i ho
            refine Act.of_tables (kept_setExtent (by simpa using hc) (Nat.le_of_not_lt fun h => hb (Or.inr (Or.inr h)))
              (by simpa using ho)) rfl rfl rfl rfl rfl rfl

theorem Act.handleDirectoryRead (s : State) (body : List Word) : Act s (s.handleDirectoryRead body).1 := by
  unfold State.handleDirectoryRead
  split <;> exact Act.refl s

/-- A request that needs REPLY queue room only. -/
theorem Act.serve (s : State) (kind : RequestKind) (handle : State → List Word → State × Answer)
    (h : ∀ t body, Act t (handle t body).1 ∧ (handle t body).1.trunk.replies.length ≤ t.trunk.replies.length) :
    Act s (s.serve kind handle) := by
  unfold State.serve
  split
  · exact Act.refl s
  · split
    · rename_i r _ hr
      simp only [State.replyRoom, decide_eq_true_eq] at hr
      have h0 := Act.dropHead s
      obtain ⟨h1, h2⟩ := h s.dropHead r.body
      have hd : ∀ k c, s.dropHead.isCaptured k c = s.isCaptured k c := fun _ _ => rfl
      have h3 : Act s (handle s.dropHead r.body).1 :=
        ⟨⟨fun x => h1.tables.mem x, fun x => h1.tables.law x, fun x => h1.tables.sized x,
            fun a b d k c x r => h1.tables.rows a b d k c x r⟩,
          h1.pending, h1.line, fun x => h1.fits (h0.fits x), fun x => h1.right x⟩
      exact h3.answer h2 hr _ _
    · exact Act.refl s

/-! ### Inbound frames and the transmitter -/

theorem Act.countStation (s : State) : Act s s.countStation :=
  (Calm.modTrunk (Nat.le_refl _) (Nat.le_refl _) fun x => { x with check := satByte_le _ } : Calm s s.countStation).act

theorem bits_le (w : Word) (hi lo : Nat) : bits w hi lo ≤ 2 ^ (hi + 1 - lo) - 1 :=
  Nat.le_sub_one_of_lt (Nat.mod_lt _ (Nat.two_pow_pos _))

/-- A lane's floors are those of a row's fields. -/
theorem floors_le (s : State) (l : LaneId) : (s.floors l).headers ≤ 15 ∧ (s.floors l).payload ≤ 4095 := by
  unfold State.floors
  split
  · exact ⟨Nat.zero_le _, Nat.zero_le _⟩
  · exact ⟨bits_le _ 3 0, bits_le _ 27 16⟩

theorem shareOf_le {floor account left cap : Nat} (hf : floor ≤ cap) (ha : account ≤ cap) :
    account + shareOf floor account left ≤ cap := by
  unfold shareOf
  omega

/-- Accounts filled to their floors keep their ranges. -/
theorem fits_distribute {floors : LaneId → Credit} (hf : ∀ l, (floors l).headers ≤ 15 ∧ (floors l).payload ≤ 4095) :
    ∀ (ls : List LaneId) (accounts : Vector Credit 8) (left : Credit),
      (∀ l : LaneId, accounts[l].headers ≤ 15 ∧ accounts[l].payload ≤ 4095) →
      ∀ l : LaneId, (distribute floors ls accounts left).1[l].headers ≤ 15
        ∧ (distribute floors ls accounts left).1[l].payload ≤ 4095
  | [], _, _, h => h
  | l :: ls, accounts, left, h => by
    unfold distribute
    exact fits_distribute hf ls _ _
      (accounts_set h l ⟨shareOf_le (hf l).1 (h l).1, shareOf_le (hf l).2 (h l).2⟩)

theorem Act.grantData (s : State) (h p : Nat) : Act s (s.grantData h p) := by
  unfold State.grantData
  have hd := fits_distribute (floors_le s) (List.finRange 8) s.trunk.accounts ⟨h, p⟩
  revert hd
  generalize distribute s.floors (List.finRange 8) s.trunk.accounts ⟨h, p⟩ = d
  intro hd
  have h1 : Calm s (s.modTrunk fun t => { t with accounts := d.1, pool := addToPool t.pool d.2 }) :=
    Calm.modTrunk (Nat.le_refl _) (Nat.le_refl _) fun x => { x with
      accounts := hd x.accounts
      poolHeaders := satTo_le _ _
      poolPayload := satTo_le _ _ }
  exact (h1.trans (Calm.idleChoice _)).act

theorem Act.requestArrives (s : State) (r : Request) : Act s (s.requestArrives r) := by
  unfold State.requestArrives
  split
  · rename_i h
    refine ⟨(EntriesKept.modTables rfl rfl).kept, rfl, rfl, fun x => { x with requests := ?_ }, fun x => x⟩
    simp only [State.modTables_tables, List.length_append, List.length_cons, List.length_nil]
    exact h
  · split
    · rename_i hr
      simp only [State.replyRoom, decide_eq_true_eq] at hr
      have g := Replied.placeReply s ⟨r.tag, .busy, false, []⟩
      exact ⟨TablesKept.of_eq g.tables, g.pending, g.line, g.fits hr, g.right⟩
    · exact Act.refl s

/-! ### Records of one act -/

/-- Records placed: as many more at most in the EVENT queue, everything else as in a calm act. -/
structure Placed (n : Nat) (s t : State) : Prop where
  tables : t.tables = s.tables
  groups : t.groups = s.groups
  line : t.resetLine = s.resetLine
  pending : t.pending = s.pending
  events : t.trunk.events.length ≤ s.trunk.events.length + n
  replies : t.trunk.replies.length ≤ s.trunk.replies.length
  trunk : s.trunk.fits → t.trunk.fits
  lanes : ∀ k, LaneStep (s.lane k) (t.lane k)

theorem Calm.placed {s t : State} (h : Calm s t) : Placed 0 s t :=
  ⟨h.tables, h.groups, h.line, h.pending, h.events, h.replies, h.trunk, h.lanes⟩

theorem Placed.trans {m n : Nat} {s t u : State} (h : Placed m s t) (g : Placed n t u) : Placed (m + n) s u :=
  ⟨g.tables.trans h.tables, g.groups.trans h.groups, g.line.trans h.line, g.pending.trans h.pending,
   Nat.le_trans g.events (by have := h.events; omega), Nat.le_trans g.replies h.replies,
   fun x => g.trunk (h.trunk x), fun k => (h.lanes k).trans (g.lanes k)⟩

theorem Placed.placeRecord (s : State) (e : EventRecord) : Placed 1 s (s.placeRecord e) := by
  have h1 : Placed 1 s (s.modTrunk fun t => { t with events := t.events ++ [e] }) :=
    ⟨rfl, rfl, rfl, rfl, by simp, Nat.le_refl _, fun x => { x with }, fun _ => LaneStep.refl _⟩
  exact h1.trans ((Calm.weighPressure _).trans (Calm.idleChoice _)).placed

theorem Placed.placeRecords (es : List EventRecord) : ∀ s : State, Placed es.length s (s.placeRecords es) := by
  induction es with
  | nil => exact fun s => (Calm.refl s).placed
  | cons e es ih =>
    intro s
    have h := (Placed.placeRecord s e).trans (ih (s.placeRecord e))
    rw [List.length_cons, Nat.add_comm]
    exact h

/-! ### The acts of lanes and groups under a request or a close notice -/

theorem Kept.of_entries {s t : State} (hk : EntriesKept s t) (hl : ∀ k, LaneStep (s.lane k) (t.lane k))
    (hg : (∀ k, (s.group k).fits) → ∀ k, (t.group k).fits) (ht : s.trunk.fits → t.trunk.fits) (he : s.trunk.events.length ≤ Config.eventCapacity →
      t.trunk.events.length ≤ Config.eventCapacity) (hr : t.trunk.replies.length ≤ s.trunk.replies.length)
    (hp : t.pending = s.pending) (hline : t.resetLine = s.resetLine)
    (hq : t.tables.requests.length ≤ s.tables.requests.length) : Kept s t :=
  ⟨hk, hp, hline, fun x =>
    { lanes := fun l => (hl l).fits (x.lanes l)
      groups := hg x.groups
      trunk := ht x.trunk
      events := he x.events
      replies := Nat.le_trans hr x.replies
      requests := Nat.le_trans hq x.requests }, fun x l => (hl l).right (x l)⟩

/-- A group record replaced by one within its range. -/
theorem fits_setGroup {s : State} {l : LaneId} {g : Group} (x : ∀ k, (s.group k).fits) (h : g.fits) (k : LaneId) :
    ((s.setGroup l g).group k).fits := by
  by_cases e : k = l
  · subst e; rw [State.group_setGroup_same]; exact h
  · rw [State.group_setGroup_other _ _ _ _ e]; exact x k

/-- The COMMIT of a mask, its GROUP CLOSE records within the room for them. -/
structure Committed (n : Nat) (s t : State) : Prop where
  entries : EntriesKept s t
  groups : (∀ k, (s.group k).fits) → ∀ k, (t.group k).fits
  requests : t.tables.requests = s.tables.requests
  line : t.resetLine = s.resetLine
  pending : t.pending = s.pending
  events : t.trunk.events.length ≤ s.trunk.events.length + n
  replies : t.trunk.replies.length ≤ s.trunk.replies.length
  trunk : s.trunk.fits → t.trunk.fits
  lanes : ∀ k, LaneStep (s.lane k) (t.lane k)

theorem Calm.committed {s t : State} (h : Calm s t) : Committed 0 s t :=
  ⟨EntriesKept.of_eq h.tables, fits_groups h.groups, by rw [h.tables], h.line, h.pending, h.events, h.replies, h.trunk, h.lanes⟩

theorem Placed.committed {n : Nat} {s t : State} (h : Placed n s t) : Committed n s t :=
  ⟨EntriesKept.of_eq h.tables, fits_groups h.groups, by rw [h.tables], h.line, h.pending, h.events, h.replies, h.trunk, h.lanes⟩

theorem Committed.trans {m n : Nat} {s t u : State} (h : Committed m s t) (g : Committed n t u) :
    Committed (m + n) s u :=
  ⟨h.entries.trans g.entries, fun x => g.groups (h.groups x), g.requests.trans h.requests, g.line.trans h.line, g.pending.trans h.pending,
   Nat.le_trans g.events (by have := h.events; omega), Nat.le_trans g.replies h.replies,
   fun x => g.trunk (h.trunk x), fun k => (h.lanes k).trans (g.lanes k)⟩

theorem Committed.flip (s : State) (mask : Nat) : Committed 0 s (s.modTables (flipKinds mask)) :=
  ⟨EntriesKept.flip s mask, id, rfl, rfl, rfl, Nat.le_refl _, Nat.le_refl _, id, fun _ => LaneStep.refl _⟩

/-- Which groups close at a commit depends on group records and run contexts only. -/
theorem supersedeRecords_congr {s t : State} (hg : t.groups = s.groups)
    (hr : ∀ l, (t.lane l).run.isSome = (s.lane l).run.isSome) : t.supersedeRecords = s.supersedeRecords := by
  have h1 : ∀ l, t.group l = s.group l := fun l => by unfold State.group; rw [hg]
  have h2 : t.supersededNow = s.supersededNow := by
    funext l
    unfold State.supersededNow
    rw [h1, ← Option.not_isSome, ← Option.not_isSome, hr]
  unfold State.supersedeRecords
  rw [h2]
  congr 1
  funext l
  rw [h1]

/-- A commit empties or keeps a group's run list. -/
theorem fits_supersededGroup {s : State} (x : ∀ k, (s.group k).fits) (l : LaneId) : (s.supersededGroup l).fits := by
  unfold State.supersededGroup
  simp only []
  split
  · exact Nat.zero_le _
  · split
    · exact x l
    · exact x l

theorem supersedeGroups_placed (s : State) : Committed s.supersedeRecords.length s s.supersedeGroups := by
  have h := Placed.placeRecords s.supersedeRecords s
  exact ⟨EntriesKept.of_eq h.tables, fun x l => by
      have hg : s.supersedeGroups.group l = s.supersededGroup l := vtab_get 8 s.supersededGroup l
      rw [hg]
      exact fits_supersededGroup x l, by
      have := h.tables
      show (s.placeRecords s.supersedeRecords).tables.requests = _
      rw [this], h.line, h.pending, h.events, h.replies, h.trunk, h.lanes⟩

/-- Everything a COMMIT that passes its checks can do. -/
theorem Committed.commitKinds (s : State) (mask : Nat) :
    Committed (if maskSupersedes mask then s.supersedeRecords.length else 0) s (s.commitKinds mask) := by
  unfold State.commitKinds
  simp only []
  have h1 := Committed.flip s mask
  have h2 : Committed 0 s (if maskHas mask .lane = true then
      (s.modTables (flipKinds mask)).weighLanes (List.finRange 8) else s.modTables (flipKinds mask)) ∧
      (if maskHas mask .lane = true then
      (s.modTables (flipKinds mask)).weighLanes (List.finRange 8) else s.modTables (flipKinds mask)).groups = s.groups := by
    split
    · have := Calm.weighLanes (List.finRange 8) (s.modTables (flipKinds mask))
      exact ⟨h1.trans this.committed, this.groups⟩
    · exact ⟨h1, rfl⟩
  revert h2
  generalize (if maskHas mask .lane = true then
      (s.modTables (flipKinds mask)).weighLanes (List.finRange 8) else s.modTables (flipKinds mask)) = t
  intro h2
  split
  · have he : t.supersedeRecords = s.supersedeRecords := supersedeRecords_congr h2.2 fun l => (h2.1.lanes l).run
    rw [← he]
    have := h2.1.trans (supersedeGroups_placed t)
    rwa [Nat.zero_add] at this
  · exact h2.1

/-- The end of a closing (R57), from any state of a lane. -/
theorem settled_endClosing (s : State) (l : LaneId) (h : s.contextsRight) : (s.endClosing l).contextsRight := by
  have hs := settled_settleLane (s.modLane l fun ln => { ln with run := none }) l
  intro k
  by_cases e : k = l
  · subst e
    exact hs.right (by rw [State.lane_modLane_same]; rfl)
  · have := (hs.others k e).right
    rw [State.lane_modLane_other _ _ _ _ e] at this
    exact this (h k)

theorem fits_endClosing (s : State) (l : LaneId) (h : s.fits) : (s.endClosing l).fits := by
  have hs := settled_settleLane (s.modLane l fun ln => { ln with run := none }) l
  refine { lanes := fun k => ?_, groups := fits_groups hs.groups h.groups, trunk := hs.trunk h.trunk,
           events := Nat.le_trans hs.events h.events, replies := Nat.le_trans hs.replies h.replies, requests := ?_ }
  · by_cases e : k = l
    · subst e
      apply hs.fits
      rw [State.lane_modLane_same]
      exact { h.lanes k with run := fun c hc => by simp at hc }
    · apply (hs.others k e).fits
      rw [State.lane_modLane_other _ _ _ _ e]
      exact h.lanes k
  · have : (s.endClosing l).tables = s.tables := hs.tables
    rw [this]; exact h.requests

theorem endClosing_rest (s : State) (l : LaneId) : (s.endClosing l).tables = s.tables ∧
    (s.endClosing l).pending = s.pending ∧ (s.endClosing l).resetLine = s.resetLine := by
  have hs := settled_settleLane (s.modLane l fun ln => { ln with run := none }) l
  exact ⟨hs.tables, hs.pending, hs.line⟩

/-- The group record a close leaves keeps its range. -/
theorem fits_closeOutcome (s : State) (l : LaneId) (c : RunContext) (x : (s.group l).fits) :
    (s.closeOutcome l c).2.fits := by
  have hfirst : (closeFirstStep l (s.standardRow l) c (s.group l)).2.fits := by
    unfold closeFirstStep
    split
    · split
      · exact Nat.zero_le _
      · split <;> exact Nat.zero_le _
    · exact x
  have hpending : (supersedeAtClose l (s.group l)).2.fits := by
    unfold supersedeAtClose
    split
    · exact Nat.zero_le _
    · exact x
  have hsecond : ∀ g : Group, g.fits →
      (closeSecondStep l (s.standardRow l) (s.generation .calibration) (s.generation .standard) c g).2.fits := by
    intro g hg
    unfold closeSecondStep
    split
    · exact Nat.zero_le _
    · exact hg
  unfold State.closeOutcome Machine.closeOutcome
  split
  · exact hpending
  · exact hsecond _ hfirst
  · exact hsecond _ hfirst
  · exact hpending

/-- A handled close notice (R123), its records within the room for them. -/
theorem Kept.handleNotice {s : State} {l : LaneId} {c : RunContext}
    (h : s.fits → s.trunk.events.length + (s.closeOutcome l c).1.length ≤ Config.eventCapacity) :
    Kept s (s.handleNotice l c) := by
  unfold State.handleNotice
  simp only []
  have h1 := (Calm.leaveWaiters s (.group l)).placed.trans
    (Placed.placeRecords (s.closeOutcome l c).1 (s.leaveWaiters (.group l)))
  rw [Nat.zero_add] at h1
  have hd : ∀ t : State, t = (s.leaveWaiters (.group l)).placeRecords (s.closeOutcome l c).1 →
      EntriesKept s (t.setGroup l (s.closeOutcome l c).2) ∧ (t.setGroup l (s.closeOutcome l c).2).pending = s.pending
      ∧ (t.setGroup l (s.closeOutcome l c).2).resetLine = s.resetLine
      ∧ (s.fits → (t.setGroup l (s.closeOutcome l c).2).fits)
      ∧ (s.contextsRight → (t.setGroup l (s.closeOutcome l c).2).contextsRight) := by
    intro t ht
    rw [← ht] at h1
    refine ⟨EntriesKept.of_eq h1.tables, h1.pending, h1.line, fun x => ?_, fun x k => (h1.lanes k).right (x k)⟩
    exact
      { lanes := fun k => (h1.lanes k).fits (x.lanes k)
        groups := fits_setGroup (fits_groups h1.groups x.groups) (fits_closeOutcome s l c (x.groups l))
        trunk := h1.trunk x.trunk
        events := Nat.le_trans h1.events (h x)
        replies := Nat.le_trans h1.replies x.replies
        requests := by
          show t.tables.requests.length ≤ _
          rw [h1.tables]; exact x.requests }
  obtain ⟨g1, g2, g3, g4, g5⟩ := hd _ rfl
  revert g1 g2 g3 g4 g5
  generalize ((s.leaveWaiters (.group l)).placeRecords (s.closeOutcome l c).1).setGroup l (s.closeOutcome l c).2 = t
  intro g1 g2 g3 g4 g5
  have hr := endClosing_rest t l
  exact ⟨g1.trans (EntriesKept.of_eq hr.1), hr.2.1.trans g2, hr.2.2.trans g3, fun x => fits_endClosing t l (g4 x),
    fun x => settled_endClosing t l (g5 x)⟩

end Sys2Proof.Machine
end

