-- ==== Sys2Proof/Laws/Runs.lean ====
section
/-! SUPPORT. What the acts of COMMIT, LANE ARM, LANE ABORT and GROUP END can do, said once. -/

namespace Sys2Proof.Machine

open Sys2Proof

theorem newRun_fits (s : State) (p : ArmPlan) : (s.newRun p).fits where
  tracker := ⟨Nat.zero_le _, Nat.zero_le _, Nat.zero_le _⟩
  matcher := ⟨Nat.zero_le _, Nat.zero_le _, Nat.zero_le _, Nat.zero_le _⟩
  evaluator :=
    { indications := Nat.zero_le _
      classes := fun k => by simp [State.newRun]
      rules := fun r o h => by simp [State.newRun] at h }
  forwarder := ⟨Nat.zero_le _, Nat.zero_le _, Nat.zero_le _⟩
  held := nofun
  arm := Nat.zero_le _
  stall := trivial

/-- A run is listed only where the list has room for it. -/
theorem fits_listRun {p : ArmPlan} {g : Group} (hg : g.fits) (h : p.tube.isSome = true → g.runs.length < Config.groupCapacity) :
    (listRun p g).fits := by
  unfold listRun
  split
  · rename_i t ht
    have := h (by rw [ht]; rfl)
    simp only [Group.fits, List.length_append, List.length_cons, List.length_nil]
    exact this
  · exact hg

/-- An admitted arm found room in the group's run list (check 4 of R41). -/
theorem groupRoom_of_admitted {s : State} {body : List Word} {p : ArmPlan} (h : s.armDecision body = .admitted p) :
    p.tube.isSome = true → (s.group p.lane).runs.length < Config.groupCapacity := by
  unfold State.armDecision at h
  simp only [] at h
  split at h
  · cases h
  · split at h
    · cases h
    · split at h
      · cases h
      · split at h
        · cases h
        · unfold State.admissionCheck at h
          split at h
          · cases h
          · cases h
          · cases h
          · cases h
          · cases h
          · split at h
            · cases h
            · split at h
              · cases h
              · split at h
                · cases h
                · rename_i kind _ _ l _ _ _ _ _ _ _ _ hfull
                  split at h
                  · cases h
                  · injection h with h
                    rw [← h]
                    intro ht
                    simp only [Option.isSome_ite] at ht
                    exact Nat.lt_of_not_le fun hx => hfull ⟨ht, hx⟩

/-- What an act after the head request is taken keeps, when n places are free in the EVENT queue and one in the
REPLY queue. -/
structure Taken (n : Nat) (s t : State) : Prop where
  entries : EntriesKept s t
  groups : (∀ k, (s.group k).fits) → ∀ k, (t.group k).fits
  requests : t.tables.requests.length ≤ s.tables.requests.length
  line : t.resetLine = s.resetLine
  pending : t.pending = s.pending
  events : t.trunk.events.length ≤ s.trunk.events.length + n
  replies : t.trunk.replies.length ≤ s.trunk.replies.length
  trunk : s.trunk.fits → t.trunk.fits
  fits : (∀ k, (s.lane k).fits) → ∀ k, (t.lane k).fits
  right : s.contextsRight → t.contextsRight

theorem Committed.taken {n : Nat} {s t : State} (h : Committed n s t) : Taken n s t :=
  ⟨h.entries, h.groups, Nat.le_of_eq (by rw [h.requests]), h.line, h.pending, h.events, h.replies, h.trunk,
   fun x k => (h.lanes k).fits (x k), fun x k => (h.lanes k).right (x k)⟩

theorem Taken.weaken {m n : Nat} {s t : State} (h : Taken m s t) (hmn : m ≤ n) : Taken n s t :=
  { h with events := Nat.le_trans h.events (Nat.add_le_add_left hmn _) }

/-- An admission (R42). -/
theorem Taken.admitRun {s : State} {p : ArmPlan}
    (hroom : p.tube.isSome = true → (s.group p.lane).runs.length < Config.groupCapacity) :
    Taken 1 s (s.admitRun p) := by
  unfold State.admitRun
  simp only []
  -- the state with the run context created
  have hs1 : ∀ k, k ≠ p.lane → (((s.modTables fun t => { t with serial := nextSerial p.serial }).modLane p.lane fun ln =>
      { ln with run := some (s.newRun p), degrade := 0 }).lane k) = s.lane k := fun k e =>
    State.lane_modLane_other _ _ _ _ e
  have hl1 : (((s.modTables fun t => { t with serial := nextSerial p.serial }).modLane p.lane fun ln =>
      { ln with run := some (s.newRun p), degrade := 0 }).lane p.lane) =
      { s.lane p.lane with run := some (s.newRun p), degrade := 0 } := State.lane_modLane_same _ _ _
  have hent : EntriesKept s ((s.modTables fun t => { t with serial := nextSerial p.serial }).modLane p.lane fun ln =>
      { ln with run := some (s.newRun p), degrade := 0 }) :=
    (EntriesKept.modTables (f := fun t => { t with serial := nextSerial p.serial }) rfl rfl).trans (EntriesKept.of_eq rfl)
  have hbase : ∃ s1 : State, s1 = ((s.modTables fun t => { t with serial := nextSerial p.serial }).modLane p.lane
      fun ln => { ln with run := some (s.newRun p), degrade := 0 }) := ⟨_, rfl⟩
  obtain ⟨s1, hs⟩ := hbase
  rw [← hs] at hs1 hl1 hent ⊢
  have htr : s1.trunk = s.trunk := by rw [hs]; rfl
  have hrq : s1.tables.requests = s.tables.requests := by rw [hs]; rfl
  have hp1 : s1.pending = s.pending := by rw [hs]; rfl
  have hr1 : s1.resetLine = s.resetLine := by rw [hs]; rfl
  have hg1 : s1.groups = s.groups := by rw [hs]; rfl
  -- idle choice, group list, RUN OPEN
  have h2 : Calm s1 (if (s.lane p.lane).degrade = 0 then s1 else s1.idleChoice) := by
    split
    · exact Calm.refl s1
    · exact Calm.idleChoice s1
  revert h2
  generalize (if (s.lane p.lane).degrade = 0 then s1 else s1.idleChoice) = s2
  intro h2
  have hg2 : s2.group p.lane = s.group p.lane := by unfold State.group; rw [h2.groups, hg1]
  have hg3 : (∀ k, (s.group k).fits) → ∀ k, ((s2.setGroup p.lane (listRun p (s2.group p.lane))).group k).fits :=
    fun x => fits_setGroup (fits_groups (h2.groups.trans hg1) x)
      (fits_listRun (by rw [hg2]; exact x p.lane) (by rw [hg2]; exact hroom))
  have h3 := Placed.placeRecord (s2.setGroup p.lane (listRun p (s2.group p.lane))) (runOpenRecord p (s.newRun p))
  revert h3
  generalize (s2.setGroup p.lane (listRun p (s2.group p.lane))).placeRecord (runOpenRecord p (s.newRun p)) = s3
  intro h3
  have hst : ∀ k, LaneStep (s1.lane k) (s3.lane k) := fun k =>
    (h2.lanes k).trans (by have := h3.lanes k; rwa [State.lane_setGroup] at this)
  have hrun : (s3.lane p.lane).run.isSome = true := by rw [(hst p.lane).run, hl1]; rfl
  have hother : ∀ k, k ≠ p.lane → (s3.setRunState p.lane .armed).lane k = s3.lane k := fun k e =>
    State.lane_modLane_other _ _ _ _ e
  refine ⟨?_, fun x => fits_groups h3.groups (hg3 x), ?_, ?_, ?_, ?_, ?_, ?_, ?_, ?_⟩
  · refine hent.trans (EntriesKept.of_eq ?_)
    exact h3.tables.trans h2.tables
  · have : (s3.setRunState p.lane .armed).tables = s1.tables := h3.tables.trans h2.tables
    rw [this, hrq] <;> exact Nat.le_refl _
  · exact (h3.line.trans h2.line).trans hr1
  · exact (h3.pending.trans h2.pending).trans hp1
  · rw [← htr]
    exact Nat.le_trans h3.events (Nat.add_le_add_right h2.events 1)
  · rw [← htr]
    exact Nat.le_trans h3.replies h2.replies
  · intro x
    rw [← htr] at x
    exact h3.trunk (h2.trunk x)
  · intro x k
    by_cases e : k = p.lane
    · subst e
      apply setRunState_fits
      apply (hst _).fits
      rw [hl1]
      exact { x p.lane with
        degrade := Nat.zero_le _
        run := fun c hc => by
          simp only [Option.some.injEq] at hc
          rw [← hc]; exact newRun_fits s p }
    · rw [hother k e]
      apply (hst k).fits
      rw [hs1 k e]; exact x k
  · intro x k
    by_cases e : k = p.lane
    · subst e
      rw [Lane.contextRight, lane_setRunState_runState, lane_setRunState_run, hrun]; rfl
    · rw [hother k e]
      apply (hst k).right
      rw [hs1 k e]; exact x k

/-! ### The trunk leaves run states alone -/

theorem runState_statusChanged (a : Lane) : (statusChanged a).runState = a.runState := by
  unfold statusChanged; split <;> rfl

theorem runState_weighHold (p : Bool) (a : Lane) : (weighHold p a).runState = a.runState := by
  unfold weighHold
  simp only []
  split
  · rfl
  · exact runState_statusChanged _

theorem runState_weighPressure (s : State) (k : LaneId) : (s.weighPressure.lane k).runState = (s.lane k).runState := by
  unfold State.weighPressure
  simp only []
  split
  · rfl
  · rw [State.lane_mapLanes]; exact runState_weighHold _ _

theorem runState_sendBlock (s : State) (l k : LaneId) : ((s.sendBlock l).lane k).runState = (s.lane k).runState := by
  unfold State.sendBlock
  split
  · rfl
  · rw [State.lane_modTrunk, State.lane_modLane]
    split
    · rfl
    · rfl

theorem runState_arbiterChoice (s : State) (k : LaneId) : (s.arbiterChoice.lane k).runState = (s.lane k).runState := by
  have hb : ((match (searchOrder s.trunk.lastServed).find? s.fundable with
      | some l => s.sendBlock l
      | none => s).lane k).runState = (s.lane k).runState := by
    split
    · exact runState_sendBlock s _ k
    · rfl
  unfold State.arbiterChoice
  split
  · rfl
  · simp only []
    split
    · split
      · rw [runState_weighPressure]; rfl
      · exact hb
    · exact hb

theorem runState_idleChoice (s : State) (k : LaneId) : (s.idleChoice.lane k).runState = (s.lane k).runState := by
  unfold State.idleChoice
  split
  · exact runState_arbiterChoice s k
  · rfl

theorem runState_placeReply (s : State) (r : Reply) (k : LaneId) :
    ((s.placeReply r).lane k).runState = (s.lane k).runState := runState_idleChoice _ k

/-- A reply and an act, in either order. -/
theorem Kept.actAndAnswer {n : Nat} {s : State} (b : Bool) (tag : BitVec 16) (a : Answer) {act : State → State}
    (hact : ∀ u : State, u.groups = s.groups → (∀ k, LaneStep (s.lane k) (u.lane k)) →
      (∀ k, (u.lane k).runState = (s.lane k).runState) → Taken n u (act u))
    (he : s.trunk.events.length ≤ Config.eventCapacity → s.trunk.events.length + n ≤ Config.eventCapacity)
    (hr : s.trunk.replies.length < Config.replyCapacity) : Kept s (s.actAndAnswer b tag a act) := by
  unfold State.actAndAnswer
  split
  · have g := Replied.answerRequest s tag a
    have h := hact _ g.groups g.lanes fun k => runState_placeReply s _ k
    exact ⟨(EntriesKept.of_eq g.tables).trans h.entries, h.pending.trans g.pending, h.line.trans g.line, fun x =>
      { lanes := h.fits fun k => (g.lanes k).fits (x.lanes k)
        groups := h.groups (fits_groups g.groups x.groups)
        trunk := h.trunk (g.trunk x.trunk)
        events := Nat.le_trans h.events (Nat.le_trans (Nat.add_le_add_right g.events n) (he x.events))
        replies := Nat.le_trans h.replies (Nat.le_trans g.replies hr)
        requests := Nat.le_trans h.requests (by rw [g.tables]; exact x.requests) },
      fun x => h.right (g.right x)⟩
  · have h := hact s rfl (fun _ => LaneStep.refl _) fun _ => rfl
    have h' : Kept s (act s) := ⟨h.entries, h.pending, h.line, fun x =>
      { lanes := h.fits x.lanes
        groups := h.groups x.groups
        trunk := h.trunk x.trunk
        events := Nat.le_trans h.events (he x.events)
        replies := Nat.le_trans h.replies x.replies
        requests := Nat.le_trans h.requests x.requests }, h.right⟩
    exact h'.answer h.replies hr tag a

/-! ### The requests -/

/-- An answer without an act. -/
theorem Kept.refuse {s : State} (hr : s.trunk.replies.length < Config.replyCapacity) (tag : BitVec 16) (a : Answer) :
    Kept s (s.answerRequest tag a) := (Kept.refl s).answer (Nat.le_refl _) hr tag a

/-- LANE ARM taken (R40, R42). -/
theorem Kept.takeArm {s : State} (b : Bool) (r : Request) (hr : s.trunk.replies.length < Config.replyCapacity)
    (he : s.trunk.events.length ≤ Config.eventCapacity → s.trunk.events.length + 1 ≤ Config.eventCapacity) :
    Kept s (s.takeArm b r) := by
  unfold State.takeArm
  split
  · exact Kept.refuse hr _ _
  · rename_i p hp
    refine Kept.actAndAnswer b _ _ (n := 1) (fun u hg _ _ => Taken.admitRun ?_) he hr
    unfold State.group
    rw [hg]
    exact groupRoom_of_admitted hp

/-- GROUP END taken (R131). -/
theorem Kept.takeGroupEnd {s : State} (b : Bool) (r : Request) (hr : s.trunk.replies.length < Config.replyCapacity)
    (he : s.trunk.events.length ≤ Config.eventCapacity → s.trunk.events.length + 1 ≤ Config.eventCapacity) :
    Kept s (s.takeGroupEnd b r) := by
  unfold State.takeGroupEnd
  split
  · exact Kept.refuse hr _ _
  · rename_i l _
    simp only []
    split
    · exact Kept.refuse hr _ _
    · split
      · refine Kept.actAndAnswer b _ _ (n := 1) (fun u _ _ _ => ?_) he hr
        have h := (Placed.placeRecord u (groupCloseRecord l (s.group l) .unverified none none)).committed.taken
        exact ⟨h.entries.trans (EntriesKept.of_eq rfl), fun x => fits_setGroup (h.groups x) (Nat.zero_le _), h.requests, h.line, h.pending, h.events, h.replies, h.trunk,
          fun x => h.fits x, fun x => h.right x⟩
      · exact Kept.refuse hr _ _

/-- COMMIT taken (R174, R175). -/
theorem Kept.takeCommit {s : State} (b : Bool) (r : Request) (hr : s.trunk.replies.length < Config.replyCapacity)
    (he : s.trunk.events.length ≤ Config.eventCapacity →
      s.trunk.events.length + s.commitPlaces r.body ≤ Config.eventCapacity) : Kept s (s.takeCommit b r) := by
  unfold State.takeCommit
  simp only []
  split
  · exact Kept.refuse hr _ _
  · rename_i hlen
    split
    · exact Kept.refuse hr _ _
    · split
      · exact Kept.refuse hr _ _
      · rename_i hck
        have hck' : s.tables.commitCheck (commitMask r.body) = .ok := by simpa using hck
        have hlen' : r.body.length = 1 := by simpa using hlen
        refine Kept.actAndAnswer b _ _ (n := s.commitPlaces r.body) (fun u hg hl _ => ?_) he hr
        refine (Committed.commitKinds u (commitMask r.body)).taken.weaken ?_
        have : u.supersedeRecords = s.supersedeRecords := supersedeRecords_congr hg fun l => (hl l).run
        rw [this]
        unfold State.commitPlaces
        simp only []
        split
        · rename_i hm
          rw [if_pos ⟨hlen', hm, hck'⟩] <;> exact Nat.le_refl _
        · exact Nat.zero_le _

/-- A request that also needs EVENT queue room. -/
theorem Kept.serveWithRoom (s : State) (kind : RequestKind) (act : State → Request → State)
    (h : ∀ r, s.headRequest kind = some r → s.trunk.replies.length < Config.replyCapacity →
      (s.trunk.events.length ≤ Config.eventCapacity →
        s.trunk.events.length + s.requestPlaces ≤ Config.eventCapacity) →
      (s.requestPlaces ≠ 0 → s.trunk.events.length + s.requestPlaces ≤ Config.eventCapacity) →
      Kept (s.dropHead.leaveWaiters .table) (act (s.dropHead.leaveWaiters .table) r)) :
    Kept s (s.serveWithRoom kind act) := by
  unfold State.serveWithRoom
  split
  · exact Kept.refl s
  · rename_i r hh
    split
    · rename_i hroom
      split
      · rename_i hr
        simp only [State.replyRoom, decide_eq_true_eq] at hr
        have hpos : s.requestPlaces ≠ 0 → s.trunk.events.length + s.requestPlaces ≤ Config.eventCapacity :=
          fun hk => room_of_roomFor hk hroom
        have h1 := h r hh hr (fun hc => by
          by_cases hk : s.requestPlaces = 0
          · rw [hk]; exact hc
          · exact hpos hk) hpos
        exact ((Kept.dropHead s).trans (Calm.leaveWaiters s.dropHead .table).kept).trans h1
      · exact Kept.refl s
    · exact (Calm.joinWaiters s _).kept

/-- LANE ABORT taken (R50). -/
theorem Kept.takeAbort {s : State} (b : Bool) (r : Request) (hr : s.trunk.replies.length < Config.replyCapacity) :
    Kept s (s.takeAbort b r) := by
  unfold State.takeAbort
  split
  · exact Kept.refuse hr _ _
  · rename_i l _
    split
    · split
      · rename_i c _ ha
        have hn : needsRun (s.lane l).runState = true := by unfold needsRun; rw [ha]; rfl
        unfold State.actAndAnswer
        split
        · have g := Replied.answerRequest s r.tag (okWith [[c.serial]])
          have h : Work (s.answerRequest r.tag (okWith [[c.serial]])) _ :=
            Work.enterClosing (l := l) .aborted (by
              have : ((s.answerRequest r.tag (okWith [[c.serial]])).lane l).runState = (s.lane l).runState :=
                runState_placeReply s _ l
              rw [this]; exact hn)
          exact ⟨EntriesKept.of_eq (h.tables.trans g.tables), h.pending.trans g.pending, h.line.trans g.line,
            fun x => h.fits (g.fits hr x), fun x => h.right (g.right x)⟩
        · have h := Work.enterClosing (s := s) (l := l) .aborted hn
          exact h.kept.answer h.replies hr _ _
      · exact Kept.refuse hr _ _
    · exact Kept.refuse hr _ _

end Sys2Proof.Machine
end

