-- ==== Sys2Proof/Laws/Elsewhere.lean ====
section
/-! SUPPORT. Work for one lane leaves the other lanes' own state alone: `Elsewhere l s t` says so, and every operation
that works for a lane has its lemma here. -/

namespace Sys2Proof.Machine

open Sys2Proof

/-- Every lane but l keeps its own state. -/
def Elsewhere (l : LaneId) (s t : State) : Prop := ∀ k, k ≠ l → (t.lane k).own = (s.lane k).own

theorem Elsewhere.refl (l : LaneId) (s : State) : Elsewhere l s s := fun _ _ => rfl

theorem Elsewhere.trans {l : LaneId} {s t u : State} (h : Elsewhere l s t) (g : Elsewhere l t u) : Elsewhere l s u :=
  fun k e => (g k e).trans (h k e)

theorem Elsewhere.modLane (s : State) (l : LaneId) (f : Lane → Lane) : Elsewhere l s (s.modLane l f) :=
  fun k e => by rw [State.lane_modLane_other _ _ _ _ e]

theorem Elsewhere.modRun (s : State) (l : LaneId) (f : RunContext → RunContext) : Elsewhere l s (s.modRun l f) :=
  Elsewhere.modLane s l _

theorem Elsewhere.modRx (s : State) (l : LaneId) (f : Receiver → Receiver) : Elsewhere l s (s.modRx l f) :=
  Elsewhere.modLane s l _

theorem Elsewhere.modFwd (s : State) (l : LaneId) (f : Forwarder → Forwarder) : Elsewhere l s (s.modFwd l f) :=
  Elsewhere.modLane s l _

theorem Elsewhere.modTrunk (l : LaneId) (s : State) (f : Trunk → Trunk) : Elsewhere l s (s.modTrunk f) :=
  fun _ _ => rfl

/-! ### Hold, status word and the trunk: no lane's own state -/

theorem own_statusChanged (a : Lane) : (statusChanged a).own = a.own := by
  unfold statusChanged
  split <;> rfl

theorem own_holdWeighed (p : Bool) (a : Lane) : (holdWeighed p a).own = a.own := by
  unfold holdWeighed Lane.own
  cases a.run <;> rfl

theorem own_weighHold (p : Bool) (a : Lane) : (weighHold p a).own = a.own := by
  unfold weighHold
  simp only []
  split
  · exact own_holdWeighed p a
  · exact (own_statusChanged _).trans (own_holdWeighed p a)

/-- Every lane keeps its own state. -/
def OwnKept (s t : State) : Prop := ∀ k, (t.lane k).own = (s.lane k).own

theorem OwnKept.trans {s t u : State} (h : OwnKept s t) (g : OwnKept t u) : OwnKept s u :=
  fun k => (g k).trans (h k)

theorem OwnKept.elsewhere {s t : State} (h : OwnKept s t) (l : LaneId) : Elsewhere l s t := fun k _ => h k

theorem OwnKept.weighPressure (s : State) : OwnKept s s.weighPressure := by
  unfold State.weighPressure
  simp only []
  split
  · exact fun _ => rfl
  · intro k
    rw [State.lane_mapLanes]
    exact own_weighHold _ _

theorem OwnKept.sendBlock (s : State) (l : LaneId) : OwnKept s (s.sendBlock l) := by
  unfold State.sendBlock
  split
  · exact fun _ => rfl
  · intro k
    rw [State.lane_modTrunk]
    by_cases e : k = l
    · subst e; rw [State.lane_modLane_same]; rfl
    · rw [State.lane_modLane_other _ _ _ _ e]

theorem OwnKept.arbiterChoice (s : State) : OwnKept s s.arbiterChoice := by
  have hb : OwnKept s (match (searchOrder s.trunk.lastServed).find? s.fundable with
      | some l => s.sendBlock l
      | none => s) := by
    split
    · exact OwnKept.sendBlock s _
    · exact fun _ => rfl
  unfold State.arbiterChoice
  split
  · exact fun _ => rfl
  · simp only []
    split
    · split
      · exact fun k => OwnKept.weighPressure (s.modTrunk _) k
      · exact hb
    · exact hb

theorem OwnKept.idleChoice (s : State) : OwnKept s s.idleChoice := by
  unfold State.idleChoice
  split
  · exact OwnKept.arbiterChoice s
  · exact fun _ => rfl

theorem OwnKept.placeRecord (s : State) (e : EventRecord) : OwnKept s (s.placeRecord e) :=
  fun k => ((OwnKept.weighPressure (s.modTrunk fun t => { t with events := t.events ++ [e] })).trans
    (OwnKept.idleChoice _)) k

theorem OwnKept.placeRecords (es : List EventRecord) : ∀ s : State, OwnKept s (s.placeRecords es) := by
  induction es with
  | nil => exact fun _ _ => rfl
  | cons e es ih => exact fun s => (OwnKept.placeRecord s e).trans (ih _)

theorem OwnKept.placeReply (s : State) (r : Reply) : OwnKept s (s.placeReply r) :=
  fun k => OwnKept.idleChoice (s.modTrunk fun t => { t with replies := t.replies ++ [r] }) k

/-! ### A lane's run state -/

theorem Elsewhere.weighLaneHold (s : State) (l : LaneId) : Elsewhere l s (s.weighLaneHold l) := Elsewhere.modLane s l _

theorem Elsewhere.setRunState (s : State) (l : LaneId) (st : RunState) : Elsewhere l s (s.setRunState l st) :=
  Elsewhere.modLane s l _

theorem Elsewhere.returnAccount (s : State) (l : LaneId) : Elsewhere l s (s.returnAccount l) :=
  fun k e => ((OwnKept.idleChoice _) k).trans (Elsewhere.modLane s l (fun ln => { ln with degrade := 0 }) k e)

theorem Elsewhere.settleLane (s : State) (l : LaneId) : Elsewhere l s (s.settleLane l) := by
  unfold State.settleLane
  simp only []
  split
  · exact Elsewhere.refl l s
  · split
    · exact (Elsewhere.setRunState s l _).trans (Elsewhere.returnAccount _ l)
    · exact Elsewhere.setRunState s l _

theorem Elsewhere.weighLane (s : State) (l : LaneId) : Elsewhere l s (s.weighLane l) := by
  unfold State.weighLane
  split
  · exact Elsewhere.refl l s
  · exact Elsewhere.settleLane s l

/-! ### The forwarder -/

theorem Elsewhere.offerBlock (s : State) (l : LaneId) (b : Block) (g : Interval) : Elsewhere l s (s.offerBlock l b g) := by
  unfold State.offerBlock
  simp only []
  split
  · exact fun k e => ((OwnKept.idleChoice _) k).trans (Elsewhere.modLane s l _ k e)
  · exact (Elsewhere.modFwd s l (gapEnter g)).trans (Elsewhere.modLane _ l _)

theorem Elsewhere.closeBlock (s : State) (l : LaneId) : Elsewhere l s (s.closeBlock l) := by
  unfold State.closeBlock
  split
  · exact Elsewhere.refl l s
  · split
    · exact Elsewhere.refl l s
    · exact (Elsewhere.modFwd s l _).trans (Elsewhere.offerBlock _ l _ _)

theorem Elsewhere.skipEntry (s : State) (l : LaneId) (q : Int) : Elsewhere l s (s.skipEntry l q) :=
  (Elsewhere.closeBlock s l).trans (Elsewhere.modFwd _ l _)

theorem Elsewhere.addEntry (s : State) (l : LaneId) (row : KeepRow) (i : Bool) (x : Nat) (e : DelayEntry) :
    Elsewhere l s (s.addEntry l row i x e) := by
  unfold State.addEntry
  simp only []
  generalize (addToBlock row.average (forwardedValues row.mask e) e.corrected
    ((s.openBlock l).getD (freshBlock x i e.corrected))) = b
  have h : Elsewhere l s (s.modFwd l fun f => { f with block := some b }) := Elsewhere.modFwd s l _
  split
  · exact h.trans (Elsewhere.closeBlock _ l)
  · exact h

theorem Elsewhere.forwardEntry (s : State) (l : LaneId) (row : KeepRow) (e : DelayEntry) :
    Elsewhere l s (s.forwardEntry l row e) := by
  unfold State.forwardEntry
  split
  · exact Elsewhere.refl l s
  · simp only []
    have h3 : ∀ i x, Elsewhere l s (if blockDiffers (s.openBlock l) i x then s.closeBlock l else s) := by
      intro i x
      split
      · exact Elsewhere.closeBlock s l
      · exact Elsewhere.refl l s
    split
    · exact (h3 _ _).trans (Elsewhere.skipEntry _ l _)
    · exact (h3 _ _).trans (Elsewhere.addEntry _ l _ _ _ _)

theorem Elsewhere.handleEntry (s : State) (l : LaneId) (e : DelayEntry) : Elsewhere l s (s.handleEntry l e) := by
  unfold State.handleEntry
  simp only []
  refine Elsewhere.trans ?_ (Elsewhere.modFwd _ l _)
  have h1 : Elsewhere l s (s.enterGapBefore l e.gapBefore) := by
    unfold State.enterGapBefore
    split
    · exact Elsewhere.refl l s
    · exact (Elsewhere.closeBlock s l).trans (Elsewhere.modFwd _ l _)
  refine h1.trans ?_
  split
  · exact Elsewhere.refl l _
  · exact Elsewhere.forwardEntry _ l _ e

theorem Elsewhere.handleEntries (l : LaneId) (es : List DelayEntry) : ∀ s : State, Elsewhere l s (s.handleEntries l es) := by
  induction es with
  | nil => exact Elsewhere.refl l
  | cons e es ih => exact fun s => (Elsewhere.handleEntry s l e).trans (ih _)

theorem Elsewhere.enterDelay (s : State) (l : LaneId) (f : Frame) : Elsewhere l s (s.enterDelay l f) := by
  unfold State.enterDelay
  simp only []
  refine Elsewhere.trans (Elsewhere.modRun s l fun c => { c with heldLoss := none }) ?_
  split
  · exact Elsewhere.modLane _ l _
  · split
    · exact Elsewhere.modLane _ l _
    · refine Elsewhere.trans ?_ (Elsewhere.modLane _ l _)
      exact Elsewhere.trans (Elsewhere.modLane _ l _) (Elsewhere.handleEntry _ l _)

/-! ### The closing sequence and the work on a frame -/

theorem Elsewhere.closeStep (s : State) (l : LaneId) (st : CloseStep) : Elsewhere l s (s.closeStep l st).1 := by
  unfold State.closeStep
  split
  · exact Elsewhere.refl l s
  · cases st with
    | rule r => exact Elsewhere.modRun s l _
    | dropCandidate => exact Elsewhere.modRun s l _
    | drain =>
      simp only [State.drainDelay]
      have h : Elsewhere l s ((s.modLane l fun ln => { ln with delay := [] }).handleEntries l (s.lane l).delay) :=
        (Elsewhere.modLane s l _).trans (Elsewhere.handleEntries l _ _)
      split
      · exact h
      · exact h.trans (Elsewhere.modRun _ l _)
    | finalBlock => exact (Elsewhere.closeBlock s l).trans (Elsewhere.modFwd _ l _)
    | verdict => exact Elsewhere.modRun s l _
    | runClose => exact Elsewhere.refl l s

theorem Elsewhere.runClosing (l : LaneId) (steps : List CloseStep) : ∀ s : State, Elsewhere l s (s.runClosing l steps) := by
  induction steps with
  | nil => exact fun s => Elsewhere.modRun s l _
  | cons st rest ih =>
    intro s
    have hc := Elsewhere.closeStep s l st
    unfold State.runClosing
    generalize s.closeStep l st = r at hc
    obtain ⟨s', o⟩ := r
    cases o with
    | none => exact hc.trans (ih s')
    | some e =>
      simp only []
      split
      · refine Elsewhere.trans (t := s') hc ?_
        exact ((OwnKept.placeRecord (s'.leaveWaiters (.closing l)) e).elsewhere l).trans (ih _)
      · exact Elsewhere.modRun s l _

theorem Elsewhere.enterClosing (s : State) (l : LaneId) (reason : CloseReason) :
    Elsewhere l s (s.enterClosing l reason) := by
  unfold State.enterClosing
  simp only []
  have h : Elsewhere l s (((s.modRun l fun c =>
      { c with reason := some reason, armTimer := .stopped, stallTimer := .stopped }).setRunState l .closing).modRun l
        handCarried) :=
    ((Elsewhere.modRun s l _).trans (Elsewhere.setRunState _ l _)).trans (Elsewhere.modRun _ l _)
  split
  · exact h
  · exact h.trans (Elsewhere.runClosing l _ _)

theorem Elsewhere.workItem (s : State) (l : LaneId) (f : Frame) (i : WorkItem) : Elsewhere l s (s.workItem l f i).1 := by
  unfold State.workItem
  split
  · exact Elsewhere.refl l s
  · exact Elsewhere.modRun s l _

theorem Elsewhere.finishFrame (s : State) (l : LaneId) (f : Frame) : Elsewhere l s (s.finishFrame l f) := by
  have hd : Elsewhere l s (if f.cls = .normal then s.enterDelay l f else s) := by
    split
    · exact Elsewhere.enterDelay s l f
    · exact Elsewhere.refl l s
  unfold State.finishFrame
  simp only []
  revert hd
  generalize (if f.cls = .normal then s.enterDelay l f else s) = t
  intro hd
  split
  · split
    · exact hd.trans (Elsewhere.enterClosing t l _)
    · exact hd
  · exact hd.trans ((Elsewhere.modRun t l _).trans (Elsewhere.runClosing l _ _))
  all_goals exact hd

theorem Elsewhere.blockWork (l : LaneId) (f : Frame) (mayPlace : Bool) (items : List WorkItem) : ∀ s : State,
    Elsewhere l s (s.blockWork l f mayPlace items).1 := by
  induction items with
  | nil => exact Elsewhere.refl l
  | cons i rest ih =>
    intro s
    have hc := Elsewhere.workItem s l f i
    unfold State.blockWork
    generalize s.workItem l f i = r at hc
    obtain ⟨s', o⟩ := r
    cases o with
    | none => exact hc.trans (ih s')
    | some e =>
      simp only []
      split
      · refine Elsewhere.trans (t := s') hc ?_
        exact ((OwnKept.placeRecord (s'.leaveWaiters (.pipeline l)) e).elsewhere l).trans (ih _)
      · exact Elsewhere.refl l s

theorem Elsewhere.runWork (s : State) (l : LaneId) (f : Frame) (first second : List WorkItem) :
    Elsewhere l s (s.runWork l f first second) := by
  have h : Elsewhere l s ((s.blockWork l f true first).1.blockWork l f (s.blockWork l f true first).2.isEmpty second).1 :=
    (Elsewhere.blockWork l f true first s).trans (Elsewhere.blockWork l f _ second _)
  unfold State.runWork
  simp only []
  split
  · exact h.trans (Elsewhere.finishFrame _ l f)
  · exact h.trans (Elsewhere.modLane _ l _)

theorem Elsewhere.handOn (s : State) (l : LaneId) (b : Bool) (cls : FrameClass) (ph : Phase) (m x : Bool) (t : Tracker)
    (slots : List Slot) (rev : List WorkItem) : Elsewhere l s (s.handOn l b cls ph m x t slots rev) := by
  unfold State.handOn
  split
  · exact Elsewhere.refl l s
  · simp only []
    split
    · exact (Elsewhere.modRun s l _).trans (Elsewhere.runWork _ l _ _ _)
    · exact (Elsewhere.modRun s l _).trans (Elsewhere.runWork _ l _ _ _)

theorem Elsewhere.motionReport (s : State) (l : LaneId) (m : Bool) : Elsewhere l s (s.motionReport l m) := by
  unfold State.motionReport
  split
  · exact Elsewhere.modRun s l _
  · exact Elsewhere.refl l s

theorem Elsewhere.startInsertion (s : State) (l : LaneId) : Elsewhere l s (s.startInsertion l) :=
  ((Elsewhere.modRun s l _).trans (Elsewhere.setRunState _ l _)).trans (Elsewhere.modRun _ l _)

theorem Elsewhere.setTracker (s : State) (l : LaneId) (t : Tracker) : Elsewhere l s (s.setTracker l t) :=
  Elsewhere.modRun s l _

theorem Elsewhere.takeFrame (s : State) (l : LaneId) (b : Bool) (e : FifoEntry) : Elsewhere l s (s.takeFrame l b e) := by
  unfold State.takeFrame
  split
  · exact Elsewhere.refl l s
  · simp only []
    split
    · unfold State.takeArmed
      split
      · exact Elsewhere.setTracker s l _
      · split
        · exact ((Elsewhere.setTracker s l _).trans (Elsewhere.startInsertion _ l)).trans (Elsewhere.handOn _ l _ _ _ _ _ _ _ _)
        · exact (Elsewhere.setTracker s l _).trans (Elsewhere.enterClosing _ l _)
    · unfold State.takeInserting
      split
      · unfold State.takeReversal
        simp only []
        refine Elsewhere.trans ?_ (Elsewhere.handOn _ l _ _ _ _ _ _ _ _)
        refine Elsewhere.trans ?_ (Elsewhere.modRun _ l _)
        exact ((Elsewhere.setTracker s l _).trans (Elsewhere.setRunState _ l _)).trans (Elsewhere.motionReport _ l _)
      · exact ((Elsewhere.setTracker s l _).trans (Elsewhere.motionReport _ l _)).trans (Elsewhere.handOn _ l _ _ _ _ _ _ _ _)
    · unfold State.takePulling
      exact ((Elsewhere.setTracker s l _).trans (Elsewhere.motionReport _ l _)).trans (Elsewhere.handOn _ l _ _ _ _ _ _ _ _)
    all_goals exact Elsewhere.refl l s

/-! ### Commands of a lane -/

theorem Elsewhere.pipelineTake (s : State) (l : LaneId) (b : Bool) : Elsewhere l s (s.pipelineTake l b) := by
  unfold State.pipelineTake
  split
  · simp only []
    have h : ∀ rest, Elsewhere l s ((s.modRx l fun rx => { rx with fifo := rest }).weighLaneHold l) := fun _ =>
      (Elsewhere.modRx s l _).trans (Elsewhere.weighLaneHold _ l)
    split
    · exact (h _).trans (Elsewhere.takeFrame _ l b _)
    · exact h _
  · exact Elsewhere.refl l s

theorem Elsewhere.pipelineResume (s : State) (l : LaneId) : Elsewhere l s (s.pipelineResume l) := by
  unfold State.pipelineResume
  split
  · exact Elsewhere.refl l s
  · exact (Elsewhere.modLane s l _).trans (Elsewhere.runWork _ l _ _ _)

theorem Elsewhere.closingResume (s : State) (l : LaneId) : Elsewhere l s (s.closingResume l) := by
  unfold State.closingResume
  split
  · exact Elsewhere.runClosing l _ s
  · exact Elsewhere.refl l s

theorem Elsewhere.sampleFrameEnd (s : State) (l : LaneId) (words : List Word) : Elsewhere l s (s.sampleFrameEnd l words) := by
  unfold State.sampleFrameEnd
  split
  · exact Elsewhere.modRx s l _
  · split
    · exact Elsewhere.modRx s l _
    · unfold State.acceptFrame
      simp only []
      split
      · split
        · exact ((Elsewhere.modRx s l _).trans (Elsewhere.modRx _ l _)).trans (Elsewhere.weighLaneHold _ l)
        · exact (Elsewhere.modRx s l _).trans (Elsewhere.modRx _ l _)
      · split
        · exact ((Elsewhere.modRx s l _).trans (Elsewhere.modRx _ l _)).trans (Elsewhere.weighLane _ l)
        · exact (Elsewhere.modRx s l _).trans (Elsewhere.modRx _ l _)

theorem Elsewhere.linkLost (s : State) (l : LaneId) : Elsewhere l s (s.linkLost l) := by
  unfold State.linkLost
  split
  · exact Elsewhere.enterClosing s l _
  · exact Elsewhere.weighLane s l

theorem Elsewhere.endClosing (s : State) (l : LaneId) : Elsewhere l s (s.endClosing l) :=
  (Elsewhere.modLane s l _).trans (Elsewhere.settleLane _ l)

theorem Elsewhere.handleNotice (s : State) (l : LaneId) (c : RunContext) : Elsewhere l s (s.handleNotice l c) := by
  unfold State.handleNotice
  refine Elsewhere.trans ?_ (Elsewhere.endClosing _ l)
  exact fun k _ => OwnKept.placeRecords _ (s.leaveWaiters (.group l)) k

end Sys2Proof.Machine
end

