-- ==== Sys2Proof/Laws/Identity.lean ====
section
/-! SUPPORT. What stays of a run while the blocks work on its frames: its run state, serial, kind, tube, profile,
captured copies, tracker fields, close reason and arm timer. `Same` says so of one lane; entry to CLOSING and the
take of a frame are then read off it. -/

namespace Sys2Proof.Machine

open Sys2Proof

/-- The fields of a run context that only the tracker and the run controller change. -/
structure RunIdent where
  serial : BitVec 32
  kind : RunKind
  tube : Option (Nat × Nat)
  profile : Nat
  captured : Vector Captured 8
  tracker : Tracker
  reason : Option CloseReason
  armTimer : Timer

/-- Those fields of a run context. -/
def RunContext.ident (c : RunContext) : RunIdent :=
  ⟨c.serial, c.kind, c.tube, c.profile, c.captured, c.tracker, c.reason, c.armTimer⟩

/-- A lane keeps its run state, those fields, its receiver but for hold and status word, and, out of motion, its
stall timer. -/
structure Same (a b : Lane) : Prop where
  state : b.runState = a.runState
  run : b.run.map RunContext.ident = a.run.map RunContext.ident
  rx : b.rx.core = a.rx.core
  stall : inMotion a.runState = false → b.run.map (·.stallTimer) = a.run.map (·.stallTimer)

theorem Same.refl (a : Lane) : Same a a := ⟨rfl, rfl, rfl, fun _ => rfl⟩

theorem Same.trans {a b c : Lane} (h : Same a b) (g : Same b c) : Same a c :=
  ⟨g.state.trans h.state, g.run.trans h.run, g.rx.trans h.rx,
   fun m => (g.stall (by rw [h.state]; exact m)).trans (h.stall m)⟩

/-- Every lane keeps its run state and those fields. -/
def SameAll (s t : State) : Prop := ∀ k, Same (s.lane k) (t.lane k)

theorem SameAll.refl (s : State) : SameAll s s := fun _ => Same.refl _

theorem SameAll.trans {s t u : State} (h : SameAll s t) (g : SameAll t u) : SameAll s u :=
  fun k => (h k).trans (g k)

theorem SameAll.modLane {s : State} {l : LaneId} {f : Lane → Lane} (h : Same (s.lane l) (f (s.lane l))) :
    SameAll s (s.modLane l f) := fun k => by
  by_cases e : k = l
  · subst e; rw [State.lane_modLane_same]; exact h
  · rw [State.lane_modLane_other _ _ _ _ e]; exact Same.refl _

theorem Same.run' {a : Lane} {f : RunContext → RunContext}
    (h : ∀ c, (f c).ident = c.ident ∧ (f c).stallTimer = c.stallTimer) : Same a { a with run := a.run.map f } :=
  ⟨rfl, by
    cases a.run with
    | none => rfl
    | some c => exact congrArg some (h c).1, rfl, fun _ => by
    cases a.run with
    | none => rfl
    | some c => exact congrArg some (h c).2⟩

theorem SameAll.modRun {s : State} {l : LaneId} {f : RunContext → RunContext}
    (h : ∀ c, (f c).ident = c.ident ∧ (f c).stallTimer = c.stallTimer) : SameAll s (s.modRun l f) :=
  SameAll.modLane (Same.run' h)

theorem SameAll.modFwd (s : State) (l : LaneId) (f : Forwarder → Forwarder) : SameAll s (s.modFwd l f) :=
  SameAll.modRun fun _ => ⟨rfl, rfl⟩

theorem SameAll.setRun {s : State} {l : LaneId} {c d : RunContext} (hr : (s.lane l).run = some c)
    (h : d.ident = c.ident ∧ d.stallTimer = c.stallTimer) : SameAll s (s.modRun l fun _ => d) :=
  SameAll.modLane ⟨rfl, by rw [hr]; exact congrArg some h.1, rfl, fun _ => by rw [hr]; exact congrArg some h.2⟩

/-! ### Status signals and the trunk -/

theorem Same.statusChanged (a : Lane) : Same a (statusChanged a) := by
  unfold Machine.statusChanged
  split <;> exact ⟨rfl, rfl, rfl, fun _ => rfl⟩

theorem Same.holdWeighed (p : Bool) (a : Lane) : Same a (holdWeighed p a) := by
  refine ⟨rfl, ?_, rfl, fun m => ?_⟩
  · simp only [Machine.holdWeighed]
    cases a.run <;> rfl
  · have hn : holdAfter a.runState a.rx.fifo.length p a.rx.hold = false := by
      unfold holdAfter; rw [m]; rfl
    simp only [Machine.holdWeighed, hn]
    cases a.run with
    | none => rfl
    | some c => simp [stallUnderHold, m]

theorem Same.weighHold (p : Bool) (a : Lane) : Same a (weighHold p a) := by
  unfold Machine.weighHold
  simp only []
  split
  · exact Same.holdWeighed p a
  · exact (Same.holdWeighed p a).trans (Same.statusChanged _)

theorem SameAll.weighLaneHold (s : State) (l : LaneId) : SameAll s (s.weighLaneHold l) :=
  SameAll.modLane (Same.weighHold _ _)

theorem SameAll.weighPressure (s : State) : SameAll s s.weighPressure := by
  unfold State.weighPressure
  simp only []
  split
  · exact SameAll.refl s
  · intro k
    rw [State.lane_mapLanes]
    exact Same.weighHold _ _

theorem SameAll.sendBlock (s : State) (l : LaneId) : SameAll s (s.sendBlock l) := by
  unfold State.sendBlock
  split
  · exact SameAll.refl s
  · rename_i b rest _
    exact fun k => SameAll.modLane (s := s) (l := l)
      (f := fun ln => { ln with dataQueue := rest, degrade := degradeAfterDequeue rest.length ln.degrade })
      ⟨rfl, rfl, rfl, fun _ => rfl⟩ k

theorem SameAll.arbiterChoice (s : State) : SameAll s s.arbiterChoice := by
  have hb : SameAll s (match (searchOrder s.trunk.lastServed).find? s.fundable with
      | some l => s.sendBlock l
      | none => s) := by
    split
    · exact SameAll.sendBlock s _
    · exact SameAll.refl s
  unfold State.arbiterChoice
  split
  · exact SameAll.refl s
  · simp only []
    split
    · split
      · exact fun k => SameAll.weighPressure (s.modTrunk _) k
      · exact hb
    · exact hb

theorem SameAll.idleChoice (s : State) : SameAll s s.idleChoice := by
  unfold State.idleChoice
  split
  · exact SameAll.arbiterChoice s
  · exact SameAll.refl s

theorem SameAll.placeRecord (s : State) (e : EventRecord) : SameAll s (s.placeRecord e) :=
  fun k => ((SameAll.weighPressure (s.modTrunk fun t => { t with events := t.events ++ [e] })).trans
    (SameAll.idleChoice _)) k

theorem SameAll.placeReply (s : State) (r : Reply) : SameAll s (s.placeReply r) :=
  fun k => SameAll.idleChoice (s.modTrunk fun t => { t with replies := t.replies ++ [r] }) k

/-! ### The forwarder -/

theorem SameAll.offerBlock (s : State) (l : LaneId) (b : Block) (g : Interval) : SameAll s (s.offerBlock l b g) := by
  unfold State.offerBlock
  simp only []
  split
  · refine SameAll.trans ?_ (SameAll.idleChoice _)
    exact SameAll.modLane ⟨rfl, rfl, rfl, fun _ => rfl⟩
  · refine SameAll.trans (SameAll.modFwd s l (gapEnter g)) ?_
    exact SameAll.modLane ⟨rfl, rfl, rfl, fun _ => rfl⟩

theorem SameAll.closeBlock (s : State) (l : LaneId) : SameAll s (s.closeBlock l) := by
  unfold State.closeBlock
  split
  · exact SameAll.refl s
  · split
    · exact SameAll.refl s
    · exact SameAll.trans (SameAll.modFwd s l _) (SameAll.offerBlock _ _ _ _)

theorem SameAll.skipEntry (s : State) (l : LaneId) (q : Int) : SameAll s (s.skipEntry l q) :=
  (SameAll.closeBlock s l).trans (SameAll.modFwd _ l _)

theorem SameAll.addEntry (s : State) (l : LaneId) (row : KeepRow) (i : Bool) (x : Nat) (e : DelayEntry) :
    SameAll s (s.addEntry l row i x e) := by
  unfold State.addEntry
  simp only []
  generalize hb : (addToBlock row.average (forwardedValues row.mask e) e.corrected
    ((s.openBlock l).getD (freshBlock x i e.corrected))) = b
  have h : SameAll s (s.modFwd l fun f => { f with block := some b }) := SameAll.modFwd s l _
  split
  · exact h.trans (SameAll.closeBlock _ l)
  · exact h

theorem SameAll.handleEntry (s : State) (l : LaneId) (e : DelayEntry) : SameAll s (s.handleEntry l e) := by
  unfold State.handleEntry
  simp only []
  refine SameAll.trans ?_ (SameAll.modFwd _ l _)
  have h1 : SameAll s (s.enterGapBefore l e.gapBefore) := by
    unfold State.enterGapBefore
    split
    · exact SameAll.refl s
    · exact (SameAll.closeBlock s l).trans (SameAll.modFwd _ l _)
  refine h1.trans ?_
  generalize s.enterGapBefore l e.gapBefore = t
  split
  · exact SameAll.refl t
  · unfold State.forwardEntry
    split
    · exact SameAll.refl t
    · simp only []
      have h3 : ∀ i x, SameAll t (if blockDiffers (t.openBlock l) i x then t.closeBlock l else t) := by
        intro i x
        split
        · exact SameAll.closeBlock t l
        · exact SameAll.refl t
      split
      · exact SameAll.trans (h3 _ _) (SameAll.skipEntry _ l _)
      · exact SameAll.trans (h3 _ _) (SameAll.addEntry _ l _ _ _ _)

theorem SameAll.handleEntries (l : LaneId) (es : List DelayEntry) : ∀ s : State, SameAll s (s.handleEntries l es) := by
  induction es with
  | nil => exact SameAll.refl
  | cons e es ih => exact fun s => (SameAll.handleEntry s l e).trans (ih _)

theorem SameAll.enterDelay (s : State) (l : LaneId) (f : Frame) : SameAll s (s.enterDelay l f) := by
  unfold State.enterDelay
  simp only []
  have hm : SameAll s (s.modRun l fun c => { c with heldLoss := none }) := SameAll.modRun fun _ => ⟨rfl, rfl⟩
  refine hm.trans ?_
  generalize s.modRun l (fun c => { c with heldLoss := none }) = t
  split
  · exact SameAll.modLane ⟨rfl, rfl, rfl, fun _ => rfl⟩
  · rename_i d ds _
    split
    · exact SameAll.modLane ⟨rfl, rfl, rfl, fun _ => rfl⟩
    · have h1 : SameAll t (t.modLane l fun ln => { ln with delay := ds }) := SameAll.modLane ⟨rfl, rfl, rfl, fun _ => rfl⟩
      refine (h1.trans (SameAll.handleEntry _ l d)).trans ?_
      exact SameAll.modLane ⟨rfl, rfl, rfl, fun _ => rfl⟩

/-! ### The closing sequence -/

theorem ident_closeRule (l : LaneId) (p : Layout) (d : Int) (r : Fin 32) (rule : CallRule) (b : Bool) (o : RuleOpen)
    (c : RunContext) : (closeRule l p d r rule b o c).1.ident = c.ident
      ∧ (closeRule l p d r rule b o c).1.stallTimer = c.stallTimer := by
  unfold closeRule
  simp only []
  split <;> exact ⟨rfl, rfl⟩

theorem SameAll.closeStep (s : State) (l : LaneId) (st : CloseStep) : SameAll s (s.closeStep l st).1 := by
  unfold State.closeStep
  split
  · exact SameAll.refl s
  · rename_i c hc
    cases st with
    | rule r =>
      refine SameAll.setRun hc ?_
      unfold endRule
      split
      · exact ⟨rfl, rfl⟩
      · exact ident_closeRule _ _ _ _ _ _ _ _
    | dropCandidate => exact SameAll.modRun fun _ => ⟨rfl, rfl⟩
    | drain =>
      simp only [State.drainDelay]
      have h : SameAll s ((s.modLane l fun ln => { ln with delay := [] }).handleEntries l (s.lane l).delay) := by
        refine SameAll.trans ?_ (SameAll.handleEntries _ _ _)
        exact SameAll.modLane ⟨rfl, rfl, rfl, fun _ => rfl⟩
      split
      · exact h
      · exact h.trans (SameAll.modRun fun _ => ⟨rfl, rfl⟩)
    | finalBlock => exact (SameAll.closeBlock s l).trans (SameAll.modFwd _ l _)
    | verdict =>
      refine SameAll.modRun fun c => ?_
      unfold formVerdict
      split <;> exact ⟨rfl, rfl⟩
    | runClose => exact SameAll.refl s

theorem SameAll.runClosing (l : LaneId) (steps : List CloseStep) : ∀ s : State, SameAll s (s.runClosing l steps) := by
  induction steps with
  | nil => exact fun s => SameAll.modRun fun _ => ⟨rfl, rfl⟩
  | cons st rest ih =>
    intro s
    have hc := SameAll.closeStep s l st
    unfold State.runClosing
    generalize s.closeStep l st = r at hc
    obtain ⟨s', o⟩ := r
    cases o with
    | none => exact hc.trans (ih s')
    | some e =>
      simp only []
      split
      · refine SameAll.trans (t := s') hc ?_
        exact fun k => ((SameAll.placeRecord (s'.leaveWaiters (.closing l)) e).trans (ih _)) k
      · have h1 : SameAll s (s.setClosing l (some (st :: rest))) := SameAll.modRun fun _ => ⟨rfl, rfl⟩
        exact fun k => h1 k

/-! ### Work on a frame -/

theorem SameAll.workItem (s : State) (l : LaneId) (f : Frame) (i : WorkItem) : SameAll s (s.workItem l f i).1 := by
  unfold State.workItem
  split
  · exact SameAll.refl s
  · rename_i c hc
    refine SameAll.setRun hc ?_
    cases i with
    | rule r =>
      simp only [State.workOn]
      unfold evaluateRule
      split
      · exact ⟨rfl, rfl⟩
      · simp only []
        split
        · split <;> exact ⟨rfl, rfl⟩
        · split
          · exact ⟨rfl, rfl⟩
          · exact ident_closeRule _ _ _ _ _ _ _ _
    | _ => exact ⟨rfl, rfl⟩

/-- A frame's loss report and reference capture keep those fields and the stall timer. -/
theorem ident_doneAtOnce (rows : Nat → StandardRow) (f : Frame) (c : RunContext) :
    (doneAtOnce rows f c).ident = c.ident ∧ (doneAtOnce rows f c).stallTimer = c.stallTimer := by
  unfold doneAtOnce reportLoss
  simp only []
  split <;> split <;> (try split) <;> exact ⟨rfl, rfl⟩

theorem SameAll.blockWork (l : LaneId) (f : Frame) (mayPlace : Bool) (items : List WorkItem) : ∀ s : State,
    SameAll s (s.blockWork l f mayPlace items).1 := by
  induction items with
  | nil => exact SameAll.refl
  | cons i rest ih =>
    intro s
    have hc := SameAll.workItem s l f i
    unfold State.blockWork
    generalize s.workItem l f i = r at hc
    obtain ⟨s', o⟩ := r
    cases o with
    | none => exact hc.trans (ih s')
    | some e =>
      simp only []
      split
      · exact (hc.trans fun k => SameAll.placeRecord (s'.leaveWaiters (.pipeline l)) e k).trans (ih _)
      · exact SameAll.refl s

/-- Work on a frame ends or waits in a state that keeps run state and those fields, up to the frame's end. -/
theorem runWork_shape (s : State) (l : LaneId) (f : Frame) (first second : List WorkItem) :
    (∃ u, SameAll s u ∧ s.runWork l f first second = u.finishFrame l f) ∨ SameAll s (s.runWork l f first second) := by
  have h : SameAll s ((s.blockWork l f true first).1.blockWork l f (s.blockWork l f true first).2.isEmpty second).1 :=
    (SameAll.blockWork l f true first s).trans (SameAll.blockWork l f _ second _)
  unfold State.runWork
  simp only []
  split
  · exact Or.inl ⟨_, h, rfl⟩
  · exact Or.inr (h.trans fun k => SameAll.modLane (l := l) (f := fun ln => { ln with passage := some ⟨f, _, _⟩ })
      ⟨rfl, rfl, rfl, fun _ => rfl⟩ k)

theorem sameAll_delayed (s : State) (l : LaneId) (f : Frame) :
    SameAll s (if f.cls = .normal then s.enterDelay l f else s) := by
  split
  · exact SameAll.enterDelay s l f
  · exact SameAll.refl s

/-- The end of a frame's passage leaves an INSERTING lane as it is. -/
theorem finishFrame_inserting {s : State} {l : LaneId} {f : Frame} (h : (s.lane l).runState = .inserting) :
    SameAll s (s.finishFrame l f) := by
  have hd := sameAll_delayed s l f
  unfold State.finishFrame
  simp only []
  revert hd
  generalize (if f.cls = .normal then s.enterDelay l f else s) = t
  intro hd
  have ht : (t.lane l).runState = .inserting := (hd l).state.trans h
  rw [ht]
  exact hd

/-- The end of a frame's passage without the exit event leaves a PULLING lane as it is. -/
theorem finishFrame_pulling {s : State} {l : LaneId} {f : Frame} (h : (s.lane l).runState = .pulling)
    (hx : f.exits = false) : SameAll s (s.finishFrame l f) := by
  have hd := sameAll_delayed s l f
  unfold State.finishFrame
  simp only []
  revert hd
  generalize (if f.cls = .normal then s.enterDelay l f else s) = t
  intro hd
  have ht : (t.lane l).runState = .pulling := (hd l).state.trans h
  rw [ht]
  simp only [hx]
  exact hd

/-! ### Entry to CLOSING (R52) -/

theorem run_of_ident {a b : Lane} (h : Same a b) {c : RunContext} (hc : a.run = some c) :
    ∃ d, b.run = some d ∧ d.ident = c.ident := by
  have := h.run
  rw [hc] at this
  cases hb : b.run with
  | none => rw [hb] at this; cases this
  | some d =>
    rw [hb] at this
    simp only [Option.map_some, Option.some.injEq] at this
    exact ⟨d, rfl, this⟩

/-- What entry to CLOSING leaves on its lane: CLOSING, the reason, both timers stopped, the carried loss handed
over, the run's identity and the receiver kept. -/
structure Closed (a b : Lane) (c : RunContext) (reason : CloseReason) : Prop where
  state : b.runState = .closing
  rx : b.rx.core = a.rx.core
  run : ∃ d, b.run = some d ∧ d.serial = c.serial ∧ d.kind = c.kind ∧ d.tube = c.tube ∧ d.reason = some reason
    ∧ d.armTimer = .stopped ∧ d.stallTimer = .stopped ∧ d.tracker = { c.tracker with carried := 0 }

/-- The run context as entry to CLOSING first leaves it, but for the forwarder. -/
def closingContext (c : RunContext) (reason : CloseReason) : RunContext :=
  { c with reason := some reason, armTimer := .stopped, stallTimer := .stopped, tracker := { c.tracker with carried := 0 } }

theorem Closed.of_same {a b : Lane} {x : Lane} {c : RunContext} {reason : CloseReason} (hs : x.runState = .closing)
    (hx : x.rx.core = a.rx.core) {d : RunContext} (hd : x.run = some d)
    (hi : d.ident = (closingContext c reason).ident) (ht : d.stallTimer = .stopped) (h : Same x b) :
    Closed a b c reason := by
  obtain ⟨e, he, hie⟩ := run_of_ident h hd
  have hi' := hie.trans hi
  injection hi' with h1 h2 h3 h4 h5 h6 h7 h8
  have hst := h.stall (by rw [hs]; rfl)
  rw [he, hd] at hst
  have hst' : e.stallTimer = d.stallTimer := Option.some.inj hst
  exact ⟨h.state.trans hs, h.rx.trans hx, e, he, h1, h2, h3, h7, h8, hst'.trans ht, h6⟩

theorem enterClosing_lane {s : State} {l : LaneId} {c : RunContext} (reason : CloseReason)
    (hc : (s.lane l).run = some c) : Closed (s.lane l) ((s.enterClosing l reason).lane l) c reason := by
  unfold State.enterClosing
  simp only []
  have h0 : (s.modRun l fun c =>
      { c with reason := some reason, armTimer := .stopped, stallTimer := .stopped }).lane l =
      { s.lane l with run := some { c with reason := some reason, armTimer := .stopped, stallTimer := .stopped } } := by
    rw [State.modRun, State.lane_modLane_same, hc]; rfl
  generalize (s.modRun l fun c =>
      { c with reason := some reason, armTimer := .stopped, stallTimer := .stopped }) = s1 at h0
  have hx : Same { s1.lane l with runState := .closing } ((s1.setRunState l .closing).lane l) := by
    rw [State.setRunState, State.lane_modLane_same, enterRunState]
    exact (Same.holdWeighed _ _).trans (Same.statusChanged _)
  rw [h0] at hx
  generalize (s1.setRunState l .closing) = s2 at hx
  obtain ⟨d, hd, hi⟩ := run_of_ident hx (c := { c with reason := some reason, armTimer := .stopped, stallTimer := .stopped }) rfl
  have hst := hx.stall rfl
  rw [hd] at hst
  have hst' : d.stallTimer = .stopped := Option.some.inj hst
  have h3 : (s2.modRun l handCarried).lane l = { s2.lane l with run := some (handCarried d) } := by
    rw [State.modRun, State.lane_modLane_same, hd]; rfl
  have hid : (handCarried d).ident = (closingContext c reason).ident := by
    injection hi with i1 i2 i3 i4 i5 i6 i7 i8
    simp only [RunContext.ident, handCarried, closingContext]
    rw [i1, i2, i3, i4, i5, i6, i7, i8]
  have hs3 : ((s2.modRun l handCarried).lane l).runState = .closing := by rw [h3]; exact hx.state
  have hx3 : ((s2.modRun l handCarried).lane l).rx.core = (s.lane l).rx.core := by rw [h3]; exact hx.rx
  have hr3 : ((s2.modRun l handCarried).lane l).run = some (handCarried d) := by rw [h3]
  split
  · exact Closed.of_same hs3 hx3 hr3 hid hst' (Same.refl _)
  · exact Closed.of_same hs3 hx3 hr3 hid hst' (SameAll.runClosing l closeSteps _ l)

end Sys2Proof.Machine
end

