-- ==== Sys2Proof/WellFormed.lean ====
section
/-! DEFINITION. Which commands are well formed: a downstream frame command carries words that are a frame
of its row.

The machine runs an ill-formed frame command too: a downstream frame is what its words say, whichever row
names it (log 10). -/

namespace Sys2Proof

/-- A downstream frame command's words are a frame of its row; every other command is well formed. -/
def Instr.wellFormed : Instr → Bool
  | .stationFrameInvalid words => Machine.classifyStation words == .invalid
  | .eventCredit words => match Machine.classifyStation words with
    | .eventCredit _ => true
    | _ => false
  | .dataCredit words => match Machine.classifyStation words with
    | .dataCredit _ _ => true
    | _ => false
  | .requestArrival words => match Machine.classifyStation words with
    | .request _ _ _ => true
    | _ => false
  | .sampleFrame _ _ | .laneFrameBreak _ | .silenceTimerExpiry _ | .statusPeriodExpiry _
  | .statusWordComplete _ | .lanePipelineTake _ _ | .lanePipelineResume _ | .armTimerExpiry _
  | .stallTimerExpiry _ | .closingResume _ | .closeHandling _ | .stationFrameBreak | .transmitComplete
  | .tableWrite | .tableRead | .tableCopy | .directorySet | .directoryRead | .commit _ | .laneArm _
  | .laneAbort _ | .laneQuery | .laneClear | .groupEnd _ | .deviceQuery | .deviceReset
  | .unknownRequestKind | .powerOn | .lineResetAssert | .lineResetRelease => true

end Sys2Proof
end

