-- ==== Sys2Proof/Laws/PerInstr.lean ====
section
/-! SUPPORT. One law for every command, one lemma for each constructor. -/

namespace Sys2Proof.Laws.WordFree

open Sys2Proof

/-- The words of a downstream frame command. -/
def stationWords : Instr → Option (List Word)
  | .stationFrameInvalid ws | .eventCredit ws | .dataCredit ws | .requestArrival ws => some ws
  | _ => none

/-- A command that is no downstream frame command is well formed, and a downstream frame command with words is well
formed only when its row is the one its words name. -/
def Statement (i : Instr) : Prop :=
  match stationWords i with
  | none => i.wellFormed = true
  | some ws => i.wellFormed = true →
    match Machine.classifyStation ws with
    | .invalid => i = .stationFrameInvalid ws
    | .eventCredit _ => i = .eventCredit ws
    | .dataCredit _ _ => i = .dataCredit ws
    | .request _ _ _ => i = .requestArrival ws

theorem sampleFrame (lane : LaneId) (words : List Word) : Statement (.sampleFrame lane words) := rfl
theorem laneFrameBreak (lane : LaneId) : Statement (.laneFrameBreak lane) := rfl
theorem silenceTimerExpiry (lane : LaneId) : Statement (.silenceTimerExpiry lane) := rfl
theorem statusPeriodExpiry (lane : LaneId) : Statement (.statusPeriodExpiry lane) := rfl
theorem statusWordComplete (lane : LaneId) : Statement (.statusWordComplete lane) := rfl
theorem lanePipelineTake (lane : LaneId) (evaluatorFirst : Bool) : Statement (.lanePipelineTake lane evaluatorFirst) := rfl
theorem lanePipelineResume (lane : LaneId) : Statement (.lanePipelineResume lane) := rfl
theorem armTimerExpiry (lane : LaneId) : Statement (.armTimerExpiry lane) := rfl
theorem stallTimerExpiry (lane : LaneId) : Statement (.stallTimerExpiry lane) := rfl
theorem closingResume (lane : LaneId) : Statement (.closingResume lane) := rfl
theorem closeHandling (lane : LaneId) : Statement (.closeHandling lane) := rfl
theorem stationFrameBreak : Statement .stationFrameBreak := rfl
theorem stationFrameInvalid (words : List Word) : Statement (.stationFrameInvalid words) := by
  intro h
  cases hc : Machine.classifyStation words <;> simp_all [Instr.wellFormed]
theorem eventCredit (words : List Word) : Statement (.eventCredit words) := by
  intro h
  cases hc : Machine.classifyStation words <;> simp_all [Instr.wellFormed]
theorem dataCredit (words : List Word) : Statement (.dataCredit words) := by
  intro h
  cases hc : Machine.classifyStation words <;> simp_all [Instr.wellFormed]
theorem transmitComplete : Statement .transmitComplete := rfl
theorem requestArrival (words : List Word) : Statement (.requestArrival words) := by
  intro h
  cases hc : Machine.classifyStation words <;> simp_all [Instr.wellFormed]
theorem tableWrite : Statement .tableWrite := rfl
theorem tableRead : Statement .tableRead := rfl
theorem tableCopy : Statement .tableCopy := rfl
theorem directorySet : Statement .directorySet := rfl
theorem directoryRead : Statement .directoryRead := rfl
theorem commit (replyFirst : Bool) : Statement (.commit replyFirst) := rfl
theorem laneArm (replyFirst : Bool) : Statement (.laneArm replyFirst) := rfl
theorem laneAbort (replyFirst : Bool) : Statement (.laneAbort replyFirst) := rfl
theorem laneQuery : Statement .laneQuery := rfl
theorem laneClear : Statement .laneClear := rfl
theorem groupEnd (replyFirst : Bool) : Statement (.groupEnd replyFirst) := rfl
theorem deviceQuery : Statement .deviceQuery := rfl
theorem deviceReset : Statement .deviceReset := rfl
theorem unknownRequestKind : Statement .unknownRequestKind := rfl
theorem powerOn : Statement .powerOn := rfl
theorem lineResetAssert : Statement .lineResetAssert := rfl
theorem lineResetRelease : Statement .lineResetRelease := rfl

end Sys2Proof.Laws.WordFree
end

