-- ==== Sys2Proof/Laws/Waiters.lean ====
section
/-! SUPPORT. What serving and weighing the room waiters can do (R157), said once, and what the commands that weigh them
can do: CLOSE_HANDLING, COMMIT, EVENT_CREDIT and TRANSMIT_COMPLETE. -/

namespace Sys2Proof.Machine

open Sys2Proof

/-! ### One waiter served -/

/-- A record placed by an act that leaves the records there are, where there is room for one more. -/
theorem Calm.placeOption {s t : State} (h : Calm s t) (o : Option EventRecord)
    (hr : s.trunk.events.length + 1 ≤ Config.eventCapacity) : Kept s (t.placeOption o) := by
  cases o with
  | none => exact h.kept
  | some e =>
    exact h.kept.trans (Work.placeRecord e (Nat.le_trans (Nat.add_le_add_right h.events 1) hr)).kept

theorem Kept.servePipeline {s : State} (l : LaneId) (hr : s.trunk.events.length + 1 ≤ Config.eventCapacity) :
    Kept s (s.servePipeline l) := by
  unfold State.servePipeline
  split
  · exact (Calm.leaveWaiters s _).kept
  · split
    · exact (Calm.leaveWaiters s _).kept
    · exact Calm.placeOption
        (((Calm.workItem s l _ _).trans (Calm.setPassage _ l _)).trans (Calm.leaveWaiters _ _)) _ hr

theorem Kept.serveClosing {s : State} (l : LaneId) (hr : s.trunk.events.length + 1 ≤ Config.eventCapacity) :
    Kept s (s.serveClosing l) := by
  unfold State.serveClosing
  split
  · exact Calm.placeOption
      (((Calm.closeStep s l _).trans (Calm.setClosing _ l _)).trans (Calm.leaveWaiters _ _)) _ hr
  · exact (Calm.leaveWaiters s _).kept
  · exact (Calm.leaveWaiters s _).kept

theorem Kept.serveGroup {s : State} (l : LaneId)
    (hr : s.trunk.events.length + s.noticePlaces l ≤ Config.eventCapacity) : Kept s (s.serveGroup l) := by
  unfold State.serveGroup
  unfold State.noticePlaces at hr
  split
  · exact (Calm.leaveWaiters s _).kept
  · rename_i c hc
    rw [hc] at hr
    exact Kept.handleNotice fun _ => hr

theorem Kept.serveTable {s : State} (hr : s.trunk.events.length + s.requestPlaces ≤ Config.eventCapacity)
    (hq : s.trunk.replies.length < Config.replyCapacity) : Kept s s.serveTable := by
  unfold State.serveTable
  unfold State.requestPlaces at hr
  split
  · exact (Calm.leaveWaiters s _).kept
  · rename_i r rs hrq
    rw [hrq] at hr
    simp only [] at hr ⊢
    have h0 : Kept s (s.dropHead.leaveWaiters .table) :=
      (Kept.dropHead s).trans (Calm.leaveWaiters s.dropHead .table).kept
    split
    · rename_i hk
      rw [hk] at hr
      exact h0.trans (Kept.takeCommit false r hq fun _ => hr)
    · rename_i hk
      rw [hk] at hr
      exact h0.trans (Kept.takeArm false r hq fun _ => hr)
    · rename_i hk
      rw [hk] at hr
      exact h0.trans (Kept.takeGroupEnd false r hq fun _ => hr)
    all_goals exact (Calm.leaveWaiters s _).kept

/-- Everything serving a waiter can do. -/
theorem Kept.serveWaiter {s : State} {w : Waiter} (h : s.canServe w = true) : Kept s (s.serveWaiter w) := by
  unfold State.canServe at h
  simp only [Bool.and_eq_true, decide_eq_true_eq, Bool.or_eq_true] at h
  obtain ⟨hr, hq⟩ := h
  cases w with
  | pipeline l => exact Kept.servePipeline l hr
  | closing l => exact Kept.serveClosing l hr
  | group l => exact Kept.serveGroup l hr
  | table =>
    refine Kept.serveTable hr ?_
    rcases hq with hq | hq
    · exact absurd hq (by decide)
    · simpa [State.replyRoom] using hq

/-! ### The list weighed -/

theorem Kept.weighAtMost (n : Nat) : ∀ s : State, Kept s (s.weighAtMost n) := by
  induction n with
  | zero => exact fun s => (Calm.pruneWaiters s).kept
  | succ n ih =>
    intro s
    have hp := (Calm.pruneWaiters s).kept
    unfold State.weighAtMost
    split
    · exact hp
    · split
      · rename_i hs
        exact (hp.trans (Kept.serveWaiter hs)).trans (ih _)
      · exact hp

/-- Everything weighing the waiters can do. -/
theorem Kept.weighWaiters (s : State) : Kept s s.weighWaiters := Kept.weighAtMost _ s

/-! ### The commands that weigh the waiters -/

/-- Everything CLOSE_HANDLING can do. -/
theorem Kept.closeHandling (s : State) (l : LaneId) : Kept s (s.closeHandling l) := by
  unfold State.closeHandling
  split
  · exact Kept.refl s
  · rename_i c _
    split
    · rename_i hr
      refine Kept.trans (Kept.handleNotice fun x => ?_) (Kept.weighWaiters _)
      by_cases hk : (s.closeOutcome l c).1.length = 0
      · rw [hk]; exact x.events
      · exact room_of_roomFor hk hr
    · exact (Calm.joinWaiters s _).kept

/-- Everything an EVENT CREDIT can do. -/
theorem Kept.grantEvent (s : State) (h : Nat) : Kept s (s.grantEvent h) := by
  unfold State.grantEvent
  have h1 : Calm s (s.modTrunk fun t => { t with eventCredit := satTo Config.eventCreditCap (t.eventCredit + h) }) :=
    Calm.modTrunk (Nat.le_refl _) (Nat.le_refl _) fun x => { x with eventCredit := satTo_le _ _ }
  simp only []
  split
  · exact (h1.trans (Calm.arbiterChoice _)).kept.trans (Kept.weighWaiters _)
  · exact h1.kept

/-- Everything a downstream frame end can do. -/
theorem Act.stationFrameEnd (s : State) (words : List Word) : Act s (s.stationFrameEnd words) := by
  unfold State.stationFrameEnd
  split
  · exact Act.countStation s
  · exact Act.requestArrives s _
  · exact Act.grantData s _ _
  · exact (Kept.grantEvent s _).act

/-- Everything TRANSMIT_COMPLETE can do. -/
theorem Kept.transmitComplete (s : State) : Kept s s.transmitComplete := by
  unfold State.transmitComplete
  split
  · exact Kept.refl s
  · have h1 : Calm s (s.modTrunk fun t => { t with tx := .idle }) :=
      Calm.modTrunk (Nat.le_refl _) (Nat.le_refl _) fun x => { x with }
    exact (h1.trans (Calm.arbiterChoice _)).kept.trans (Kept.weighWaiters _)

/-! ### Which acts leave the list alone -/

/-- The act leaves the list of room waiters as it is. -/
def WaitersKept (s t : State) : Prop := t.trunk.waiters = s.trunk.waiters

theorem WaitersKept.refl (s : State) : WaitersKept s s := rfl

theorem WaitersKept.trans {s t u : State} (h : WaitersKept s t) (g : WaitersKept t u) : WaitersKept s u :=
  Eq.trans g h

theorem WaitersKept.weighPressure (s : State) : WaitersKept s s.weighPressure := by
  unfold State.weighPressure
  simp only []
  split <;> rfl

theorem WaitersKept.sendBlock (s : State) (l : LaneId) : WaitersKept s (s.sendBlock l) := by
  unfold State.sendBlock
  split <;> rfl

theorem WaitersKept.arbiterChoice (s : State) : WaitersKept s s.arbiterChoice := by
  have hb : WaitersKept s (match (searchOrder s.trunk.lastServed).find? s.fundable with
      | some l => s.sendBlock l
      | none => s) := by
    split
    · exact WaitersKept.sendBlock s _
    · rfl
  unfold State.arbiterChoice
  split
  · rfl
  · simp only []
    split
    · split
      · exact WaitersKept.weighPressure (s.modTrunk _)
      · exact hb
    · exact hb

theorem WaitersKept.idleChoice (s : State) : WaitersKept s s.idleChoice := by
  unfold State.idleChoice
  split
  · exact WaitersKept.arbiterChoice s
  · rfl

theorem WaitersKept.placeRecord (s : State) (e : EventRecord) : WaitersKept s (s.placeRecord e) :=
  (WaitersKept.weighPressure (s.modTrunk fun t => { t with events := t.events ++ [e] })).trans (WaitersKept.idleChoice _)

theorem WaitersKept.placeRecords (es : List EventRecord) : ∀ s : State, WaitersKept s (s.placeRecords es) := by
  induction es with
  | nil => exact WaitersKept.refl
  | cons e es ih => exact fun s => (WaitersKept.placeRecord s e).trans (ih _)

theorem WaitersKept.placeOption (s : State) (o : Option EventRecord) : WaitersKept s (s.placeOption o) := by
  cases o with
  | none => rfl
  | some e => exact WaitersKept.placeRecord s e

theorem WaitersKept.answerRequest (s : State) (tag : BitVec 16) (a : Answer) : WaitersKept s (s.answerRequest tag a) := by
  unfold State.answerRequest State.placeReply
  exact WaitersKept.idleChoice (s.modTrunk _)

theorem WaitersKept.settleLane (s : State) (l : LaneId) : WaitersKept s (s.settleLane l) := by
  unfold State.settleLane
  simp only []
  split
  · rfl
  · split
    · exact WaitersKept.idleChoice (State.modTrunk _ _)
    · rfl

theorem WaitersKept.weighLanes (ls : List LaneId) : ∀ s : State, WaitersKept s (s.weighLanes ls) := by
  induction ls with
  | nil => exact WaitersKept.refl
  | cons l ls ih =>
    intro s
    refine WaitersKept.trans ?_ (ih _)
    unfold State.weighLane
    split
    · rfl
    · exact WaitersKept.settleLane s l

theorem WaitersKept.closeBlock (s : State) (l : LaneId) : WaitersKept s (s.closeBlock l) := by
  unfold State.closeBlock
  split
  · rfl
  · split
    · rfl
    · unfold State.offerBlock
      simp only []
      split
      · exact WaitersKept.idleChoice (State.modLane _ _ _)
      · rfl

theorem WaitersKept.skipEntry (s : State) (l : LaneId) (q : Int) : WaitersKept s (s.skipEntry l q) :=
  WaitersKept.closeBlock s l

theorem WaitersKept.addEntry (s : State) (l : LaneId) (row : KeepRow) (i : Bool) (x : Nat) (e : DelayEntry) :
    WaitersKept s (s.addEntry l row i x e) := by
  unfold State.addEntry
  simp only []
  split
  · exact WaitersKept.closeBlock (State.modFwd _ _ _) l
  · rfl

theorem WaitersKept.handleEntry (s : State) (l : LaneId) (e : DelayEntry) : WaitersKept s (s.handleEntry l e) := by
  have h1 : WaitersKept s (s.enterGapBefore l e.gapBefore) := by
    unfold State.enterGapBefore
    split
    · rfl
    · exact WaitersKept.closeBlock s l
  have h2 : ∀ t : State, WaitersKept t (t.forwardEntry l (s.keepRow l) e) := by
    intro t
    unfold State.forwardEntry
    split
    · rfl
    · simp only []
      have h3 : ∀ i x, WaitersKept t (if blockDiffers (t.openBlock l) i x then t.closeBlock l else t) := by
        intro i x
        split
        · exact WaitersKept.closeBlock t l
        · rfl
      split
      · exact WaitersKept.trans (h3 _ _) (WaitersKept.skipEntry _ l _)
      · exact WaitersKept.trans (h3 _ _) (WaitersKept.addEntry _ l _ _ _ _)
  unfold State.handleEntry
  simp only []
  show WaitersKept s (if (s.keepRow l).mask = 0 then _ else _)
  split
  · exact h1
  · exact h1.trans (h2 _)

theorem WaitersKept.handleEntries (l : LaneId) (es : List DelayEntry) : ∀ s : State,
    WaitersKept s (s.handleEntries l es) := by
  induction es with
  | nil => exact WaitersKept.refl
  | cons e es ih => exact fun s => (WaitersKept.handleEntry s l e).trans (ih _)

theorem WaitersKept.closeStep (s : State) (l : LaneId) (st : CloseStep) : WaitersKept s (s.closeStep l st).1 := by
  unfold State.closeStep
  split
  · rfl
  · cases st with
    | drain =>
      simp only [State.drainDelay]
      split
      · exact WaitersKept.handleEntries l _ (State.modLane _ _ _)
      · exact WaitersKept.handleEntries l _ (State.modLane _ _ _)
    | finalBlock => exact WaitersKept.closeBlock s l
    | _ => rfl

theorem WaitersKept.workItem (s : State) (l : LaneId) (f : Frame) (i : WorkItem) :
    WaitersKept s (s.workItem l f i).1 := by
  unfold State.workItem
  split <;> rfl

theorem WaitersKept.commitKinds (s : State) (mask : Nat) : WaitersKept s (s.commitKinds mask) := by
  unfold State.commitKinds
  simp only []
  have h : WaitersKept s (if maskHas mask .lane = true then
      (s.modTables (flipKinds mask)).weighLanes (List.finRange 8) else s.modTables (flipKinds mask)) := by
    split
    · exact WaitersKept.weighLanes _ (s.modTables _)
    · rfl
  split
  · exact h.trans (WaitersKept.placeRecords _ _)
  · exact h

theorem WaitersKept.admitRun (s : State) (p : ArmPlan) : WaitersKept s (s.admitRun p) := by
  have h : ∀ (t u : State) (g : Group) (e : EventRecord), WaitersKept t u →
      WaitersKept t (((u.setGroup p.lane g).placeRecord e).setRunState p.lane .armed) := fun t u g e hu =>
    hu.trans (WaitersKept.placeRecord (u.setGroup p.lane g) e)
  unfold State.admitRun
  simp only []
  split
  · exact h s _ _ _ rfl
  · exact h s _ _ _ (WaitersKept.idleChoice (State.modLane _ _ _))

theorem WaitersKept.actAndAnswer (s : State) (b : Bool) (tag : BitVec 16) (a : Answer) {act : State → State}
    (h : ∀ t, WaitersKept t (act t)) : WaitersKept s (s.actAndAnswer b tag a act) := by
  unfold State.actAndAnswer
  split
  · exact (WaitersKept.answerRequest s tag a).trans (h _)
  · exact (h s).trans (WaitersKept.answerRequest _ tag a)

theorem WaitersKept.takeCommit (s : State) (b : Bool) (r : Request) : WaitersKept s (s.takeCommit b r) := by
  unfold State.takeCommit
  simp only []
  split
  · exact WaitersKept.answerRequest s _ _
  · split
    · exact WaitersKept.answerRequest s _ _
    · split
      · exact WaitersKept.answerRequest s _ _
      · exact WaitersKept.actAndAnswer s b _ _ fun t => WaitersKept.commitKinds t _

theorem WaitersKept.takeArm (s : State) (b : Bool) (r : Request) : WaitersKept s (s.takeArm b r) := by
  unfold State.takeArm
  split
  · exact WaitersKept.answerRequest s _ _
  · exact WaitersKept.actAndAnswer s b _ _ fun t => WaitersKept.admitRun t _

theorem WaitersKept.takeGroupEnd (s : State) (b : Bool) (r : Request) : WaitersKept s (s.takeGroupEnd b r) := by
  unfold State.takeGroupEnd
  split
  · exact WaitersKept.answerRequest s _ _
  · simp only []
    split
    · exact WaitersKept.answerRequest s _ _
    · split
      · exact WaitersKept.actAndAnswer s b _ _ fun t => WaitersKept.placeRecord t _
      · exact WaitersKept.answerRequest s _ _

/-! ### What weighing does, step by step -/

/-- A waiter that is served leaves the list; the others keep their places. -/
theorem waiters_serveWaiter (s : State) (w : Waiter) :
    (s.serveWaiter w).trunk.waiters = s.trunk.waiters.filter (· != w) := by
  cases w with
  | pipeline l =>
    simp only [State.serveWaiter, State.servePipeline]
    split
    · rfl
    · split
      · rfl
      · rename_i p _ _ item rest _
        have h : ((s.workItem l p.frame item).1.setPassage l (some rest)).trunk.waiters = s.trunk.waiters :=
          WaitersKept.workItem s l p.frame item
        exact Eq.trans (WaitersKept.placeOption _ _) (congrArg (List.filter (· != Waiter.pipeline l)) h)
  | closing l =>
    simp only [State.serveWaiter, State.serveClosing]
    split
    · rename_i step rest _
      have h : ((s.closeStep l step).1.setClosing l (some rest)).trunk.waiters = s.trunk.waiters :=
        WaitersKept.closeStep s l step
      exact Eq.trans (WaitersKept.placeOption _ _) (congrArg (List.filter (· != Waiter.closing l)) h)
    · rfl
    · rfl
  | group l =>
    simp only [State.serveWaiter, State.serveGroup]
    split
    · rfl
    · unfold State.handleNotice
      exact Eq.trans (WaitersKept.settleLane _ l) (WaitersKept.placeRecords _ (s.leaveWaiters (.group l)))
  | table =>
    simp only [State.serveWaiter, State.serveTable]
    split
    · rfl
    · split
      · exact WaitersKept.takeCommit (s.dropHead.leaveWaiters .table) _ _
      · exact WaitersKept.takeArm (s.dropHead.leaveWaiters .table) _ _
      · exact WaitersKept.takeGroupEnd (s.dropHead.leaveWaiters .table) _ _
      all_goals rfl

theorem length_serveWaiter {s : State} {w : Waiter} {rest : List Waiter} (h : s.trunk.waiters = w :: rest) :
    (s.serveWaiter w).trunk.waiters.length < s.trunk.waiters.length := by
  rw [waiters_serveWaiter, h, List.filter_cons]
  simp only [bne_self_eq_false, Bool.false_eq_true, if_false, List.length_cons]
  exact Nat.lt_succ_of_le (List.length_filter_le _ _)

theorem length_pruneWaiters (s : State) : s.pruneWaiters.trunk.waiters.length ≤ s.trunk.waiters.length :=
  List.length_filter_le _ _

/-- Weighing needs no more rounds than there are waiters. -/
theorem weighAtMost_enough : ∀ (n : Nat) (s : State), s.trunk.waiters.length ≤ n → s.weighAtMost n = s.weighWaiters := by
  intro n
  induction n using Nat.strongRecOn with
  | _ n ih =>
    intro s hn
    by_cases he : s.trunk.waiters.length = n
    · rw [← he]; rfl
    · have hlt : s.trunk.waiters.length < n := Nat.lt_of_le_of_ne hn he
      obtain ⟨m, rfl⟩ : ∃ m, n = m + 1 := ⟨n - 1, by omega⟩
      have hp := length_pruneWaiters s
      unfold State.weighWaiters
      cases hw : s.trunk.waiters.length with
      | zero =>
        rw [hw] at hp
        have hnil : s.pruneWaiters.trunk.waiters = [] := List.length_eq_zero_iff.mp (Nat.le_zero.mp hp)
        unfold State.weighAtMost
        rw [hnil]
      | succ k =>
        unfold State.weighAtMost
        split
        · rfl
        · rename_i w rest hl
          have hs := length_serveWaiter hl
          split
          · rw [ih m (Nat.lt_succ_self m) _ (by omega), ih k (by omega) _ (by omega)]
          · rfl

/-- With no waiter that needs a place, weighing leaves the list without one. -/
theorem weighWaiters_none {s : State} (h : s.pruneWaiters.trunk.waiters = []) : s.weighWaiters = s.pruneWaiters := by
  unfold State.weighWaiters
  cases s.trunk.waiters.length with
  | zero => rfl
  | succ n =>
    unfold State.weighAtMost
    rw [h]

/-- The first waiter that needs a place is served when it can be, and the list is weighed again; otherwise the list
waits. -/
theorem weighWaiters_first {s : State} {w : Waiter} {rest : List Waiter} (h : s.pruneWaiters.trunk.waiters = w :: rest) :
    s.weighWaiters =
      if s.pruneWaiters.canServe w then (s.pruneWaiters.serveWaiter w).weighWaiters else s.pruneWaiters := by
  have hp := length_pruneWaiters s
  have hs := length_serveWaiter h
  show s.weighAtMost s.trunk.waiters.length = _
  cases hn : s.trunk.waiters.length with
  | zero =>
    rw [hn, h] at hp
    cases hp
  | succ n =>
    unfold State.weighAtMost
    rw [h]
    simp only []
    split
    · exact weighAtMost_enough n _ (by omega)
    · rfl

end Sys2Proof.Machine
end

