-- ==== Sys2Proof/Tests/Slice0.lean ====
section
/-! SUPPORT. The model's own tests: ill-formed commands, worked examples of the manual, one small test for the command
families, and for every statement that has hypotheses a state that meets them (test_witness_…). -/

namespace Sys2Proof.Tests

set_option Elab.async false

open Sys2Proof Sys2Proof.Machine

/-! ### Small states -/

/-- The outcome's state, when it is a next state. -/
def after : Host.Outcome State Fault Refusal → Option State
  | .next t => some t
  | _ => none

/-- A frame with a good 16-bit check word. -/
def checked16 (body : List Word) : List Word := body ++ [(crc16 body).setWidth 32]

/-- A frame with a good 32-bit check word. -/
def checked32 (body : List Word) : List Word := body ++ [crc32 body]

/-- A sample frame of two slots with a sequence number. -/
def sample (sequence : Nat) : List Word :=
  checked16 [BitVec.ofNat 32 (sequence * 65536 + 2), 700, 0, 0x00100020, 0x00300040]

/-- A table manager with one zone, one profile of two landmarks, an enabled LANE row 3 of two slots, and two MIX
copies of four rows. -/
def rowTables : Tables :=
  { Tables.powerOn with
    mem := [(0, 65546), (1, 65546), (101, 33554432)]
      ++ [(448, 513), (449, 65536), (450, 131071), (451, 4294967295), (452, 4294967295), (453, 4294967295)]
      ++ [(454, 6553600), (455, 5130), (456, 50), (457, 262146)]
    kinds := vtab 8 fun k =>
      { KindState.powerOn with
        copy0 := if k = 0 then ⟨0, 1⟩ else if k = 1 then ⟨100, 1⟩ else if k = 2 then ⟨400, 8⟩
          else if k = 4 then ⟨600, 4⟩ else ⟨0, 0⟩
        copy1 := if k = 4 then ⟨700, 4⟩ else ⟨0, 0⟩ } }

/-- Lane 3 is IDLE with its link UP. -/
def idleLane : State :=
  { State.reset with tables := rowTables }.modLane 3 fun ln =>
    { ln with rx := { ln.rx with link := .up, silence := some 0 }, runState := .idle }

/-- Lane 3's arm plan. -/
def plan (kind : RunKind) : ArmPlan := ⟨3, kind, if kind = .production then some (5, 6) else none, 0, 9⟩

/-- A run context of lane 3. -/
def someRun : RunContext := idleLane.newRun (plan .production)

/-- Lane 3 in a run state with a run context. -/
def running (st : RunState) (c : RunContext) : State :=
  idleLane.modLane 3 fun ln => { ln with runState := st, run := some c }

/-- The transmitter is SENDING. -/
def busy (s : State) : State := s.modTrunk fun t => { t with tx := .sending [] }

/-- One request waits in the request queue. -/
def asking (kind : Nat) (body : List Word) (s : State) : State :=
  s.modTables fun t => { t with requests := [⟨5, kind, body⟩] }

/-- The request `asking` puts at the head. -/
def request (kind : Nat) (body : List Word) : Request := ⟨5, kind, body⟩

/-- A record that fills an EVENT queue. -/
def someRecord : EventRecord := .groupOpen 3 1 1 0 0

/-- The EVENT queue holds n records. -/
def eventsHeld (n : Nat) (s : State) : State := s.modTrunk fun t => { t with events := List.replicate n someRecord }

/-- The REPLY queue holds n replies. -/
def repliesHeld (n : Nat) (s : State) : State :=
  s.modTrunk fun t => { t with replies := List.replicate n ⟨0, .ok, false, []⟩ }

/-- An ingress entry of two slots. -/
def entryAt (travel : Nat) (dir : Dir) (fault : Bool) : FifoEntry :=
  ⟨7, BitVec.ofNat 32 travel, dir, fault, [⟨100, 0, false⟩, ⟨0, 0, false⟩], 0⟩

/-- The ingress FIFO of lane 3 holds one entry. -/
def offered (e : FifoEntry) (s : State) : State := s.modRx 3 fun rx => { rx with fifo := [e] }

/-- The run of lane 3 with its tracker at a travel count and a raw position. -/
def runAt (travel : Nat) (raw : Int) : RunContext :=
  { someRun with tracker :=
    { someRun.tracker with travelRef := some (BitVec.ofNat 32 travel), raw := raw, lowWater := some raw } }

/-- A NORMAL frame of the pull without channels. -/
def someFrame (exits : Bool) : Frame := ⟨.normal, .pulling, 10, 10, 0, true, 10, 0, [], exits⟩

theorem test_wellFormed_refuses_wrong_rows :
    (Instr.stationFrameInvalid (checked32 [0x02000000, 0x01000005, 0])).wellFormed = false
    ∧ (Instr.eventCredit (checked32 [0x02000000, 0x00000005, 7])).wellFormed = false
    ∧ (Instr.dataCredit (checked32 [0x02000000, 0x01000005, 7])).wellFormed = false
    ∧ (Instr.requestArrival [0x01000000, 0x00050009]).wellFormed = false := by decide +kernel

theorem test_wellFormed_accepts_right_rows :
    (Instr.stationFrameInvalid []).wellFormed = true
    ∧ (Instr.eventCredit (checked32 [0x02000000, 0x01000005, 0])).wellFormed = true
    ∧ (Instr.dataCredit (checked32 [0x02000000, 0x00000005, 7])).wellFormed = true
    ∧ (Instr.requestArrival (checked32 [0x01000000, 0x00050009, 0x03000000])).wellFormed = true := by decide +kernel

/-! ### Worked examples of the manual -/

/-- The tracker of spec/02's first example after frames a to d. -/
theorem test_remainder_example :
    let t0 := someRun.tracker
    let ta := advanceTravel 0xA000 (entryAt 700000 .push false) t0
    let tb := advanceTravel 0xA000 (entryAt 700003 .push false) ta
    let tc := advanceTravel 0xA000 (entryAt 700008 .push false) tb
    let td := advanceTravel 0xA000 (entryAt 700010 .pull false) tc
    [(ta.raw, ta.remainder), (tb.raw, tb.remainder), (tc.raw, tc.remainder), (td.raw, td.remainder)]
      = [(0, 0), (1, 57344), (5, 0), (4, 16384)] := by decide +kernel

/-- spec/02's second example, frames 1 to 4 and 7: the classes and the low-water mark. -/
theorem test_pull_example :
    let t : Tracker := { someRun.tracker with raw := 140, lowWater := some 140, stamped := some 50 }
    pullClass .time false (entryAt 0 .pull false) t = .normal
    ∧ (pullFields .time false .normal t).still = true
    ∧ pullClass .time false (entryAt 0 .pull false) { t with still := true } = .stationary
    ∧ pullClass .time true (entryAt 0 .push false) { t with raw := 152, still := true } = .backtrack
    ∧ exitTest { laneRowOf [] with exitMargin := 50 } .normal t = false
    ∧ exitTest { laneRowOf [] with exitMargin := 50 } .normal { t with raw := 44, stamped := some (-66) } = true := by
  decide +kernel

/-- spec/05's example: channel 5 and mix channel 16 of one frame. -/
theorem test_conditioning_example :
    mappedChannel ⟨640, 300, ⟨120, -40⟩, 3⟩ ⟨120, -40⟩ ⟨1320, 460, false⟩ = ⟨true, 1972, 2582, false, 3248, 526⟩
    ∧ mixChannel ⟨true, 5, 9, 4096, -819, 819, 4096⟩ ⟨true, 1972, 2582, false, 3248, 526⟩ ⟨true, 1500, 2100, false, 0, 0⟩
      = ⟨true, 892, 183, false, 910, 116⟩ := by decide +kernel

/-- spec/09's example: the grant over three lanes. -/
theorem test_grant_example :
    let floors : LaneId → Credit := fun l => if l = 0 then ⟨4, 320⟩ else if l = 3 then ⟨2, 160⟩
      else if l = 5 then ⟨4, 400⟩ else ⟨0, 0⟩
    let d := distribute floors (List.finRange 8) ((Vector.replicate 8 (Credit.mk 0 0)).set 3 ⟨2, 160⟩) ⟨12, 1500⟩
    d.2 = ⟨4, 780⟩ ∧ d.1[0] = ⟨4, 320⟩ ∧ d.1[3] = ⟨2, 160⟩ ∧ d.1[5] = ⟨4, 400⟩ := by decide +kernel

/-- spec/08's example: the effective exponents and a level-4 stretch that widens an interval. -/
theorem test_degrade_example :
    let row : KeepRow := ⟨15, true, 1, 0, 0, 0, []⟩
    (List.range 5).map (effectiveExponent row false) = [some 1, some 2, some 3, some 4, none]
    ∧ (List.range 5).map (effectiveExponent row true) = [some 0, some 0, some 0, some 1, some 2]
    ∧ (gapEnter (stretchOf 60990 60985) (gapEnter (stretchOf 61240 60990) someRun.forwarder)).gaps
      = [⟨61240, 60985⟩] := by decide +kernel

/-- spec/01's example: hold between its levels. -/
theorem test_hold_example :
    holdAfter .pulling 2 true false = true ∧ holdAfter .pulling 40 false true = true
    ∧ holdAfter .pulling 16 false true = false := by decide

/-! ### One small test for each family of commands -/

/-- Three continuous frames bring the link UP, and an enabled lane becomes IDLE. -/
theorem test_link_comes_up :
    let s0 : State := { State.reset with tables := rowTables }
    let s2 := (s0.sampleFrameEnd 3 (sample 1)).sampleFrameEnd 3 (sample 2)
    (s2.lane 3).rx.link = .down
    ∧ (after (exec (.sampleFrame 3 (sample 3)) s2)).map (fun t => ((t.lane 3).rx.link, (t.lane 3).runState))
      = some (.up, .idle) := by decide +kernel

/-- A LANE ARM of a STANDARD run on an IDLE lane is admitted, answered OK with its serial, and recorded. -/
theorem test_arm_admitted :
    (after (exec (.laneArm false) (busy (asking 7 [0x03020000, 0] idleLane)))).map (fun t =>
      ((t.lane 3).runState, t.trunk.replies, t.trunk.events.length, t.tables.serial))
      = some (.armed, [⟨5, .ok, false, [1, 1]⟩], 1, some 2) := by decide +kernel

/-- A moving PULL frame in ARMED closes the run, whose RUN CLOSE is placed and whose notice waits. -/
theorem test_wrong_direction_closes :
    let t := (after (exec (.lanePipelineTake 3 false)
      (busy (offered (entryAt 13 .pull false) (running .armed (runAt 10 0)))))).getD State.reset
    (t.lane 3).runState = .closing ∧ ((t.lane 3).run.bind (·.reason)) = some .wrongDirection
    ∧ ((t.lane 3).run.bind (·.closing)) = some [] ∧ t.trunk.events.length = 1 := by decide +kernel

/-- A reversal frame of class FAULT short of both landmarks, with the EVENT queue full: its NOT_REACHED records wait, and
its loss is reported all the same (R81, R93). -/
theorem test_loss_report_does_not_wait :
    let t := (after (exec (.lanePipelineTake 3 false)
      (busy (eventsHeld 64 (offered (entryAt 13 .pull true) (running .inserting (runAt 10 (-5)))))))).getD State.reset
    ((t.lane 3).passage.map fun p => p.first.length) = some 3
    ∧ ((t.lane 3).run.map fun c => (c.forwarder.framesLost, c.heldLoss.isSome)) = some (1, true)
    ∧ t.trunk.waiters = [.pipeline 3] := by decide +kernel

/-- The notice handled, the lane is IDLE again. -/
theorem test_close_handled :
    (after (exec (.closeHandling 3) (running .closing { someRun with reason := some .aborted, closing := some [] }))).map
      (fun t => ((t.lane 3).runState, (t.lane 3).run)) = some (.idle, none) := by decide +kernel

/-- One row of MIX written in one part with the last-part flag, and the kind committed. -/
theorem test_write_and_commit :
    let row : List Word := [1, 0x0102, 0x10000000, 0x00001000]
    let wrote := (after (exec .tableWrite (busy (asking 1 (0x04840001 :: row) idleLane)))).getD State.reset
    (wrote.tables.row .mix true 1 = row ∧ wrote.trunk.replies = [⟨5, .ok, false, []⟩])
    ∧ (after (exec (.commit false) (asking 6 [0x10] wrote))).map (fun t =>
        (t.tables.currentRow .mix 1, (t.tables.kind .mix).current, (t.tables.kind .mix).generation))
      = some (row, true, 1) := by decide +kernel

/-- No word spells a command (log 26). -/
theorem test_no_word_spells_a_command : State.reset.withFetchWord 32 0 = State.reset := by decide +kernel

/-! ### States that meet the hypotheses of the statements -/

theorem witness_headIs (k : Nat) (body : List Word) (s : State) (kind : RequestKind) (hl : s.resetLine = false)
    (hk : requestKindOf k = kind) : (asking k body s).headIs kind (request k body) := ⟨hl, rfl, hk⟩

theorem witness_serves (k : Nat) (body : List Word) (s : State) (kind : RequestKind) (hl : s.resetLine = false)
    (hk : requestKindOf k = kind) (hr : s.trunk.replies.length < 16) :
    (asking k body s).serves kind (request k body) := ⟨witness_headIs k body s kind hl hk, hr⟩

theorem test_witness_StepRunsFront :
    (({ State.reset with pending := [.deviceQuery] } : State).pending = Instr.deviceQuery :: []) := rfl

theorem test_witness_EmptyQueueLetsTimePass :
    State.reset.pending = [] ∧ State.reset.resetLine = false
    ∧ ({ State.reset with resetLine := true } : State).pending = [] := ⟨rfl, rfl, rfl⟩

theorem test_witness_line :
    State.reset.resetLine = false ∧ ({ State.reset with resetLine := true } : State).resetLine = true
    ∧ Instr.deviceQuery ≠ .powerOn ∧ Instr.deviceQuery ≠ .lineResetAssert ∧ Instr.deviceQuery ≠ .lineResetRelease := by
  decide +kernel

theorem test_witness_DeviceResetDone :
    (asking 13 [] State.reset).headIs .deviceReset (request 13 [])
    ∧ (asking 13 [0] State.reset).serves .deviceReset (request 13 [0]) ∧ (request 13 [0]).body ≠ [] :=
  ⟨witness_headIs _ _ _ _ rfl rfl, witness_serves _ _ _ _ rfl rfl (by decide), by decide⟩

theorem test_witness_resets :
    (∃ t, State.reset.resetsTo t) ∧ (∃ t, ({ State.reset with resetLine := true } : State).resetsTo t)
    ∧ (∃ t, (asking 13 [] State.reset).resetsTo t) :=
  ⟨⟨_, .inl ⟨rfl, rfl⟩⟩, ⟨_, .inr (.inl ⟨rfl, rfl⟩)⟩,
   ⟨_, .inr (.inr ⟨request 13 [], witness_headIs _ _ _ _ rfl rfl, rfl, rfl⟩)⟩⟩

theorem test_witness_BadFramesCounted_check :
    crc16 [0x00010002, 700] ≠ (0 : Word).setWidth 16 ∧ idleLane.resetLine = false := by decide +kernel

theorem test_witness_BadFramesCounted_format :
    let good := fun body : List Word => crc16 body = (((crc16 body).setWidth 32 : Word)).setWidth 16
    (good [0x00010000, 0, 0, 0] ∧ bits (0x00010000 : Word) 4 0 = 0)
    ∧ (good [0x00010011, 0, 0] ∧ 16 < bits (0x00010011 : Word) 4 0)
    ∧ (good [0x00010002, 0, 0] ∧ ([0x00010002, 0, 0, 0] : List Word).length ≠ 4 + bits (0x00010002 : Word) 4 0)
    ∧ (good [0x00010001, 0, 0, 0] ∧ (idleLane.laneRow 3).enabled = true ∧ (idleLane.laneRow 3).slotCount ≠ 1) := by
  decide +kernel

/-- Lane 3 with a previous sequence and n ingress entries, its link as given. -/
def receiving (link : Link) (previous : Option (BitVec 16)) (n q : Nat) : State :=
  idleLane.modRx 3 fun rx =>
    { rx with
      link := link, previous := previous, qualifying := q, fifo := List.replicate n (entryAt 0 .push false) }

theorem test_witness_SequenceChecked :
    (receiving .up none 63 0).accepts 3 (sample 8)
    ∧ (∀ p : BitVec 16, p ∈ [7, 6, 65516, 8, 65515, 9] → (receiving .up (some p) 0 0).accepts 3 (sample 65532))
    ∧ ([65531, 65530, 32764, 65532, 32763, 65533] : List (BitVec 16)).map (fun p => (sampleSequence (sample 65532) - p).toNat)
      = [1, 2, 32768, 0, 32769, 65535] := by
  refine ⟨⟨by decide +kernel, by decide +kernel⟩, fun p _ => ⟨by decide +kernel, ?_⟩, by decide +kernel⟩
  show formatOk (idleLane.laneRow 3) (sample 65532) = true
  decide +kernel

theorem test_witness_AcceptedFramesPlaced :
    (receiving .up (some 7) 63 0).accepts 3 (sample 8) ∧ (receiving .up (some 7) 64 0).accepts 3 (sample 8)
    ∧ (receiving .down (some 7) 0 1).accepts 3 (sample 8) ∧ (receiving .down (some 7) 0 2).accepts 3 (sample 8)
    ∧ isDiscontinuity (sequenceClass (some 7) (sampleSequence (sample 8))) = false :=
  ⟨⟨by decide +kernel, by decide +kernel⟩, ⟨by decide +kernel, by decide +kernel⟩,
   ⟨by decide +kernel, by decide +kernel⟩, ⟨by decide +kernel, by decide +kernel⟩, by decide +kernel⟩

theorem test_witness_LaneWeighed :
    ((running .armed someRun).lane 3).run.isSome = true
    ∧ (let s := busy (idleLane.modRx 3 fun rx => { rx with link := .down })
       (s.lane 3).run = none ∧ (s.lane 3).runState = .idle ∧ ((s.weighLane 3).lane 3).runState = .offline
       ∧ s.trunk.isSending) :=
  ⟨rfl, by decide +kernel, by decide +kernel, by decide +kernel, ⟨[], rfl⟩⟩

/-- Lane 3's silence timer at ms. -/
def silent (ms : Nat) (s : State) : State := s.modRx 3 fun rx => { rx with silence := some ms }

theorem test_witness_SilenceTakesLinkDown :
    (((silent 50 idleLane).lane 3).rx.link = .up ∧ ((silent 50 idleLane).lane 3).rx.silence = some 50
      ∧ ((silent 50 idleLane).lane 3).run = none ∧ ((silent 50 idleLane).lane 3).contextRight)
    ∧ (((silent 50 (running .armed someRun)).lane 3).run = some someRun
      ∧ isActive ((silent 50 (running .armed someRun)).lane 3).runState = true)
    ∧ (((silent 50 (running .closing someRun)).lane 3).run = some someRun
      ∧ ((silent 50 (running .closing someRun)).lane 3).runState = .closing)
    ∧ ((silent 49 idleLane).lane 3).rx.silence = some 49 ∧ (State.reset.lane 3).rx.link = .down :=
  ⟨⟨by decide +kernel, by decide +kernel, by decide +kernel, by unfold Lane.contextRight; decide +kernel⟩,
   ⟨rfl, by decide +kernel⟩, ⟨rfl, rfl⟩, by decide +kernel, by decide +kernel⟩

theorem test_witness_StatusWordSent :
    let at' := fun (ms : Nat) (tx : Option Word) (p : Bool) =>
      (State.reset.modRx 3 fun rx => { rx with statusTimer := ms, statusTx := tx, statusPending := p }).lane 3
    (at' 99 none false).rx.statusTimer < 100
    ∧ (100 ≤ (at' 100 none false).rx.statusTimer ∧ (at' 100 none false).rx.statusTx = none)
    ∧ (100 ≤ (at' 100 (some 0) true).rx.statusTimer ∧ (at' 100 (some 0) true).rx.statusTx = some 0
      ∧ (at' 100 (some 0) true).rx.statusPending = true)
    ∧ (at' 0 (some 0) false).rx.statusPending = false := by decide +kernel

theorem test_witness_HoldAndStallTimer :
    (holdAfter .inserting 48 false false, holdAfter .pulling 0 true false, holdAfter .pulling 16 false true,
      holdAfter .pulling 17 false true, holdAfter .inserting 47 false false, holdAfter .armed 48 true true)
      = (true, true, false, true, false, false)
    ∧ ((running .armed someRun).lane 3).run = some someRun := ⟨by decide, rfl⟩

theorem test_witness_HoldAndStallTimer_change :
    let ln := fun (st : RunState) (tx : Option Word) =>
      { idleLane.lane 3 with runState := st, rx := { (idleLane.lane 3).rx with statusTx := tx } }
    holdAfter .pulling (ln .pulling none).rx.fifo.length true (ln .pulling none).rx.hold ≠ (ln .pulling none).rx.hold
    ∧ holdAfter .idle (ln .idle none).rx.fifo.length true (ln .idle none).rx.hold = (ln .idle none).rx.hold
    ∧ (ln .pulling none).rx.statusTx = none ∧ (ln .pulling (some 0)).rx.statusTx = some 0 := by decide +kernel

theorem test_witness_OtherLanesUntouched :
    ∃ t, exec (.laneFrameBreak 3) idleLane = .next t ∧ (4 : LaneId) ≠ 3 := ⟨_, rfl, by decide⟩

theorem test_witness_TravelAndStamp :
    (5 : Int) ≠ someRun.tracker.applied ∧ (0 : Int) = someRun.tracker.applied := by decide +kernel

theorem test_witness_LossCarried :
    let t : Tracker := { someRun.tracker with stamped := some 50 }
    t.stamped = some 50 ∧ FrameClass.normal ≠ .backtrack
    ∧ ({ someFrame false with cls := .backtrack } : Frame).cls = .backtrack
    ∧ ((someFrame false).cls = .normal ∧ (someFrame false).lost = 0 ∧ someRun.heldLoss = none)
    ∧ (let c : RunContext := { someRun with heldLoss := some ⟨65535, 5, 9⟩ }
       c.heldLoss = some ⟨65535, 5, 9⟩ ∧ ({ someFrame false with cls := .fault } : Frame).cls = .fault
       ∧ (doneAtOnce (fun _ => standardRowOf []) { someFrame false with cls := .fault, lost := 1 } c).heldLoss
         = some ⟨65535, 5, 10⟩)
    ∧ ((running .pulling someRun).lane 3).run = some someRun := by decide +kernel

theorem test_witness_PullClassified :
    let t := fun (raw : Int) (still : Bool) =>
      { someRun.tracker with raw := raw, lowWater := some 140, still := still, stamped := some (-50) }
    ((140 : Int) < (t 141 false).raw ∧ (t 140 true).raw ≤ 140)
    ∧ pullClass .time false (entryAt 0 .pull false) (t 140 false) = .normal
    ∧ pullClass .time false (entryAt 0 .pull false) (t 140 true) = .stationary
    ∧ pullClass .time true (entryAt 0 .pull true) (t 140 true) = .fault
    ∧ exitTest { laneRowOf [] with exitMargin := 50 } .normal (t 140 true) = true := by decide +kernel

theorem test_witness_TakeDropsOutsideRun :
    ((offered (entryAt 1 .push false) idleLane).lane 3).passage = none
    ∧ ((offered (entryAt 1 .push false) idleLane).lane 3).rx.fifo = [entryAt 1 .push false]
    ∧ ((offered (entryAt 1 .push false) idleLane).lane 3).runState = .idle
    ∧ (idleLane.lane 3).rx.fifo = []
    ∧ ((idleLane.setPassage 3 (some ⟨someFrame false, [], []⟩)).lane 3).passage.isSome = true := by decide +kernel

/-- Lane 3 about to take an entry. -/
theorem witness_taking (st : RunState) (c : RunContext) (e : FifoEntry) :
    (offered e (running st c)).taking 3 st c e := ⟨rfl, rfl, rfl, rfl, rfl⟩

theorem witness_moves (raw : Int) (dir : Dir) (fault : Bool) : moves (runAt 10 raw) (entryAt 13 dir fault) :=
  ⟨10, rfl, (by decide : BitVec.ofNat 32 13 ≠ (10 : BitVec 32))⟩

theorem test_witness_ArmedFramesTaken :
    ((offered (entryAt 13 .push false) (running .armed someRun)).taking 3 .armed someRun (entryAt 13 .push false)
      ∧ ¬ moves someRun (entryAt 13 .push false))
    ∧ ((offered (entryAt 13 .push false) (running .armed (runAt 10 0))).taking 3 .armed (runAt 10 0) (entryAt 13 .push false)
      ∧ moves (runAt 10 0) (entryAt 13 .push false))
    ∧ ((offered (entryAt 13 .pull false) (running .armed (runAt 10 0))).taking 3 .armed (runAt 10 0) (entryAt 13 .pull false)
      ∧ moves (runAt 10 0) (entryAt 13 .pull false)) :=
  ⟨⟨witness_taking _ _ _, fun ⟨_, h, _⟩ => by cases (show (none : Option (BitVec 32)) = some _ from h)⟩,
   ⟨witness_taking _ _ _, witness_moves _ _ _⟩, ⟨witness_taking _ _ _, witness_moves _ _ _⟩⟩

theorem test_witness_InsertingFramesTaken :
    ((offered (entryAt 13 .push true) (running .inserting (runAt 10 0))).taking 3 .inserting (runAt 10 0) (entryAt 13 .push true)
      ∧ ¬ (moves (runAt 10 0) (entryAt 13 .push true) ∧ (entryAt 13 .push true).direction = .pull))
    ∧ (let s := offered (entryAt 13 .pull false) (running .inserting (runAt 10 0))
       s.taking 3 .inserting (runAt 10 0) (entryAt 13 .pull false) ∧ moves (runAt 10 0) (entryAt 13 .pull false)
       ∧ -(s.laneRow 3).exitMargin < stampedPos (s.tracked 3 (runAt 10 0) (entryAt 13 .pull false))) :=
  ⟨⟨witness_taking _ _ _, fun h => by cases h.2⟩, witness_taking _ _ _, witness_moves _ _ _, by decide +kernel⟩

theorem test_witness_PullingFrameHandedOn :
    let s := offered (entryAt 13 .pull false) (running .pulling (runAt 10 0))
    s.taking 3 .pulling (runAt 10 0) (entryAt 13 .pull false)
    ∧ exitTest (s.laneRow 3) .normal (s.tracked 3 (runAt 10 0) (entryAt 13 .pull false)) = false :=
  ⟨witness_taking _ _ _, by decide +kernel⟩

theorem test_witness_PassageEnds :
    ((running .pulling someRun).lane 3).run = some someRun ∧ ((running .pulling someRun).lane 3).runState = .pulling
    ∧ (someFrame true).exits = true ∧ (someFrame false).exits = false ∧ (someFrame false).cls = .normal
    ∧ ((running .pulling someRun).lane 3).delay.length < 512
    ∧ ((running .inserting someRun).lane 3).runState = .inserting
    ∧ ((running .closing someRun).lane 3).runState = .closing
    ∧ (let entry : DelayEntry := ⟨5, .pulling, [], none⟩
       let full := (running .pulling someRun).modLane 3 fun ln => { ln with delay := entry :: List.replicate 511 entry }
       (full.lane 3).delay = entry :: List.replicate 511 entry ∧ 511 ≤ (List.replicate 511 entry).length) :=
  ⟨rfl, rfl, rfl, rfl, rfl, by decide +kernel, rfl, rfl, rfl, Nat.le_of_eq List.length_replicate.symm⟩

/-- Lane 3 waits with a frame at a NOT_REACHED record, a second record and a rule to come. -/
def waiting : State :=
  (running .pulling someRun).setPassage 3 (some ⟨someFrame false, [.notReached 1, .notReached 0], [.rule 0]⟩)

theorem test_witness_PipelineResumes :
    (waiting.lane 3).passage = some ⟨someFrame false, [.notReached 1, .notReached 0], [.rule 0]⟩
    ∧ ((waiting.setPassage 3 none).workItem 3 (someFrame false) (.notReached 0)).2.isSome = true
    ∧ ((waiting.setPassage 3 none).workItem 3 (someFrame false) (.rule 0)).2 = none
    ∧ ((eventsHeld 64 waiting).blockWork 3 (someFrame false) true [.notReached 0]).2 = [.notReached 0]
    ∧ waiting.eventRoom (.pipeline 3) 1 ∧ ¬ (eventsHeld 64 waiting).eventRoom (.pipeline 3) 1
    ∧ (idleLane.lane 3).passage = none :=
  ⟨rfl, by decide +kernel, by decide +kernel, by decide +kernel, ⟨by decide +kernel, .inl rfl⟩,
   fun h => absurd h.1 (by decide +kernel), rfl⟩

/-- A record removed at a frame's end serves the pipeline that waits: its record takes the place (R157). -/
theorem test_removal_serves_the_waiter :
    let s := (busy (eventsHeld 64 waiting)).modTrunk fun t => { t with eventCredit := 1, waiters := [.pipeline 3] }
    let t := (after (exec .transmitComplete s)).getD State.reset
    t.trunk.events.length = 64 ∧ t.trunk.waiters = []
    ∧ ((t.lane 3).passage.map fun p => (p.first, p.second)) = some ([.notReached 0], [.rule 0])
    ∧ ((t.lane 3).run.map fun c => c.matcher.notReached) = some 1 := by decide +kernel

theorem test_witness_RunTimersExpire :
    let armed := fun ms : Nat => running .armed { someRun with armTimer := .running ms }
    let pulled := fun t : Timer => running .pulling { someRun with stallTimer := t }
    (((armed 10000).lane 3).runState = .armed ∧ 1000 * ((armed 10000).laneRow 3).armTimeout = 10000)
    ∧ (9999 < 1000 * ((armed 9999).laneRow 3).armTimeout)
    ∧ (((pulled (.running 20000)).lane 3).runState = .pulling
      ∧ 1000 * ((pulled (.running 20000)).laneRow 3).stallTimeout = 20000)
    ∧ ((pulled (.paused 20000)).lane 3).run.map (·.stallTimer) = some (.paused 20000) := by decide +kernel

/-- Lane 3's closing sequence with the given steps left. -/
def closingAt (steps : Option (List CloseStep)) : State :=
  running .closing { someRun with reason := some .aborted, closing := steps }

theorem test_witness_ClosingResumes :
    ((closingAt (some [.runClose])).lane 3).run.bind (·.closing) = some [.runClose]
    ∧ (closingAt (some [.runClose])).eventRoom (.closing 3) 1
    ∧ ¬ (eventsHeld 64 (closingAt (some [.runClose]))).eventRoom (.closing 3) 1
    ∧ ((closingAt none).lane 3).run.bind (·.closing) = none
    ∧ ((closingAt none).closeStep 3 .runClose).2.isSome = true ∧ ((closingAt none).closeStep 3 .dropCandidate).2 = none :=
  ⟨rfl, ⟨by decide +kernel, .inl rfl⟩, fun h => absurd h.1 (by decide +kernel), rfl, by decide +kernel, by decide +kernel⟩

/-- A run of lane 3 with rule 0 OPEN since position 20 and a held loss report. -/
def called : RunContext :=
  { someRun with
    heldLoss := some ⟨2, 5, 9⟩
    evaluator := { someRun.evaluator with rules := someRun.evaluator.rules.set 0 (some ⟨20, 0, 10, 0, 15, 60, 900, 4, false⟩) } }

theorem test_witness_ClosingResumes_steps :
    ((running .closing called).lane 3).run = some called ∧ called.evaluator.rules[(1 : Fin 32)] = none
    ∧ called.evaluator.rules[(0 : Fin 32)] = some ⟨20, 0, 10, 0, 15, 60, 900, 4, false⟩
    ∧ (let drained := ((running .closing called).modLane 3 fun ln => { ln with delay := [] }).handleEntries 3
         ((running .closing called).lane 3).delay
       (drained.lane 3).run = some called ∧ called.heldLoss = some ⟨2, 5, 9⟩)
    ∧ called.kind = .production ∧ ({ called with kind := .standard } : RunContext).kind = .standard :=
  ⟨rfl, by decide +kernel, by decide +kernel, ⟨by decide +kernel, rfl⟩, rfl, rfl⟩

/-- A used reference of one channel. -/
def someReference : StandardRow := ⟨true, 100, 10, 50, [2], [⟨60, 900⟩], 10, 20, 10, 20⟩

/-- An evaluator whose reference 0 is captured. -/
def capturedEvaluator : Evaluator :=
  { someRun.evaluator with captures := someRun.evaluator.captures.set 0 (some ⟨.captured, [some ⟨60, 900⟩]⟩) }

theorem test_witness_CloseOutcomes :
    let judged : RunContext := { someRun with kind := .standard, verdict := some .accepted }
    let opened : Group := { Group.reset with state := .opened, opener := some ⟨1, 0, 0, Vector.replicate 8 none⟩ }
    (someRun.kind = .production) ∧ (judged.kind = .standard ∧ judged.verdict = some .accepted)
    ∧ (judged.captured[Kind.calibration.idx]).generation = 0
    ∧ opened.state = .opened ∧ opened.pending = false
    ∧ ({ opened with pending := true } : Group).pending = true
    ∧ ({ judged with verdict := some .rejected } : RunContext).verdict ≠ some .accepted := by decide +kernel

theorem test_witness_CloseOutcomes_drift :
    let op : Opener := ⟨1, 0, 0, (Vector.replicate 8 none).set 0 (some [⟨2, 70, 930⟩])⟩
    capturedEvaluator.captures[(0 : Fin 8)] = some ⟨.captured, [some ⟨60, 900⟩]⟩ ∧ someReference.used = true
    ∧ capturedEvaluator.captures[(1 : Fin 8)] = none
    ∧ (someReference.channels[0]? = some 2 ∧ op.signature[(0 : Fin 8)] = some [⟨2, 70, 930⟩]
      ∧ [(⟨2, 70, 930⟩ : SignaturePeak)].find? (fun q => q.channel == 2) = some ⟨2, 70, 930⟩)
    ∧ (driftFlags (fun _ => someReference) capturedEvaluator op)[0]? = some [⟨true, true⟩]
    ∧ driftVerdict (driftFlags (fun _ => someReference) capturedEvaluator op) = .fail := by decide +kernel

theorem test_witness_NoticeHandled :
    ((closingAt (some [])).lane 3).run.bind (·.closing) = some []
    ∧ ((closingAt (some [])).closeOutcome 3 { someRun with reason := some .aborted, closing := some [] }).1 = []
    ∧ (let g : Group := { Group.reset with state := .opened, pending := true }
       let s := (closingAt (some [])).setGroup 3 g
       (s.closeOutcome 3 someRun).1.length = 1 ∧ s.eventRoom (.group 3) 1
       ∧ ¬ (eventsHeld 64 s).eventRoom (.group 3) 1)
    ∧ (idleLane.lane 3).run = none :=
  ⟨rfl, by decide +kernel, ⟨by decide +kernel, ⟨by decide +kernel, .inl rfl⟩, fun h => absurd h.1 (by decide +kernel)⟩, rfl⟩

theorem test_witness_DownstreamDiscards :
    classifyStation (checked32 [0x03000000, 0, 0]) = .invalid ∧ classifyStation (checked32 [0x01000000]) = .invalid
    ∧ classifyStation (checked32 [0x02000000, 0]) = .invalid
    ∧ classifyStation (checked32 [0x02000000, 0x02000000, 0]) = .invalid
    ∧ classifyStation (checked32 [0x01000000, 0x00050009]) = .request 5 9 []
    ∧ classifyStation (checked32 [0x02000000, 0x000003FF, 0xFFFF]) = .dataCredit 1023 65535
    ∧ classifyStation (checked32 [0x02000000, 0x010003FF, 0]) = .eventCredit 1023 := by decide +kernel

theorem test_witness_CreditGranted :
    (busy idleLane).trunk.isSending ∧ idleLane.trunk.tx = .idle ∧ (idleLane.lane 3).runState ≠ .offline :=
  ⟨⟨[], rfl⟩, rfl, by decide +kernel⟩

/-- A block of one entry, queued on lane 3. -/
def someBlock : Block := ⟨9, 0, 10, 0, false, 1, [[⟨0, 0⟩]]⟩

/-- Lane 3 holds one block and its account covers it; the transmitter is SENDING. -/
def funded : State :=
  (busy idleLane).modLane 3 (fun ln => { ln with dataQueue := [someBlock] })
    |>.modTrunk fun t => { t with accounts := t.accounts.set 3 ⟨1, blockPayload someBlock⟩ }

theorem test_witness_CreditKeptWhole :
    (funded.lane 3).dataQueue = [someBlock] ∧ funded.fundable 3 = true ∧ (busy idleLane).trunk.isSending
    ∧ idleLane.trunk.tx = .idle
    ∧ classifyStation (checked32 [0x02000000, 0x000003FF, 0xFFFF]) = .dataCredit 1023 65535
    ∧ (let s := (eventsHeld 1 funded).modTrunk fun t => { t with eventCredit := 1 }
       s.trunk.replies = [] ∧ s.trunk.events = [someRecord] ∧ 1 ≤ s.trunk.eventCredit)
    ∧ (repliesHeld 1 funded).trunk.replies ≠ [] ∧ funded.trunk.events = [] :=
  ⟨rfl, by decide +kernel, ⟨[], rfl⟩, rfl, by decide +kernel, by decide +kernel, by decide +kernel, rfl⟩

theorem test_witness_ArbiterChooses :
    (idleLane.lane 3).dataQueue = []
    ∧ (repliesHeld 1 funded).trunk.replies = [⟨0, .ok, false, []⟩]
    ∧ (let s := (eventsHeld 1 funded).modTrunk fun t => { t with eventCredit := 1 }
       s.trunk.events = [someRecord] ∧ 1 ≤ s.trunk.eventCredit)
    ∧ (funded.trunk.replies = [] ∧ funded.trunk.events = [] ∧ funded.trunk.lastServed + 1 + 3 = 3
      ∧ ∀ j : Fin 8, j < 3 → funded.fundable (funded.trunk.lastServed + 1 + j) = false)
    ∧ ∀ l, (busy idleLane).fundable l = false := by decide +kernel

theorem test_witness_RequestArrives :
    let s := fun n m : Nat => repliesHeld m (idleLane.modTables fun t => { t with requests := List.replicate n ⟨0, 9, []⟩ })
    (s 7 0).tables.requests.length < 8 ∧ (8 ≤ (s 8 15).tables.requests.length ∧ (s 8 15).trunk.replies.length < 16)
    ∧ 16 ≤ (s 8 16).trunk.replies.length := by decide +kernel

theorem test_witness_RepliesAndRecordsPlaced :
    (busy idleLane).trunk.isSending ∧ idleLane.trunk.tx = .idle ∧ idleLane.trunk.replies = []
    ∧ (busy (eventsHeld 47 idleLane)).trunk.events.length + 1 = 48 := ⟨⟨[], rfl⟩, rfl, rfl, by decide +kernel⟩

theorem test_witness_RepliesAndRecordsPlaced_waiters :
    let listed := fun (n : Nat) (ws : List Waiter) => (eventsHeld n waiting).modTrunk fun t => { t with waiters := ws }
    (listed 64 []).pruneWaiters.trunk.waiters = []
    ∧ (listed 63 [.group 3]).pruneWaiters.trunk.waiters = []
    ∧ ((listed 63 [.pipeline 3]).pruneWaiters.trunk.waiters = [.pipeline 3]
      ∧ (listed 63 [.pipeline 3]).canServe (.pipeline 3) = true ∧ (listed 64 [.pipeline 3]).canServe (.pipeline 3) = false)
    ∧ (waiting.workItem 3 (someFrame false) (.notReached 1)).2.isSome = true
    ∧ ((closingAt (some [.runClose])).closeStep 3 .runClose).2.isSome = true
    ∧ ((closingAt (some [])).noticed 3).isSome = true ∧ (idleLane.noticed 3) = none
    ∧ [6, 7, 11].map requestKindOf = [.commit, .laneArm, .groupEnd]
    ∧ (asking 7 [0x03020000, 0] idleLane).tables.requests = [request 7 [0x03020000, 0]]
    ∧ idleLane.tables.requests = [] := by decide +kernel

/-- A run context that captured both copies of no kind but MIX copy 1. -/
def captures (s : State) : State :=
  s.modLane 3 fun ln =>
    { ln with runState := .pulling, run := some { someRun with captured := Vector.replicate 8 ⟨true, 0⟩ } }

theorem test_witness_WriteChecked :
    (asking 1 [0x04800000] idleLane).serves .tableWrite (request 1 [0x04800000])
    ∧ (writeBodyOf [0x04800000]).count = 0
    ∧ (let b := writeBodyOf [0x08810000, 0]
       b.count = 1 ∧ kindOf b.kind = none)
    ∧ (let b := writeBodyOf ([0x04850000] ++ List.replicate 5 0)
       kindOf b.kind = some .mix ∧ rowWords .mix < 16 * b.part + b.count)
    ∧ (let b := writeBodyOf ([0x04840004] ++ List.replicate 4 0)
       16 * b.part + b.count = rowWords .mix ∧ (idleLane.tables.stagingEntry .mix).limit ≤ b.row)
    ∧ (captures idleLane).stagingCaptured .mix = true ∧ idleLane.stagingCaptured .mix = false :=
  ⟨witness_serves _ _ _ _ rfl rfl (by decide), by decide +kernel, by decide +kernel, by decide +kernel, by decide +kernel,
   by decide +kernel, by decide +kernel⟩

/-- A MIX row in one part, the last-part flag as given. -/
def mixWrite (last : Bool) (row : List Word) : List Word := (if last then 0x04840003 else 0x04040003) :: row

theorem test_witness_WriteStored :
    (asking 1 (mixWrite false [1, 0x0102, 0, 0]) idleLane).serves .tableWrite (request 1 (mixWrite false [1, 0x0102, 0, 0]))
    ∧ (∀ b, idleLane.admitsWrite .mix (mixWrite b [1, 0x0102, 0, 0]))
    ∧ ¬ idleLane.discards .mix (mixWrite true [1, 0x0102, 0, 0])
    ∧ (idleLane.setStaging .mix (.staging 2 [])).discards .mix (mixWrite true [1, 0x0102, 0, 0])
    ∧ idleLane.slotsAfter .mix (mixWrite true [1, 0x0102, 0, 0]) = [1, 0x0102, 0, 0].map some
    ∧ rowOk .mix [1, 0x0102, 0, 0] = true ∧ rowOk .mix [1, 0x0101, 0, 0] = false
    ∧ none ∈ idleLane.slotsAfter .mix [0x04830003, 1, 0x0102, 0] ∧ idleLane.tables.mem.wf = true := by
  refine ⟨witness_serves _ _ _ _ rfl rfl (by decide), ?_, ?_, ⟨2, [], rfl, by decide +kernel⟩, by decide +kernel,
    by decide +kernel, by decide +kernel, by decide +kernel, by decide +kernel⟩
  · intro b
    unfold State.admitsWrite
    cases b <;> decide +kernel
  · rintro ⟨r, ws, h, _⟩
    cases (show Staging.empty = .staging r ws from h)

theorem test_witness_RowRead :
    (asking 2 [0x02000003] idleLane).serves .tableRead (request 2 [0x02000003])
    ∧ bits (0x02000003 : Word) 23 22 = 0 ∧ kindOf (bits (0x02000003 : Word) 31 24) = some .lane
    ∧ bits (0x02000003 : Word) 14 12 < rowParts .lane ∧ bits (0x02000003 : Word) 11 0 < ((idleLane.tables.kind .lane).entry false).limit
    ∧ ((idleLane.tables.kind .lane).entry false).limit ≤ bits (0x02000008 : Word) 11 0
    ∧ (bits (0x01001000 : Word) 14 12 ≠ 0 ∧ bits (0x01001000 : Word) 14 12 < rowParts .layout
      ∧ idleLane.tables.latch ≠ some ⟨.layout, false, 0, []⟩)
    ∧ ([] : List Word).length ≠ 1 ∧ 1 < bits (0x02800000 : Word) 23 22 ∧ 6 < bits (0x02007000 : Word) 14 12
    ∧ kindOf (bits (0x08006000 : Word) 31 24) = none
    ∧ (bits (0x02006000 : Word) 14 12 ≤ 6 ∧ rowParts .lane ≤ bits (0x02006000 : Word) 14 12) :=
  ⟨witness_serves _ _ _ _ rfl rfl (by decide), by decide +kernel, by decide +kernel, by decide +kernel, by decide +kernel,
   by decide +kernel, by decide +kernel, by decide, by decide +kernel, by decide +kernel, by decide +kernel,
   by decide +kernel⟩

/-- The directory laws hold in a table manager whose 16 extents are checked one by one. -/
theorem witness_law (t : Tables)
    (h : (t.entries.all fun a => (a.2.2.limit == 0 || a.2.2.base + a.2.2.limit * rowWords a.1 ≤ 65536)
      && t.entries.all fun b => (a.1 == b.1 && a.2.1 == b.2.1) || extentsApart a.1 a.2.2 b.1 b.2.2) = true) :
    t.directoryLaw := by
  have mem : ∀ k c, (k, c, (t.kind k).entry c) ∈ t.entries := by
    intro k c
    simp only [Tables.entries, List.mem_flatMap]
    exact ⟨k, by cases k <;> decide, by cases c <;> simp [KindState.entry]⟩
  rw [List.all_eq_true] at h
  refine ⟨fun k c hl => ?_, fun k c k' c' hne => ?_⟩
  · have := h _ (mem k c)
    simp only [Bool.and_eq_true, Bool.or_eq_true, beq_iff_eq, decide_eq_true_eq] at this
    exact this.1.resolve_left hl
  · have := (List.all_eq_true.mp (by have := h _ (mem k c); simp only [Bool.and_eq_true] at this; exact this.2)) _ (mem k' c')
    simp only [Bool.or_eq_true, Bool.and_eq_true, beq_iff_eq] at this
    exact this.resolve_left hne

theorem test_witness_TableCopied :
    (asking 3 [0x04000000] idleLane).serves .tableCopy (request 3 [0x04000000])
    ∧ kindOf (bits (0x04000000 : Word) 31 24) = some .mix ∧ kindOf (bits (0x08000000 : Word) 31 24) = none
    ∧ (captures idleLane).stagingCaptured .mix = true ∧ idleLane.stagingCaptured .mix = false
    ∧ idleLane.tables.mem.wf = true ∧ idleLane.tables.directoryLaw :=
  ⟨witness_serves _ _ _ _ rfl rfl (by decide), by decide +kernel, by decide +kernel, by decide +kernel, by decide +kernel,
   by decide +kernel, witness_law _ (by decide +kernel)⟩

theorem test_witness_DirectorySetHandled :
    (asking 4 [0x04000000, 65520, 4] idleLane).serves .directorySet (request 4 [0x04000000, 65520, 4])
    ∧ kindOf (bits (0x04000000 : Word) 31 24) = some .mix ∧ kindOf (bits (0x08000000 : Word) 31 24) = none
    ∧ 65520 + 4 * rowWords .mix = 65536 ∧ 65536 < 65521 + 4 * rowWords .mix ∧ maxRows .mix < 5
    ∧ idleLane.tables.overlaps .mix true ⟨65520, 4⟩ = false ∧ idleLane.tables.overlaps .mix true ⟨599, 1⟩ = true
    ∧ idleLane.tables.overlaps .mix true ⟨700, 3⟩ = false
    ∧ (captures idleLane).stagingCaptured .mix = true ∧ idleLane.stagingCaptured .mix = false
    ∧ idleLane.tables.mem.wf = true :=
  ⟨witness_serves _ _ _ _ rfl rfl (by decide), by decide +kernel⟩

theorem test_witness_AnsweredWithoutEffect :
    (asking 5 [] idleLane).serves .directoryRead (request 5 []) ∧ (asking 5 [0] idleLane).serves .directoryRead (request 5 [0])
    ∧ (asking 9 [0x03000000] idleLane).serves .laneQuery (request 9 [0x03000000])
    ∧ bodyLane [0x07000000] = some 7 ∧ bodyLane [0x08000000] = none
    ∧ (asking 12 [] idleLane).serves .deviceQuery (request 12 []) ∧ (asking 12 [0] idleLane).serves .deviceQuery (request 12 [0])
    ∧ (asking 0 [] idleLane).serves .unknown (request 0 []) :=
  ⟨witness_serves _ _ _ _ rfl rfl (by decide), witness_serves _ _ _ _ rfl rfl (by decide),
   witness_serves _ _ _ _ rfl rfl (by decide), by decide +kernel, by decide +kernel,
   witness_serves _ _ _ _ rfl rfl (by decide), witness_serves _ _ _ _ rfl rfl (by decide),
   witness_serves _ _ _ _ rfl rfl (by decide)⟩

/-- The LANE QUERY of lane 3 in the pull, nothing stamped and no opener: presence word, length and run fields. -/
theorem test_lane_query_reply :
    ((after (exec .laneQuery (busy (asking 9 [0x03000000] (running .pulling someRun))))).map fun t =>
      t.trunk.replies.map fun r => (r.body.head?, r.body.length, (r.body.drop 18).take 5))
      = some [(some 64447, 37, [9, 0, 5, 6, 0])] := by decide +kernel

theorem test_witness_CommitHandled :
    (asking 6 [0x10] idleLane).serves .commit (request 6 [0x10]) ∧ commitMask [0x10] ≠ 0 ∧ commitMask [0x100] = 0
    ∧ (∀ k, (commitMask [0x10]).testBit k.idx.val = true →
        (idleLane.tables.kind k).staging = .empty ∧ (idleLane.tables.stagingEntry k).limit ≠ 0)
    ∧ ((idleLane.setStaging .mix (.staging 2 [])).tables.kind .mix).staging ≠ .empty
    ∧ (idleLane.tables.stagingEntry .calibration).limit = 0
    ∧ (idleLane.eventRoom .table idleLane.supersedeRecords.length) ∧ (commitMask [0x88]).testBit 3 = true :=
  ⟨witness_serves _ _ _ _ rfl rfl (by decide), by decide +kernel, by decide +kernel,
   fun k => by cases k <;> decide +kernel, by decide +kernel, by decide +kernel, ⟨by decide +kernel, .inl rfl⟩,
   by decide +kernel⟩

theorem test_witness_RequestsWait :
    (∀ r, ¬ State.reset.headIs .tableWrite r) ∧ 16 ≤ (repliesHeld 16 State.reset).trunk.replies.length
    ∧ ¬ (eventsHeld 64 idleLane).eventRoom .table 1
    ∧ (asking 7 [0x03020000, 0] (eventsHeld 64 idleLane)).headIs .laneArm (request 7 [0x03020000, 0])
    ∧ (asking 11 [0x03000000] (eventsHeld 64 idleLane)).headIs .groupEnd (request 11 [0x03000000])
    ∧ (repliesHeld 16 idleLane).eventRoom .table 1
    ∧ (let s := idleLane.modTables fun t => t.modKind .calibration fun ks => { ks with copy1 := ⟨900, 1⟩ }
       let open' := s.setGroup 3 { Group.reset with state := .opened }
       open'.commitPlaces [0x08] = 1 ∧ s.commitPlaces [0x08] = 0 ∧ open'.commitPlaces [0x10] = 0
       ∧ ¬ (eventsHeld 64 open').eventRoom .table 1) :=
  ⟨(fun r h => by cases (show (none : Option Request) = some r from h.2.1)), by decide +kernel,
   (fun h => absurd h.1 (by decide +kernel)), witness_headIs _ _ _ _ rfl rfl, witness_headIs _ _ _ _ rfl rfl,
   ⟨by decide +kernel, .inl rfl⟩, by decide +kernel, by decide +kernel, by decide +kernel,
   fun h => absurd h.1 (by decide +kernel)⟩

theorem test_witness_ArmRefused :
    (asking 7 [0x03010000, 0x00010001] idleLane).serves .laneArm (request 7 [0x03010000, 0x00010001])
    ∧ idleLane.eventRoom .table 1 ∧ bodyLane [0x03010000, 0x00010001] = some 3
    ∧ armKindOf (bits (0x03010000 : Word) 23 16) = some .production ∧ armKindOf (bits (0x03020000 : Word) 23 16) = some .standard
    ∧ bits (0x00010001 : Word) 25 16 = 1 ∧ bits (0x00010001 : Word) 9 0 = 1
    ∧ (State.reset.lane 3).runState = .offline ∧ ((running .armed someRun).lane 3).runState ≠ .idle
    ∧ (idleLane.zoneProfileOf 1 10 = some 0 ∧ 0 < (idleLane.tables.currentEntry .layout).limit
      ∧ layoutCount (idleLane.tables.currentRow .layout 0) ≠ 0)
    ∧ idleLane.zoneProfileOf 11 10 = none ∧ (idleLane.group 3).state ≠ .opened :=
  ⟨witness_serves _ _ _ _ rfl rfl (by decide), ⟨by decide +kernel, .inl rfl⟩, by decide +kernel⟩

/-- Lane 3's group is OPEN with n listed runs. -/
def grouped (n : Nat) : State :=
  idleLane.setGroup 3 { Group.reset with
    state := .opened, opener := some ⟨1, 0, 0, Vector.replicate 8 none⟩, runs := List.replicate n ⟨1, 1, 1⟩ }

theorem test_witness_ArmRefused_late_checks :
    ((grouped 0).group 3).state = .opened ∧ ((grouped 0).group 3).pending = false
    ∧ ((grouped 239).group 3).runs.length < 240 ∧ 240 ≤ ((grouped 240).group 3).runs.length
    ∧ ((grouped 239).modTables fun t => { t with serial := none }).tables.serial = none := by decide +kernel

theorem test_witness_ArmAdmitted :
    (asking 7 [0x03010000, 0x00010001] (grouped 239)).serves .laneArm (request 7 [0x03010000, 0x00010001])
    ∧ (asking 7 [0x03010000, 0x00010001] (grouped 239)).eventRoom .table 1
    ∧ (asking 7 [0x03010000, 0x00010001] (grouped 239)).armDecision [0x03010000, 0x00010001]
      = .admitted ⟨3, .production, some (1, 1), 0, 1⟩
    ∧ (asking 7 [0x03020000, 0] idleLane).armDecision [0x03020000, 0] = .admitted ⟨3, .standard, none, 0, 1⟩
    ∧ (busy (grouped 239)).trunk.isSending :=
  ⟨witness_serves _ _ _ _ rfl rfl (by decide), ⟨by decide +kernel, .inl rfl⟩, by decide +kernel, by decide +kernel, ⟨[], rfl⟩⟩

theorem test_witness_AbortAndClear :
    (asking 8 [0x03000000] idleLane).serves .laneAbort (request 8 [0x03000000])
    ∧ (asking 10 [0x03000000] idleLane).serves .laneClear (request 10 [0x03000000])
    ∧ bodyLane [0x03000000] = some 3 ∧ bodyLane [0x08000000] = none
    ∧ (idleLane.lane 3).runState = .idle
    ∧ ((running .pulling someRun).lane 3).run = some someRun ∧ ((running .pulling someRun).lane 3).runState = .pulling :=
  ⟨witness_serves _ _ _ _ rfl rfl (by decide), witness_serves _ _ _ _ rfl rfl (by decide), by decide +kernel,
   by decide +kernel, by decide +kernel, rfl, rfl⟩

theorem test_witness_GroupEnded :
    (asking 11 [0x03000000] (grouped 2)).serves .groupEnd (request 11 [0x03000000])
    ∧ (asking 11 [0x03000000] (grouped 2)).eventRoom .table 1 ∧ ((grouped 2).lane 3).run = none
    ∧ ((grouped 2).group 3).state = .opened ∧ (idleLane.group 3).state ≠ .opened
    ∧ ((running .armed someRun).lane 3).run.isSome = true :=
  ⟨witness_serves _ _ _ _ rfl rfl (by decide), ⟨by decide +kernel, .inl rfl⟩, by decide +kernel, by decide +kernel,
   by decide +kernel, rfl⟩

theorem test_witness_OwnersOfSharedState :
    (∃ t, exec .transmitComplete funded = .next t) ∧ Instr.transmitComplete ≠ .tableWrite
    ∧ (∀ b, Instr.transmitComplete ≠ .commit b) ∧ (∀ l, Instr.transmitComplete ≠ .closeHandling l)
    ∧ Waiter.table ∉ funded.trunk.waiters ∧ ∀ l, Waiter.group l ∉ funded.trunk.waiters :=
  ⟨⟨_, rfl⟩, by decide, by decide, by decide, by decide +kernel, by decide +kernel⟩

theorem test_witness_CaptureCompared :
    (⟨100, 3599⟩ : Peak).phase ≤ 3599 ∧ (⟨110, 0⟩ : Peak).phase ≤ 3599
    ∧ comparePeak 10 1 ⟨110, 3599⟩ ⟨100, 0⟩ = ⟨false, false⟩ ∧ comparePeak 10 0 ⟨111, 3599⟩ ⟨100, 0⟩ = ⟨true, true⟩ := by
  decide

theorem test_witness_CaptureCompared_states :
    let f := fun q : Int => { someFrame false with corrected := q, channels := List.replicate 3 ⟨true, 30, 40, false, 50, 531⟩ }
    let r := fun st : CaptureState => (⟨st, [none]⟩ : RefCapture)
    ([111, 110].map fun q => (captureStep someReference (f q) (r .unseen)).state) = [.deep, .broken]
    ∧ ([111, 110, 90, 89].map fun q => (captureStep someReference (f q) (r .deep)).state) = [.deep, .inside, .inside, .broken]
    ∧ (captureStep someReference (f 89) ⟨.inside, [some ⟨50, 531⟩]⟩).state = .captured
    ∧ (captureStep someReference (f 89) ⟨.inside, [some ⟨49, 531⟩]⟩).state = .belowFloor
    ∧ (captureStep someReference (f 100) (r .deep)).peaks = [some ⟨50, 531⟩]
    ∧ (captureReference someReference { f 110 with lost := 1, lossStart := 130 } (r .deep)).state = .broken
    ∧ (captureReference someReference { f 111 with lost := 1, lossStart := 130 } (r .deep)).state = .deep
    ∧ ([some CloseReason.complete, some .aborted].map fun x => verdictOf (fun k => if k = 0 then someReference else standardRowOf [])
        { someRun with kind := .standard, reason := x, evaluator := capturedEvaluator }) = [.accepted, .notEvaluated]
    ∧ verdictOf (fun k => if k = 0 then { someReference with expected := [⟨90, 900⟩] } else standardRowOf [])
        { someRun with kind := .standard, reason := some .complete, evaluator := capturedEvaluator } = .rejected
    ∧ capturesOn .standard (f 100) = true ∧ capturesOn .production (f 100) = false := by decide +kernel

theorem test_witness_ConditionedChannel :
    (let mix : MixRow := ⟨true, 0, 1, 4096, 0, 0, 4096⟩
     mix.enabled = true ∧ (mixRowOf []).enabled = false)
    ∧ (feedingSlot [0, 1, 255] [⟨100, 0, false⟩] 0 = some ⟨100, 0, false⟩ ∧ feedingSlot [0, 1, 255] [⟨100, 0, false⟩] 1 = none)
    ∧ (someRun.matcher.candidate = none ∧ called.matcher.candidate.isNone = true)
    ∧ ((someFrame false).cls = .normal ∧ (calibrationRowOf [0, 0, 0, 0, 8]).rate = 8 ∧ (calibrationRowOf []).rate = 0)
    ∧ magnitudeOf (-32768) (-32768) = 46340 ∧ magnitudeOf 32767 (-32768) = 46340
    ∧ phaseOf 0 0 = 0 ∧ phaseOf 0 (-32768) = 2700 ∧ phaseOf (-32768) 0 = 1800 := by decide +kernel

theorem test_witness_ForwarderRules :
    let f := fun gaps : List Interval => { someRun.forwarder with gaps := gaps }
    let full : List Interval := (List.range 16).map fun i : Nat => ⟨1000 - 10 * (i : Int), 998 - 10 * (i : Int)⟩
    (gapsFormed [⟨10, 8⟩, ⟨5, 5⟩] ∧ gapsApart [⟨10, 8⟩, ⟨5, 5⟩])
    ∧ (f full).gaps.length = 16 ∧ (f full).gaps.any (gapsTouch ⟨5, 3⟩) = false
    ∧ (gapEnter ⟨5, 3⟩ (f full)).gaps.length = 16 ∧ (gapEnter ⟨5, 3⟩ (f full)).gapOverflow = true
    ∧ (gapEnter ⟨7, 6⟩ (f [⟨10, 8⟩, ⟨5, 5⟩])).gaps = [⟨10, 5⟩] := by
  refine ⟨⟨?_, ?_⟩, by decide +kernel, by decide +kernel, by decide +kernel, by decide +kernel, by decide +kernel⟩
  · unfold gapsFormed
    decide
  · simp only [gapsApart]
    decide

theorem test_witness_ForwarderRules_entries :
    let block : OpenBlock := ⟨1, false, 30, 20, [[⟨1, 1⟩]], ⟨1, [⟨3, -3⟩]⟩⟩
    let c : RunContext := { someRun with forwarder := { someRun.forwarder with block := some block } }
    let s := running .pulling c
    let row : KeepRow := ⟨1, true, 1, 0, 0, 0, []⟩
    (addToBlock true [⟨4, -6⟩] 10 block).entries = [[⟨1, 1⟩], [⟨3, -4⟩]]
    ∧ (addToBlock false [⟨4, -6⟩] 10 { block with exponent := 2 }).gather = ⟨2, [⟨3, -3⟩]⟩
    ∧ (s.lane 3).run = some c ∧ c.forwarder.block = some block ∧ someRun.forwarder.block = none
    ∧ ((s.lane 3).dataQueue.length < 8 ∧ (busy s).trunk.isSending ∧ s.trunk.tx = .idle)
    ∧ 8 ≤ ((s.modLane 3 fun ln => { ln with dataQueue := List.replicate 8 ⟨9, 0, 10, 0, false, 1, []⟩ }).lane 3).dataQueue.length
    ∧ ((s.keepRow 3).mask = 0 ∧ row.mask ≠ 0)
    ∧ (blockDiffers (some block) true (some 0) = true ∧ blockDiffers (some block) false (some 1) = false)
    ∧ (effectiveExponent row false 4 = none ∧ effectiveExponent row false 3 = some 4) := by
  refine ⟨by decide +kernel, by decide +kernel, rfl, rfl, rfl, ⟨by decide +kernel, ⟨[], rfl⟩, rfl⟩, by decide +kernel,
    by decide +kernel, by decide +kernel, by decide +kernel⟩

theorem test_witness_ConditionsRead_rules :
    let rule : CallRule := ⟨1, 0, 50, 0, 0, 2, 5, 3⟩
    let f := fun mag : Nat => { someFrame false with channels := [⟨true, mag, 0, false, mag, 0⟩] }
    let p : Layout := ⟨100, 0, 0, 0, []⟩
    let step := fun (mag : Nat) (c : RunContext) => evaluateRule 3 p 4 0 rule (f mag) c
    let opened := step 60 someRun
    let extended := step 70 opened.1
    let closed := step 40 extended.1
    rule.code ≠ 0 ∧ conditionHolds rule (channelAt (f 60).channels 0) false = true
    ∧ conditionHolds rule (channelAt (f 40).channels 0) false = false
    ∧ opened.1.evaluator.rules[(0 : Fin 32)] = some ⟨10, 0, 10, 0, 10, 60, 0, 1, false⟩
    ∧ extended.1.evaluator.rules[(0 : Fin 32)] = some ⟨10, 0, 10, 0, 10, 70, 0, 2, false⟩
    ∧ (closed.1.evaluator.rules[(0 : Fin 32)] = none ∧ closed.2.isSome = true ∧ closed.1.evaluator.indications.length = 1)
    ∧ (step 40 opened.1).2 = none
    ∧ (step 40 (step 70 (step 60 closed.1).1).1).1.evaluator.indications.length = 1
    ∧ (let full : Evaluator := { someRun.evaluator with indications := List.replicate 64 ⟨9, 0, 0, 0, 0, 0⟩ }
       (fileIndication 3 9 5 (formIndication p 0 rule false ⟨20, 0, 10, 0, 15, 60, 900, 4, false⟩) full).1.overflow = true) := by
  decide +kernel

theorem test_witness_ConditionsRead :
    let rule := fun code low high : Nat => (⟨code, 0, 100, low, high, 1, 0, 0⟩ : CallRule)
    let ch : Channel := ⟨true, 60, -80, true, 100, 3069⟩
    (List.range 11).map (fun code => conditionHolds (rule code 3069 10) ch true)
      = [false, true, true, false, true, false, false, true, false, true, true] := by decide +kernel

theorem test_witness_LandmarksFollowed :
    let m := someRun.matcher
    m.candidate = none
    ∧ ({ m with candidate := some ⟨10, 10, 400⟩ } : Matcher).candidate = some ⟨10, 10, 400⟩
    ∧ ((400 : Nat) ≤ 2 * 401 ∧ (400 : Nat) < 401) ∧ (400 ≤ 2 * 200 ∧ 200 ≤ 400) ∧ 2 * 199 < 400 := by decide +kernel

/-- A profile of an inlet, a support and an outlet. -/
def someLayout : Layout :=
  ⟨1000, 20, 30, 40, [⟨0, 0, 25, true⟩, ⟨1, 500, 25, true⟩, ⟨3, 990, 25, false⟩]⟩

theorem test_witness_LandmarksFollowed_judged :
    let m := fun (e : Option Nat) (d : Dir) => { someRun.matcher with cursor := ⟨e, d⟩ }
    let c := fun p : Int => (⟨p, p, 400⟩ : Candidate)
    let seen := fun r : Matcher × Option LandmarkRecord => (r.1.cursor.entry, r.2.map fun x => (x.outcome, x.entry))
    (someLayout.entries[0]? = some ⟨0, 0, 25, true⟩ ∧ someLayout.entries[someLayout.entries.length - 1]? = some ⟨3, 990, 25, false⟩)
    ∧ seen (judgePush someLayout (c 25) 40 (m (some 0) .push)) = (some 2, some (.matched, some 0))
    ∧ seen (judgePush someLayout (c 965) 40 (m (some 0) .push)) = (none, some (.matched, some 2))
    ∧ seen (judgePush someLayout (c 26) 40 (m (some 0) .push)) = (some 0, none)
    ∧ seen (judgePush someLayout (c 965) 39 (m (some 2) .push)) = (some 2, none) := by decide +kernel

theorem test_witness_LandmarksFollowed_pull :
    let m := fun (e : Option Nat) (d : Dir) => { someRun.matcher with cursor := ⟨e, d⟩ }
    let c := fun p : Int => (⟨p, p, 400⟩ : Candidate)
    let seen := fun r : Matcher × Option LandmarkRecord => (r.1.cursor.entry, r.2.map fun x => (x.outcome, x.entry))
    seen (judgePull someLayout (c 525) 39 (m (some 1) .pull)) = (some 0, some (.matched, some 1))
    ∧ seen (judgePull someLayout (c 525) 40 (m (some 1) .pull)) = (some 1, some (.unexpected, some 1))
    ∧ seen (missedWork someLayout 474 (m (some 1) .pull)) = (some 0, some (.missed, some 1))
    ∧ seen (missedWork someLayout 475 (m (some 1) .pull)) = (some 1, none)
    ∧ seen (missedWork someLayout 474 (m (some 2) .pull)) = (some 1, none)
    ∧ (notReachedEntries someLayout 474, reversalEntry someLayout 474) = ([2, 1], some 0)
    ∧ (notReachedEntries someLayout 965, reversalEntry someLayout 965) = ([], some 2)
    ∧ (reversalStart someLayout 979 (m (some 0) .push)).shortInsertion = true
    ∧ (someFrame false).phase = .pulling := by decide +kernel

theorem test_witness_RowsChecked :
    bitAt (wordAt (idleLane.tables.currentRow .lane 3) 0) 0 = true ∧ laneRowOk (idleLane.tables.currentRow .lane 3) = true
    ∧ bitAt (wordAt (zeroRow .lane) 0) 0 = false := by decide +kernel

theorem test_witness_RangesKept :
    (idleLane.contextsRight ∧ idleLane.tables.mem.wf = true ∧ idleLane.tables.directoryLaw ∧ idleLane.tables.stagingSized)
    ∧ ∃ t, step idleLane = .next t := by
  refine ⟨⟨?_, by decide +kernel, witness_law _ (by decide +kernel), ?_⟩, ⟨_, rfl⟩⟩
  · unfold State.contextsRight Lane.contextRight
    decide +kernel
  · intro k
    cases k <;> trivial

theorem witness_run_fits : someRun.fits :=
  ⟨⟨by decide +kernel, by decide +kernel, by decide +kernel⟩,
   ⟨by decide +kernel, by decide +kernel, by decide +kernel, by decide +kernel⟩,
   ⟨by decide +kernel, by decide +kernel, fun r o h => by
      have hn : ∀ r : Fin 32, someRun.evaluator.rules[r] = none := by decide +kernel
      rw [hn] at h; cases h⟩,
   ⟨by decide +kernel, by decide +kernel, by decide +kernel⟩,
   (fun h e => by cases (show none = some h from e)), Nat.zero_le Config.runTimerLimit, trivial⟩

theorem test_witness_fits : (running .pulling someRun).fits := by
  refine ⟨fun l => ⟨⟨?_, ?_, ?_, ?_, ?_, ?_, ?_, ?_, ?_, ?_⟩, ?_, ?_, ?_, ?_⟩, ?_, ⟨?_, ?_, ?_, ?_, ?_, ?_⟩, ?_, ?_, ?_⟩
  case refine_2 =>
    have hn : ∀ k, ((running .pulling someRun).lane k).rx.fifo = [] := by decide +kernel
    intro e h
    rw [hn] at h
    cases h
  case refine_9 =>
    have hn : ∀ k, ((running .pulling someRun).lane k).rx.silence = none
        ∨ ((running .pulling someRun).lane k).rx.silence = some 0 := by decide +kernel
    intro ms h
    rcases hn l with e | e <;> rw [e] at h <;> cases h
    exact Nat.zero_le _
  case refine_14 =>
    have hn : ∀ k, ((running .pulling someRun).lane k).run = none
        ∨ ((running .pulling someRun).lane k).run = some someRun := by decide +kernel
    intro c h
    rcases hn l with e | e <;> rw [e] at h <;> cases h
    exact witness_run_fits
  case refine_15 => unfold Group.fits; decide +kernel
  all_goals first | decide +kernel | (revert l; decide +kernel)

theorem test_witness_CapturedRowsStand :
    (running .armed someRun).isCaptured .lane false = true ∧ ∃ t, step (running .armed someRun) = .next t
      ∧ t.isCaptured .lane false = true := ⟨by decide +kernel, _, rfl, by decide +kernel⟩

end Sys2Proof.Tests
end

/-! PROOFS. An accepted sample frame: its sequence check (R4) and where it goes (R5, R9). -/

namespace Sys2Proof.Machine

open Sys2Proof

/-! ### Saturating counts and changes of one receiver -/

theorem satTo_eq_min (cap n : Nat) : satTo cap n = min cap n := by
  unfold satTo
  split <;> omega

theorem satByte_eq_min (n : Nat) : satByte n = min 255 n := satTo_eq_min 255 n

theorem satHalf_eq_min (n : Nat) : satHalf n = min 65535 n := satTo_eq_min 65535 n

theorem vmod_vmod {α : Type} {n : Nat} (v : Vector α n) (i : Fin n) (f g : α → α) :
    vmod (vmod v i f) i g = vmod v i (g ∘ f) := by
  simp [vmod]

/-- Two changes of one receiver are one change. -/
theorem State.modRx_modRx (s : State) (l : LaneId) (f g : Receiver → Receiver) :
    (s.modRx l f).modRx l g = s.modRx l fun rx => g (f rx) := by
  simp only [State.modRx, State.modLane, vmod_vmod, Function.comp_def]

@[simp] theorem State.rx_modRx_same (s : State) (l : LaneId) (f : Receiver → Receiver) :
    ((s.modRx l f).lane l).rx = f (s.lane l).rx := by
  simp [State.modRx]

/-! ### Weighing hold or run state keeps the receiver's core -/

theorem rx_core_weighLaneHold (s : State) (l k : LaneId) :
    ((s.weighLaneHold l).lane k).rx.core = (s.lane k).rx.core :=
  (SameAll.weighLaneHold s l k).rx

theorem rx_core_setRunState (s : State) (l : LaneId) (st : RunState) :
    ((s.setRunState l st).lane l).rx.core = (s.lane l).rx.core := by
  rw [State.setRunState, State.lane_modLane_same]
  exact ((Same.holdWeighed _ _).trans (Same.statusChanged _)).rx

theorem rx_core_returnAccount (s : State) (l : LaneId) :
    ((s.returnAccount l).lane l).rx.core = (s.lane l).rx.core := by
  refine (SameAll.idleChoice _ l).rx.trans ?_
  rw [State.lane_modTrunk, State.lane_modLane_same]

theorem rx_core_settleLane (s : State) (l : LaneId) :
    ((s.settleLane l).lane l).rx.core = (s.lane l).rx.core := by
  unfold State.settleLane
  simp only []
  split
  · rfl
  · split
    · exact (rx_core_returnAccount _ l).trans (rx_core_setRunState s l _)
    · exact rx_core_setRunState s l _

theorem rx_core_weighLane (s : State) (l : LaneId) :
    ((s.weighLane l).lane l).rx.core = (s.lane l).rx.core := by
  unfold State.weighLane
  split
  · rfl
  · exact rx_core_settleLane s l

/-- What check 3 notes of an accepted frame: the previous sequence and the SEQUENCE counter (R4). -/
def Receiver.noted (rx : Receiver) : Option (BitVec 16) × Nat := (rx.previous, rx.sequence)

theorem noted_of_core_eq {a b : Receiver} (h : a.core = b.core) : a.noted = b.noted :=
  (congrArg Receiver.noted h : a.core.noted = b.core.noted)

theorem fifo_of_core_eq {a b : Receiver} (h : a.core = b.core) : a.fifo = b.fifo :=
  (congrArg Receiver.fifo h : a.core.fifo = b.core.fifo)

/-! ### The classification of a sequence (R4) -/

theorem sequenceClass_none (q : BitVec 16) : sequenceClass none q = .first := rfl

theorem sequenceClass_continuous {p q : BitVec 16} (h : (q - p).toNat = 1) :
    sequenceClass (some p) q = .continuous := if_pos h

theorem sequenceClass_gap {p q : BitVec 16} (h : 2 ≤ (q - p).toNat ∧ (q - p).toNat ≤ 32768) :
    sequenceClass (some p) q = .gap ((q - p).toNat - 1) :=
  (if_neg (by omega)).trans (if_pos h)

theorem sequenceClass_repeated {p q : BitVec 16} (h : (q - p).toNat = 0 ∨ 32769 ≤ (q - p).toNat) :
    sequenceClass (some p) q = .repeated :=
  (if_neg (by omega)).trans (if_neg (by omega))

/-! ### An accepted frame, by link and room (R5, R9) -/

section Accepted

variable {s : State} {l : LaneId} {words : List Word} {cls : SequenceClass}

/-- A frame that passes checks 1 and 2 is classified and taken as an accepted frame (R1). -/
theorem exec_sampleFrame_accepted (hline : s.resetLine = false) (hacc : s.accepts l words) :
    exec (.sampleFrame l words) s =
      .next (s.acceptFrame l words (sequenceClass (s.lane l).rx.previous (sampleSequence words))) := by
  obtain ⟨hcheck, hformat⟩ := hacc
  show execSampleFrame l words s = _
  simp [execSampleFrame, hline, State.sampleFrameEnd, hcheck, hformat]

theorem acceptFrame_up_room (hup : (s.lane l).rx.link = .up) (hroom : (s.lane l).rx.fifo.length < 64) :
    s.acceptFrame l words cls =
      ((s.modRx l fun rx => ingressPlace words (lostNoted cls) (noteSequence (sampleSequence words) cls rx)).weighLaneHold
        l) := by
  rw [← State.modRx_modRx]
  simp [State.acceptFrame, hup, Config.fifoCapacity, hroom]

theorem acceptFrame_up_full (hup : (s.lane l).rx.link = .up) (hfull : 64 ≤ (s.lane l).rx.fifo.length) :
    s.acceptFrame l words cls =
      s.modRx l fun rx => ingressOverflow (lostNoted cls) (noteSequence (sampleSequence words) cls rx) := by
  rw [← State.modRx_modRx]
  simp [State.acceptFrame, hup, Config.fifoCapacity, Nat.not_lt.mpr hfull]

theorem acceptFrame_down_counts (hdown : (s.lane l).rx.link = .down)
    (hshort : qualifyCount cls (s.lane l).rx.qualifying < 3) :
    s.acceptFrame l words cls =
      s.modRx l fun rx =>
        { noteSequence (sampleSequence words) cls rx with qualifying := qualifyCount cls (s.lane l).rx.qualifying } := by
  rw [← State.modRx_modRx s l (noteSequence (sampleSequence words) cls)
    fun rx => { rx with qualifying := qualifyCount cls (s.lane l).rx.qualifying }]
  simp [State.acceptFrame, hdown, Nat.not_le.mpr hshort]

theorem acceptFrame_down_qualifies (hdown : (s.lane l).rx.link = .down)
    (hthird : 3 ≤ qualifyCount cls (s.lane l).rx.qualifying) :
    s.acceptFrame l words cls =
      (s.modRx l fun rx => linkUp (noteSequence (sampleSequence words) cls rx)).weighLane l := by
  rw [← State.modRx_modRx]
  simp [State.acceptFrame, hdown, hthird]

/-- Wherever an accepted frame goes, what check 3 noted of its sequence stands (R1, R4). -/
theorem acceptFrame_noted :
    ((s.acceptFrame l words cls).lane l).rx.noted
      = (noteSequence (sampleSequence words) cls (s.lane l).rx).noted := by
  cases hlink : (s.lane l).rx.link with
  | up =>
    rcases Nat.lt_or_ge (s.lane l).rx.fifo.length 64 with hroom | hfull
    · rw [acceptFrame_up_room hlink hroom, noted_of_core_eq (rx_core_weighLaneHold _ l l), State.rx_modRx_same]
      rfl
    · rw [acceptFrame_up_full hlink hfull, State.rx_modRx_same]
      rfl
  | down =>
    rcases Nat.lt_or_ge (qualifyCount cls (s.lane l).rx.qualifying) 3 with hshort | hthird
    · rw [acceptFrame_down_counts hlink hshort, State.rx_modRx_same]
      rfl
    · rw [acceptFrame_down_qualifies hlink hthird, noted_of_core_eq (rx_core_weighLane _ l), State.rx_modRx_same]
      rfl

/-- While the link is UP and the FIFO has room, the frame's entry is the FIFO's new tail (R5). -/
theorem acceptFrame_up_room_fifo (hup : (s.lane l).rx.link = .up) (hroom : (s.lane l).rx.fifo.length < 64) :
    ((s.acceptFrame l words cls).lane l).rx.fifo
      = (s.lane l).rx.fifo ++ [entryOfFrame words (min 65535 (lostNoted cls + (s.lane l).rx.pendingLoss))] := by
  rw [acceptFrame_up_room hup hroom, fifo_of_core_eq (rx_core_weighLaneHold _ l l), State.rx_modRx_same,
    ← satHalf_eq_min]
  rfl

end Accepted

/-! ### The obligations -/

/-- Settles O11: the four places of an accepted frame, by link, room and qualifying count. -/
theorem acceptedFramesPlaced : Obligations.AcceptedFramesPlaced := by
  refine ⟨fun l words s hline hacc hup => ⟨fun hroom => ?_, fun hfull => ?_⟩,
    fun l words s hline hacc hdown => ⟨fun hshort => ?_, fun hthird => ?_⟩⟩ <;>
  rw [exec_sampleFrame_accepted hline hacc]
  · rw [acceptFrame_up_room hup hroom]
    simp only [ingressPlace, noteSequence, satByte_eq_min, satHalf_eq_min]
  · rw [acceptFrame_up_full hup hfull]
    simp only [ingressOverflow, noteSequence, satByte_eq_min, satHalf_eq_min]
  · rw [acceptFrame_down_counts hdown hshort]
    simp only [qualifyCount, noteSequence, satByte_eq_min]
  · rw [acceptFrame_down_qualifies hdown hthird]
    simp only [linkUp, noteSequence, satByte_eq_min]

/-- Settles O10: the lost frames and the discontinuity are those of the frame's class. -/
theorem sequenceChecked : Obligations.SequenceChecked := by
  intro l words s hline hacc
  have hexec := exec_sampleFrame_accepted hline hacc
  generalize hcls : sequenceClass (s.lane l).rx.previous (sampleSequence words) = cls at hexec
  have hnoted : ((s.acceptFrame l words cls).lane l).rx.noted = _ := acceptFrame_noted
  refine ⟨s.acceptFrame l words cls, lostNoted cls, isDiscontinuity cls, hexec, ?_, congrArg Prod.fst hnoted, ?_,
    acceptFrame_up_room_fifo⟩
  · cases hprevious : (s.lane l).rx.previous with
    | none =>
      rw [← hcls, hprevious, sequenceClass_none]
      exact ⟨rfl, rfl⟩
    | some p =>
      rw [← hcls, hprevious]
      refine ⟨fun hnext => ?_, fun hskip => ?_, fun hback => ?_⟩
      · rw [sequenceClass_continuous hnext]; exact ⟨rfl, rfl⟩
      · rw [sequenceClass_gap hskip]; exact ⟨rfl, rfl⟩
      · rw [sequenceClass_repeated hback]; exact ⟨rfl, rfl⟩
  · rw [← satByte_eq_min]
    exact congrArg Prod.snd hnoted

end Sys2Proof.Machine

/-! PROOFS. The axial tracker on one FIFO entry: travel (R20 to R22), stamp (R23) and carried loss (R25), in the order
of R19. -/

namespace Sys2Proof.Machine

open Sys2Proof

/-! ### Saturation of a position -/

theorem sat32_eq_max_min (x : Int) : sat32 x = max (-2147483648) (min 2147483647 x) := by
  unfold sat32 clamp
  split
  · omega
  · split <;> omega

/-! ### The travel delta (R20) -/

/-- A run's first frame has no travel reference and travels nothing. -/
theorem travelDelta_first {t : Tracker} (h : t.travelRef = none) (count : BitVec 32) : travelDelta t count = 0 := by
  simp only [travelDelta, h]

/-- After a reference r the delta is the difference of the two counts modulo 2^32. -/
theorem travelDelta_after {t : Tracker} {r : BitVec 32} (h : t.travelRef = some r) (count : BitVec 32) :
    travelDelta t count = (count.toNat + 2 ^ 32 - r.toNat) % 2 ^ 32 := by
  have hr : r.toNat < 2 ^ 32 := r.isLt
  simp only [travelDelta, h, BitVec.toNat_sub]
  congr 1
  omega

/-! ### Travel advanced by an entry (R21, R22) -/

section Travel

variable (scale : Nat) (e : FifoEntry) (t : Tracker)

/-- The delta in au with 16 fraction bits, the remainder of the frame before included (R21). -/
def travelSum : Nat := travelDelta t e.travel * scale + t.remainder

@[simp] theorem advanceTravel_travelRef : (advanceTravel scale e t).travelRef = some e.travel := rfl

@[simp] theorem advanceTravel_remainder :
    (advanceTravel scale e t).remainder = travelSum scale e t % 65536 := rfl

theorem advanceTravel_raw_push (h : e.direction = .push) :
    (advanceTravel scale e t).raw = sat32 (t.raw + ((travelSum scale e t / 65536 : Nat) : Int)) := by
  simp only [advanceTravel, travelSum, h]

theorem advanceTravel_raw_pull (h : e.direction = .pull) :
    (advanceTravel scale e t).raw = sat32 (t.raw - ((travelSum scale e t / 65536 : Nat) : Int)) := by
  simp only [advanceTravel, travelSum, h]

/-- Travel changes the reference, the raw position and the remainder only. -/
theorem advanceTravel_frame :
    advanceTravel scale e t =
      { t with
        travelRef := (advanceTravel scale e t).travelRef
        raw := (advanceTravel scale e t).raw
        remainder := (advanceTravel scale e t).remainder } := rfl

end Travel

/-! ### The stamp (R23) -/

section Stamp

variable (correction : Int) (t : Tracker)

@[simp] theorem stampTracker_stamped :
    (stampTracker correction t).stamped = some (max (-2147483648) (min 2147483647 (t.raw + correction))) :=
  congrArg some (sat32_eq_max_min _)

@[simp] theorem stampTracker_applied : (stampTracker correction t).applied = correction := rfl

@[simp] theorem stampTracker_raw : (stampTracker correction t).raw = t.raw := rfl

theorem stampTracker_corrCount_same (h : correction = t.applied) :
    (stampTracker correction t).corrCount = t.corrCount := if_pos h

theorem stampTracker_corrCount_changed (h : correction ≠ t.applied) :
    (stampTracker correction t).corrCount = (t.corrCount + 1) % 256 := if_neg h

/-- The stamp changes the applied correction, its count and the stamped position only. -/
theorem stampTracker_eq :
    stampTracker correction t =
      { t with
        applied := correction
        corrCount := if correction = t.applied then t.corrCount else (t.corrCount + 1) % 256
        stamped := some (max (-2147483648) (min 2147483647 (t.raw + correction))) } := by
  rw [← stampTracker_stamped]
  rfl

end Stamp

/-! ### The carried loss (R25) -/

/-- Preceding loss, then the unit fault, each stopping at 65535; no other field changes. -/
theorem gatherCarried_eq (e : FifoEntry) (t : Tracker) :
    gatherCarried e t =
      { t with carried := min 65535 (min 65535 (t.carried + e.precedingLoss) + (if e.unitFault then 1 else 0)) } := by
  simp only [gatherCarried, satHalf_eq_min, flag]

/-! ### The tracker's order (R19) -/

/-- The stamp is made of the raw position after travel, and the loss is gathered last. -/
theorem trackEntry_eq (scale : Nat) (correction : Int) (e : FifoEntry) (t : Tracker) :
    trackEntry scale correction e t =
      { t with
        travelRef := (advanceTravel scale e t).travelRef
        raw := (advanceTravel scale e t).raw
        remainder := (advanceTravel scale e t).remainder
        applied := correction
        corrCount := if correction = t.applied then t.corrCount else (t.corrCount + 1) % 256
        stamped := some (max (-2147483648) (min 2147483647 ((advanceTravel scale e t).raw + correction)))
        carried := min 65535 (min 65535 (t.carried + e.precedingLoss) + (if e.unitFault then 1 else 0)) } := by
  rw [trackEntry, gatherCarried_eq, stampTracker_eq, advanceTravel_frame]

/-! ### The obligation -/

/-- Settles O17: the travel by reference and direction, the stamp, and the three in the tracker's order. -/
theorem travelAndStamp : Obligations.TravelAndStamp := by
  refine ⟨fun scale e t => ?_, fun correction t => ?_, trackEntry_eq, fun s l c e => rfl⟩
  · intro delta sum moved
    have hdelta : delta = travelDelta t e.travel := by
      cases href : t.travelRef with
      | none => simp only [delta, href, travelDelta_first href]
      | some r => simp only [delta, href, travelDelta_after href]
    have hsum : sum = travelSum scale e t := by
      rw [travelSum, ← hdelta]
    have hraw : (advanceTravel scale e t).raw = sat32 moved := by
      cases hdir : e.direction with
      | push => simp only [advanceTravel_raw_push scale e t hdir, ← hsum, moved, hdir]
      | pull => simp only [advanceTravel_raw_pull scale e t hdir, ← hsum, moved, hdir]
    exact ⟨advanceTravel_travelRef scale e t, hsum ▸ advanceTravel_remainder scale e t,
      hraw.trans (sat32_eq_max_min moved)⟩
  · exact ⟨stampTracker_stamped correction t, stampTracker_applied correction t,
      stampTracker_corrCount_same correction t, stampTracker_corrCount_changed correction t,
      stampTracker_raw correction t⟩

end Sys2Proof.Machine

/-! PROOFS. LANE ARM refused: the head request taken (R177), the body checks (R40), the tube map search (R62) and the
admission checks (R41). -/

namespace Sys2Proof.Machine

open Sys2Proof

/-! ### A request that needs EVENT queue room, taken (R157, R177) -/

section Taken

variable {s : State} {r : Request}

theorem headRequest_of_headIs {kind : RequestKind} (h : s.headIs kind r) : s.headRequest kind = some r := by
  obtain ⟨hline, hhead, hkind⟩ := h
  obtain ⟨rest, hrequests⟩ := List.head?_eq_some_iff.mp hhead
  simp [State.headRequest, hline, hrequests, hkind]

theorem roomFor_of_eventRoom {w : Waiter} {n : Nat} (h : s.eventRoom w n) : s.roomFor w n = true := by
  obtain ⟨hplaces, hwaiters⟩ := h
  have hfirst : standsFirst w s.trunk.waiters = true := by
    rcases hwaiters with hnone | hhead
    · rw [hnone, standsFirst]
    · obtain ⟨rest, hlist⟩ := List.head?_eq_some_iff.mp hhead
      rw [hlist, standsFirst, beq_self_eq_true]
  simp [State.roomFor, hplaces, hfirst]

/-- With room in both queues the head request leaves its queue and the waiters, and is handled. -/
theorem serveWithRoom_taken {kind : RequestKind} {act : State → Request → State} (hserves : s.serves kind r)
    (hroom : s.roomFor .table s.requestPlaces = true) :
    s.serveWithRoom kind act = act (s.dropHead.leaveWaiters .table) r := by
  obtain ⟨hhead, hreply⟩ := hserves
  have hreplyRoom : s.replyRoom = true := decide_eq_true hreply
  simp [State.serveWithRoom, headRequest_of_headIs hhead, hroom, hreplyRoom]

/-- A LANE ARM needs one place, for RUN OPEN (R45). -/
theorem requestPlaces_laneArm (h : s.headIs .laneArm r) : s.requestPlaces = 1 := by
  obtain ⟨-, hhead, hkind⟩ := h
  obtain ⟨rest, hrequests⟩ := List.head?_eq_some_iff.mp hhead
  simp [State.requestPlaces, hrequests, hkind]

theorem exec_laneArm_taken {first : Bool} (hserves : s.serves .laneArm r) (hroom : s.eventRoom .table 1) :
    exec (.laneArm first) s = .next (State.takeArm first (s.dropHead.leaveWaiters .table) r) := by
  have hplaces : s.roomFor .table s.requestPlaces = true := by
    rw [requestPlaces_laneArm hserves.1]
    exact roomFor_of_eventRoom hroom
  exact congrArg _ (serveWithRoom_taken hserves hplaces)

/-- The decision reads lanes, groups and table memory, neither the request queue nor the waiters. -/
theorem armDecision_taken (body : List Word) :
    (s.dropHead.leaveWaiters .table).armDecision body = s.armDecision body := rfl

/-- A refusal is a reply with the status and no body (R177). -/
theorem answerRequest_answer (s : State) (tag : BitVec 16) (st : Status) :
    s.answerRequest tag (answer st) = s.placeReply ⟨tag, st, false, []⟩ :=
  congrArg (fun body => s.placeReply ⟨tag, st, false, body⟩) (ite_self [])

/-- A LANE ARM decided against is answered with the status and no body, and has no other effect (R41). -/
theorem exec_laneArm_refused {first : Bool} {st : Status} (hserves : s.serves .laneArm r)
    (hroom : s.eventRoom .table 1) (hrefuse : s.armDecision r.body = .refuse st) :
    exec (.laneArm first) s = .next ((s.dropHead.leaveWaiters .table).placeReply ⟨r.tag, st, false, []⟩) := by
  rw [exec_laneArm_taken hserves hroom]
  simp only [State.takeArm, armDecision_taken, hrefuse, answerRequest_answer]

end Taken

/-! ### The body checks (R40) -/

theorem armKindOf_eq_none {code : Nat} (h : code ≠ 1 ∧ code ≠ 2) : armKindOf code = none := by
  obtain ⟨hone, htwo⟩ := h
  unfold armKindOf
  split
  · exact absurd rfl hone
  · exact absurd rfl htwo
  · rfl

theorem bodyLane_eq_none {body : List Word} (h : 8 ≤ bits (body.getD 0 0) 31 24) : bodyLane body = none :=
  dif_neg (Nat.not_lt.mpr h)

theorem bodyLane_eq_some {body : List Word} (h : bits (body.getD 0 0) 31 24 < 8) :
    bodyLane body = some ⟨bits (body.getD 0 0) 31 24, h⟩ := dif_pos h

/-- A 10-bit field holds a tube number unless it is 0. -/
theorem tubeNumberOk_iff {n : Nat} (h : n ≤ 1023) : tubeNumberOk n = true ↔ 1 ≤ n := by
  simp [tubeNumberOk, h]

/-- Row and column of body word 1 are tube numbers exactly when neither is 0. -/
theorem tubeNumbersOk_iff (w : Word) :
    (tubeNumberOk (bits w 25 16) && tubeNumberOk (bits w 9 0)) = true ↔ 1 ≤ bits w 25 16 ∧ 1 ≤ bits w 9 0 := by
  rw [Bool.and_eq_true, tubeNumberOk_iff (bits_le w 25 16), tubeNumberOk_iff (bits_le w 9 0)]

section Decision

variable (s : State) {body : List Word} {kind : RunKind}

theorem armDecision_unknownCode (hcode : armKindOf (bits (body.getD 0 0) 23 16) = none) :
    s.armDecision body = .refuse .badRequest := by
  simp only [State.armDecision, hcode]

theorem armDecision_wrongLength (hlength : body.length ≠ 2) : s.armDecision body = .refuse .badRequest := by
  cases hcode : armKindOf (bits (body.getD 0 0) 23 16) with
  | none => exact armDecision_unknownCode s hcode
  | some kind => simp only [State.armDecision, hcode, if_pos hlength]

theorem armDecision_unknownLane (hcode : armKindOf (bits (body.getD 0 0) 23 16) = some kind)
    (hlength : body.length = 2) (hlane : bodyLane body = none) : s.armDecision body = .refuse .badLane := by
  simp only [State.armDecision, hcode, hlength, hlane, ne_eq, not_true_eq_false, if_false]

variable {l : LaneId}

theorem armDecision_badTube (hcode : armKindOf (bits (body.getD 0 0) 23 16) = some .production)
    (hlength : body.length = 2) (hlane : bodyLane body = some l)
    (htube : bits (body.getD 1 0) 25 16 = 0 ∨ bits (body.getD 1 0) 9 0 = 0) :
    s.armDecision body = .refuse .badValue := by
  have hbad : (tubeNumberOk (bits (body.getD 1 0) 25 16) && tubeNumberOk (bits (body.getD 1 0) 9 0)) = false := by
    rw [← Bool.not_eq_true, tubeNumbersOk_iff]
    omega
  simp only [State.armDecision, hcode, hlength, hlane, hbad, ne_eq, not_true_eq_false, if_false, Bool.not_false,
    and_self, if_true]

/-- A body that passes R40 is decided by the admission checks. -/
theorem armDecision_goodBody (hcode : armKindOf (bits (body.getD 0 0) 23 16) = some kind)
    (hlength : body.length = 2) (hlane : bodyLane body = some l)
    (htube : kind = .production → 1 ≤ bits (body.getD 1 0) 25 16 ∧ 1 ≤ bits (body.getD 1 0) 9 0) :
    s.armDecision body =
      s.admissionCheck l kind (bits (body.getD 1 0) 25 16, bits (body.getD 1 0) 9 0) (bits (body.getD 1 0) 7 0) := by
  have hgood : ¬ (kind = .production ∧
      (!(tubeNumberOk (bits (body.getD 1 0) 25 16) && tubeNumberOk (bits (body.getD 1 0) 9 0))) = true) := by
    rintro ⟨hproduction, hbad⟩
    rw [(tubeNumbersOk_iff _).mpr (htube hproduction)] at hbad
    exact absurd hbad (by decide)
  simp only [State.armDecision, hcode, hlength, hlane, ne_eq, not_true_eq_false, if_false, if_neg hgood]

end Decision

/-! ### The profile of admission check 2 (R41, R62) -/

section Profile

variable (s : State)

/-- The search takes the first matching zone below the limit. -/
theorem zoneProfileOf_eq_some_iff (row col p : Nat) :
    s.zoneProfileOf row col = some p ↔
      ∃ i, i < (s.tables.currentEntry .tubeMap).limit ∧ zoneMatches (s.tables.currentRow .tubeMap i) row col = true
        ∧ (∀ j, j < i → zoneMatches (s.tables.currentRow .tubeMap j) row col = false)
        ∧ p = zoneProfile (s.tables.currentRow .tubeMap i) := by
  simp only [State.zoneProfileOf, Option.map_eq_some_iff, List.find?_range_eq_some, List.mem_range,
    Bool.not_eq_true']
  constructor
  · rintro ⟨i, ⟨hmatch, hlimit, hfirst⟩, rfl⟩
    exact ⟨i, hlimit, hmatch, hfirst, rfl⟩
  · rintro ⟨i, hlimit, hmatch, hfirst, rfl⟩
    exact ⟨i, ⟨hmatch, hlimit, hfirst⟩, rfl⟩

theorem layoutValid_iff (p : Nat) :
    s.layoutValid p = true ↔ p < (s.tables.currentEntry .layout).limit
      ∧ layoutCount (s.tables.currentRow .layout p) ≠ 0 := by
  simp [State.layoutValid]

/-- The profile a LANE ARM asks for, before its LAYOUT row is looked at: that of the tube's zone, or the one named. -/
def State.askedProfile (s : State) (tube : Nat × Nat) (named : Nat) : RunKind → Option Nat
  | .production => s.zoneProfileOf tube.1 tube.2
  | .standard => some named

theorem armProfile_eq_filter (kind : RunKind) (tube : Nat × Nat) (named : Nat) :
    s.armProfile kind tube named = (s.askedProfile tube named kind).filter s.layoutValid := by
  cases kind <;> rfl

theorem armProfile_eq_some_iff (kind : RunKind) (tube : Nat × Nat) (named p : Nat) :
    s.armProfile kind tube named = some p ↔ s.askedProfile tube named kind = some p
      ∧ p < (s.tables.currentEntry .layout).limit ∧ layoutCount (s.tables.currentRow .layout p) ≠ 0 := by
  rw [armProfile_eq_filter, Option.filter_eq_some_iff, layoutValid_iff]

end Profile

/-! ### The admission checks in order (R41) -/

section Admission

variable {s : State} {l : LaneId} {kind : RunKind} {tube : Nat × Nat} {named p : Nat}

theorem admissionCheck_offline (h : (s.lane l).runState = .offline) :
    s.admissionCheck l kind tube named = .refuse .offline := by
  simp only [State.admissionCheck, h]

theorem admissionCheck_notIdle (hidle : (s.lane l).runState ≠ .idle) (honline : (s.lane l).runState ≠ .offline) :
    s.admissionCheck l kind tube named = .refuse .notIdle := by
  unfold State.admissionCheck
  cases hstate : (s.lane l).runState with
  | offline => exact absurd hstate honline
  | idle => exact absurd hstate hidle
  | armed => rfl
  | inserting => rfl
  | pulling => rfl
  | closing => rfl

theorem admissionCheck_noLayout (hidle : (s.lane l).runState = .idle) (hprofile : s.armProfile kind tube named = none) :
    s.admissionCheck l kind tube named = .refuse .noLayout := by
  simp only [State.admissionCheck, hidle, hprofile]

theorem admissionCheck_needsStandard (hidle : (s.lane l).runState = .idle)
    (hprofile : s.armProfile kind tube named = some p) (hproduction : kind = .production)
    (hgroup : ¬ ((s.group l).state = .opened ∧ (s.group l).pending = false)) :
    s.admissionCheck l kind tube named = .refuse .needsStandard := by
  have hfail : kind = .production ∧ ((s.group l).state ≠ .opened ∨ (s.group l).pending = true) :=
    ⟨hproduction, Decidable.or_iff_not_imp_left.mpr fun hopened =>
      eq_true_of_ne_false fun hpending => hgroup ⟨Decidable.not_not.mp hopened, hpending⟩⟩
  simp only [State.admissionCheck, hidle, hprofile, if_pos hfail]

/-- A kind that needs a group passes check 3 in one that is OPEN. -/
theorem not_needsStandard
    (hgroup : kind = .production → (s.group l).state = .opened ∧ (s.group l).pending = false) :
    ¬ (kind = .production ∧ ((s.group l).state ≠ .opened ∨ (s.group l).pending = true)) := by
  rintro ⟨hprod, hclosed⟩
  obtain ⟨hopened, hpending⟩ := hgroup hprod
  exact hclosed.elim (fun h => h hopened) (fun h => absurd (hpending.symm.trans h) (by decide))

theorem admissionCheck_groupFull (hidle : (s.lane l).runState = .idle)
    (hprofile : s.armProfile kind tube named = some p) (hproduction : kind = .production)
    (hgroup : (s.group l).state = .opened ∧ (s.group l).pending = false)
    (hfull : Config.groupCapacity ≤ (s.group l).runs.length) :
    s.admissionCheck l kind tube named = .refuse .groupFull := by
  have hfail : kind = .production ∧ Config.groupCapacity ≤ (s.group l).runs.length := ⟨hproduction, hfull⟩
  simp only [State.admissionCheck, hidle, hprofile, if_neg (not_needsStandard fun _ => hgroup), if_pos hfail]

theorem admissionCheck_outOfLimit (hidle : (s.lane l).runState = .idle)
    (hprofile : s.armProfile kind tube named = some p)
    (hgroup : kind = .production → (s.group l).state = .opened ∧ (s.group l).pending = false)
    (hroom : kind = .production → (s.group l).runs.length < Config.groupCapacity) (hserial : s.tables.serial = none) :
    s.admissionCheck l kind tube named = .refuse .outOfLimit := by
  have hlisted : ¬ (kind = .production ∧ Config.groupCapacity ≤ (s.group l).runs.length) :=
    fun h => Nat.not_le.mpr (hroom h.1) h.2
  simp only [State.admissionCheck, hidle, hprofile, if_neg (not_needsStandard hgroup), if_neg hlisted, hserial]

end Admission

/-! ### The obligation -/

/-- Settles O44: each refusal is the decision on the body, and a decision against has no other effect. -/
theorem armRefused : Obligations.ArmRefused := by
  refine ⟨fun s r first hserves hroom => ?_,
    fun s r first l kind hserves hroom hlength hlane hcode => ?_, zoneProfileOf_eq_some_iff⟩
  · intro code lane refused
    have hrefused : ∀ st, s.armDecision r.body = .refuse st → refused st :=
      fun _ => exec_laneArm_refused hserves hroom
    refine ⟨fun hbody => hrefused _ ?_, fun hknown hlength hlane => hrefused _ ?_,
      fun hproduction hlength hlane htube => hrefused _ ?_⟩
    · rcases hbody with hcode | hlength
      · exact armDecision_unknownCode s (armKindOf_eq_none hcode)
      · exact armDecision_wrongLength s hlength
    · rcases hknown with hproduction | hstandard
      · exact armDecision_unknownLane s (congrArg armKindOf hproduction) hlength (bodyLane_eq_none hlane)
      · exact armDecision_unknownLane s (congrArg armKindOf hstandard) hlength (bodyLane_eq_none hlane)
    · exact armDecision_badTube s (congrArg armKindOf hproduction) hlength (bodyLane_eq_some hlane) htube
  · intro row col htube profile valid refused idle opened
    have hrefused : ∀ st,
        s.admissionCheck l kind (row, col) (bits (r.body.getD 1 0) 7 0) = .refuse st → refused st :=
      fun _ hcheck => exec_laneArm_refused hserves hroom
        ((armDecision_goodBody s hcode hlength hlane htube).trans hcheck)
    have hasked : profile = s.askedProfile (row, col) (bits (r.body.getD 1 0) 7 0) kind := by
      cases kind <;> rfl
    have hvalid : valid ↔ ∃ p, s.armProfile kind (row, col) (bits (r.body.getD 1 0) 7 0) = some p := by
      simp only [valid, hasked, armProfile_eq_some_iff]
    rw [hvalid]
    refine ⟨fun hoffline => hrefused _ (admissionCheck_offline hoffline),
      fun hbusy honline => hrefused _ (admissionCheck_notIdle hbusy honline),
      fun hidle hnone => hrefused _ (admissionCheck_noLayout hidle ?_), ?_, ?_, ?_⟩
    · exact Option.eq_none_iff_forall_ne_some.mpr fun p hp => hnone ⟨p, hp⟩
    · rintro hidle ⟨p, hp⟩ hproduction hgroup
      exact hrefused _ (admissionCheck_needsStandard hidle hp hproduction hgroup)
    · rintro hidle ⟨p, hp⟩ hproduction hgroup hfull
      exact hrefused _ (admissionCheck_groupFull hidle hp hproduction hgroup hfull)
    · rintro hidle ⟨p, hp⟩ hgroup hserial
      exact hrefused _ (admissionCheck_outOfLimit hidle hp (fun h => (hgroup h).1) (fun h => (hgroup h).2) hserial)

end Sys2Proof.Machine

/-! PROOFS. The comparison of a capture (R121), the capture of references on the pull of a STANDARD run (R112 to R115)
and the verdict of a run (R54, R122). -/

namespace Sys2Proof.Machine

open Sys2Proof

/-! ### Comparing a capture (R121) -/

section Comparing

variable (magTol phaseTol : Nat) (capture reference : Peak)

/-- The sum of the two truncated differences is the distance of the numbers. -/
theorem sub_add_sub_eq_natAbs (a b : Nat) : (a - b) + (b - a) = ((a : Int) - b).natAbs := by
  omega

theorem phaseDistance_eq (a b : Nat) :
    phaseDistance a b =
      if ((a : Int) - b).natAbs ≤ 1800 then ((a : Int) - b).natAbs else 3600 - ((a : Int) - b).natAbs := by
  simp only [phaseDistance, sub_add_sub_eq_natAbs]

theorem comparePeak_magError_iff :
    (comparePeak magTol phaseTol capture reference).magError = true ↔
      magTol * reference.mag < ((capture.mag : Int) - reference.mag).natAbs * 100 := by
  simp only [comparePeak, sub_add_sub_eq_natAbs, decide_eq_true_eq]

theorem comparePeak_phaseError_iff :
    (comparePeak magTol phaseTol capture reference).phaseError = true ↔
      phaseTol < phaseDistance capture.phase reference.phase := by
  simp only [comparePeak, decide_eq_true_eq]

theorem liesWithin_iff (f : CompareFlag) : liesWithin f = true ↔ ¬ f.magError = true ∧ ¬ f.phaseError = true := by
  simp only [liesWithin, Bool.and_eq_true, Bool.not_eq_true', Bool.not_eq_true]

/-- Both ends of the tolerances lie within. -/
theorem liesWithin_comparePeak_iff :
    liesWithin (comparePeak magTol phaseTol capture reference) = true ↔
      ((capture.mag : Int) - reference.mag).natAbs * 100 ≤ magTol * reference.mag
        ∧ phaseDistance capture.phase reference.phase ≤ phaseTol := by
  rw [liesWithin_iff, comparePeak_magError_iff, comparePeak_phaseError_iff, Nat.not_lt, Nat.not_lt]

end Comparing

/-! ### Peaks (R115) -/

section Peaks

variable {row : StandardRow} {f : Frame} {r : RefCapture} {ch : Channel} {old : Peak}

theorem trackPeak_empty (ch : Channel) : trackPeak ch none = some ⟨ch.mag, ch.phase⟩ := rfl

theorem trackPeak_greater (h : old.mag < ch.mag) : trackPeak ch (some old) = some ⟨ch.mag, ch.phase⟩ := if_pos h

/-- An equal magnitude keeps the earlier peak. -/
theorem trackPeak_notGreater (h : ch.mag ≤ old.mag) : trackPeak ch (some old) = some old := if_neg (Nat.not_lt.mpr h)

/-- Each listed channel has its own peak tracked. -/
theorem trackReference_peak {i c : Nat} {p : Option Peak} (hchannel : row.channels[i]? = some c)
    (hpeak : r.peaks[i]? = some p) :
    (trackReference row f r).peaks[i]? = some (trackPeak (channelAt f.channels c) p) := by
  simp only [trackReference, List.getElem?_zipWith, hchannel, hpeak]

theorem reachesFloor_iff (row : StandardRow) (r : RefCapture) :
    reachesFloor row r = true ↔ ∀ p ∈ r.peaks, ∃ q, p = some q ∧ row.floor ≤ q.mag := by
  rw [reachesFloor, List.all_eq_true]
  refine forall₂_congr fun p _ => ?_
  cases p with
  | none => simp
  | some q => simp

end Peaks

/-! ### A reference's state on an evaluated frame, by the state before it (R113) -/

section CaptureStep

variable {row : StandardRow} {f : Frame} {r : RefCapture}

theorem captureStep_unseen (h : r.state = .unseen) :
    captureStep row f r =
      if row.nominal + row.halfWidth < f.corrected then { r with state := .deep } else { r with state := .broken } := by
  simp only [captureStep, h]

theorem captureStep_deep (h : r.state = .deep) :
    captureStep row f r =
      if row.nominal + row.halfWidth < f.corrected then r
      else if f.corrected < row.nominal - row.halfWidth then { r with state := .broken }
      else trackReference row f r := by
  simp only [captureStep, h]

theorem captureStep_inside (h : r.state = .inside) :
    captureStep row f r =
      if row.nominal + row.halfWidth < f.corrected then r
      else if f.corrected < row.nominal - row.halfWidth then
        { r with state := if reachesFloor row r then .captured else .belowFloor }
      else trackReference row f r := by
  simp only [captureStep, h]

theorem captureFinal_iff (st : CaptureState) :
    captureFinal st = true ↔ st = .captured ∨ st = .belowFloor ∨ st = .broken := by
  cases st <;> decide

theorem captureFinal_eq_false_iff (st : CaptureState) :
    captureFinal st = false ↔ st = .unseen ∨ st = .deep ∨ st = .inside := by
  cases st <;> decide

theorem captureStep_final (h : captureFinal r.state = true) : captureStep row f r = r := by
  rcases (captureFinal_iff _).mp h with hst | hst | hst <;> simp only [captureStep, hst]

end CaptureStep

/-! ### Loss over a window, before the step (R112, R114) -/

section CaptureLoss

variable {row : StandardRow} {f : Frame} {r : RefCapture}

/-- The frame's loss interval shares a position with the reference's window, both with their ends (R114). -/
def lossShares (row : StandardRow) (f : Frame) : Prop :=
  row.nominal - row.halfWidth ≤ max f.lossStart f.corrected ∧ min f.lossStart f.corrected ≤ row.nominal + row.halfWidth

theorem captureLoss_breaks (hshares : lossShares row f) (hopen : captureFinal r.state = false) :
    captureLoss row f r = { r with state := .broken } := by
  simp only [captureLoss, hopen, Bool.false_eq_true, if_false]
  exact if_pos hshares

theorem captureLoss_keeps (h : ¬ (lossShares row f ∧ captureFinal r.state = false)) : captureLoss row f r = r := by
  cases hfinal : captureFinal r.state with
  | true => simp only [captureLoss, hfinal, if_true]
  | false =>
    have hapart : ¬ lossShares row f := fun hshares => h ⟨hshares, hfinal⟩
    simp only [captureLoss, hfinal, Bool.false_eq_true, if_false]
    exact if_neg hapart

/-- A broken reference stays so on the frame that breaks it: the loss test comes before the step. -/
theorem captureReference_broken (htested : f.cls = .fault ∨ 0 < f.lost) (hshares : lossShares row f)
    (hopen : captureFinal r.state = false) : captureReference row f r = { r with state := .broken } := by
  simp only [captureReference, if_pos htested, captureLoss_breaks hshares hopen]
  split
  · exact captureStep_final rfl
  · rfl

theorem captureReference_unbroken
    (h : ¬ ((f.cls = .fault ∨ 0 < f.lost) ∧ lossShares row f ∧ captureFinal r.state = false)) :
    captureReference row f r = if f.cls = .normal then captureStep row f r else r := by
  have hloss : (if f.cls = .fault ∨ 0 < f.lost then captureLoss row f r else r) = r := by
    split
    next htested => exact captureLoss_keeps fun hbreaks => h ⟨htested, hbreaks⟩
    next => rfl
  simp only [captureReference, hloss]

end CaptureLoss

/-! ### The frames that capture (R112) -/

theorem capturesOn_iff (kind : RunKind) (f : Frame) :
    capturesOn kind f = true ↔ kind = .standard ∧ f.phase = .pulling ∧ (f.cls = .normal ∨ f.cls = .fault) := by
  simp only [capturesOn, reportsLoss, Bool.and_eq_true, Bool.or_eq_true, beq_iff_eq, and_assoc]

/-- A frame's loss report is no work of the evaluator. -/
theorem evaluator_reportLoss (f : Frame) (c : RunContext) : (reportLoss f c).evaluator = c.evaluator := by
  unfold reportLoss
  dsimp only
  split <;> rfl

theorem captureFrame_capture (rows : Nat → StandardRow) (f : Frame) (e : Evaluator) (k : Fin 8) :
    (captureFrame rows f e).captures[k] = (e.captures[k]).map (captureReference (rows k) f) :=
  vtab_get 8 _ k

theorem evaluator_doneAtOnce (rows : Nat → StandardRow) (f : Frame) (c : RunContext) :
    (doneAtOnce rows f c).evaluator =
      if capturesOn c.kind f then captureFrame rows f c.evaluator else c.evaluator := by
  have hreported : (if reportsLoss f.cls then reportLoss f c else c).evaluator = c.evaluator := by
    split
    · exact evaluator_reportLoss f c
    · rfl
  rw [← hreported]
  unfold doneAtOnce
  dsimp only
  split <;> rfl

/-! ### The verdict (R54, R122) -/

section Verdict

variable {rows : Nat → StandardRow} {c : RunContext}

/-- A Boolean test that asks something only when a flag is set. -/
theorem not_flag_or_iff (flag : Bool) (p : Prop) : (!flag) = true ∨ p ↔ (flag = true → p) := by
  cases flag with
  | false => exact iff_of_true (.inl rfl) (fun h => nomatch h)
  | true => exact ⟨fun h _ => h.resolve_left Bool.false_ne_true, fun h => .inr (h rfl)⟩

theorem isCapturedRef_iff (o : Option RefCapture) :
    isCapturedRef o = true ↔ ∃ r, o = some r ∧ r.state = .captured := by
  cases o with
  | none => simp [isCapturedRef]
  | some r => simp [isCapturedRef]

theorem allCaptured_iff (rows : Nat → StandardRow) (e : Evaluator) :
    allCaptured rows e = true ↔
      ∀ k : Fin 8, (rows k).used = true → ∃ r, e.captures[k] = some r ∧ r.state = .captured := by
  simp only [allCaptured, List.all_eq_true, List.mem_finRange, forall_const, Bool.or_eq_true, not_flag_or_iff,
    isCapturedRef_iff]

/-- All pairs of two lists taken together pass a test when those at each index do. -/
theorem all_zipWith_iff {α β γ : Type} (g : α → β → γ) (test : γ → Bool) (as : List α) (bs : List β) :
    (List.zipWith g as bs).all test = true ↔
      ∀ (i : Nat) (a : α) (b : β), as[i]? = some a → bs[i]? = some b → test (g a b) = true := by
  rw [List.all_eq_true]
  constructor
  · intro h i a b ha hb
    refine h _ (List.mem_of_getElem? (i := i) ?_)
    rw [List.getElem?_zipWith, ha, hb]
  · intro h x hx
    obtain ⟨i, hi⟩ := List.mem_iff_getElem?.mp hx
    obtain ⟨a, b, ha, hb, rfl⟩ := List.getElem?_zipWith_eq_some.mp hi
    exact h i a b ha hb

theorem allAccepted_iff (rows : Nat → StandardRow) (e : Evaluator) :
    allAccepted rows e = true ↔
      ∀ (k : Fin 8) (r : RefCapture), (rows k).used = true → e.captures[k] = some r →
        ∀ (i : Nat) (p x : Peak), (capturedPeaks r)[i]? = some p → (rows k).expected[i]? = some x →
          liesWithin (comparePeak (rows k).accMag (rows k).accPhase p x) = true := by
  simp only [allAccepted, List.all_eq_true, List.mem_finRange, forall_const]
  refine forall_congr' fun k => ?_
  cases hcapture : e.captures[k] with
  | none => simp
  | some r =>
    simp only [Bool.or_eq_true, not_flag_or_iff, all_zipWith_iff, Option.some.injEq]
    exact ⟨fun h r' hused heq => heq ▸ h hused, fun h hused => h r hused rfl⟩

theorem verdictOf_notEvaluated (h : c.reason ≠ some .complete ∨ ¬ allCaptured rows c.evaluator = true) :
    verdictOf rows c = .notEvaluated :=
  if_pos (h.imp_right fun hmissing => congrArg not (Bool.eq_false_iff.mpr hmissing))

theorem verdictOf_evaluated (hreason : c.reason = some .complete) (hcaptured : allCaptured rows c.evaluator = true) :
    verdictOf rows c = if allAccepted rows c.evaluator then .accepted else .rejected := by
  simp [verdictOf, hreason, hcaptured]

end Verdict

/-! ### The obligation -/

/-- Settles O51: the two flags, the reference's step by its state, its peaks, the loss test, the frames that capture
and the verdict. -/
theorem captureCompared : Obligations.CaptureCompared := by
  refine ⟨?_, ?_, ?_, ?_, ?_, ?_⟩
  · intro magTol phaseTol capture reference _ _ dm da distance
    have hdistance : phaseDistance capture.phase reference.phase = distance := phaseDistance_eq _ _
    rw [← hdistance]
    exact ⟨comparePeak_magError_iff .., comparePeak_phaseError_iff .., liesWithin_comparePeak_iff ..⟩
  · intro row f r deep shallow u put
    rw [← reachesFloor_iff]
    refine ⟨fun hst => ?_, fun hst => ?_, fun hst => ?_, fun hst => captureStep_final ((captureFinal_iff _).mpr hst)⟩
    · have hu : u = if deep then put .deep else put .broken := captureStep_unseen hst
      exact ⟨fun hdeep => hu.trans (if_pos hdeep), fun hdeep => hu.trans (if_neg hdeep)⟩
    · have hu : u = if deep then r else if shallow then put .broken else trackReference row f r := captureStep_deep hst
      refine ⟨fun hdeep => ?_, fun hdeep hshallow => ?_, fun hdeep hshallow => ?_⟩
      · rw [hu, if_pos hdeep]
      · rw [hu, if_neg hdeep, if_pos hshallow]
      · rw [hu, if_neg hdeep, if_neg hshallow]
    · have hu : u = if deep then r else if shallow then put (if reachesFloor row r then .captured else .belowFloor)
          else trackReference row f r := captureStep_inside hst
      refine ⟨fun hdeep => ?_, fun hdeep hshallow => ?_, fun hdeep hshallow hfloor => ?_,
        fun hdeep hshallow hfloor => ?_⟩
      · rw [hu, if_pos hdeep]
      · rw [hu, if_neg hdeep, if_neg hshallow]
      · rw [hu, if_neg hdeep, if_pos hshallow, if_pos hfloor]
      · rw [hu, if_neg hdeep, if_pos hshallow, if_neg hfloor]
  · intro row f r
    refine ⟨rfl, fun i ch p hchannel hpeak => ?_⟩
    rw [trackReference_peak hchannel hpeak]
    refine ⟨?_, ?_⟩
    · rintro rfl
      exact congrArg some (trackPeak_empty _)
    · rintro old rfl
      exact ⟨fun h => congrArg some (trackPeak_greater h), fun h => congrArg some (trackPeak_notGreater h)⟩
  · intro row f r tested shares open'
    have hopen : open' ↔ captureFinal r.state = false := (captureFinal_eq_false_iff _).symm
    rw [hopen]
    exact ⟨captureReference_broken, captureReference_unbroken⟩
  · intro rows f c captures
    have hcaptures : captures ↔ capturesOn c.kind f = true := (capturesOn_iff _ _).symm
    rw [hcaptures, evaluator_doneAtOnce]
    refine ⟨fun h => if_neg h, fun h k => ?_⟩
    rw [if_pos h]
    exact captureFrame_capture rows f c.evaluator k
  · intro rows c captured within
    have hcaptured : captured ↔ allCaptured rows c.evaluator = true := (allCaptured_iff _ _).symm
    have hwithin : within ↔ allAccepted rows c.evaluator = true := (allAccepted_iff _ _).symm
    rw [hcaptured, hwithin]
    exact ⟨verdictOf_notEvaluated, fun hreason h hall => (verdictOf_evaluated hreason h).trans (if_pos hall),
      fun hreason h hall => (verdictOf_evaluated hreason h).trans (if_neg hall)⟩

end Sys2Proof.Machine

/-! PROOFS. The request queue (R176), a request served with REPLY queue room only (R177), the checks of TABLE WRITE
(R169) and DIRECTORY SET (R167). -/

namespace Sys2Proof.Machine

open Sys2Proof

/-! ### A checked REQUEST, by the occupancy of the two queues (R176) -/

section Arriving

variable {s : State} {r : Request}

theorem requestArrives_queued (hroom : s.tables.requests.length < 8) :
    s.requestArrives r = s.modTables fun t => { t with requests := t.requests ++ [r] } := if_pos hroom

theorem requestArrives_busy (hfull : 8 ≤ s.tables.requests.length) (hreply : s.trunk.replies.length < 16) :
    s.requestArrives r = s.placeReply ⟨r.tag, .busy, false, []⟩ :=
  (if_neg (Nat.not_lt.mpr hfull)).trans (if_pos (decide_eq_true hreply))

theorem requestArrives_discarded (hfull : 8 ≤ s.tables.requests.length) (hreplies : 16 ≤ s.trunk.replies.length) :
    s.requestArrives r = s := by
  have hnoRoom : s.replyRoom = false := decide_eq_false (Nat.not_lt.mpr hreplies)
  exact (if_neg (Nat.not_lt.mpr hfull)).trans (if_neg (ne_true_of_eq_false hnoRoom))

/-- While the reset line is released, a frame that classifies as a request arrives as one (R150, R180). -/
theorem exec_requestArrival_request {words : List Word} {tag : BitVec 16} {kind : Nat} {body : List Word}
    (hline : s.resetLine = false) (hclass : classifyStation words = .request tag kind body) :
    exec (.requestArrival words) s = .next (s.requestArrives ⟨tag, kind, body⟩) := by
  show execRequestArrival words s = _
  simp [execRequestArrival, State.stationFrame, State.stationFrameEnd, hline, hclass]

end Arriving

/-- Settles O34: the two queues' occupancies choose among the three ends of a request. -/
theorem requestArrives : Obligations.RequestArrives := by
  intro s words tag kind body hline hclass
  rw [exec_requestArrival_request hline hclass]
  exact ⟨fun hroom => congrArg _ (requestArrives_queued hroom),
    fun hfull hreply => congrArg _ (requestArrives_busy hfull hreply),
    fun hfull hreplies => congrArg _ (requestArrives_discarded hfull hreplies)⟩

/-! ### A request that needs REPLY queue room only, served (R177) -/

section Served

variable {s : State} {r : Request} {kind : RequestKind} {handle : State → List Word → State × Answer}

/-- The head request leaves its queue and is handled, and its reply is placed. -/
theorem serve_taken (hserves : s.serves kind r) :
    s.serve kind handle =
      (handle s.dropHead r.body).1.answerRequest r.tag (handle s.dropHead r.body).2 := by
  obtain ⟨hhead, hreply⟩ := hserves
  have hreplyRoom : s.replyRoom = true := decide_eq_true hreply
  simp [State.serve, headRequest_of_headIs hhead, hreplyRoom]

/-- A request that its handler refuses is answered with the status alone, and has no other effect. -/
theorem serve_refused {st : Status} (hserves : s.serves kind r)
    (hrefuse : handle s.dropHead r.body = (s.dropHead, answer st)) :
    s.serve kind handle = s.dropHead.placeReply ⟨r.tag, st, false, []⟩ := by
  rw [serve_taken hserves, hrefuse, answerRequest_answer]

end Served

/-! ### The checks of TABLE WRITE in their order (R169) -/

/-- Check 1 of R169: part and count in their ranges, and the length the count implies. -/
def writeFormed (body : List Word) : Prop :=
  (writeBodyOf body).part ≤ 6 ∧ 1 ≤ (writeBodyOf body).count ∧ (writeBodyOf body).count ≤ 16
    ∧ body.length = 1 + (writeBodyOf body).count

/-- The model's form of check 1 names its failures. -/
theorem not_writeFormed_iff (body : List Word) :
    ¬ writeFormed body ↔ body.length = 0 ∨ 6 < (writeBodyOf body).part ∨ (writeBodyOf body).count = 0
      ∨ 16 < (writeBodyOf body).count ∨ body.length ≠ 1 + (writeBodyOf body).count := by
  unfold writeFormed
  omega

section WriteCheck

variable {s : State} {body : List Word} {k : Kind}

theorem writeCheck_unformed (hform : ¬ writeFormed body) : s.writeCheck body = (.badRequest, none) :=
  if_pos ((not_writeFormed_iff body).mp hform)

theorem writeCheck_badKind (hform : writeFormed body) (hkind : kindOf (writeBodyOf body).kind = none) :
    s.writeCheck body = (.badKind, none) := by
  have hpass := mt (not_writeFormed_iff body).mpr (not_not_intro hform)
  simp only [State.writeCheck, if_neg hpass, hkind]

/-- Checks 3 to 5, of a well-formed body of a known kind. -/
theorem writeCheck_formed (hform : writeFormed body) (hkind : kindOf (writeBodyOf body).kind = some k) :
    s.writeCheck body =
      if rowWords k < 16 * (writeBodyOf body).part + (writeBodyOf body).count then (.badRequest, none)
      else if (s.tables.stagingEntry k).limit ≤ (writeBodyOf body).row then (.outOfLimit, none)
      else if s.stagingCaptured k then (.inUse, none) else (.ok, some k) := by
  have hpass := mt (not_writeFormed_iff body).mpr (not_not_intro hform)
  simp only [State.writeCheck, if_neg hpass, hkind]

theorem handleTableWrite_refused {st : Status} (hcheck : s.writeCheck body = (st, none)) :
    s.handleTableWrite body = (s, answer st) := by
  simp only [State.handleTableWrite, hcheck]

/-- The checks read tables and lanes, not the request queue. -/
theorem writeCheck_dropHead : s.dropHead.writeCheck body = s.writeCheck body := rfl

/-- A TABLE WRITE that fails a check is answered with its status, and has no other effect. -/
theorem exec_tableWrite_refused {r : Request} {st : Status} (hserves : s.serves .tableWrite r)
    (hcheck : s.writeCheck r.body = (st, none)) :
    exec .tableWrite s = .next (s.dropHead.placeReply ⟨r.tag, st, false, []⟩) :=
  congrArg _ (serve_refused hserves (handleTableWrite_refused (writeCheck_dropHead.trans hcheck)))

end WriteCheck

/-- Settles O36: each check of R169 refuses once the checks before it have passed. -/
theorem writeChecked : Obligations.WriteChecked := by
  intro s r hserves b refused formed
  refine ⟨fun hform => ?_, fun hform hkind => ?_, fun k hform hkind => ⟨fun hlong => ?_, fun hshort hbeyond => ?_,
    fun hshort hbelow hcaptured => ?_⟩⟩ <;>
  refine exec_tableWrite_refused hserves ?_
  · exact writeCheck_unformed hform
  · exact writeCheck_badKind hform hkind
  · rw [writeCheck_formed hform hkind, if_pos hlong]
  · rw [writeCheck_formed hform hkind, if_neg (Nat.not_lt.mpr hshort), if_pos hbeyond]
  · rw [writeCheck_formed hform hkind, if_neg (Nat.not_lt.mpr hshort), if_neg (Nat.not_le.mpr hbelow), if_pos hcaptured]

/-! ### The checks of DIRECTORY SET in their order (R167) -/

/-- The directory entry a DIRECTORY SET body asks for. -/
def bodyEntry (body : List Word) : DirEntry := ⟨(body.getD 1 0).toNat, (body.getD 2 0).toNat⟩

/-- Check 4 of R167: base, limit and end of the new extent in their ranges. -/
def DirEntry.admissible (k : Kind) (e : DirEntry) : Prop :=
  e.base ≤ 65535 ∧ e.limit ≤ maxRows k ∧ e.base + e.limit * rowWords k ≤ 65536

theorem not_admissible_iff (k : Kind) (e : DirEntry) :
    ¬ e.admissible k ↔ Config.tableWords ≤ e.base ∨ maxRows k < e.limit
      ∨ Config.tableWords < e.base + e.limit * rowWords k := by
  unfold DirEntry.admissible Config.tableWords
  omega

/-- A word shared with the nonempty extent of another entry is an overlap. -/
theorem overlaps_of_shared {t : Tables} {k : Kind} {c : CopyIndex} {e : DirEntry} {k' : Kind} {c' : CopyIndex}
    (hother : ¬ (k' = k ∧ c' = c)) (hne : e.limit ≠ 0) (hne' : ((t.kind k').entry c').limit ≠ 0)
    (hbelow : e.base < ((t.kind k').entry c').base + ((t.kind k').entry c').limit * rowWords k')
    (habove : ((t.kind k').entry c').base < e.base + e.limit * rowWords k) : t.overlaps k c e = true := by
  cases hoverlaps : t.overlaps k c e with
  | true => rfl
  | false =>
    have hapart := (extentsApart_iff ..).mp (apart_of_not_overlaps hoverlaps k' c' hother)
    omega

section DirectoryCheck

variable {s : State} {body : List Word} {k : Kind}

theorem handleDirectorySet_badLength (hlength : body.length ≠ 3) :
    s.handleDirectorySet body = (s, answer .badRequest) := if_pos hlength

theorem handleDirectorySet_badKind (hlength : body.length = 3) (hkind : bodyKind body = none) :
    s.handleDirectorySet body = (s, answer .badKind) := by
  simp only [State.handleDirectorySet, if_neg (not_not_intro hlength), hkind]

/-- Checks 3 to 5 and the set itself, of a body of the right length and a known kind. -/
theorem handleDirectorySet_formed (hlength : body.length = 3) (hkind : bodyKind body = some k) :
    s.handleDirectorySet body =
      if s.stagingCaptured k then (s, answer .inUse)
      else if Config.tableWords ≤ (bodyEntry body).base ∨ maxRows k < (bodyEntry body).limit
        ∨ Config.tableWords < (bodyEntry body).base + (bodyEntry body).limit * rowWords k then (s, answer .outOfLimit)
      else if s.tables.overlaps k (s.tables.kind k).stagingIndex (bodyEntry body) then (s, answer .overlap)
      else (s.modTables (setExtent k (bodyEntry body)),
        { answer .ok with prior := isStaging (s.tables.kind k).staging }) := by
  simp only [State.handleDirectorySet, if_neg (not_not_intro hlength), hkind]
  rfl

theorem handleDirectorySet_captured (hlength : body.length = 3) (hkind : bodyKind body = some k)
    (hcaptured : s.stagingCaptured k = true) : s.handleDirectorySet body = (s, answer .inUse) := by
  rw [handleDirectorySet_formed hlength hkind, if_pos hcaptured]

theorem handleDirectorySet_outOfLimit (hlength : body.length = 3) (hkind : bodyKind body = some k)
    (hfree : s.stagingCaptured k = false) (hrange : ¬ (bodyEntry body).admissible k) :
    s.handleDirectorySet body = (s, answer .outOfLimit) := by
  rw [handleDirectorySet_formed hlength hkind, if_neg (ne_true_of_eq_false hfree),
    if_pos ((not_admissible_iff _ _).mp hrange)]

/-- With checks 1 to 4 passed, check 5 decides. -/
theorem handleDirectorySet_admissible (hlength : body.length = 3) (hkind : bodyKind body = some k)
    (hfree : s.stagingCaptured k = false) (hrange : (bodyEntry body).admissible k) :
    s.handleDirectorySet body =
      if s.tables.overlaps k (s.tables.kind k).stagingIndex (bodyEntry body) then (s, answer .overlap)
      else (s.modTables (setExtent k (bodyEntry body)),
        { answer .ok with prior := isStaging (s.tables.kind k).staging }) := by
  rw [handleDirectorySet_formed hlength hkind, if_neg (ne_true_of_eq_false hfree),
    if_neg (mt (not_admissible_iff _ _).mpr (not_not_intro hrange))]

end DirectoryCheck

/-! ### The content of the new extent (R167) -/

/-- A block of zeros written reads 0. -/
theorem memRead_memWriteBlock_zeros {m : Memory} (hm : m.wf = true) {base n a : Nat} (hlow : base ≤ a)
    (hhigh : a < base + n) (ha : a < Config.tableWords) :
    memRead (memWriteBlock m base (List.replicate n 0)) a = 0 := by
  obtain ⟨i, rfl⟩ := Nat.exists_eq_add_of_le hlow
  have hi : i < n := by omega
  rw [memRead_memWriteBlock_inside _ base i hm (by rwa [List.length_replicate]) ha]
  simp [hi]

theorem memReadBlock_of_zeros {m : Memory} {base n : Nat} (h : ∀ i < n, memRead m (base + i) = 0) :
    memReadBlock m base n = List.replicate n 0 := by
  rw [memReadBlock, List.map_eq_replicate_iff.mpr, List.length_range]
  exact fun i hi => h i (List.mem_range.mp hi)

section Content

variable {k : Kind} {old new : DirEntry} {m : Memory} {a : Nat}

/-- With the base unchanged, the words of the rows below the old limit stand. -/
theorem extentContent_below (hm : m.wf = true) (hbase : new.base = old.base) (ha : a < rowAddress k old old.limit) :
    memRead (extentContent k old new m) a = memRead m a := by
  rw [extentContent, if_pos hbase]
  exact memRead_memWriteBlock_outside _ _ _ hm (.inl ha)

/-- Every other word of the new extent is zero. -/
theorem extentContent_fresh (hm : m.wf = true) (hfits : new.base + new.limit * rowWords k ≤ Config.tableWords)
    (ha : inExtent k new a) (hfresh : new.base ≠ old.base ∨ rowAddress k old old.limit ≤ a) :
    memRead (extentContent k old new m) a = 0 := by
  obtain ⟨hlow, hhigh⟩ := ha
  have hword : a < Config.tableWords := Nat.lt_of_lt_of_le hhigh hfits
  by_cases hbase : new.base = old.base
  · have habove : rowAddress k old old.limit ≤ a := hfresh.resolve_left (absurd hbase)
    rw [extentContent, if_pos hbase]
    refine memRead_memWriteBlock_zeros hm habove ?_ hword
    rw [Nat.sub_mul]
    unfold rowAddress at habove ⊢
    omega
  · rw [extentContent, if_neg hbase]
    exact memRead_memWriteBlock_zeros hm hlow hhigh hword

end Content

/-! ### The tables after the set (R167) -/

section SetExtent

variable {k : Kind} {e : DirEntry} {t : Tables}

theorem setExtent_mem : (setExtent k e t).mem = extentContent k (t.stagingEntry k) e t.mem := rfl

theorem setExtent_kind_same :
    (setExtent k e t).kind k =
      { (t.kind k).setEntry (t.kind k).stagingIndex e with staging := .empty } := Tables.kind_modKind_same _ _ _

theorem setExtent_kind_other {k' : Kind} (h : k' ≠ k) : (setExtent k e t).kind k' = t.kind k' :=
  Tables.kind_modKind_other _ _ _ _ h

theorem setExtent_current : ((setExtent k e t).kind k).current = (t.kind k).current := by
  rw [setExtent_kind_same, KindState.setEntry]
  split <;> rfl

theorem setExtent_staging : ((setExtent k e t).kind k).staging = .empty := by rw [setExtent_kind_same]

/-- The staging copy has the new entry. -/
theorem setExtent_entry_staging : ((setExtent k e t).kind k).entry (t.kind k).stagingIndex = e := by
  rw [setExtent_entry, if_pos ⟨rfl, rfl⟩]

theorem setExtent_stagingEntry : (setExtent k e t).stagingEntry k = e := by
  rw [Tables.stagingEntry, KindState.stagingIndex, setExtent_current]
  exact setExtent_entry_staging

theorem setExtent_currentEntry : (setExtent k e t).currentEntry k = t.currentEntry k := by
  have hother : (t.kind k).current ≠ (t.kind k).stagingIndex := (Bool.eq_not_self _).mp
  rw [Tables.currentEntry, setExtent_current, setExtent_entry, if_neg fun h => hother h.2]
  rfl

/-- A row of the staging copy below its new limit lies in the new extent. -/
theorem setExtent_row {row : Nat} (hrow : row < e.limit) :
    (setExtent k e t).row k (t.kind k).stagingIndex row =
      memReadBlock (extentContent k (t.stagingEntry k) e t.mem) (rowAddress k e row) (rowWords k) := by
  simp only [Tables.row, setExtent_entry_staging, if_pos hrow, setExtent_mem]

/-- Rows below both limits stand when the base stands. -/
theorem setExtent_row_kept (hm : t.mem.wf = true) {row : Nat} (hrow : row < e.limit)
    (hbase : e.base = (t.stagingEntry k).base) (hold : row < (t.stagingEntry k).limit) :
    (setExtent k e t).row k (t.kind k).stagingIndex row = t.row k (t.kind k).stagingIndex row := by
  have hrowOld : t.row k (t.kind k).stagingIndex row =
      memReadBlock t.mem (rowAddress k (t.stagingEntry k) row) (rowWords k) := if_pos hold
  rw [setExtent_row hrow, hrowOld, rowAddress, hbase]
  refine memReadBlock_congr fun a hlow hhigh => extentContent_below hm hbase ?_
  have hend : (row + 1) * rowWords k ≤ (t.stagingEntry k).limit * rowWords k := Nat.mul_le_mul_right _ hold
  rw [Nat.succ_mul] at hend
  unfold rowAddress
  omega

/-- Every other row of the new extent is zero. -/
theorem setExtent_row_zero (hm : t.mem.wf = true) (hfits : e.base + e.limit * rowWords k ≤ Config.tableWords)
    {row : Nat} (hrow : row < e.limit)
    (hfresh : e.base ≠ (t.stagingEntry k).base ∨ (t.stagingEntry k).limit ≤ row) :
    (setExtent k e t).row k (t.kind k).stagingIndex row = zeroRow k := by
  rw [setExtent_row hrow]
  refine memReadBlock_of_zeros fun i hi => extentContent_fresh hm hfits (row_inExtent hrow hi) ?_
  by_cases hbase : e.base = (t.stagingEntry k).base
  · have hstart : (t.stagingEntry k).limit * rowWords k ≤ row * rowWords k :=
      Nat.mul_le_mul_right _ (hfresh.resolve_left (absurd hbase))
    right
    unfold rowAddress
    omega
  · exact .inl hbase

end SetExtent

/-! ### The obligation -/

section DirectorySet

variable {s : State} {r : Request} {k : Kind}

theorem exec_directorySet_refused {st : Status} (hserves : s.serves .directorySet r)
    (hrefuse : s.dropHead.handleDirectorySet r.body = (s.dropHead, answer st)) :
    exec .directorySet s = .next (s.dropHead.placeReply ⟨r.tag, st, false, []⟩) :=
  congrArg _ (serve_refused hserves hrefuse)

theorem exec_directorySet_overlap (hserves : s.serves .directorySet r) (hlength : r.body.length = 3)
    (hkind : bodyKind r.body = some k) (hfree : s.stagingCaptured k = false)
    (hrange : (bodyEntry r.body).admissible k)
    (hshares : s.tables.overlaps k (s.tables.kind k).stagingIndex (bodyEntry r.body) = true) :
    exec .directorySet s = .next (s.dropHead.placeReply ⟨r.tag, .overlap, false, []⟩) :=
  exec_directorySet_refused hserves
    ((handleDirectorySet_admissible (s := s.dropHead) hlength hkind hfree hrange).trans (if_pos hshares))

/-- A DIRECTORY SET that passes its checks sets the extent and is answered OK. -/
theorem exec_directorySet_done (hserves : s.serves .directorySet r) (hlength : r.body.length = 3)
    (hkind : bodyKind r.body = some k) (hfree : s.stagingCaptured k = false)
    (hrange : (bodyEntry r.body).admissible k)
    (hapart : s.tables.overlaps k (s.tables.kind k).stagingIndex (bodyEntry r.body) = false) :
    exec .directorySet s = .next ((s.dropHead.modTables (setExtent k (bodyEntry r.body))).placeReply
      ⟨r.tag, .ok, isStaging (s.tables.kind k).staging, []⟩) := by
  have hset := (handleDirectorySet_admissible (s := s.dropHead) hlength hkind hfree hrange).trans
    (if_neg (ne_true_of_eq_false hapart))
  refine congrArg _ ((serve_taken hserves).trans ?_)
  rw [hset]
  rfl

end DirectorySet

/-- Settles O40: each check of R167 refuses once the checks before it have passed, and a set that passes them all is
setExtent on the staging entry. -/
theorem directorySetHandled : Obligations.DirectorySetHandled := by
  refine ⟨fun s r hserves => ?_,
    fun s r k hserves hlength hkind hfree hm hbase hlimit hend hapart => ?_⟩
  · refine ⟨fun hlength => ?_, fun hlength hkind => ?_, fun k hlength hkind => ⟨fun hcaptured => ?_,
      fun hfree hrange => ?_, fun hfree hrange hshares => ?_⟩⟩
    · exact exec_directorySet_refused hserves (handleDirectorySet_badLength hlength)
    · exact exec_directorySet_refused hserves (handleDirectorySet_badKind hlength hkind)
    · exact exec_directorySet_refused hserves (handleDirectorySet_captured hlength hkind hcaptured)
    · exact exec_directorySet_refused hserves (handleDirectorySet_outOfLimit hlength hkind hfree hrange)
    · obtain ⟨hne, k', c', hother, hne', hbelow, habove⟩ := hshares
      exact exec_directorySet_overlap hserves hlength hkind hfree hrange
        (overlaps_of_shared hother hne hne' hbelow habove)
  · have hrange : (bodyEntry r.body).admissible k := ⟨hbase, hlimit, hend⟩
    refine ⟨s.dropHead.modTables (setExtent k (bodyEntry r.body)),
      exec_directorySet_done hserves hlength hkind hfree hrange hapart, rfl, rfl, rfl, rfl, setExtent_stagingEntry,
      setExtent_currentEntry, setExtent_staging, fun k' hother => setExtent_kind_other hother,
      fun row hrow hstands hold => setExtent_row_kept (t := s.dropHead.tables) hm hrow hstands hold,
      fun row hrow hfresh => setExtent_row_zero (t := s.dropHead.tables) hm hend hrow hfresh, fun a hoff => ?_⟩
    exact extentContent_outside hm fun ⟨hlow, hhigh⟩ => hoff.elim (Nat.not_lt.mpr hlow) (Nat.not_le.mpr hhigh)

end Sys2Proof.Machine

/-! PROOFS. The invariants of the part (O56 to O60): what every command keeps, read off the laws of its act, and that
every command completes. -/

namespace Sys2Proof.Machine

open Sys2Proof

/-! ### The resets -/

theorem Receiver.fits_reset : Receiver.reset.fits where
  fifo := Nat.zero_le _
  loss := nofun
  qualifying := Nat.zero_le _
  pendingLoss := Nat.zero_le _
  check := Nat.zero_le _
  format := Nat.zero_le _
  sequence := Nat.zero_le _
  overflow := Nat.zero_le _
  silence := nofun
  status := Nat.zero_le _

theorem Lane.fits_reset : Lane.reset.fits where
  rx := Receiver.fits_reset
  delay := by simp [Lane.reset]
  dataQueue := by simp [Lane.reset]
  degrade := by simp [Lane.reset]
  run := by simp [Lane.reset]

theorem Trunk.fits_reset : Trunk.reset.fits where
  check := Nat.zero_le _
  eventCredit := Nat.zero_le _
  poolHeaders := Nat.zero_le _
  poolPayload := Nat.zero_le _
  accounts := fun l => by simp [Trunk.reset]
  waiters := List.nodup_nil

theorem lane_reset (l : LaneId) : State.reset.lane l = Lane.reset := by
  simp [State.lane, State.reset]

theorem group_reset (l : LaneId) : State.reset.group l = Group.reset := by
  simp [State.group, State.reset]

/-- A part whose lanes, groups and trunk are those of a reset, silent or not, and whose request queue is empty. -/
structure AtReset (t : State) : Prop where
  lanes : ∀ l, t.lane l = Lane.reset ∨ t.lane l = { Lane.reset with rx := { Receiver.reset with statusTx := none } }
  groups : ∀ l, t.group l = Group.reset
  trunk : t.trunk = Trunk.reset
  requests : t.tables.requests = []

theorem AtReset.fits {t : State} (h : AtReset t) : t.fits where
  lanes := fun l => by
    rcases h.lanes l with hl | hl <;> rw [hl]
    · exact Lane.fits_reset
    · exact { Lane.fits_reset with rx := { Receiver.fits_reset with } }
  groups := fun l => by rw [h.groups l]; exact Nat.zero_le _
  trunk := by rw [h.trunk]; exact Trunk.fits_reset
  events := by rw [h.trunk]; exact Nat.zero_le _
  replies := by rw [h.trunk]; exact Nat.zero_le _
  requests := by rw [h.requests]; exact Nat.zero_le _

theorem AtReset.contextsRight {t : State} (h : AtReset t) : t.contextsRight := fun l => by
  rcases h.lanes l with hl | hl <;> rw [hl] <;> rfl

theorem AtReset.noneCaptured {t : State} (h : AtReset t) (k : Kind) (c : CopyIndex) : t.isCaptured k c = false := by
  unfold State.isCaptured
  rw [List.any_eq_false]
  intro ln hln
  obtain ⟨i, hi, rfl⟩ := Vector.mem_iff_getElem.mp (Vector.mem_toList_iff.mp hln)
  have hnone : (t.lane ⟨i, hi⟩).run = none := by
    rcases h.lanes ⟨i, hi⟩ with hl | hl <;> rw [hl] <;> rfl
  have : t.lanes[i].run = none := hnone
  rw [this]
  exact Bool.false_ne_true

theorem lane_silenced (s : State) (l : LaneId) :
    s.silenced.lane l = { s.lane l with rx := { (s.lane l).rx with statusTx := none } } := State.lane_mapLanes _ _ _

theorem lane_lineReset (s : State) (l : LaneId) : s.lineReset.lane l = Lane.reset := lane_reset l

theorem group_lineReset (s : State) (l : LaneId) : s.lineReset.group l = Group.reset := group_reset l

theorem lane_lineReset_silenced (s : State) (l : LaneId) :
    s.lineReset.silenced.lane l = { Lane.reset with rx := { Receiver.reset with statusTx := none } } := by
  rw [lane_silenced, lane_lineReset]
  rfl

theorem AtReset.reset : AtReset State.reset := ⟨fun l => .inl (lane_reset l), group_reset, rfl, rfl⟩

theorem AtReset.lineReset (s : State) : AtReset s.lineReset :=
  ⟨fun l => .inl (lane_lineReset s l), group_lineReset s, rfl, rfl⟩

theorem AtReset.silenced {s : State} (h : AtReset s) : AtReset s.silenced where
  lanes := fun l => .inr (by
    rw [lane_silenced]
    rcases h.lanes l with hl | hl
    · rw [hl]
      rfl
    · rw [hl])
  groups := h.groups
  trunk := h.trunk
  requests := h.requests

/-! ### The tables over a reset -/

theorem kind_resetTables (t : Tables) (k : Kind) :
    (resetTables t).kind k = { t.kind k with staging := .empty } := vtab_get 8 _ _

theorem EntriesKept.of_resetTables {s t : State} (h : t.tables = resetTables s.tables) : EntriesKept s t where
  mem := by rw [h]; rfl
  entry := fun k c => by rw [h, kind_resetTables]; rfl
  sized := fun _ k => by rw [h, kind_resetTables]; trivial

theorem kind_powerOn (k : Kind) : Tables.powerOn.kind k = KindState.powerOn := by
  simp [Tables.kind, Tables.powerOn]

theorem directoryLaw_powerOn : Tables.powerOn.directoryLaw := by
  have hentry : ∀ k c, (Tables.powerOn.kind k).entry c = ⟨0, 0⟩ := fun k c => by
    rw [kind_powerOn]; cases c <;> rfl
  refine ⟨fun k c hne => ?_, fun k c k' c' _ => ?_⟩
  · rw [hentry] at hne; exact absurd rfl hne
  · rw [hentry, hentry]; rfl

theorem stagingSized_powerOn : Tables.powerOn.stagingSized := fun k => by rw [kind_powerOn]; trivial

/-! ### Every command but power-on and the reset line -/

theorem Kept.unless {s t : State} (b : Bool) (h : Kept s t) : Kept s (if b then s else t) := by
  cases b
  · exact h
  · exact Kept.refl s

theorem Kept.whenever {s t : State} (b : Bool) (h : b = true → Kept s t) : Kept s (if b then t else s) := by
  cases b
  · exact Kept.refl s
  · exact h rfl

/-- An act that is seen to leave memory and directory alone. -/
theorem Act.kept {s t : State} (h : Act s t) (he : EntriesKept s t) : Kept s t :=
  ⟨he, h.pending, h.line, h.fits, h.right⟩

theorem EntriesKept.serve (s : State) (kind : RequestKind) {handle : State → List Word → State × Answer}
    (h : ∀ t body, EntriesKept t (handle t body).1) : EntriesKept s (s.serve kind handle) := by
  unfold State.serve
  split
  · exact EntriesKept.of_eq rfl
  · split
    · exact ((Kept.dropHead s).entries.trans (h _ _)).trans (EntriesKept.of_eq (Replied.answerRequest _ _ _).tables)
    · exact EntriesKept.of_eq rfl

/-- A request handled without an effect on the part. -/
theorem Kept.serve_answer (s : State) (kind : RequestKind) {handle : State → List Word → State × Answer}
    (h : ∀ t body, (handle t body).1 = t) : Kept s (s.serve kind handle) :=
  (Act.serve s kind handle fun t body => by rw [h]; exact ⟨Act.refl t, Nat.le_refl _⟩).kept
    (EntriesKept.serve s kind fun t body => by rw [h]; exact EntriesKept.of_eq rfl)

theorem EntriesKept.requestArrives (s : State) (r : Request) : EntriesKept s (s.requestArrives r) := by
  unfold State.requestArrives
  split
  · exact EntriesKept.modTables rfl rfl
  · split
    · exact EntriesKept.of_eq (Replied.placeReply s _).tables
    · exact EntriesKept.of_eq rfl

theorem tables_grantData (s : State) (h p : Nat) : (s.grantData h p).tables = s.tables := by
  unfold State.grantData
  exact (Calm.idleChoice _).tables.trans (State.modTrunk_tables _ _)

/-- Everything a downstream frame end can do, the table memory and the directory being no part of it. -/
theorem Kept.stationFrameEnd (s : State) (words : List Word) : Kept s (s.stationFrameEnd words) := by
  refine (Act.stationFrameEnd s words).kept ?_
  unfold State.stationFrameEnd
  split
  · exact EntriesKept.of_eq rfl
  · exact EntriesKept.requestArrives s _
  · exact EntriesKept.of_eq (tables_grantData s _ _)
  · exact (Kept.grantEvent s _).entries

theorem EntriesKept.handleTableRead (s : State) (body : List Word) : EntriesKept s (s.handleTableRead body).1 := by
  unfold State.handleTableRead
  simp only []
  split
  · exact EntriesKept.of_eq rfl
  · split
    · exact EntriesKept.of_eq rfl
    · split
      · exact EntriesKept.of_eq rfl
      · split
        · exact EntriesKept.of_eq rfl
        · split
          · dsimp only
            exact EntriesKept.modTables rfl rfl
          · split
            · exact EntriesKept.of_eq rfl
            · exact EntriesKept.of_eq rfl

/-- A request that works on the table manager alone leaves the trunk. -/
theorem Act.serve_tables (s : State) (kind : RequestKind) {handle : State → List Word → State × Answer}
    (h : ∀ t body, Act t (handle t body).1) (ht : ∀ t body, (handle t body).1.trunk = t.trunk) :
    Act s (s.serve kind handle) :=
  Act.serve s kind handle fun t body => ⟨h t body, Nat.le_of_eq (by rw [ht])⟩

theorem trunk_completeRow (s : State) (k : Kind) (row : Nat) (slots : List (Option Word)) :
    (s.completeRow k row slots).1.trunk = s.trunk := by
  unfold State.completeRow
  simp only []
  split
  · rfl
  · split <;> rfl

theorem trunk_handleTableWrite (s : State) (body : List Word) : (s.handleTableWrite body).1.trunk = s.trunk := by
  unfold State.handleTableWrite
  split
  · rfl
  · simp only []
    split
    · exact trunk_completeRow _ _ _ _
    · rfl

theorem trunk_handleTableRead (s : State) (body : List Word) : (s.handleTableRead body).1.trunk = s.trunk := by
  unfold State.handleTableRead
  simp only []
  split
  · rfl
  · split
    · rfl
    · split
      · rfl
      · split
        · rfl
        · split
          · rfl
          · split <;> rfl

theorem trunk_handleTableCopy (s : State) (body : List Word) : (s.handleTableCopy body).1.trunk = s.trunk := by
  unfold State.handleTableCopy
  split
  · rfl
  · split
    · rfl
    · split <;> rfl

theorem trunk_handleDirectorySet (s : State) (body : List Word) : (s.handleDirectorySet body).1.trunk = s.trunk := by
  unfold State.handleDirectorySet
  simp only []
  split
  · rfl
  · split
    · rfl
    · split
      · rfl
      · split
        · rfl
        · split <;> rfl

theorem handleDirectoryRead_fst (s : State) (body : List Word) : (s.handleDirectoryRead body).1 = s := by
  unfold State.handleDirectoryRead
  split <;> rfl

theorem handleLaneQuery_fst (s : State) (body : List Word) : (s.handleLaneQuery body).1 = s := by
  unfold State.handleLaneQuery
  split <;> rfl

theorem handleDeviceQuery_fst (s : State) (body : List Word) : (s.handleDeviceQuery body).1 = s := by
  unfold State.handleDeviceQuery
  split <;> rfl

theorem Calm.handleLaneClear (s : State) (body : List Word) : Calm s (s.handleLaneClear body).1 := by
  unfold State.handleLaneClear
  split
  · exact Calm.refl s
  · simp only []
    refine Calm.modRx fun x => ?_
    exact { x with
      check := Nat.zero_le _, format := Nat.zero_le _, sequence := Nat.zero_le _, overflow := Nat.zero_le _ }

/-- A reset whose OK reply is placed in the same act (R179). -/
theorem Kept.lineReset_answer (s : State) (tag : BitVec 16) (a : Answer) : Kept s (s.lineReset.answerRequest tag a) := by
  have g := Replied.answerRequest s.lineReset tag a
  exact ⟨(EntriesKept.of_resetTables rfl).trans (EntriesKept.of_eq g.tables), g.pending, g.line,
    fun _ => g.fits (Nat.zero_lt_succ 15) (AtReset.lineReset s).fits, fun _ => g.right (AtReset.lineReset s).contextsRight⟩

theorem fits_linkDown {rx : Receiver} (h : rx.fits) : (linkDown rx).fits :=
  { h with
    fifo := Nat.zero_le _
    loss := fun _ he => absurd he List.not_mem_nil
    qualifying := Nat.zero_le _
    pendingLoss := Nat.zero_le _
    silence := fun _ hms => nomatch hms }

theorem Kept.silenceTimerExpiry (s : State) (l : LaneId) :
    Kept s (((s.modRx l linkDown).weighLaneHold l).linkLost l) := by
  have h : Calm s ((s.modRx l linkDown).weighLaneHold l) :=
    (Calm.modRx fun x => (fits_linkDown x)).trans (Calm.weighLaneHold _ _)
  exact (h.work.trans (Work.linkLost _ _)).kept

/-- The head request of a kind stands at the head of the request queue. -/
theorem headRequest_some {s : State} {kind : RequestKind} {r : Request} (h : s.headRequest kind = some r) :
    ∃ rest, s.tables.requests = r :: rest ∧ requestKindOf r.kind = kind := by
  unfold State.headRequest at h
  split at h
  · cases h
  · split at h
    · rename_i q rest hq
      split at h
      · rename_i hk
        cases h
        exact ⟨rest, hq, hk⟩
      · cases h
    · cases h

theorem Kept.execCommit (s : State) (b : Bool) :
    Kept s (s.serveWithRoom .commit fun s r => (s.takeCommit b r).weighWaiters) := by
  refine Kept.serveWithRoom s _ _ fun r hr hreply _ hplaces => ?_
  refine Kept.trans (Kept.takeCommit b r hreply fun hev => ?_) (Kept.weighWaiters _)
  have hp : s.requestPlaces = s.commitPlaces r.body := by
    obtain ⟨rest, hq, hkind⟩ := headRequest_some hr
    simp only [State.requestPlaces, hq, hkind]
  by_cases hz : s.commitPlaces r.body = 0
  · show s.trunk.events.length + s.commitPlaces r.body ≤ _
    rw [hz]; exact hev
  · rw [hp] at hplaces
    exact hplaces hz

/-- A LANE ARM or a GROUP END, which needs one place in the EVENT queue. -/
theorem requestPlaces_of_headRequest {s : State} {kind : RequestKind} {r : Request}
    (h : s.headRequest kind = some r) (hk : kind = .laneArm ∨ kind = .groupEnd) : s.requestPlaces = 1 := by
  obtain ⟨rest, hq, hkind⟩ := headRequest_some h
  unfold State.requestPlaces
  rw [hq]
  rcases hk with rfl | rfl <;> simp only [hkind]

theorem Kept.execLaneArm (s : State) (b : Bool) : Kept s (s.serveWithRoom .laneArm (State.takeArm b)) :=
  Kept.serveWithRoom s _ _ fun r hr hreply _ hplaces => by
    have hp := requestPlaces_of_headRequest hr (.inl rfl)
    rw [hp] at hplaces
    exact Kept.takeArm b r hreply fun _ => hplaces Nat.one_ne_zero

theorem Kept.execGroupEnd (s : State) (b : Bool) : Kept s (s.serveWithRoom .groupEnd (State.takeGroupEnd b)) :=
  Kept.serveWithRoom s _ _ fun r hr hreply _ hplaces => by
    have hp := requestPlaces_of_headRequest hr (.inr rfl)
    rw [hp] at hplaces
    exact Kept.takeGroupEnd b r hreply fun _ => hplaces Nat.one_ne_zero

theorem kept_laneAbort (s : State) (b : Bool) : ∃ t, exec (.laneAbort b) s = .next t ∧ Kept s t := by
  refine ⟨_, rfl, ?_⟩
  split
  · exact Kept.refl s
  · split
    · rename_i hr
      exact (Kept.dropHead s).trans (Kept.takeAbort b _ (of_decide_eq_true hr))
    · exact Kept.refl s

theorem kept_deviceReset (s : State) : ∃ t, exec .deviceReset s = .next t ∧ Kept s t := by
  refine ⟨_, rfl, ?_⟩
  split
  · exact Kept.refl s
  · split
    · exact Kept.lineReset_answer s _ _
    · exact Kept.serve_answer s _ fun _ _ => rfl

theorem LaneStep.statusComplete (a : Lane) : LaneStep a (statusComplete a) := by
  unfold Machine.statusComplete
  split
  · exact LaneStep.refl a
  · split
    · exact LaneStep.rx fun x => { x with status := Nat.zero_le _ }
    · exact LaneStep.rx fun x => { x with }

theorem needsRun_of_armDue {s : State} {l : LaneId} (h : (!s.resetLine && s.armDue l) = true) :
    needsRun (s.lane l).runState = true := by
  simp only [State.armDue, Bool.and_eq_true, beq_iff_eq] at h
  rw [h.2.1]; rfl

theorem needsRun_of_stallDue {s : State} {l : LaneId} (h : (!s.resetLine && s.stallDue l) = true) :
    needsRun (s.lane l).runState = true := by
  simp only [State.stallDue, Bool.and_eq_true, inMotion, Bool.or_eq_true, beq_iff_eq] at h
  rcases h.2.1 with hst | hst <;> (rw [hst]; rfl)

theorem Calm.countStation (s : State) : Calm s s.countStation :=
  Calm.modTrunk (Nat.le_refl _) (Nat.le_refl _) fun x => { x with check := satByte_le _ }

/-- Power-on and the reset line. -/
def isReset : Instr → Bool
  | .powerOn | .lineResetAssert | .lineResetRelease => true
  | _ => false

/-- The requests that write the table memory or the directory. -/
def writesTables : Instr → Bool
  | .tableWrite | .tableCopy | .directorySet => true
  | _ => false

/-- Every command but power-on, the reset line and the three requests that write the tables completes and keeps table
memory and directory. -/
theorem kept_exec (c : Instr) (s : State) (h : isReset c = false) (hw : writesTables c = false) :
    ∃ t, exec c s = .next t ∧ Kept s t := by
  cases c with
  | sampleFrame l words => exact ⟨_, rfl, Kept.unless _ (Calm.sampleFrameEnd s l words).kept⟩
  | laneFrameBreak l =>
    exact ⟨_, rfl, Kept.unless _ (Calm.modRx (f := countCheck) fun x => { x with check := satByte_le _ }).kept⟩
  | silenceTimerExpiry l => exact ⟨_, rfl, Kept.whenever _ fun _ => Kept.silenceTimerExpiry s l⟩
  | statusPeriodExpiry l =>
    exact ⟨_, rfl, Kept.whenever _ fun _ => (Calm.modLane (LaneStep.statusChanged _)).kept⟩
  | statusWordComplete l => exact ⟨_, rfl, Kept.unless _ (Calm.modLane (LaneStep.statusComplete _)).kept⟩
  | lanePipelineTake l b => exact ⟨_, rfl, Kept.unless _ (Work.pipelineTake s l b).kept⟩
  | lanePipelineResume l => exact ⟨_, rfl, Kept.unless _ (Work.pipelineResume s l).kept⟩
  | armTimerExpiry l => exact ⟨_, rfl, Kept.whenever _ fun hdue => (Work.enterClosing _ (needsRun_of_armDue hdue)).kept⟩
  | stallTimerExpiry l =>
    exact ⟨_, rfl, Kept.whenever _ fun hdue => (Work.enterClosing _ (needsRun_of_stallDue hdue)).kept⟩
  | closingResume l => exact ⟨_, rfl, Kept.unless _ (Work.closingResume s l).kept⟩
  | closeHandling l => exact ⟨_, rfl, Kept.unless _ (Kept.closeHandling s l)⟩
  | stationFrameBreak => exact ⟨_, rfl, Kept.unless _ (Calm.countStation s).kept⟩
  | stationFrameInvalid words => exact ⟨_, rfl, Kept.unless _ (Kept.stationFrameEnd s words)⟩
  | eventCredit words => exact ⟨_, rfl, Kept.unless _ (Kept.stationFrameEnd s words)⟩
  | dataCredit words => exact ⟨_, rfl, Kept.unless _ (Kept.stationFrameEnd s words)⟩
  | transmitComplete => exact ⟨_, rfl, Kept.unless _ (Kept.transmitComplete s)⟩
  | requestArrival words => exact ⟨_, rfl, Kept.unless _ (Kept.stationFrameEnd s words)⟩
  | tableWrite => cases hw
  | tableRead =>
    exact ⟨_, rfl, (Act.serve_tables s _ Act.handleTableRead trunk_handleTableRead).kept
      (EntriesKept.serve s _ EntriesKept.handleTableRead)⟩
  | tableCopy => cases hw
  | directorySet => cases hw
  | directoryRead => exact ⟨_, rfl, Kept.serve_answer s _ handleDirectoryRead_fst⟩
  | commit b => exact ⟨_, rfl, Kept.execCommit s b⟩
  | laneArm b => exact ⟨_, rfl, Kept.execLaneArm s b⟩
  | laneAbort b => exact kept_laneAbort s b
  | laneQuery => exact ⟨_, rfl, Kept.serve_answer s _ handleLaneQuery_fst⟩
  | laneClear =>
    exact ⟨_, rfl, (Act.serve s _ _ fun t body =>
      ⟨(Calm.handleLaneClear t body).act, (Calm.handleLaneClear t body).replies⟩).kept
        (EntriesKept.serve s _ fun t body => (Calm.handleLaneClear t body).kept.entries)⟩
  | groupEnd b => exact ⟨_, rfl, Kept.execGroupEnd s b⟩
  | deviceQuery => exact ⟨_, rfl, Kept.serve_answer s _ handleDeviceQuery_fst⟩
  | deviceReset => exact kept_deviceReset s
  | unknownRequestKind => exact ⟨_, rfl, Kept.serve_answer s _ fun _ _ => rfl⟩
  | powerOn => cases h
  | lineResetAssert => cases h
  | lineResetRelease => cases h

/-- Every command but power-on and the reset line completes and keeps what an act keeps. -/
theorem act_exec (c : Instr) (s : State) (h : isReset c = false) : ∃ t, exec c s = .next t ∧ Act s t := by
  cases hw : writesTables c with
  | false =>
    obtain ⟨t, ht, hk⟩ := kept_exec c s h hw
    exact ⟨t, ht, hk.act⟩
  | true =>
    cases c with
    | tableWrite => exact ⟨_, rfl, Act.serve_tables s _ Act.handleTableWrite trunk_handleTableWrite⟩
    | tableCopy => exact ⟨_, rfl, Act.serve_tables s _ Act.handleTableCopy trunk_handleTableCopy⟩
    | directorySet => exact ⟨_, rfl, Act.serve_tables s _ Act.handleDirectorySet trunk_handleDirectorySet⟩
    | _ => cases hw

/-! ### What power-on and the reset line leave -/

/-- The three commands complete at the values after reset, the queue of commands being no part of it. -/
theorem reset_exec (c : Instr) (s : State) (h : isReset c = true) :
    ∃ t, exec c s = .next t ∧ t.pending = s.pending ∧ (AtReset t ∨ t = s) := by
  cases c with
  | powerOn =>
    refine ⟨_, rfl, ?_⟩
    have hreset : AtReset { State.reset with resetLine := s.resetLine, pending := s.pending } :=
      ⟨AtReset.reset.lanes, AtReset.reset.groups, rfl, rfl⟩
    simp only []
    split
    · exact ⟨rfl, .inl hreset.silenced⟩
    · exact ⟨rfl, .inl hreset⟩
  | lineResetAssert =>
    have hreset := (AtReset.lineReset s).silenced
    exact ⟨_, rfl, rfl, .inl ⟨hreset.lanes, hreset.groups, rfl, rfl⟩⟩
  | lineResetRelease =>
    refine ⟨_, rfl, ?_⟩
    have hreset := AtReset.lineReset s
    split
    · exact ⟨rfl, .inl ⟨hreset.lanes, hreset.groups, rfl, rfl⟩⟩
    · exact ⟨rfl, .inr rfl⟩
  | _ => cases h

/-- The tables after power-on or after the reset line has moved. -/
theorem tables_reset_exec {c : Instr} {s t : State} (h : isReset c = true) (hx : exec c s = .next t) :
    (c = .powerOn ∧ t.tables = Tables.powerOn) ∨ t.tables = resetTables s.tables ∨ t = s := by
  cases c with
  | powerOn =>
    cases hx
    refine .inl ⟨rfl, ?_⟩
    split <;> rfl
  | lineResetAssert => cases hx; exact .inr (.inl rfl)
  | lineResetRelease =>
    cases hx
    split
    · exact .inr (.inl rfl)
    · exact .inr (.inr rfl)
  | _ => cases h

/-! ### Every command -/

/-- Every command completes and leaves the queue of commands alone. -/
theorem exec_completes (c : Instr) (s : State) : ∃ t, exec c s = .next t ∧ t.pending = s.pending := by
  cases h : isReset c with
  | false =>
    obtain ⟨t, ht, ha⟩ := act_exec c s h
    exact ⟨t, ht, ha.pending⟩
  | true =>
    obtain ⟨t, ht, hp, -⟩ := reset_exec c s h
    exact ⟨t, ht, hp⟩

theorem act_of_exec {c : Instr} {s t : State} (h : isReset c = false) (hx : exec c s = .next t) : Act s t := by
  obtain ⟨u, hu, ha⟩ := act_exec c s h
  rw [hu] at hx
  cases hx
  exact ha

theorem kept_of_exec {c : Instr} {s t : State} (h : isReset c = false) (hw : writesTables c = false)
    (hx : exec c s = .next t) : Kept s t := by
  obtain ⟨u, hu, hk⟩ := kept_exec c s h hw
  rw [hu] at hx
  cases hx
  exact hk

theorem reset_of_exec {c : Instr} {s t : State} (h : isReset c = true) (hx : exec c s = .next t) :
    AtReset t ∨ t = s := by
  obtain ⟨u, hu, -, hr⟩ := reset_exec c s h
  rw [hu] at hx
  cases hx
  exact hr

theorem fits_exec {c : Instr} {s t : State} (hx : exec c s = .next t) (hs : s.fits) : t.fits := by
  cases h : isReset c with
  | false => exact (act_of_exec h hx).fits hs
  | true =>
    rcases reset_of_exec h hx with ha | rfl
    · exact ha.fits
    · exact hs

theorem contextsRight_exec {c : Instr} {s t : State} (hx : exec c s = .next t) (hs : s.contextsRight) :
    t.contextsRight := by
  cases h : isReset c with
  | false => exact (act_of_exec h hx).right hs
  | true =>
    rcases reset_of_exec h hx with ha | rfl
    · exact ha.contextsRight
    · exact hs

/-- The three table laws together. -/
def Tables.lawful (t : Tables) : Prop := t.mem.wf = true ∧ t.directoryLaw ∧ t.stagingSized

theorem TablesKept.lawful {s t : State} (h : TablesKept s t) (hs : s.tables.lawful) : t.tables.lawful :=
  ⟨h.mem hs.1, h.law hs.2.1, h.sized hs.2.2⟩

theorem lawful_powerOn : Tables.powerOn.lawful := ⟨rfl, directoryLaw_powerOn, stagingSized_powerOn⟩

theorem lawful_exec {c : Instr} {s t : State} (hx : exec c s = .next t) (hs : s.tables.lawful) : t.tables.lawful := by
  cases h : isReset c with
  | false => exact (act_of_exec h hx).tables.lawful hs
  | true =>
    rcases tables_reset_exec h hx with ⟨-, ht⟩ | ht | rfl
    · rw [ht]; exact lawful_powerOn
    · exact (EntriesKept.of_resetTables ht).kept.lawful hs
    · exact hs

/-! ### A step -/

/-- A step lets a millisecond pass or runs the front command on the state with the queue's rest, which differs from the
state in its queue only. -/
theorem step_cases {s t : State} (h : step s = .next t) :
    t = s.tick ∨ ∃ c rest, exec c { s with pending := rest } = .next t := by
  unfold step at h
  split at h
  · exact .inr ⟨_, _, h⟩
  · cases h; exact .inl rfl

/-- Settles O56: time and every command keep the ranges. -/
theorem rangesKept : Obligations.RangesKept := by
  intro s t hsound hstep
  rcases step_cases hstep with rfl | ⟨c, rest, hx⟩
  · exact (Calm.tick s).work.fits hsound.1
  · exact fits_exec hx { hsound.1 with }

/-- Settles O57: time and every command keep the run contexts where they belong. -/
theorem runContextsKept : Obligations.RunContextsKept := by
  intro s t hright hstep
  rcases step_cases hstep with rfl | ⟨c, rest, hx⟩
  · exact (Calm.tick s).work.right hright
  · exact contextsRight_exec hx hright

/-- Settles O58: time leaves the tables alone, and every command keeps the laws. -/
theorem tableLawsKept : Obligations.TableLawsKept := by
  intro s t hmem hlaw hsized hstep
  rcases step_cases hstep with rfl | ⟨c, rest, hx⟩
  · rw [(Calm.tick s).tables]; exact ⟨hmem, hlaw, hsized⟩
  · exact lawful_exec hx ⟨hmem, hlaw, hsized⟩

/-- Settles O60: every list is empty, every count 0, no lane has a run, and the tables are those of power-on. -/
theorem soundAtReset : Obligations.SoundAtReset :=
  ⟨AtReset.reset.fits, AtReset.reset.contextsRight, lawful_powerOn⟩

/-! ### The entries of captured copies -/

/-- A directory entry that a DIRECTORY SET changes is that of a staging copy no run has captured. -/
theorem entry_handleDirectorySet {s : State} (body : List Word) {k : Kind} {c : CopyIndex}
    (hcaptured : s.isCaptured k c = true) :
    ((s.handleDirectorySet body).1.tables.kind k).entry c = (s.tables.kind k).entry c := by
  unfold State.handleDirectorySet
  simp only []
  split
  · rfl
  · split
    · rfl
    · rename_i k0 _
      split
      · rfl
      · rename_i hfree
        split
        · rfl
        · split
          · rfl
          · rw [State.modTables_tables, setExtent_entry, if_neg]
            rintro ⟨rfl, rfl⟩
            exact hfree hcaptured

theorem entry_completeRow (s : State) (k0 : Kind) (row : Nat) (slots : List (Option Word)) (k : Kind) (c : CopyIndex) :
    ((s.completeRow k0 row slots).1.tables.kind k).entry c = (s.tables.kind k).entry c := by
  unfold State.completeRow
  simp only []
  split
  · exact setStaging_entry _ _ _ _ _
  · split <;> exact setStaging_entry _ _ _ _ _

theorem entry_handleTableWrite (s : State) (body : List Word) (k : Kind) (c : CopyIndex) :
    ((s.handleTableWrite body).1.tables.kind k).entry c = (s.tables.kind k).entry c := by
  unfold State.handleTableWrite
  split
  · rfl
  · simp only []
    split
    · exact entry_completeRow _ _ _ _ _ _
    · exact setStaging_entry _ _ _ _ _

theorem entry_handleTableCopy (s : State) (body : List Word) (k : Kind) (c : CopyIndex) :
    ((s.handleTableCopy body).1.tables.kind k).entry c = (s.tables.kind k).entry c := by
  unfold State.handleTableCopy
  split
  · rfl
  · split
    · rfl
    · split
      · rfl
      · exact setStaging_entry _ _ _ _ _

/-- What holds of the directory after a handler holds after the request is served. -/
theorem entry_serve {s : State} {kind : RequestKind} {handle : State → List Word → State × Answer} {k : Kind}
    {c : CopyIndex} (h : ∀ body, ((handle s.dropHead body).1.tables.kind k).entry c = (s.tables.kind k).entry c) :
    ((s.serve kind handle).tables.kind k).entry c = (s.tables.kind k).entry c := by
  unfold State.serve
  split
  · rfl
  · split
    · rw [(Replied.answerRequest _ _ _).tables]
      exact h _
    · rfl

theorem captured_entry_exec {i : Instr} {s t : State} {k : Kind} {c : CopyIndex} (h : isReset i = false)
    (hx : exec i s = .next t) (hcaptured : s.isCaptured k c = true) :
    (t.tables.kind k).entry c = (s.tables.kind k).entry c := by
  cases hw : writesTables i with
  | false => exact (kept_of_exec h hw hx).entries.entry k c
  | true =>
    cases i with
    | tableWrite => cases hx; exact entry_serve fun body => entry_handleTableWrite s.dropHead body k c
    | tableCopy => cases hx; exact entry_serve fun body => entry_handleTableCopy s.dropHead body k c
    | directorySet =>
      cases hx
      exact entry_serve fun body => entry_handleDirectorySet (s := s.dropHead) body hcaptured
    | _ => cases hw

/-- Settles O59: the copies a run captured are those no request writes, and after a reset no run is left. -/
theorem capturedRowsStand : Obligations.CapturedRowsStand := by
  intro s t k c hmem hlaw hsized hstep hbefore hafter
  rcases step_cases hstep with rfl | ⟨i, rest, hx⟩
  · rw [(Calm.tick s).tables]
    exact ⟨rfl, fun _ => rfl⟩
  · cases h : isReset i with
    | false =>
      have hentry := captured_entry_exec (s := { s with pending := rest }) h hx hbefore
      exact ⟨hentry, (act_of_exec h hx).tables.rows hmem hlaw hsized k c hbefore⟩
    | true =>
      rcases reset_of_exec h hx with ha | rfl
      · rw [ha.noneCaptured] at hafter; cases hafter
      · exact ⟨rfl, fun _ => rfl⟩

end Sys2Proof.Machine

/-! PROOFS. The queue of commands, the passage of time, and the resets (O1 to O8). -/

namespace Sys2Proof.Machine

open Sys2Proof

/-! ### The queue of commands and time -/

/-- Settles O1: the definition of a step on a queue that is not empty. -/
theorem stepRunsFront : Obligations.StepRunsFront := by
  intro c rest s hqueue
  unfold step
  rw [hqueue]

theorem tick_line {s : State} (h : s.resetLine = true) : s.tick = s := if_pos h

theorem tick_free {s : State} (h : s.resetLine = false) : s.tick = s.mapLanes fun _ => tickLane :=
  if_neg (ne_true_of_eq_false h)

/-- A lane after a millisecond, each limit in numbers. -/
theorem tickLane_eq (ln : Lane) :
    tickLane ln = { ln with
      rx := { ln.rx with
        silence := ln.rx.silence.map fun ms => min 50 (ms + 1)
        statusTimer := min 100 (ln.rx.statusTimer + 1) }
      run := ln.run.map fun c =>
        { c with armTimer := tickTimer c.armTimer, stallTimer := tickTimer c.stallTimer } } := by
  simp only [tickLane, satTo_eq_min, Config.silenceLimit, Config.statusPeriod]

/-- Settles O2: a step on an empty queue is a tick, which each lane takes alone. -/
theorem emptyQueueLetsTimePass : Obligations.EmptyQueueLetsTimePass := by
  refine ⟨fun s hqueue => ⟨s.tick, ?_, tick_line, fun hline => ?_⟩, rfl, fun ms => ⟨rfl, ?_⟩⟩
  · unfold step
    rw [hqueue]
  · rw [tick_free hline]
    refine ⟨rfl, rfl, rfl, rfl, hqueue, fun l => ?_⟩
    rw [State.lane_mapLanes, tickLane_eq]
  · rw [tickTimer, satTo_eq_min, Config.runTimerLimit]

/-! ### Every command, and the asserted reset line -/

section Line

variable {s : State}

theorem headRequest_line (h : s.resetLine = true) (kind : RequestKind) : s.headRequest kind = none := if_pos h

theorem serve_line (h : s.resetLine = true) (kind : RequestKind) (handle : State → List Word → State × Answer) :
    s.serve kind handle = s := by
  unfold State.serve
  rw [headRequest_line h]

theorem serveWithRoom_line (h : s.resetLine = true) (kind : RequestKind) (act : State → Request → State) :
    s.serveWithRoom kind act = s := by
  unfold State.serveWithRoom
  rw [headRequest_line h]

theorem not_line_and (h : s.resetLine = true) (b : Bool) : ¬ (!s.resetLine && b) = true := by simp [h]

/-- While the reset line is asserted a command that is no reset changes nothing (R180). -/
theorem exec_line (h : s.resetLine = true) (c : Instr) (hc : isReset c = false) : exec c s = .next s := by
  cases c with
  | powerOn | lineResetAssert | lineResetRelease => cases hc
  | silenceTimerExpiry l => exact congrArg _ (if_neg (not_line_and h _))
  | statusPeriodExpiry l => exact congrArg _ (if_neg (not_line_and h _))
  | armTimerExpiry l => exact congrArg _ (if_neg (not_line_and h _))
  | stallTimerExpiry l => exact congrArg _ (if_neg (not_line_and h _))
  | tableWrite | tableRead | tableCopy | directorySet | directoryRead | laneQuery | laneClear | deviceQuery
  | unknownRequestKind => exact congrArg _ (serve_line h _ _)
  | commit b => exact congrArg _ (serveWithRoom_line h _ _)
  | laneArm b => exact congrArg _ (serveWithRoom_line h _ _)
  | groupEnd b => exact congrArg _ (serveWithRoom_line h _ _)
  | laneAbort b => simp only [exec, execLaneAbort, headRequest_line h]
  | deviceReset => simp only [exec, execDeviceReset, headRequest_line h]
  | _ => exact congrArg _ (if_pos h)

end Line

/-- Settles O3: a command that is no reset is an act, which keeps the reset line. -/
theorem commandsComplete : Obligations.CommandsComplete := by
  refine ⟨fun c s => ?_, fun c s hline hpower hassert hrelease => exec_line hline c ?_⟩
  · obtain ⟨t, ht, hpending⟩ := exec_completes c s
    refine ⟨t, ht, hpending, ?_⟩
    cases hc : isReset c with
    | false =>
      refine .inr (.inr ⟨?_, ?_, (act_of_exec hc ht).line⟩)
      · rintro rfl; cases hc
      · rintro rfl; cases hc
    | true =>
      cases c with
      | lineResetAssert => cases ht; exact .inl ⟨rfl, rfl⟩
      | lineResetRelease =>
        cases ht
        refine .inr (.inl ⟨rfl, ?_⟩)
        split
        · rfl
        · rename_i hfree
          exact eq_false_of_ne_true hfree
      | powerOn =>
        cases ht
        refine .inr (.inr ⟨nofun, nofun, ?_⟩)
        split <;> rfl
      | _ => cases hc
  · cases c with
    | powerOn => exact absurd rfl hpower
    | lineResetAssert => exact absurd rfl hassert
    | lineResetRelease => exact absurd rfl hrelease
    | _ => rfl

/-! ### The three resets by their commands -/

section Resets

variable {s : State}

theorem exec_powerOn_free (h : s.resetLine = false) :
    exec .powerOn s = .next { State.reset with pending := s.pending } := by
  simp only [exec, execPowerOn, h]
  rfl

theorem exec_powerOn_line (h : s.resetLine = true) :
    exec .powerOn s = .next ({ State.reset with resetLine := true, pending := s.pending } : State).silenced := by
  simp only [exec, execPowerOn, h]
  rfl

theorem exec_lineResetRelease_line (h : s.resetLine = true) :
    exec .lineResetRelease s = .next { s.lineReset with resetLine := false } := by
  simp only [exec, execLineResetRelease, h, if_true]

theorem exec_lineResetRelease_free (h : s.resetLine = false) : exec .lineResetRelease s = .next s := by
  simp only [exec, execLineResetRelease, h, Bool.false_eq_true, if_false]

theorem exec_deviceReset_done {r : Request} (h : s.headIs .deviceReset r) (hbody : r.body = []) :
    exec .deviceReset s = .next (s.lineReset.answerRequest r.tag (answer .ok)) := by
  simp only [exec, execDeviceReset, headRequest_of_headIs h, hbody, List.isEmpty_nil, if_true]

end Resets

/-- Settles O4: the values after reset, lane by lane, silent under the line. -/
theorem resetCommandsDone : Obligations.ResetCommandsDone := by
  refine ⟨fun s => ⟨exec_powerOn_free, fun hline => ?_⟩, fun s => ⟨?_, fun hline => ?_, exec_lineResetRelease_free⟩⟩
  · refine ⟨_, exec_powerOn_line hline, rfl, rfl, group_reset, fun l => ?_⟩
    rw [lane_silenced]
    exact congrArg (fun ln : Lane => { ln with rx := { ln.rx with statusTx := none } }) (lane_reset l)
  · exact ⟨_, rfl, rfl, rfl, rfl, group_lineReset s, lane_lineReset_silenced s⟩
  · exact ⟨_, exec_lineResetRelease_line hline, rfl, rfl, rfl, group_lineReset s, lane_lineReset s⟩

/-! ### A DEVICE RESET (R179) -/

/-- A reply placed with the transmitter IDLE and no reply before it is chosen in the same act (R161, log 25). -/
theorem placeReply_idle {s : State} (hidle : s.trunk.tx = .idle) (hnone : s.trunk.replies = []) (r : Reply) :
    s.placeReply r = s.modTrunk fun t => { t with replies := [], tx := .sending (replyWords r) } := by
  unfold State.placeReply State.idleChoice
  simp only [State.modTrunk, hidle]
  simp only [State.arbiterChoice, hnone, List.nil_append]
  rfl

theorem lineReset_placeReply (s : State) (r : Reply) :
    s.lineReset.placeReply r = s.lineReset.modTrunk fun t => { t with tx := .sending (replyWords r) } :=
  placeReply_idle rfl rfl r

/-- Settles O5: the reply of a DEVICE RESET finds the transmitter IDLE. -/
theorem deviceResetDone : Obligations.DeviceResetDone := by
  refine fun s r => ⟨fun hhead hbody => ?_, fun hserves hbody => ?_⟩
  · refine ⟨_, exec_deviceReset_done hhead hbody, ?_⟩
    rw [answerRequest_answer, lineReset_placeReply]
    exact ⟨rfl, rfl, group_lineReset s, lane_lineReset s⟩
  · have hfull : r.body.isEmpty = false := by simpa using hbody
    have hrefuse : s.serve .deviceReset State.refuseReset = s.dropHead.placeReply ⟨r.tag, .badRequest, false, []⟩ :=
      serve_refused hserves rfl
    simp only [exec, execDeviceReset, headRequest_of_headIs hserves.1, hfull, Bool.false_eq_true, if_false, hrefuse]

/-! ### What every reset leaves -/

/-- A reset has left the lanes and groups of reset, and a trunk at reset but for the OK reply of a DEVICE RESET. -/
structure Restarted (s t : State) : Prop where
  lanes : ∀ l, t.lane l = Lane.reset
  groups : ∀ l, t.group l = Group.reset
  trunk : t.trunk = Trunk.reset ∨ ∃ r, s.headIs .deviceReset r
    ∧ t.trunk = { Trunk.reset with tx := .sending (replyWords ⟨r.tag, .ok, false, []⟩) }
  tables : t.tables = Tables.powerOn ∨ t.tables = resetTables s.tables

theorem restarted_of_resetsTo {s t : State} (h : s.resetsTo t) : Restarted s t := by
  rcases h with ⟨hline, ht⟩ | ⟨hline, ht⟩ | ⟨r, hhead, hbody, ht⟩
  · rw [exec_powerOn_free hline] at ht
    cases ht
    exact ⟨lane_reset, group_reset, .inl rfl, .inl rfl⟩
  · rw [exec_lineResetRelease_line hline] at ht
    cases ht
    exact ⟨lane_lineReset s, group_lineReset s, .inl rfl, .inr rfl⟩
  · rw [exec_deviceReset_done hhead hbody, answerRequest_answer, lineReset_placeReply] at ht
    cases ht
    exact ⟨lane_lineReset s, group_lineReset s, .inr ⟨r, hhead, rfl⟩, .inr rfl⟩

/-- The status word of R17 is the all-zero word. -/
theorem statusWordOf_reset : statusWordOf false .offline none = resetStatusWord := by decide

/-- Settles O6: every lane after a reset is the lane of reset. -/
theorem lanesAfterReset : Obligations.LanesAfterReset := by
  refine ⟨fun s t h l => ?_, fun s t h l => ?_⟩
  · rw [(restarted_of_resetsTo h).lanes l, statusWordOf_reset]
    rfl
  · rw [(restarted_of_resetsTo h).lanes l]
    exact ⟨rfl, rfl, rfl, rfl, rfl, rfl⟩

/-- Settles O7: every group record after a reset is the record of reset. -/
theorem groupsAfterReset : Obligations.GroupsAfterReset := by
  intro s t h l
  rw [(restarted_of_resetsTo h).groups l]
  exact ⟨rfl, rfl, rfl, rfl, rfl⟩

theorem accounts_reset (l : LaneId) : Trunk.reset.accounts[l] = ⟨0, 0⟩ := by simp [Trunk.reset]

/-- What a line reset and a DEVICE RESET keep of the tables (R180). -/
theorem resetTables_keeps (t : Tables) (k : Kind) :
    ((resetTables t).kind k).copy0 = (t.kind k).copy0 ∧ ((resetTables t).kind k).copy1 = (t.kind k).copy1
      ∧ ((resetTables t).kind k).current = (t.kind k).current
      ∧ ((resetTables t).kind k).generation = (t.kind k).generation := by
  rw [kind_resetTables]
  exact ⟨rfl, rfl, rfl, rfl⟩

/-- A line reset and a DEVICE RESET leave the tables of a line reset. -/
theorem tables_of_lineReset {s t : State} (h : exec .lineResetAssert s = .next t
    ∨ (s.resetLine = true ∧ exec .lineResetRelease s = .next t)
    ∨ ∃ r, s.headIs .deviceReset r ∧ r.body = [] ∧ exec .deviceReset s = .next t) :
    t.tables = resetTables s.tables := by
  rcases h with ht | ⟨hline, ht⟩ | ⟨r, hhead, hbody, ht⟩
  · cases ht; rfl
  · rw [exec_lineResetRelease_line hline] at ht
    cases ht; rfl
  · rw [exec_deviceReset_done hhead hbody, answerRequest_answer, lineReset_placeReply] at ht
    cases ht; rfl

/-- Settles O8: the trunk of reset, and the tables of power-on or of a line reset. -/
theorem sharedBlocksAfterReset : Obligations.SharedBlocksAfterReset := by
  refine ⟨fun s t h => ?_, fun s t h => ?_, fun s t h => ?_⟩
  · have hr := restarted_of_resetsTo h
    have htables : t.tables.latch = none ∧ t.tables.requests = [] ∧ ∀ k, (t.tables.kind k).staging = .empty := by
      rcases hr.tables with ht | ht <;> rw [ht]
      · exact ⟨rfl, rfl, fun k => by rw [kind_powerOn]; rfl⟩
      · exact ⟨rfl, rfl, fun k => by rw [kind_resetTables]⟩
    rcases hr.trunk with ht | ⟨r, hhead, ht⟩ <;> rw [ht]
    · exact ⟨rfl, rfl, accounts_reset, rfl, rfl, rfl, rfl, rfl, rfl, .inl rfl, htables⟩
    · exact ⟨rfl, rfl, accounts_reset, rfl, rfl, rfl, rfl, rfl, rfl, .inr ⟨r, hhead, rfl⟩, htables⟩
  · rw [tables_of_lineReset h]
    exact ⟨rfl, rfl, resetTables_keeps s.tables⟩
  · have ht : t.tables = Tables.powerOn := by
      cases h
      split <;> rfl
    rw [ht]
    exact ⟨rfl, fun _ => rfl, rfl, fun k => by rw [kind_powerOn]; exact ⟨rfl, rfl, rfl, rfl⟩⟩

end Sys2Proof.Machine

/-! PROOFS. The lane receiver's commands, OFFLINE and IDLE, hold and the status word (O9, O12 to O16, O20). -/

namespace Sys2Proof.Machine

open Sys2Proof

/-! ### Bad and broken frames (R2, R3, R11) -/

theorem countCheck_eq : countCheck = fun rx => { rx with check := min 255 (rx.check + 1) } := by
  funext rx
  rw [countCheck, satByte_eq_min]

theorem countFormat_eq : countFormat = fun rx => { rx with format := min 255 (rx.format + 1), qualifying := 0 } := by
  funext rx
  rw [countFormat, satByte_eq_min]

/-- The last word of a frame is its check word. -/
theorem sampleCheckOk_append (body : List Word) (c : Word) :
    sampleCheckOk (body ++ [c]) = (crc16 body == c.setWidth 16) := by
  simp [sampleCheckOk]

theorem exec_sampleFrame_free {s : State} (h : s.resetLine = false) (l : LaneId) (words : List Word) :
    exec (.sampleFrame l words) s = .next (s.sampleFrameEnd l words) := by
  simp only [exec, execSampleFrame, h, Bool.false_eq_true, if_false]

theorem exec_laneFrameBreak_free {s : State} (h : s.resetLine = false) (l : LaneId) :
    exec (.laneFrameBreak l) s = .next (s.modRx l countCheck) := by
  simp only [exec, execLaneFrameBreak, h, Bool.false_eq_true, if_false]

theorem sampleFrameEnd_badCheck {s : State} {l : LaneId} {words : List Word} (h : sampleCheckOk words = false) :
    s.sampleFrameEnd l words = s.modRx l countCheck := by
  simp [State.sampleFrameEnd, h]

theorem sampleFrameEnd_badFormat {s : State} {l : LaneId} {words : List Word} (hcheck : sampleCheckOk words = true)
    (hformat : formatOk (s.laneRow l) words = false) : s.sampleFrameEnd l words = s.modRx l countFormat := by
  simp [State.sampleFrameEnd, hcheck, hformat]

/-- The format check fails on the slot count, the length it implies, or the count an enabled row expects (R3). -/
theorem formatOk_eq_false {row : LaneRow} {words : List Word}
    (h : sampleSlotCount words = 0 ∨ 16 < sampleSlotCount words ∨ words.length ≠ 4 + sampleSlotCount words
      ∨ (row.enabled = true ∧ row.slotCount ≠ sampleSlotCount words)) : formatOk row words = false := by
  rw [← Bool.not_eq_true]
  simp only [formatOk, sampleLengthOk, Bool.and_eq_true, decide_eq_true_eq, beq_iff_eq, Bool.or_eq_true,
    Bool.not_eq_true']
  rintro ⟨⟨⟨hlow, hhigh⟩, hlength⟩, hexpected⟩
  rcases h with hzero | hmany | hlen | ⟨henabled, hcount⟩
  · omega
  · omega
  · exact hlen hlength
  · rcases hexpected with hdisabled | hsame
    · rw [henabled] at hdisabled; cases hdisabled
    · exact hcount hsame

/-- Settles O9: the first failing check of R1 counts. -/
theorem badFramesCounted : Obligations.BadFramesCounted := by
  refine ⟨fun l s hline => ⟨?_, fun words hbad => ?_⟩, fun l s body c hline hcheck hformat => ?_⟩
  · rw [exec_laneFrameBreak_free hline, countCheck_eq]
  · have hfails : sampleCheckOk words = false := by
      rcases hbad with rfl | ⟨body, c, rfl, hcrc⟩
      · rfl
      · rw [sampleCheckOk_append]
        exact beq_eq_false_iff_ne.mpr hcrc
    rw [exec_sampleFrame_free hline, sampleFrameEnd_badCheck hfails, countCheck_eq]
  · have hpasses : sampleCheckOk (body ++ [c]) = true := by
      rw [sampleCheckOk_append, hcheck, beq_self_eq_true]
    rw [exec_sampleFrame_free hline, sampleFrameEnd_badFormat hpasses (formatOk_eq_false hformat), countFormat_eq]

/-! ### OFFLINE and IDLE (R39, R154) -/

section Weighed

variable (s : State) (l : LaneId)

theorem restState_eq :
    s.restState l = if bitAt (wordAt (s.tables.currentRow .lane l.val) 0) 0 = true ∧ (s.lane l).rx.link = .up then .idle
      else .offline := by
  simp only [State.restState, laneRowOf, Bool.and_eq_true, beq_iff_eq]

theorem runState_returnAccount (k : LaneId) : ((s.returnAccount l).lane k).runState = (s.lane k).runState := by
  rw [State.returnAccount, runState_idleChoice, State.lane_modTrunk, State.lane_modLane]
  split
  · rename_i hk; rw [hk]
  · rfl

/-- A settled lane has the state R39 gives it. -/
theorem runState_settleLane : ((s.settleLane l).lane l).runState = s.restState l := by
  unfold State.settleLane
  simp only []
  split
  · rename_i hsame; exact hsame.symm
  · split
    · rw [runState_returnAccount, lane_setRunState_runState]
    · rw [lane_setRunState_runState]

theorem weighLane_run {s : State} {l : LaneId} (h : (s.lane l).run.isSome = true) : s.weighLane l = s := if_pos h

theorem weighLane_none {s : State} {l : LaneId} (h : (s.lane l).run = none) : s.weighLane l = s.settleLane l := by
  rw [State.weighLane, h]
  rfl

theorem run_settleLane_none {s : State} {l : LaneId} (h : (s.lane l).run = none) :
    ((s.settleLane l).lane l).run = none := by
  have hrun := (settled_settleLane s l).run
  rw [h] at hrun
  exact Option.not_isSome_iff_eq_none.mp (by rw [hrun]; exact Bool.false_ne_true)

/-- An account returned while the transmitter is SENDING: no choice is made. -/
theorem returnAccount_sending {s : State} {l : LaneId} (h : s.trunk.isSending) :
    s.returnAccount l = (s.modLane l fun ln => { ln with degrade := 0 }).modTrunk fun t =>
      { t with pool := addToPool t.pool t.accounts[l], accounts := t.accounts.set l ⟨0, 0⟩ } := by
  obtain ⟨ws, hws⟩ := h
  unfold State.returnAccount State.idleChoice
  simp only [State.modTrunk, State.modLane_trunk, hws]

theorem addToPool_eq (pool c : Credit) :
    addToPool pool c = ⟨min 4095 (pool.headers + c.headers), min 262143 (pool.payload + c.payload)⟩ := by
  simp only [addToPool, satTo_eq_min, Config.poolHeaderCap, Config.poolPayloadCap]

/-- A passage from IDLE to OFFLINE returns the account (R154). -/
theorem settleLane_offline {s : State} {l : LaneId} (hidle : (s.lane l).runState = .idle)
    (hrest : s.restState l = .offline) : s.settleLane l = (s.setRunState l .offline).returnAccount l := by
  unfold State.settleLane
  simp only [hrest, hidle]
  rfl

end Weighed

/-- Settles O12: a lane without a run settles, and the account goes back with the passage to OFFLINE. -/
theorem laneWeighed : Obligations.LaneWeighed := by
  refine fun s l => ⟨weighLane_run, fun hrun => ⟨?_, fun hidle hoffline hsending => ?_⟩⟩
  · rw [weighLane_none hrun, runState_settleLane, restState_eq]
  · rw [weighLane_none hrun, runState_settleLane] at hoffline
    rw [weighLane_none hrun, settleLane_offline hidle hoffline,
      returnAccount_sending (s := s.setRunState l .offline) hsending]
    refine ⟨?_, addToPool_eq _ _, ?_⟩
    · simp [State.modTrunk]
    · rw [State.lane_modTrunk, State.lane_modLane_same]

/-! ### Link loss (R10, R51) -/

theorem linkDown_core (rx : Receiver) :
    (linkDown rx).core = Receiver.core { rx with
      link := .down, silence := none, qualifying := 0, previous := none, pendingLoss := 0, fifo := [] } := rfl

theorem silenceDue_iff (rx : Receiver) :
    silenceDue rx = true ↔ rx.link = .up ∧ ∃ ms, rx.silence = some ms ∧ 50 ≤ ms := by
  rw [silenceDue, Bool.and_eq_true, beq_iff_eq, Option.any_eq_true]
  exact and_congr_right fun _ => exists_congr fun _ => and_congr_right fun _ => decide_eq_true_iff

theorem exec_silenceTimerExpiry_due {s : State} {l : LaneId} (hline : s.resetLine = false)
    (hdue : silenceDue (s.lane l).rx = true) :
    exec (.silenceTimerExpiry l) s = .next (((s.modRx l linkDown).weighLaneHold l).linkLost l) := by
  simp only [exec, execSilenceTimerExpiry, hline, hdue, Bool.not_false, Bool.and_self, if_true]

theorem exec_silenceTimerExpiry_early {s : State} {l : LaneId} (hearly : ¬ silenceDue (s.lane l).rx = true) :
    exec (.silenceTimerExpiry l) s = .next s := by
  refine congrArg _ (if_neg ?_)
  rw [Bool.and_eq_true]
  exact fun h => hearly h.2

/-- The lane once its link is DOWN and hold has been weighed: its run stands. -/
theorem same_linkDown (s : State) (l : LaneId) :
    Same { s.lane l with rx := linkDown (s.lane l).rx } (((s.modRx l linkDown).weighLaneHold l).lane l) := by
  have h := SameAll.weighLaneHold (s.modRx l linkDown) l l
  rwa [State.modRx, State.lane_modLane_same] at h

theorem rx_modRun (s : State) (l k : LaneId) (f : RunContext → RunContext) :
    ((s.modRun l f).lane k).rx = (s.lane k).rx := by
  rw [State.modRun, State.lane_modLane]
  split
  · rename_i hk; rw [hk]
  · rfl

/-- Entry to CLOSING keeps the receiver but for hold and status word, with or without a run. -/
theorem rx_core_enterClosing (s : State) (l : LaneId) (reason : CloseReason) :
    ((s.enterClosing l reason).lane l).rx.core = (s.lane l).rx.core := by
  unfold State.enterClosing
  simp only []
  have hentered : ∀ f g, ((((s.modRun l f).setRunState l .closing).modRun l g).lane l).rx.core = (s.lane l).rx.core := by
    intro f g
    rw [rx_modRun, rx_core_setRunState, rx_modRun]
  split
  · exact hentered _ _
  · exact (SameAll.runClosing l closeSteps _ l).rx.trans (hentered _ _)

theorem rx_core_linkLost (s : State) (l : LaneId) : ((s.linkLost l).lane l).rx.core = (s.lane l).rx.core := by
  unfold State.linkLost
  split
  · exact rx_core_enterClosing s l _
  · exact rx_core_weighLane s l

theorem isActive_of_contextRight {ln : Lane} (h : ln.contextRight) (hrun : ln.run = none) :
    isActive ln.runState = false := by
  rw [Lane.contextRight, hrun] at h
  simp only [needsRun, Option.isSome_none, Bool.or_eq_false_iff] at h
  exact h.1

theorem linkLost_idle {s : State} {l : LaneId} (h : isActive (s.lane l).runState = false) :
    s.linkLost l = s.weighLane l := if_neg (ne_true_of_eq_false h)

theorem linkLost_active {s : State} {l : LaneId} (h : isActive (s.lane l).runState = true) :
    s.linkLost l = s.enterClosing l .linkLost := if_pos h

theorem restState_down {s : State} {l : LaneId} (h : (s.lane l).rx.link = .down) : s.restState l = .offline := by
  rw [restState_eq, if_neg]
  rw [h]
  exact fun hup => nomatch hup.2

/-- Settles O13: the link goes DOWN and the run controller answers by the run the lane has. -/
theorem silenceTakesLinkDown : Obligations.SilenceTakesLinkDown := by
  refine fun l s hline => ⟨fun ms hup hsilence hdue => ?_, fun hearly => exec_silenceTimerExpiry_early ?_⟩
  · have hsame := same_linkDown s l
    refine ⟨_, exec_silenceTimerExpiry_due hline ((silenceDue_iff _).mpr ⟨hup, ms, hsilence, hdue⟩), ?_⟩
    generalize (s.modRx l linkDown).weighLaneHold l = u at hsame
    have hstate : (u.lane l).runState = (s.lane l).runState := hsame.state
    have hlink : (u.lane l).rx.link = .down := congrArg (·.link) hsame.rx
    refine ⟨(rx_core_linkLost u l).trans hsame.rx, fun hrun hright => ?_, fun c hrun hactive => ?_,
      fun c hrun hclosing => ?_⟩
    · have hidle : isActive (u.lane l).runState = false := by
        rw [hstate]; exact isActive_of_contextRight hright hrun
      have hnone : (u.lane l).run = none := by
        have := hsame.run
        rw [hrun] at this
        exact Option.map_eq_none_iff.mp this
      rw [linkLost_idle hidle, weighLane_none hnone, runState_settleLane]
      exact ⟨restState_down hlink, run_settleLane_none hnone⟩
    · obtain ⟨d, hd, hident⟩ := run_of_ident hsame hrun
      rw [linkLost_active (by rw [hstate]; exact hactive)]
      have hclosed := enterClosing_lane .linkLost hd
      obtain ⟨e, he, hserial, -, -, hreason, -⟩ := hclosed.run
      exact ⟨hclosed.state, e, he, hserial.trans (congrArg (·.serial) hident), hreason⟩
    · obtain ⟨d, hd, hident⟩ := run_of_ident hsame hrun
      have hidle : isActive (u.lane l).runState = false := by rw [hstate, hclosing]; rfl
      rw [linkLost_idle hidle, weighLane_run (by rw [hd]; rfl)]
      exact ⟨hstate.trans hclosing, d, hd, congrArg (·.reason) hident⟩
  · rw [silenceDue_iff]
    rintro ⟨hup, ms, hms, hlong⟩
    rcases hearly with hdown | hnone | ⟨m, hm, hshort⟩
    · rw [hup] at hdown; cases hdown
    · rw [hms] at hnone; cases hnone
    · rw [hms] at hm; cases hm; omega

/-! ### The lane status word (R15) -/

section StatusWord

variable {s : State} {l : LaneId}

theorem exec_statusPeriodExpiry_due (hline : s.resetLine = false) (hdue : 100 ≤ (s.lane l).rx.statusTimer) :
    exec (.statusPeriodExpiry l) s = .next (s.modLane l statusChanged) := by
  simp only [exec, execStatusPeriodExpiry, hline, Config.statusPeriod, hdue, Bool.not_false, decide_true, Bool.and_self,
    if_true]

theorem exec_statusPeriodExpiry_early (hearly : (s.lane l).rx.statusTimer < 100) :
    exec (.statusPeriodExpiry l) s = .next s := by
  have hnot : ¬ 100 ≤ (s.lane l).rx.statusTimer := by omega
  simp only [exec, execStatusPeriodExpiry, Config.statusPeriod, hnot, decide_false, Bool.and_false, Bool.false_eq_true,
    if_false]

theorem exec_statusWordComplete_free (hline : s.resetLine = false) :
    exec (.statusWordComplete l) s = .next (s.modLane l statusComplete) := by
  simp only [exec, execStatusWordComplete, hline, Bool.false_eq_true, if_false]

theorem statusChanged_free {ln : Lane} (h : ln.rx.statusTx = none) : statusChanged ln = startStatusWord ln := by
  unfold statusChanged
  rw [h]

theorem statusChanged_sending {ln : Lane} {w : Word} (h : ln.rx.statusTx = some w) :
    statusChanged ln = { ln with rx := { ln.rx with statusPending := true } } := by
  unfold statusChanged
  rw [h]

theorem statusComplete_none {ln : Lane} (h : ln.rx.statusTx = none) : statusComplete ln = ln := by
  unfold statusComplete
  rw [h]

theorem statusComplete_pending {ln : Lane} {w : Word} (h : ln.rx.statusTx = some w) (hp : ln.rx.statusPending = true) :
    statusComplete ln = startStatusWord ln := by
  unfold statusComplete
  rw [h]
  exact if_pos hp

theorem statusComplete_done {ln : Lane} {w : Word} (h : ln.rx.statusTx = some w) (hp : ln.rx.statusPending = false) :
    statusComplete ln = { ln with rx := { ln.rx with statusTx := none } } := by
  unfold statusComplete
  rw [h]
  exact if_neg (ne_true_of_eq_false hp)

/-- A change of a lane is read off the lane as it stands. -/
theorem modLane_congr {f g : Lane → Lane} (h : f (s.lane l) = g (s.lane l)) : s.modLane l f = s.modLane l g :=
  congrArg (fun ln => { s with lanes := s.lanes.set l ln }) h

theorem modLane_id {f : Lane → Lane} (h : f (s.lane l) = s.lane l) : s.modLane l f = s := by
  have hset : s.lanes.set l (f (s.lane l)) = s.lanes := by rw [h]; exact Vector.set_getElem_self _
  exact congrArg (fun v => { s with lanes := v }) hset

/-- Settles O14: the two commands by the word in transmission and the change that waits. -/
theorem statusWordSent : Obligations.StatusWordSent := by
  intro l s hline started
  have hstarted : s.modLane l startStatusWord = started := modLane_congr rfl
  refine ⟨exec_statusPeriodExpiry_early, fun hdue hfree => ?_, fun w hdue hsending => ?_, fun w hsending hpending => ?_,
    fun w hsending hpending => ?_, fun hfree => ?_⟩
  · rw [exec_statusPeriodExpiry_due hline hdue, ← hstarted]
    exact congrArg _ (modLane_congr (statusChanged_free hfree))
  · rw [exec_statusPeriodExpiry_due hline hdue]
    exact congrArg _ (modLane_congr (statusChanged_sending hsending))
  · rw [exec_statusWordComplete_free hline, ← hstarted]
    exact congrArg _ (modLane_congr (statusComplete_pending hsending hpending))
  · rw [exec_statusWordComplete_free hline]
    exact congrArg _ (modLane_congr (statusComplete_done hsending hpending))
  · rw [exec_statusWordComplete_free hline]
    exact congrArg _ (modLane_id (statusComplete_none hfree))

end StatusWord

/-! ### Hold and the stall timer (R13, R48) -/

theorem inMotion_iff (st : RunState) : inMotion st = true ↔ st = .inserting ∨ st = .pulling := by
  simp only [inMotion, Bool.or_eq_true, beq_iff_eq]

section Hold

variable {st : RunState} {n : Nat} {pressure hold : Bool}

theorem holdReached_iff : (Config.holdHigh ≤ n || pressure) = true ↔ 48 ≤ n ∨ pressure = true := by
  rw [Bool.or_eq_true, decide_eq_true_iff]
  rfl

theorem holdAfter_high (hm : inMotion st = true) (h : 48 ≤ n ∨ pressure = true) :
    holdAfter st n pressure hold = true := by
  rw [holdAfter, if_pos hm, if_pos (holdReached_iff.mpr h)]

theorem holdAfter_low (hm : inMotion st = true) (hn : n ≤ 16) (hp : pressure = false) :
    holdAfter st n pressure hold = false := by
  have hshort : n ≤ Config.holdLow := hn
  rw [holdAfter, if_pos hm, if_neg, if_pos hshort]
  exact mt holdReached_iff.mp fun h => h.elim (by omega) (by rw [hp]; exact Bool.false_ne_true)

theorem holdAfter_between (hm : inMotion st = true) (hlow : 17 ≤ n) (hhigh : n ≤ 47) (hp : pressure = false) :
    holdAfter st n pressure hold = hold := by
  have hnot : ¬ n ≤ Config.holdLow := Nat.not_le.mpr hlow
  rw [holdAfter, if_pos hm, if_neg, if_neg hnot]
  exact mt holdReached_iff.mp fun h => h.elim (by omega) (by rw [hp]; exact Bool.false_ne_true)

theorem holdAfter_still (hm : inMotion st = false) : holdAfter st n pressure hold = false :=
  if_neg (ne_true_of_eq_false hm)

theorem stallUnderHold_same (h : Bool) (t : Timer) : stallUnderHold st h h t = t := by
  unfold stallUnderHold
  cases h <;> rfl

theorem stallUnderHold_asserted (ms : Nat) : stallUnderHold st false true (.running ms) = .paused ms := rfl

theorem stallUnderHold_released (hm : inMotion st = true) (ms : Nat) :
    stallUnderHold st true false (.paused ms) = .running 0 := by
  simp only [stallUnderHold, hm]
  rfl

end Hold

/-- A lane whose hold stays as it is keeps its stall timer. -/
theorem holdWeighed_same {pressure : Bool} {ln : Lane}
    (h : holdAfter ln.runState ln.rx.fifo.length pressure ln.rx.hold = ln.rx.hold) : holdWeighed pressure ln = ln := by
  unfold holdWeighed
  simp only [h, stallUnderHold_same]
  have : ln.run.map (fun c => { c with stallTimer := c.stallTimer }) = ln.run := by cases ln.run <;> rfl
  rw [this]

theorem weighHold_same {pressure : Bool} {ln : Lane}
    (h : holdAfter ln.runState ln.rx.fifo.length pressure ln.rx.hold = ln.rx.hold) : weighHold pressure ln = ln := by
  unfold weighHold
  simp only [holdWeighed_same h, if_true]

theorem weighHold_changed {pressure : Bool} {ln : Lane}
    (h : holdAfter ln.runState ln.rx.fifo.length pressure ln.rx.hold ≠ ln.rx.hold) :
    weighHold pressure ln = statusChanged (holdWeighed pressure ln) := if_neg h

/-- The status word is no part of hold, run state and run. -/
theorem statusChanged_keeps (ln : Lane) :
    (statusChanged ln).rx.hold = ln.rx.hold ∧ (statusChanged ln).runState = ln.runState
      ∧ (statusChanged ln).run = ln.run := by
  unfold statusChanged
  split <;> exact ⟨rfl, rfl, rfl⟩

/-- A change of a status field is announced, the status word having stood up to it. -/
theorem announces_statusChanged {a b : Lane} (htx : b.rx.statusTx = a.rx.statusTx)
    (htimer : b.rx.statusTimer = a.rx.statusTimer) : a.announces (statusChanged b) := by
  refine ⟨fun hfree => ?_, fun w hsending => ?_⟩
  · rw [statusChanged_free (htx.trans hfree)]
    exact ⟨rfl, rfl, rfl⟩
  · rw [statusChanged_sending (htx.trans hsending)]
    exact ⟨htx.trans hsending, htimer, rfl⟩

/-- Insertion starts with the stall timer at 0, paused under hold (R46, R48). -/
theorem startInsertion_lane {s : State} {l : LaneId} {c : RunContext} (hc : (s.lane l).run = some c) :
    ∃ d, ((s.startInsertion l).lane l).run = some d ∧ ((s.startInsertion l).lane l).runState = .inserting
      ∧ d.stallTimer = (if ((s.startInsertion l).lane l).rx.hold then .paused 0 else .running 0) := by
  have hrun : (((s.modRun l fun c => { c with armTimer := .stopped }).setRunState l .inserting).lane l).run.isSome = true := by
    rw [lane_setRunState_run, State.modRun, State.lane_modLane_same, hc]
    rfl
  have hstate : (((s.modRun l fun c => { c with armTimer := .stopped }).setRunState l .inserting).lane l).runState
      = .inserting := lane_setRunState_runState _ _ _
  unfold State.startInsertion
  simp only []
  generalize (s.modRun l fun c => { c with armTimer := .stopped }).setRunState l .inserting = u at hrun hstate
  obtain ⟨d, hd⟩ := Option.isSome_iff_exists.mp hrun
  rw [State.modRun, State.lane_modLane_same]
  exact ⟨_, congrArg (Option.map _) hd, hstate, rfl⟩

/-- Settles O15: hold by occupancy and pressure, the timer under it, and the word that announces a change. -/
theorem holdAndStallTimer : Obligations.HoldAndStallTimer := by
  refine ⟨fun st n pressure hold => ?_, fun st ms hmoving => ?_, fun s l c hc => startInsertion_lane hc,
    fun pressure ln => ⟨weighHold_same, fun hchanged => ?_⟩, fun pressure st ln => ?_, fun s l st => ?_⟩
  · refine ⟨fun hm => holdAfter_high ((inMotion_iff st).mpr hm), fun hm => holdAfter_low ((inMotion_iff st).mpr hm),
      fun hm => holdAfter_between ((inMotion_iff st).mpr hm), fun hm => holdAfter_still ?_⟩
    exact eq_false_of_ne_true fun h => hm ((inMotion_iff st).mp h)
  · exact ⟨stallUnderHold_asserted ms, stallUnderHold_released ((inMotion_iff st).mpr hmoving) ms, rfl, rfl,
      fun t h => stallUnderHold_same h t⟩
  · rw [weighHold_changed hchanged]
    obtain ⟨hhold, hstate, hrun⟩ := statusChanged_keeps (holdWeighed pressure ln)
    exact ⟨hhold, hstate, hrun, announces_statusChanged rfl rfl⟩
  · obtain ⟨hhold, hstate, hrun⟩ := statusChanged_keeps (holdWeighed pressure { ln with runState := st })
    exact ⟨hhold, hstate, hrun, announces_statusChanged rfl rfl⟩
  · exact ⟨State.lane_modLane_same _ _ _, State.lane_modLane_same _ _ _,
      fun k hk => ⟨State.lane_modLane_other _ _ _ _ hk, State.lane_modLane_other _ _ _ _ hk⟩⟩

/-! ### One lane's commands and the other lanes -/

/-- An act for a lane: no group, table, reset line or command, and no other lane's own state. -/
structure ForLane (l : LaneId) (s t : State) : Prop where
  elsewhere : Elsewhere l s t
  groups : t.groups = s.groups
  tables : t.tables = s.tables
  line : t.resetLine = s.resetLine
  pending : t.pending = s.pending

theorem ForLane.refl (l : LaneId) (s : State) : ForLane l s s := ⟨Elsewhere.refl l s, rfl, rfl, rfl, rfl⟩

theorem Work.forLane {l : LaneId} {s t : State} (h : Work s t) (he : Elsewhere l s t) : ForLane l s t :=
  ⟨he, h.groups, h.tables, h.line, h.pending⟩

theorem ForLane.unless {l : LaneId} {s t : State} (b : Bool) (h : ForLane l s t) :
    ForLane l s (if b then s else t) := by
  cases b
  · exact h
  · exact ForLane.refl l s

theorem ForLane.whenever {l : LaneId} {s t : State} (b : Bool) (h : b = true → ForLane l s t) :
    ForLane l s (if b then t else s) := by
  cases b
  · exact ForLane.refl l s
  · exact h rfl

theorem ForLane.modLane (s : State) (l : LaneId) (f : Lane → Lane) : ForLane l s (s.modLane l f) :=
  ⟨Elsewhere.modLane s l f, rfl, rfl, rfl, rfl⟩

theorem ForLane.trans {l : LaneId} {s t u : State} (h : ForLane l s t) (g : ForLane l t u) : ForLane l s u :=
  ⟨h.elsewhere.trans g.elsewhere, g.groups.trans h.groups, g.tables.trans h.tables, g.line.trans h.line,
    g.pending.trans h.pending⟩

/-- The commands that are frames and events of one lane. -/
def laneEvent (l : LaneId) : Instr → Prop
  | .sampleFrame k _ | .laneFrameBreak k | .silenceTimerExpiry k | .statusPeriodExpiry k | .statusWordComplete k
  | .lanePipelineTake k _ | .lanePipelineResume k | .armTimerExpiry k | .stallTimerExpiry k | .closingResume k => k = l
  | _ => False

theorem forLane_exec {l : LaneId} {c : Instr} {s t : State} (hc : laneEvent l c) (hx : exec c s = .next t) :
    ForLane l s t := by
  cases c with
  | sampleFrame k words =>
    cases hc; cases hx
    exact .unless _ ((Calm.sampleFrameEnd s l words).work.forLane (Elsewhere.sampleFrameEnd s l words))
  | laneFrameBreak k => cases hc; cases hx; exact .unless _ (ForLane.modLane s l _)
  | silenceTimerExpiry k =>
    cases hc; cases hx
    exact .whenever _ fun _ => ((ForLane.modLane s l _).trans (ForLane.modLane _ l _)).trans
      ((Work.linkLost _ l).forLane (Elsewhere.linkLost _ l))
  | statusPeriodExpiry k => cases hc; cases hx; exact .whenever _ fun _ => ForLane.modLane s l _
  | statusWordComplete k => cases hc; cases hx; exact .unless _ (ForLane.modLane s l _)
  | lanePipelineTake k b =>
    cases hc; cases hx
    exact .unless _ ((Work.pipelineTake s l b).forLane (Elsewhere.pipelineTake s l b))
  | lanePipelineResume k =>
    cases hc; cases hx
    exact .unless _ ((Work.pipelineResume s l).forLane (Elsewhere.pipelineResume s l))
  | armTimerExpiry k =>
    cases hc; cases hx
    exact .whenever _ fun hdue => (Work.enterClosing _ (needsRun_of_armDue hdue)).forLane (Elsewhere.enterClosing s l _)
  | stallTimerExpiry k =>
    cases hc; cases hx
    exact .whenever _ fun hdue => (Work.enterClosing _ (needsRun_of_stallDue hdue)).forLane (Elsewhere.enterClosing s l _)
  | closingResume k =>
    cases hc; cases hx
    exact .unless _ ((Work.closingResume s l).forLane (Elsewhere.closingResume s l))
  | _ => exact hc.elim

/-- Settles O16: the ten commands are acts for their lane. -/
theorem otherLanesUntouched : Obligations.OtherLanesUntouched := by
  intro l k words b c s t hc hx
  have hlane : laneEvent l c := by
    rcases hc with rfl | rfl | rfl | rfl | rfl | rfl | rfl | rfl | rfl | rfl <;> rfl
  have h := forLane_exec hlane hx
  exact ⟨h.elsewhere k, h.groups, h.tables, h.line, h.pending⟩

/-! ### Entries taken outside a run (R7) -/

section Take

variable {s : State} {l : LaneId} {b : Bool}

theorem exec_lanePipelineTake_free (hline : s.resetLine = false) :
    exec (.lanePipelineTake l b) s = .next (s.pipelineTake l b) := by
  simp only [exec, execLanePipelineTake, hline, Bool.false_eq_true, if_false]

theorem pipelineTake_waits (h : (s.lane l).passage.isSome = true) : s.pipelineTake l b = s := by
  obtain ⟨p, hp⟩ := Option.isSome_iff_exists.mp h
  unfold State.pipelineTake
  rw [hp]

theorem pipelineTake_empty (h : (s.lane l).rx.fifo = []) : s.pipelineTake l b = s := by
  unfold State.pipelineTake
  rw [h]
  cases (s.lane l).passage <;> rfl

/-- A ready pipeline removes the oldest entry and, in an open run before CLOSING, passes it to the tracker. -/
theorem pipelineTake_removes {e : FifoEntry} {rest : List FifoEntry} (hready : (s.lane l).passage = none)
    (hfifo : (s.lane l).rx.fifo = e :: rest) :
    s.pipelineTake l b =
      if isActive (s.lane l).runState then
        ((s.modRx l fun rx => { rx with fifo := rest }).weighLaneHold l).takeFrame l b e
      else (s.modRx l fun rx => { rx with fifo := rest }).weighLaneHold l := by
  unfold State.pipelineTake
  rw [hready, hfifo]

end Take

/-- Settles O20: outside a run the entry is removed and that is all. -/
theorem takeDropsOutsideRun : Obligations.TakeDropsOutsideRun := by
  refine fun l b s e rest hline => ⟨fun hnothing => ?_, fun hready hfifo hstate => ?_⟩
  · rw [exec_lanePipelineTake_free hline]
    rcases hnothing with hwaits | hempty
    · rw [pipelineTake_waits hwaits]
    · rw [pipelineTake_empty hempty]
  · have hidle : ¬ isActive (s.lane l).runState = true := by
      rcases hstate with h | h | h <;> (rw [h]; exact Bool.false_ne_true)
    rw [exec_lanePipelineTake_free hline, pipelineTake_removes hready hfifo, if_neg hidle]

end Sys2Proof.Machine

/-! PROOFS. The axial tracker's frames and the end of their passage (O18, O19, O21 to O24). -/

namespace Sys2Proof.Machine

open Sys2Proof

/-! ### The carried loss and the loss report (R24, R25, R93) -/

section Loss

variable {cls : FrameClass} {t : Tracker}

theorem reportsLoss_iff : reportsLoss cls = true ↔ cls = .normal ∨ cls = .fault := by
  simp only [reportsLoss, Bool.or_eq_true, beq_iff_eq]

theorem reportsLoss_eq_false (h : cls = .backtrack ∨ cls = .stationary) : reportsLoss cls = false := by
  rcases h with rfl | rfl <;> rfl

theorem frameOf_lost_reports (h : reportsLoss cls = true) {ph : Phase} {m x : Bool} {before : Tracker}
    {chs : List Channel} : (frameOf cls ph m x before t chs).lost = t.carried := if_pos h

theorem frameOf_lost_silent (h : reportsLoss cls = false) {ph : Phase} {m x : Bool} {before : Tracker}
    {chs : List Channel} : (frameOf cls ph m x before t chs).lost = 0 := if_neg (ne_true_of_eq_false h)

theorem carried_afterStamp_reports (h : reportsLoss cls = true) : (afterStamp (some cls) t).carried = 0 := if_pos h

theorem carried_afterStamp_silent (h : reportsLoss cls = false) : (afterStamp (some cls) t).carried = t.carried :=
  if_neg (ne_true_of_eq_false h)

theorem lossStart_afterStamp (h : cls ≠ .backtrack) {p : Int} (hp : t.stamped = some p) :
    (afterStamp (some cls) t).lossStart = p := by
  simp only [afterStamp, Option.some.injEq, if_neg h, stampedPos, hp, Option.getD_some]

end Loss

section Report

variable {rows : Nat → StandardRow} {f : Frame} {c : RunContext}

/-- Frames lost grow by the report whether or not it is held. -/
theorem forwarder_reportLoss : (reportLoss f c).forwarder =
    { c.forwarder with framesLost := min 65535 (c.forwarder.framesLost + f.lost) } := by
  rw [← satHalf_eq_min]
  unfold reportLoss
  simp only []
  split <;> rfl

theorem heldLoss_reportLoss_none (h : ¬ (f.cls = .fault ∨ 0 < f.lost)) : (reportLoss f c).heldLoss = c.heldLoss := by
  unfold reportLoss
  simp only [if_neg h]

theorem heldLoss_reportLoss_starts (h : f.cls = .fault ∨ 0 < f.lost) (hheld : c.heldLoss = none) :
    (reportLoss f c).heldLoss = some ⟨f.lost, min f.lossStart f.corrected, max f.lossStart f.corrected⟩ := by
  unfold reportLoss
  simp only [if_pos h, hheld]

theorem heldLoss_reportLoss_widens (h : f.cls = .fault ∨ 0 < f.lost) {g : HeldLoss} (hheld : c.heldLoss = some g) :
    (reportLoss f c).heldLoss = some ⟨min 65535 (g.lost + f.lost),
      min g.lower (min f.lossStart f.corrected), max g.upper (max f.lossStart f.corrected)⟩ := by
  unfold reportLoss
  simp only [if_pos h, hheld, satHalf_eq_min]

/-- Reference capture is no part of the loss report. -/
theorem doneAtOnce_reports (h : reportsLoss f.cls = true) :
    (doneAtOnce rows f c).forwarder = (reportLoss f c).forwarder
      ∧ (doneAtOnce rows f c).heldLoss = (reportLoss f c).heldLoss := by
  unfold doneAtOnce
  simp only [h, if_true]
  split <;> exact ⟨rfl, rfl⟩

theorem doneAtOnce_silent (h : reportsLoss f.cls = false) : doneAtOnce rows f c = c := by
  simp only [doneAtOnce, capturesOn, h, Bool.and_false, Bool.false_eq_true, if_false]

end Report

/-- A frame handed on, its run context known: the blocks' work begins after its loss report. -/
theorem handOn_eq {s : State} {l : LaneId} {c : RunContext} (hc : (s.lane l).run = some c) (first : Bool)
    (cls : FrameClass) (ph : Phase) (m x : Bool) (before : Tracker) (slots : List Slot) (reversal : List WorkItem) :
    let f := frameOf cls ph m x before c.tracker (s.conditioned l c cls slots)
    let s' := s.modRun l fun c => doneAtOnce (s.standardRow l) f
      { c with balance := s.trackedBalance l c cls ph slots, tracker := afterStamp (some cls) c.tracker }
    let matching := reversal ++ s.matcherItems l c f
    s.handOn l first cls ph m x before slots reversal =
      (if first then s'.runWork l f (evaluatorItems c.kind f) matching
        else s'.runWork l f matching (evaluatorItems c.kind f)) := by
  unfold State.handOn
  rw [hc]

/-- Settles O18: what the tracker gathers, what the frame takes of it, and the report made of it. -/
theorem lossCarried : Obligations.LossCarried := by
  refine ⟨fun e t cls ph m x before chs => ⟨congrArg Tracker.carried (gatherCarried_eq e t), fun h => ?_, fun h => ?_,
      rfl, rfl, rfl, fun p hp hcls => lossStart_afterStamp hcls hp⟩, fun rows f c => ⟨fun h => ?_, fun h => ?_⟩,
    fun s l first cls ph m x before slots reversal c hc => handOn_eq hc first cls ph m x before slots reversal⟩
  · have hreports := reportsLoss_iff.mpr h
    exact ⟨frameOf_lost_reports hreports, carried_afterStamp_reports hreports⟩
  · have hsilent := reportsLoss_eq_false h
    exact ⟨frameOf_lost_silent hsilent, carried_afterStamp_silent hsilent⟩
  · exact doneAtOnce_silent (reportsLoss_eq_false h)
  · obtain ⟨hforwarder, hheld⟩ := doneAtOnce_reports (rows := rows) (c := c) (reportsLoss_iff.mpr h)
    rw [hforwarder, hheld]
    refine ⟨forwarder_reportLoss, fun ⟨hnormal, hnone⟩ => heldLoss_reportLoss_none ?_,
      fun hlost => ⟨heldLoss_reportLoss_starts hlost, fun g => heldLoss_reportLoss_widens hlost⟩⟩
    rw [hnormal, hnone]
    exact fun hlost => hlost.elim (fun hfault => nomatch hfault) (Nat.lt_irrefl 0)

/-! ### The classes of the pull (R30 to R34) -/

section Pull

variable {clocking : Clocking} {moving : Bool} {e : FifoEntry} {t : Tracker} {low : Int}

theorem faultOr_faulty (h : e.unitFault = true) (cls : FrameClass) : faultOr e cls = .fault := if_pos h

theorem faultOr_sound (h : e.unitFault = false) (cls : FrameClass) : faultOr e cls = cls :=
  if_neg (ne_true_of_eq_false h)

theorem pullClass_above (hlow : t.lowWater = some low) (h : low < t.raw) : pullClass clocking moving e t = .backtrack := by
  simp only [pullClass, hlow, Option.getD_some, if_pos h]

theorem pullClass_below (hlow : t.lowWater = some low) (h : t.raw ≤ low) :
    pullClass clocking moving e t = faultOr e (if clocking = .time ∧ !moving ∧ t.still then .stationary else .normal) := by
  simp only [pullClass, hlow, Option.getD_some, if_neg (Int.not_lt.mpr h)]

/-- At or below the low-water mark a frame is no backtrack frame. -/
theorem pullClass_ne_backtrack (hlow : t.lowWater = some low) (h : t.raw ≤ low) :
    pullClass clocking moving e t ≠ .backtrack := by
  rw [pullClass_below hlow h, faultOr]
  split
  · exact FrameClass.noConfusion
  · split <;> exact FrameClass.noConfusion

theorem lowWater_pullFields_backtrack : (pullFields clocking moving .backtrack t).lowWater = t.lowWater := rfl

theorem lowWater_pullFields {cls : FrameClass} (hlow : t.lowWater = some low) (hcls : cls ≠ .backtrack) (h : t.raw ≤ low) :
    (pullFields clocking moving cls t).lowWater = some t.raw := by
  simp only [pullFields, if_neg hcls, hlow, Option.getD_some, Int.min_eq_right h]

theorem backtracked_pullFields {cls : FrameClass} (hcls : cls ≠ .backtrack) :
    (pullFields clocking moving cls t).backtracked = t.backtracked := by
  rw [pullFields, beq_eq_false_iff_ne.mpr hcls, Bool.or_false]

theorem still_pullFields (cls : FrameClass) : (pullFields clocking moving cls t).still =
    if moving then false else if clocking = .time ∧ cls = .normal then true else t.still := rfl

end Pull

/-- Settles O19: the class by low-water mark, unit fault and stillness, and the fields by the class. -/
theorem pullClassified : Obligations.PullClassified := by
  refine ⟨fun clocking moving e t low hlow => ⟨fun habove => ?_, fun hbelow => ?_, fun hmoving => ?_,
    fun hstill htime hnormal => ?_, fun hstill hother => ?_⟩, fun row cls t p hp => ?_⟩
  · rw [pullClass_above hlow habove]
    exact ⟨rfl, lowWater_pullFields_backtrack.trans hlow, Bool.or_true _⟩
  · have hcls := pullClass_ne_backtrack (clocking := clocking) (moving := moving) (e := e) hlow hbelow
    refine ⟨lowWater_pullFields hlow hcls hbelow, backtracked_pullFields hcls, fun hfault => ?_,
      fun hsound hmoves => ?_, fun hsound hstands htime hstill => ?_⟩
    · rw [pullClass_below hlow hbelow]
      exact faultOr_faulty hfault _
    · rw [pullClass_below hlow hbelow, faultOr_sound hsound, if_neg]
      rintro ⟨htime, hstands, hstill⟩
      rcases hmoves with hm | hc | hs
      · rw [hm] at hstands; cases hstands
      · rw [hc] at htime; cases htime
      · rw [hs] at hstill; cases hstill
    · rw [pullClass_below hlow hbelow, faultOr_sound hsound]
      exact if_pos ⟨htime, by rw [hstands]; rfl, hstill⟩
  · rw [still_pullFields, if_pos hmoving]
  · rw [still_pullFields, if_neg (ne_true_of_eq_false hstill), if_pos ⟨htime, hnormal⟩]
  · rw [still_pullFields, if_neg (ne_true_of_eq_false hstill), if_neg]
    rintro ⟨htime, hnormal⟩
    rcases hother with hc | hn
    · rw [hc] at htime; cases htime
    · exact hn hnormal
  · rw [exitTest, stampedPos, hp, Option.getD_some, Bool.and_eq_true, bne_iff_ne, decide_eq_true_iff]

/-! ### A lane in a run state, with its run's own fields -/

/-- The lane is in a run state and its run has the fields that only tracker and run controller change. -/
def State.runsAs (s : State) (l : LaneId) (st : RunState) (i : RunIdent) : Prop :=
  (s.lane l).runState = st ∧ (s.lane l).run.map RunContext.ident = some i

section RunsAs

variable {s t : State} {l : LaneId} {st : RunState} {i : RunIdent}

theorem State.runsAs.of_run {c : RunContext} (hstate : (s.lane l).runState = st) (hrun : (s.lane l).run = some c) :
    s.runsAs l st c.ident := ⟨hstate, congrArg (Option.map _) hrun⟩

theorem State.runsAs.run (h : s.runsAs l st i) : ∃ c, (s.lane l).run = some c ∧ c.ident = i :=
  Option.map_eq_some_iff.mp h.2

theorem State.runsAs.same (h : s.runsAs l st i) (g : SameAll s t) : t.runsAs l st i :=
  ⟨(g l).state.trans h.1, (g l).run.trans h.2⟩

theorem State.runsAs.modRun (h : s.runsAs l st i) {f : RunContext → RunContext} {j : RunIdent}
    (hf : ∀ c, c.ident = i → (f c).ident = j) : (s.modRun l f).runsAs l st j := by
  obtain ⟨c, hc, hi⟩ := h.run
  unfold State.runsAs
  rw [State.modRun, State.lane_modLane_same, hc]
  exact ⟨h.1, congrArg some (hf c hi)⟩

theorem State.runsAs.setTracker (h : s.runsAs l st i) (tr : Tracker) :
    (s.setTracker l tr).runsAs l st { i with tracker := tr } :=
  h.modRun fun _ hc => by rw [← hc]; rfl

theorem State.runsAs.setRunState (h : s.runsAs l st i) (st' : RunState) : (s.setRunState l st').runsAs l st' i := by
  refine ⟨lane_setRunState_runState s l st', ?_⟩
  have hsame : Same { s.lane l with runState := st' } ((s.setRunState l st').lane l) := by
    rw [State.setRunState, State.lane_modLane_same, enterRunState]
    exact (Same.holdWeighed _ _).trans (Same.statusChanged _)
  exact hsame.run.trans h.2

theorem State.runsAs.motionReport (h : s.runsAs l st i) (moving : Bool) : (s.motionReport l moving).runsAs l st i := by
  unfold State.motionReport
  split
  · exact h.modRun fun _ hc => hc
  · exact h

theorem State.runsAs.startInsertion (h : s.runsAs l st i) :
    (s.startInsertion l).runsAs l .inserting { i with armTimer := .stopped } := by
  have hstarted : (s.modRun l fun c => { c with armTimer := .stopped }).runsAs l st { i with armTimer := .stopped } :=
    h.modRun fun _ hc => by rw [← hc]; rfl
  exact (hstarted.setRunState .inserting).modRun fun _ hc => hc

/-- Work on a frame leaves an INSERTING lane, and a PULLING lane without the exit event, in its state. -/
theorem State.runsAs.runWork (h : s.runsAs l st i) {f : Frame} (first second : List WorkItem)
    (hstays : st = .inserting ∨ (st = .pulling ∧ f.exits = false)) : (s.runWork l f first second).runsAs l st i := by
  rcases runWork_shape s l f first second with ⟨u, hu, hend⟩ | hwaits
  · have hrun := h.same hu
    rw [hend]
    refine hrun.same ?_
    rcases hstays with hst | ⟨hst, hx⟩
    · exact finishFrame_inserting (hrun.1.trans hst)
    · exact finishFrame_pulling (hrun.1.trans hst) hx
  · exact h.same hwaits

/-- A frame handed on leaves such a lane in its state, the tracker after the frame's class. -/
theorem State.runsAs.handOn (h : s.runsAs l st i) (b : Bool) (cls : FrameClass) (ph : Phase) (m x : Bool)
    (before : Tracker) (slots : List Slot) (reversal : List WorkItem)
    (hstays : st = .inserting ∨ (st = .pulling ∧ x = false)) :
    (s.handOn l b cls ph m x before slots reversal).runsAs l st
      { i with tracker := afterStamp (some cls) i.tracker } := by
  obtain ⟨c, hc, -⟩ := h.run
  rw [handOn_eq hc]
  have hreported : (s.modRun l fun d => doneAtOnce (s.standardRow l)
      (frameOf cls ph m x before c.tracker (s.conditioned l c cls slots))
      { d with balance := s.trackedBalance l d cls ph slots, tracker := afterStamp (some cls) d.tracker }).runsAs l st
        { i with tracker := afterStamp (some cls) i.tracker } :=
    h.modRun fun d hd => (ident_doneAtOnce _ _ _).1.trans (by rw [← hd]; rfl)
  split
  · exact hreported.runWork _ _ hstays
  · exact hreported.runWork _ _ hstays

/-- The run of a lane in a state, field by field. -/
theorem State.runsAs.fields (h : s.runsAs l st i) : ∃ d, (s.lane l).runState = st ∧ (s.lane l).run = some d
    ∧ d.serial = i.serial ∧ d.reason = i.reason ∧ d.armTimer = i.armTimer ∧ d.tracker = i.tracker := by
  obtain ⟨d, hd, rfl⟩ := h.run
  exact ⟨d, h.1, hd, rfl, rfl, rfl, rfl⟩

end RunsAs

/-! ### The oldest entry removed (R7) -/

/-- The lane's oldest ingress entry removed and hold weighed. -/
def State.removed (s : State) (l : LaneId) : State :=
  (s.modRx l fun rx => { rx with fifo := (s.lane l).rx.fifo.tail }).weighLaneHold l

section Removed

variable {s : State} {l : LaneId} {st : RunState} {c : RunContext} {e : FifoEntry}

theorem lane_removed : (s.removed l).lane l =
    weighHold s.trunk.pressure { s.lane l with rx := { (s.lane l).rx with fifo := (s.lane l).rx.fifo.tail } } := by
  rw [State.removed, State.weighLaneHold, State.lane_modLane_same, State.modRx, State.lane_modLane_same]
  rfl

/-- Hold weighed changes nothing of a run but its stall timer, and that only in motion. -/
theorem run_weighHold {p : Bool} {a : Lane} (h : a.run = some c) :
    ∃ x, (weighHold p a).run = some { c with stallTimer := x } ∧ (inMotion a.runState = false → x = c.stallTimer) := by
  have hweighed : ∃ x, (holdWeighed p a).run = some { c with stallTimer := x }
      ∧ (inMotion a.runState = false → x = c.stallTimer) := by
    refine ⟨_, congrArg (Option.map _) h, fun hstill => ?_⟩
    rw [holdAfter_still hstill]
    simp only [stallUnderHold, hstill, Bool.false_and, Bool.and_false, Bool.false_eq_true, if_false]
  unfold weighHold
  simp only []
  split
  · exact hweighed
  · rw [(statusChanged_keeps _).2.2]
    exact hweighed

theorem run_removed (h : (s.lane l).run = some c) :
    ∃ x, ((s.removed l).lane l).run = some { c with stallTimer := x }
      ∧ (inMotion (s.lane l).runState = false → x = c.stallTimer) := by
  rw [lane_removed]
  exact run_weighHold h

theorem runState_removed : ((s.removed l).lane l).runState = (s.lane l).runState := by
  rw [lane_removed, runState_weighHold]

/-- The LANE row in force is read off the table memory and the captured copies. -/
theorem laneRow_removed (h : (s.lane l).run = some c) : (s.removed l).laneRow l = s.laneRow l := by
  obtain ⟨x, hx, -⟩ := run_removed h
  simp only [State.laneRow, State.capturedRow, hx, h]
  rfl

theorem exec_take (h : s.taking l st c e) (hactive : isActive st = true) (b : Bool) :
    exec (.lanePipelineTake l b) s = .next ((s.removed l).takeFrame l b e) := by
  obtain ⟨hline, hstate, -, hready, hhead⟩ := h
  obtain ⟨rest, hfifo⟩ := List.head?_eq_some_iff.mp hhead
  have hrest : rest = (s.lane l).rx.fifo.tail := by rw [hfifo]; rfl
  rw [exec_lanePipelineTake_free hline, pipelineTake_removes hready hfifo, if_pos (by rw [hstate]; exact hactive), hrest]
  rfl

/-- The delta differs from 0 on the moving frames. -/
theorem moves_iff : (travelDelta c.tracker e.travel != 0) = true ↔ moves c e := by
  rw [bne_iff_ne]
  unfold moves
  cases href : c.tracker.travelRef with
  | none =>
    rw [travelDelta_first href]
    exact ⟨fun h => absurd rfl h, fun ⟨_, h, _⟩ => nomatch h⟩
  | some r =>
    have hdelta : travelDelta c.tracker e.travel = (e.travel - r).toNat := by simp only [travelDelta, href]
    rw [hdelta]
    constructor
    · exact fun h => ⟨r, rfl, fun heq => h (by rw [heq, BitVec.sub_self]; rfl)⟩
    · rintro ⟨r', hr', hne⟩ hzero
      cases hr'
      exact hne (by bv_omega)

theorem not_moves_iff : (travelDelta c.tracker e.travel != 0) = false ↔ ¬ moves c e := by
  rw [← moves_iff, Bool.not_eq_true]

/-- What the tracker does with an entry, by the run state (R26 to R34). -/
def State.takeIn (s : State) (l : LaneId) (b : Bool) (e : FifoEntry) (moving : Bool) (before t : Tracker) :
    RunState → State
  | .armed => s.takeArmed l b e moving before t
  | .inserting => s.takeInserting l b e moving before t
  | .pulling => s.takePulling l b e moving before t
  | .offline | .idle | .closing => s

theorem takeFrame_eq (h : (s.lane l).run = some c) (b : Bool) : s.takeFrame l b e =
    s.takeIn l b e (travelDelta c.tracker e.travel != 0) c.tracker (s.tracked l c e) (s.lane l).runState := by
  unfold State.takeFrame
  rw [h]
  simp only []
  cases (s.lane l).runState <;> rfl

/-- The command on a lane with a run: the removal, then the tracker under the row and the run as they stood. -/
theorem exec_taking (h : s.taking l st c e) (hactive : isActive st = true) (b : Bool) :
    exec (.lanePipelineTake l b) s = .next
      ((s.removed l).takeIn l b e (travelDelta c.tracker e.travel != 0) c.tracker (s.tracked l c e) st) := by
  have ⟨_, hstate, hrun, _⟩ := h
  obtain ⟨x, hx, -⟩ := run_removed hrun
  rw [exec_take h hactive, takeFrame_eq hx, runState_removed, hstate]
  simp only [State.tracked, laneRow_removed hrun]

theorem runsAs_removed (h : s.taking l st c e) : (s.removed l).runsAs l st c.ident := by
  obtain ⟨-, hstate, hrun, -⟩ := h
  obtain ⟨x, hx, -⟩ := run_removed hrun
  exact ⟨runState_removed.trans hstate, congrArg (Option.map RunContext.ident) hx⟩

end Removed

/-! ### ARMED (R26, R27, R46) -/

section Take

variable {s : State} {l : LaneId} {b : Bool} {e : FifoEntry} {before t : Tracker}

theorem takeArmed_still : s.takeArmed l b e false before t = s.setTracker l (afterStamp none t) := rfl

theorem takeArmed_push (h : e.direction = .push) : s.takeArmed l b e true before t =
    ((s.setTracker l t).startInsertion l).handOn l b (faultOr e .normal) .inserting true false before e.slots [] := by
  simp only [State.takeArmed, h]
  rfl

theorem takeArmed_pull (h : e.direction = .pull) : s.takeArmed l b e true before t =
    (s.setTracker l (afterStamp none t)).enterClosing l .wrongDirection := by
  simp only [State.takeArmed, h]
  rfl

theorem takeInserting_reversal (h : e.direction = .pull) :
    s.takeInserting l b e true before t = s.takeReversal l b e before t := by
  simp only [State.takeInserting, h]
  rfl

theorem takeInserting_onward {moving : Bool} (h : ¬ (moving = true ∧ e.direction = .pull)) :
    s.takeInserting l b e moving before t = ((s.setTracker l t).motionReport l moving).handOn l b (faultOr e .normal)
      .inserting moving false before e.slots [] := by
  rw [State.takeInserting, if_neg]
  rwa [Bool.and_eq_true, beq_iff_eq]

end Take

section Taking

variable {s : State} {l : LaneId} {c : RunContext} {e : FifoEntry}

/-- The lane once an entry is removed from it without a change of hold's timer: only the run's tracker is new. -/
theorem takeArmed_still_lane (h : s.taking l .armed c e) (tr : Tracker) :
    let u := (s.removed l).setTracker l tr
    (u.lane l).runState = .armed ∧ (u.lane l).run = some { c with tracker := tr }
      ∧ (u.lane l).rx.fifo = (s.lane l).rx.fifo.tail ∧ (u.lane l).delay = (s.lane l).delay
      ∧ (u.lane l).passage = none ∧ u.trunk = s.trunk := by
  obtain ⟨-, hstate, hrun, hready, -⟩ := h
  obtain ⟨x, hx, hstill⟩ := run_removed hrun
  have hsame : x = c.stallTimer := hstill (by rw [hstate]; rfl)
  have hown : ((s.removed l).lane l).own = _ := (congrArg Lane.own lane_removed).trans (own_weighHold _ _)
  have hcore := congrArg Lane.rx hown
  have hdelay := congrArg Lane.delay hown
  have hpassage := congrArg Lane.passage hown
  intro u
  have hlane : u.lane l = { (s.removed l).lane l with run := ((s.removed l).lane l).run.map fun c => { c with tracker := tr } } :=
    State.lane_modLane_same _ _ _
  rw [hlane]
  refine ⟨runState_removed.trans hstate, ?_, fifo_of_core_eq hcore, hdelay, hpassage.trans hready, rfl⟩
  rw [hx, hsame]
  rfl

/-- Settles O21: the kept-back frame, the first push and the first pull. -/
theorem armedFramesTaken : Obligations.ArmedFramesTaken := by
  refine ⟨fun l b s c e h hstill => ?_, fun l b s c e h hmoves hpush => ?_, fun l b s c e h hmoves hpull => ?_⟩
  · have hlane := takeArmed_still_lane h (afterStamp none (s.tracked l c e))
    have hexec := exec_taking h rfl b
    rw [not_moves_iff.mpr hstill] at hexec
    exact ⟨_, hexec, hlane⟩
  · have hruns := (((runsAs_removed h).setTracker (s.tracked l c e)).startInsertion).handOn b (faultOr e .normal)
      .inserting true false c.tracker e.slots [] (Or.inl rfl)
    obtain ⟨d, hstate, hd, hserial, hreason, harm, htracker⟩ := hruns.fields
    refine ⟨_, d, (exec_taking h rfl b).trans (congrArg _ ?_), hstate, hd, harm, hserial, hreason, htracker⟩
    rw [moves_iff.mpr hmoves]
    exact takeArmed_push hpush
  · obtain ⟨d, hd, hident⟩ := ((runsAs_removed h).setTracker (afterStamp none (s.tracked l c e))).run
    have hclosed := enterClosing_lane .wrongDirection hd
    obtain ⟨f, hf, hserial, -, -, hreason, harm, hstall, htracker⟩ := hclosed.run
    refine ⟨_, f, (exec_taking h rfl b).trans (congrArg _ ?_), hclosed.state, hf,
      hserial.trans (congrArg (·.serial) hident), hreason, harm, hstall, congrArg Tracker.carried htracker⟩
    rw [moves_iff.mpr hmoves]
    exact takeArmed_pull hpull

/-! ### INSERTING and PULLING (R28 to R34) -/

theorem exitTest_eq_false {row : LaneRow} {cls : FrameClass} {t : Tracker} (h : -row.exitMargin < stampedPos t) :
    exitTest row cls t = false := by
  rw [exitTest, decide_eq_false (Int.not_le.mpr h), Bool.and_false]

/-- The tracker of a reversal frame (R29). -/
def reversedTracker (t : Tracker) : Tracker :=
  { t with reversal := some (stampedPos t), lowWater := some t.raw, still := false }

/-- A reversal frame that does not meet the exit test leaves the lane PULLING. -/
theorem runsAs_takeReversal {st : RunState} {i : RunIdent} (h : s.runsAs l st i) (b : Bool) (before t : Tracker)
    (hstays : -(s.laneRow l).exitMargin < stampedPos t) :
    (s.takeReversal l b e before t).runsAs l .pulling
      { i with tracker := afterStamp (some (faultOr e .normal)) (reversedTracker t) } := by
  have hturned := (((h.setTracker (reversedTracker t)).setRunState .pulling).motionReport true).modRun
    (f := fun c => { c with matcher := reversalStart (s.profile l) (stampedPos t) c.matcher }) fun _ hc => hc
  exact hturned.handOn b _ _ _ _ before e.slots _ (Or.inr ⟨rfl, exitTest_eq_false hstays⟩)

/-- Settles O22: the frames of the insertion, and the reversal frame without the exit event. -/
theorem insertingFramesTaken : Obligations.InsertingFramesTaken := by
  refine ⟨fun l b s c e h honward => ?_, fun l b s c e h hmoves hpull hstays => ?_⟩
  · have hruns := (((runsAs_removed h).setTracker (s.tracked l c e)).motionReport
      (travelDelta c.tracker e.travel != 0)).handOn b (faultOr e .normal) .inserting
      (travelDelta c.tracker e.travel != 0) false c.tracker e.slots [] (Or.inl rfl)
    obtain ⟨d, hstate, hd, hserial, hreason, -, htracker⟩ := hruns.fields
    refine ⟨_, d, (exec_taking h rfl b).trans (congrArg _ ?_), hstate, hd, hserial, hreason, htracker⟩
    exact takeInserting_onward (mt (And.imp_left moves_iff.mp) honward)
  · rw [← laneRow_removed h.2.2.1] at hstays
    obtain ⟨d, hstate, hd, hserial, hreason, -, htracker⟩ :=
      (runsAs_takeReversal (e := e) (runsAs_removed h) b c.tracker _ hstays).fields
    refine ⟨_, d, (exec_taking h rfl b).trans (congrArg _ ?_), hstate, hd, hserial, hreason,
      congrArg Tracker.reversal htracker, congrArg Tracker.lowWater htracker, congrArg Tracker.still htracker⟩
    rw [moves_iff.mpr hmoves]
    exact takeInserting_reversal hpull

/-- Settles O23: the tracker's fields of the pull, then the frame handed on. -/
theorem pullingFrameHandedOn : Obligations.PullingFrameHandedOn := by
  intro l b s c e h t' moving cls hstays
  have hrow : (s.removed l).laneRow l = s.laneRow l := laneRow_removed h.2.2.1
  have hruns := (((runsAs_removed h).setTracker (pullFields (s.laneRow l).clocking moving cls t')).motionReport
    moving).handOn b cls .pulling moving (exitTest (s.laneRow l) cls t') c.tracker e.slots [] (Or.inr ⟨rfl, hstays⟩)
  obtain ⟨d, hstate, hd, hserial, hreason, -, htracker⟩ := hruns.fields
  refine ⟨_, d, (exec_taking h rfl b).trans (congrArg _ ?_), hstate, hd, hserial, hreason, htracker⟩
  simp only [State.takeIn, State.takePulling, hrow, t', moving, cls]

end Taking

/-! ### The end of a frame's passage (R34, R49, R52, R94) -/

section Finish

variable {s : State} {l : LaneId} {f : Frame}

/-- A NORMAL frame enters the delay line, any other is set aside (R94). -/
def State.delayed (s : State) (l : LaneId) (f : Frame) : State := if f.cls = .normal then s.enterDelay l f else s

theorem runState_delayed : ((s.delayed l f).lane l).runState = (s.lane l).runState := (sameAll_delayed s l f l).state

theorem finishFrame_exits (hpull : (s.lane l).runState = .pulling) (hx : f.exits = true) :
    s.finishFrame l f = (s.delayed l f).enterClosing l .complete := by
  have hstate := (runState_delayed (f := f)).trans hpull
  unfold State.delayed at hstate ⊢
  unfold State.finishFrame
  simp only [hstate, hx, if_true]

theorem finishFrame_stays
    (h : (s.lane l).runState = .inserting ∨ ((s.lane l).runState = .pulling ∧ f.exits = false)) :
    s.finishFrame l f = s.delayed l f := by
  have hdelayed := runState_delayed (s := s) (l := l) (f := f)
  unfold State.delayed at hdelayed ⊢
  unfold State.finishFrame
  rcases h with hst | ⟨hst, hx⟩
  · simp only [hdelayed, hst]
  · simp only [hdelayed, hst, hx, Bool.false_eq_true, if_false]

theorem finishFrame_closing (h : (s.lane l).runState = .closing) :
    s.finishFrame l f = ((s.delayed l f).modRun l handCarried).startClosing l := by
  have hstate := (runState_delayed (f := f)).trans h
  unfold State.delayed at hstate ⊢
  unfold State.finishFrame
  simp only [hstate]

/-- The delay-line entry of a frame, with the held loss report it takes (R93, R94). -/
def delayEntryOf (f : Frame) (c : RunContext) : DelayEntry :=
  { corrected := f.corrected, phase := f.phase, channels := f.channels.map fun ch => ⟨ch.formed, ch.x, ch.y⟩
    gapBefore := c.heldLoss.map fun h => ⟨h.upper, h.lower⟩ }

variable {c : RunContext} (hrun : (s.lane l).run = some c)
include hrun

theorem enterDelay_room (hroom : (s.lane l).delay.length < 512) : s.enterDelay l f =
    (s.modRun l fun c => { c with heldLoss := none }).modLane l fun ln =>
      { ln with delay := (s.lane l).delay ++ [delayEntryOf f c] } := by
  have hdelay : ((s.modRun l fun c => { c with heldLoss := none }).lane l).delay = (s.lane l).delay := by
    rw [State.modRun, State.lane_modLane_same]
  unfold State.enterDelay
  simp only [hdelay, hrun]
  cases hline : (s.lane l).delay with
  | nil => rfl
  | cons d ds =>
    rw [hline, List.length_cons] at hroom
    exact if_pos hroom

theorem enterDelay_full {d : DelayEntry} {ds : List DelayEntry} (hline : (s.lane l).delay = d :: ds)
    (hfull : 511 ≤ ds.length) : s.enterDelay l f =
      (((s.modRun l fun c => { c with heldLoss := none }).modLane l fun ln => { ln with delay := ds }).handleEntry l d
        ).modLane l fun ln => { ln with delay := ds ++ [delayEntryOf f c] } := by
  have hdelay : ((s.modRun l fun c => { c with heldLoss := none }).lane l).delay = d :: ds := by
    rw [State.modRun, State.lane_modLane_same]
    exact hline
  have hnoRoom : ¬ ds.length + 1 < Config.delayCapacity := Nat.not_lt.mpr (Nat.succ_le_succ hfull)
  unfold State.enterDelay
  simp only [hdelay, hrun, if_neg hnoRoom]
  rfl

end Finish

/-- Settles O24: the end by the run state, and the delay line by its length. -/
theorem passageEnds : Obligations.PassageEnds := by
  refine ⟨fun s l f c hrun => ⟨fun hpull hexits => ?_, finishFrame_stays, finishFrame_closing⟩, fun s l f c hrun => ?_,
    fun c => ?_⟩
  · obtain ⟨d, hd, hident⟩ := run_of_ident (sameAll_delayed s l f l) hrun
    have hclosed := enterClosing_lane .complete hd
    obtain ⟨e, he, hserial, -, -, hreason, -⟩ := hclosed.run
    rw [finishFrame_exits hpull hexits]
    exact ⟨hclosed.state, e, he, hreason, hserial.trans (congrArg (·.serial) hident)⟩
  · exact ⟨enterDelay_room hrun, fun d ds hline hfull => enterDelay_full hrun hline hfull⟩
  · rw [← satHalf_eq_min]
    rfl

end Sys2Proof.Machine

/-! PROOFS. Work that waits for room in the EVENT queue: the pipeline and the closing sequence (O25 to O27). -/

namespace Sys2Proof.Machine

open Sys2Proof

/-! ### Room in the EVENT queue (R157) -/

section Room

variable {s : State} {w : Waiter}

theorem standsFirst_iff (ws : List Waiter) : standsFirst w ws = true ↔ ws = [] ∨ ws.head? = some w := by
  cases ws with
  | nil => exact ⟨fun _ => Or.inl rfl, fun _ => rfl⟩
  | cons v vs =>
    rw [standsFirst, beq_iff_eq]
    exact ⟨fun h => Or.inr (congrArg some h), fun h => h.elim (fun h => nomatch h) Option.some.inj⟩

/-- A producer that needs places has room exactly when they are free and it stands first. -/
theorem roomFor_iff {n : Nat} (hn : n ≠ 0) : s.roomFor w n = true ↔ s.eventRoom w n := by
  rw [State.roomFor, Bool.or_eq_true, beq_iff_eq, Bool.and_eq_true, decide_eq_true_iff, standsFirst_iff]
  exact or_iff_right hn

theorem roomFor_eq_false {n : Nat} (hn : n ≠ 0) (h : ¬ s.eventRoom w n) : s.roomFor w n = false :=
  eq_false_of_ne_true (mt (roomFor_iff hn).mp h)

theorem joinWaiters_eq : s.joinWaiters w = s.modTrunk fun t => { t with
    waiters := if w ∈ t.waiters then t.waiters else t.waiters ++ [w] } := by
  simp only [State.joinWaiters, List.contains_iff_mem]

theorem mem_joinWaiters : w ∈ (s.joinWaiters w).trunk.waiters := by
  rw [joinWaiters_eq, State.modTrunk_trunk]
  simp only []
  split
  · assumption
  · exact List.mem_append_right _ List.mem_cons_self

end Room

/-! ### The blocks' work on a frame (R7, R64, R74, R103) -/

section BlockWork

variable {s s' : State} {l : LaneId} {f : Frame} {item : WorkItem} {e : EventRecord}

theorem blockWork_silent (h : s.workItem l f item = (s', none)) (mayPlace : Bool) (rest : List WorkItem) :
    s.blockWork l f mayPlace (item :: rest) = s'.blockWork l f mayPlace rest := by
  rw [State.blockWork, h]

theorem blockWork_placed (h : s.workItem l f item = (s', some e)) (hroom : s.eventRoom (.pipeline l) 1)
    (rest : List WorkItem) : s.blockWork l f true (item :: rest) =
      ((s'.leaveWaiters (.pipeline l)).placeRecord e).blockWork l f true rest := by
  rw [State.blockWork, h]
  exact if_pos (roomFor_of_eventRoom hroom)

theorem blockWork_waits (h : s.workItem l f item = (s', some e)) {mayPlace : Bool}
    (hwaits : mayPlace = false ∨ ¬ s.eventRoom (.pipeline l) 1) (rest : List WorkItem) :
    s.blockWork l f mayPlace (item :: rest) = (s, item :: rest) := by
  rw [State.blockWork, h]
  refine if_neg ?_
  rw [Bool.and_eq_true, roomFor_iff Nat.one_ne_zero]
  rintro ⟨hmay, hroom⟩
  rcases hwaits with hnot | hnone
  · rw [hnot] at hmay; cases hmay
  · exact hnone hroom

end BlockWork

section RunWork

variable {s : State} {l : LaneId} {f : Frame} {first second : List WorkItem}

theorem runWork_ends (ha : (s.blockWork l f true first).2 = [])
    (hb : ((s.blockWork l f true first).1.blockWork l f (s.blockWork l f true first).2.isEmpty second).2 = []) :
    s.runWork l f first second =
      ((s.blockWork l f true first).1.blockWork l f (s.blockWork l f true first).2.isEmpty second).1.finishFrame l f := by
  refine if_pos ?_
  rw [hb, ha]
  rfl

theorem runWork_waits (h : (s.blockWork l f true first).2 ≠ []
      ∨ ((s.blockWork l f true first).1.blockWork l f (s.blockWork l f true first).2.isEmpty second).2 ≠ []) :
    s.runWork l f first second =
      let a := s.blockWork l f true first
      let b := a.1.blockWork l f a.2.isEmpty second
      (b.1.setPassage l (some ⟨f, a.2, b.2⟩)).joinWaiters (.pipeline l) := by
  refine if_neg ?_
  rw [Bool.and_eq_true, List.isEmpty_iff, List.isEmpty_iff]
  exact fun hnone => h.elim (fun ha => ha hnone.1) (fun hb => hb hnone.2)

theorem exec_lanePipelineResume_free (hline : s.resetLine = false) :
    exec (.lanePipelineResume l) s = .next (s.pipelineResume l) := by
  simp only [exec, execLanePipelineResume, hline, Bool.false_eq_true, if_false]

theorem pipelineResume_none (h : (s.lane l).passage = none) : s.pipelineResume l = s := by
  unfold State.pipelineResume
  rw [h]

theorem pipelineResume_some {p : Passage} (h : (s.lane l).passage = some p) :
    s.pipelineResume l = (s.setPassage l none).runWork l p.frame p.first p.second := by
  unfold State.pipelineResume
  rw [h]

end RunWork

/-- Settles O25: item by item, then both blocks, then the command. -/
theorem pipelineResumes : Obligations.PipelineResumes := by
  refine ⟨fun s l f mayPlace => ⟨rfl, fun item rest s' => ⟨fun h => blockWork_silent h mayPlace rest, fun e h => ⟨?_,
      fun hwaits => blockWork_waits h hwaits rest⟩⟩⟩, fun s l f first second => ⟨runWork_ends, fun hwaits => ?_⟩,
    fun l s f first second hline hpassage => ?_, fun l s hnone => ?_⟩
  · rintro rfl hroom
    exact blockWork_placed h hroom rest
  · rw [runWork_waits hwaits, joinWaiters_eq]
    exact ⟨State.lane_modLane_same _ _ _, rfl, fun k hk => State.lane_modLane_other _ _ _ _ hk⟩
  · rw [exec_lanePipelineResume_free hline, pipelineResume_some hpassage]
  · simp only [exec, execLanePipelineResume, pipelineResume_none hnone, ite_self]

/-! ### The run timers (R47, R48) -/

section Timers

variable {s : State} {l : LaneId} {c : RunContext} {ms : Nat}

theorem armDue_eq (hrun : (s.lane l).run = some c) :
    s.armDue l = ((s.lane l).runState == .armed && timerDue (s.laneRow l).armTimeout c.armTimer) := by
  rw [State.armDue, hrun, Option.any_some]

theorem stallDue_eq (hrun : (s.lane l).run = some c) :
    s.stallDue l = (inMotion (s.lane l).runState && timerDue (s.laneRow l).stallTimeout c.stallTimer) := by
  rw [State.stallDue, hrun, Option.any_some]

theorem timerDue_running {n : Nat} : timerDue n (.running ms) = decide (1000 * n ≤ ms) := rfl

theorem timerDue_paused {n : Nat} : timerDue n (.paused ms) = false := rfl

theorem exec_armTimerExpiry_due (hline : s.resetLine = false) (hdue : s.armDue l = true) :
    exec (.armTimerExpiry l) s = .next (s.enterClosing l .noMotion) := by
  simp only [exec, execArmTimerExpiry, hline, hdue, Bool.not_false, Bool.and_self, if_true]

theorem exec_armTimerExpiry_early (hdue : s.armDue l = false) : exec (.armTimerExpiry l) s = .next s := by
  simp only [exec, execArmTimerExpiry, hdue, Bool.and_false, Bool.false_eq_true, if_false]

theorem exec_stallTimerExpiry_due (hline : s.resetLine = false) (hdue : s.stallDue l = true) :
    exec (.stallTimerExpiry l) s = .next (s.enterClosing l .stalled) := by
  simp only [exec, execStallTimerExpiry, hline, hdue, Bool.not_false, Bool.and_self, if_true]

theorem exec_stallTimerExpiry_early (hdue : s.stallDue l = false) : exec (.stallTimerExpiry l) s = .next s := by
  simp only [exec, execStallTimerExpiry, hdue, Bool.and_false, Bool.false_eq_true, if_false]

/-- Entry to CLOSING, its run field by field. -/
theorem enterClosing_fields (hrun : (s.lane l).run = some c) (reason : CloseReason) :
    ∃ d, ((s.enterClosing l reason).lane l).runState = .closing ∧ ((s.enterClosing l reason).lane l).run = some d
      ∧ d.serial = c.serial ∧ d.reason = some reason ∧ d.armTimer = .stopped ∧ d.stallTimer = .stopped := by
  have hclosed := enterClosing_lane reason hrun
  obtain ⟨d, hd, hserial, -, -, hreason, harm, hstall, -⟩ := hclosed.run
  exact ⟨d, hclosed.state, hd, hserial, hreason, harm, hstall⟩

/-- Settles O26: a timer that has run for its timeout closes the run, any other is left. -/
theorem runTimersExpire : Obligations.RunTimersExpire := by
  refine fun l s c ms hline hrun => ⟨fun hstate htimer => ⟨fun hdue => ?_, fun hearly => ?_⟩,
    fun hmotion => ⟨fun htimer hdue => ?_, fun htimer hearly => ?_, fun htimer => ?_⟩⟩
  · obtain ⟨d, hd⟩ := enterClosing_fields hrun .noMotion
    refine ⟨_, d, exec_armTimerExpiry_due hline ?_, hd⟩
    rw [armDue_eq hrun, hstate, htimer, timerDue_running, decide_eq_true hdue]
    rfl
  · refine exec_armTimerExpiry_early ?_
    rw [armDue_eq hrun, htimer, timerDue_running, decide_eq_false (Nat.not_le.mpr hearly), Bool.and_false]
  · obtain ⟨d, hd⟩ := enterClosing_fields hrun .stalled
    refine ⟨_, d, exec_stallTimerExpiry_due hline ?_, hd⟩
    rw [stallDue_eq hrun, (inMotion_iff _).mpr hmotion, htimer, timerDue_running, decide_eq_true hdue]
    rfl
  · refine exec_stallTimerExpiry_early ?_
    rw [stallDue_eq hrun, htimer, timerDue_running, decide_eq_false (Nat.not_le.mpr hearly), Bool.and_false]
  · refine exec_stallTimerExpiry_early ?_
    rw [stallDue_eq hrun, htimer, timerDue_paused, Bool.and_false]

end Timers

/-! ### The closing sequence (R53, R54, R95, R111, R148) -/

/-- A change of a run is read off the run as it stands. -/
theorem modRun_congr {s : State} {l : LaneId} {c : RunContext} (hrun : (s.lane l).run = some c)
    {f g : RunContext → RunContext} (h : f c = g c) : s.modRun l f = s.modRun l g :=
  modLane_congr (by simp only [hrun, Option.map_some, h])

theorem modRun_id {s : State} {l : LaneId} {c : RunContext} (hrun : (s.lane l).run = some c)
    {f : RunContext → RunContext} (h : f c = c) : s.modRun l f = s :=
  modLane_id (by simp only [hrun, Option.map_some, h]; rw [← hrun])

section RunClosing

variable {s s' : State} {l : LaneId} {step : CloseStep} {e : EventRecord}

theorem runClosing_silent (h : s.closeStep l step = (s', none)) (rest : List CloseStep) :
    s.runClosing l (step :: rest) = s'.runClosing l rest := by
  rw [State.runClosing, h]

theorem runClosing_placed (h : s.closeStep l step = (s', some e)) (hroom : s.eventRoom (.closing l) 1)
    (rest : List CloseStep) :
    s.runClosing l (step :: rest) = ((s'.leaveWaiters (.closing l)).placeRecord e).runClosing l rest := by
  rw [State.runClosing, h]
  exact if_pos (roomFor_of_eventRoom hroom)

theorem runClosing_waits (h : s.closeStep l step = (s', some e)) (hroom : ¬ s.eventRoom (.closing l) 1)
    (rest : List CloseStep) :
    s.runClosing l (step :: rest) = (s.setClosing l (some (step :: rest))).joinWaiters (.closing l) := by
  rw [State.runClosing, h]
  exact if_neg (ne_true_of_eq_false (roomFor_eq_false Nat.one_ne_zero hroom))

end RunClosing

section CloseStep

variable {s : State} {l : LaneId} {c : RunContext} (hrun : (s.lane l).run = some c)
include hrun

theorem closeStep_rule (r : Fin 32) : s.closeStep l (.rule r) =
    let res := endRule l (s.profile l) (s.keepRow l).indicationKeep r
      (callRuleOf (s.capturedRow l .callRules r.val)) c
    (s.modRun l fun _ => res.1, res.2) := by
  unfold State.closeStep
  rw [hrun]

theorem closeStep_rule_idle {r : Fin 32} (h : c.evaluator.rules[r] = none) : s.closeStep l (.rule r) = (s, none) := by
  rw [closeStep_rule hrun, endRule, h]
  exact congrArg (·, none) (modRun_id hrun rfl)

theorem closeStep_rule_open {r : Fin 32} {o : RuleOpen} (h : c.evaluator.rules[r] = some o) :
    s.closeStep l (.rule r) =
      let closed := closeRule l (s.profile l) (s.keepRow l).indicationKeep r
        (callRuleOf (s.capturedRow l .callRules r.val)) true o c
      (s.modRun l fun _ => closed.1, closed.2) := by
  rw [closeStep_rule hrun, endRule, h]

theorem closeStep_dropCandidate : s.closeStep l .dropCandidate =
    (s.modRun l fun c => { c with matcher := { c.matcher with candidate := none } }, none) := by
  unfold State.closeStep
  rw [hrun]

theorem closeStep_drain : s.closeStep l .drain = (s.drainDelay l, none) := by
  unfold State.closeStep
  rw [hrun]

theorem closeStep_finalBlock : s.closeStep l .finalBlock = ((s.closeBlock l).modRun l fun c =>
    { c with forwarder := { c.forwarder with keep := Vector.replicate 32 .none } }, none) := by
  unfold State.closeStep
  rw [hrun]
  rfl

theorem closeStep_verdict : s.closeStep l .verdict = (s.modRun l (formVerdict (s.standardRow l)), none) := by
  unfold State.closeStep
  rw [hrun]

theorem closeStep_runClose : s.closeStep l .runClose = (s, some (.runClose l c.serial (runCloseRecord c))) := by
  unfold State.closeStep
  rw [hrun]

end CloseStep

section Drain

variable {s : State} {l : LaneId} {d : RunContext}

/-- Every entry of the delay line handed to the forwarder, oldest first. -/
def State.drained (s : State) (l : LaneId) : State :=
  (s.modLane l fun ln => { ln with delay := [] }).handleEntries l (s.lane l).delay

theorem drainDelay_plain (hrun : ((s.drained l).lane l).run = some d) (hheld : d.heldLoss = none) :
    s.drainDelay l = s.drained l := by
  unfold State.drained at hrun ⊢
  unfold State.drainDelay
  simp only [hrun, Option.bind_some, hheld]

theorem drainDelay_held (hrun : ((s.drained l).lane l).run = some d) {h : HeldLoss} (hheld : d.heldLoss = some h) :
    s.drainDelay l = (s.drained l).modRun l fun c =>
      { c with heldLoss := none, forwarder := gapEnter ⟨h.upper, h.lower⟩ c.forwarder } := by
  unfold State.drained at hrun ⊢
  unfold State.drainDelay
  simp only [hrun, Option.bind_some, hheld]
  rfl

end Drain

section Verdict

variable {rows : Nat → StandardRow} {c : RunContext}

theorem formVerdict_production (h : c.kind = .production) : formVerdict rows c = c := by
  unfold formVerdict
  rw [h]

theorem formVerdict_standard (h : c.kind = .standard) : formVerdict rows c = { c with
    verdict := some (verdictOf rows c)
    standardIncomplete := c.standardIncomplete || verdictOf rows c == .notEvaluated } := by
  unfold formVerdict
  rw [h]

end Verdict

theorem exec_closingResume_free {s : State} {l : LaneId} (hline : s.resetLine = false) :
    exec (.closingResume l) s = .next (s.closingResume l) := by
  simp only [exec, execClosingResume, hline, Bool.false_eq_true, if_false]

theorem closingResume_waiting {s : State} {l : LaneId} {c : RunContext} {step : CloseStep} {rest : List CloseStep}
    (hrun : (s.lane l).run = some c) (h : c.closing = some (step :: rest)) :
    s.closingResume l = s.runClosing l (step :: rest) := by
  unfold State.closingResume
  rw [hrun, Option.bind_some, h]

theorem closingResume_idle {s : State} {l : LaneId}
    (h : ∀ c, (s.lane l).run = some c → c.closing = none ∨ c.closing = some []) : s.closingResume l = s := by
  unfold State.closingResume
  cases hrun : (s.lane l).run with
  | none => rfl
  | some c =>
    rw [Option.bind_some]
    rcases h c hrun with hnone | hdone
    · rw [hnone]
    · rw [hdone]

/-- Settles O27: the sequence step by step, what each step does, the drain entry by entry, and the command. -/
theorem closingResumes : Obligations.ClosingResumes := by
  refine ⟨fun s l => ⟨rfl, rfl, fun step rest s' => ⟨fun h => runClosing_silent h rest,
      fun e h => ⟨fun hroom => runClosing_placed h hroom rest, fun hroom => ?_⟩⟩⟩, fun s l c hrun => ?_,
    fun s l e es => ⟨rfl, rfl⟩, fun l s hline => ⟨fun c step rest hrun hsteps => ?_, fun hidle => ?_⟩⟩
  · rw [runClosing_waits h hroom rest, joinWaiters_eq]
  · refine ⟨fun r => ⟨closeStep_rule_idle hrun, fun o => closeStep_rule_open hrun⟩, closeStep_dropCandidate hrun,
      fun d hd => ⟨fun hheld => ?_, fun h hheld => ?_⟩, closeStep_finalBlock hrun, fun hkind => ?_, fun hkind => ?_,
      closeStep_runClose hrun⟩
    · rw [closeStep_drain hrun, drainDelay_plain hd hheld]
      rfl
    · rw [closeStep_drain hrun, drainDelay_held hd hheld]
      rfl
    · rw [closeStep_verdict hrun, modRun_id hrun (formVerdict_production hkind)]
    · rw [closeStep_verdict hrun]
      exact congrArg (·, none) (modRun_congr hrun (formVerdict_standard hkind))
  · rw [exec_closingResume_free hline, closingResume_waiting hrun hsteps]
  · rw [exec_closingResume_free hline, closingResume_idle hidle]

end Sys2Proof.Machine

/-! PROOFS. The group unit's outcomes and the handling of a close notice (O28, O29). -/

namespace Sys2Proof.Machine

open Sys2Proof

/-! ### The two steps of R126 -/

section Outcome

variable {l : LaneId} {rows : Nat → StandardRow} {cal std : BitVec 16} {c : RunContext} {g : Group}

theorem supersedeAtClose_plain (h : g.pending = false) : supersedeAtClose l g = ([], g) :=
  if_neg fun hboth => Bool.false_ne_true (h.symm.trans hboth.2)

theorem supersedeAtClose_superseded (hopen : g.state = .opened) (hpending : g.pending = true) :
    supersedeAtClose l g = ([.groupClose l g.number .superseded none none g.runs], closedGroup g) :=
  if_pos ⟨hopen, hpending⟩

theorem length_supersedeAtClose : (supersedeAtClose l g).1.length ≤ 1 := by
  unfold supersedeAtClose
  split
  · exact Nat.le_refl 1
  · exact Nat.zero_le 1

theorem closeFirstStep_superseded (hopen : g.state = .opened) (hpending : g.pending = true) :
    closeFirstStep l rows c g = ([.groupClose l g.number .superseded none none g.runs], closedGroup g) := by
  rw [closeFirstStep, if_pos hopen, if_pos hpending]
  rfl

theorem closeFirstStep_compared (hopen : g.state = .opened) (hpending : g.pending = false) {op : Opener}
    (hopener : g.opener = some op) : closeFirstStep l rows c g =
      ([.groupClose l g.number (driftVerdict (driftFlags rows c.evaluator op)) (some c.serial)
        (some (driftFlags rows c.evaluator op)) g.runs], closedGroup g) := by
  rw [closeFirstStep, if_pos hopen, if_neg (ne_true_of_eq_false hpending), hopener]
  rfl

theorem closeFirstStep_notOpen (h : g.state ≠ .opened) : closeFirstStep l rows c g = ([], g) := if_neg h

/-- The first step keeps the group's number and places one record at most. -/
theorem closeFirstStep_bounds :
    (closeFirstStep l rows c g).2.number = g.number ∧ (closeFirstStep l rows c g).1.length ≤ 1 := by
  unfold closeFirstStep
  split
  · split
    · exact ⟨rfl, Nat.le_refl 1⟩
    · split <;> exact ⟨rfl, Nat.le_refl 1⟩
  · exact ⟨rfl, Nat.zero_le 1⟩

/-- The run opens a group: ACCEPTED, under the current generations (R126). -/
def runOpens (cal std : BitVec 16) (c : RunContext) : Prop :=
  c.verdict = some .accepted ∧ capturedGeneration c .calibration = cal ∧ capturedGeneration c .standard = std

theorem closeSecondStep_opens (h : runOpens cal std c) : closeSecondStep l rows cal std c g =
    ([.groupOpen l (g.number + 1) c.serial cal std], openedGroup rows c g) := by
  obtain ⟨hverdict, hcal, hstd⟩ := h
  rw [closeSecondStep, if_pos ⟨hverdict, hcal, hstd⟩, ← hcal, ← hstd]
  rfl

theorem closeSecondStep_needs (h : ¬ runOpens cal std c) :
    closeSecondStep l rows cal std c g = ([], { g with state := .needsStandard }) := if_neg h

theorem length_closeSecondStep : (closeSecondStep l rows cal std c g).1.length ≤ 1 := by
  unfold closeSecondStep
  split
  · exact Nat.le_refl 1
  · exact Nat.zero_le 1

theorem closeOutcome_quiet (h : c.kind = .production ∨ (c.kind = .standard ∧ c.verdict = some .notEvaluated)) :
    closeOutcome l rows cal std c g = supersedeAtClose l g := by
  unfold closeOutcome
  rcases h with hkind | ⟨hkind, hverdict⟩
  · rw [hkind]
  · rw [hkind, hverdict]

theorem closeOutcome_judged (h : c.kind = .standard ∧ (c.verdict = some .accepted ∨ c.verdict = some .rejected)) :
    closeOutcome l rows cal std c g =
      ((closeFirstStep l rows c g).1 ++ (closeSecondStep l rows cal std c (closeFirstStep l rows c g).2).1,
        (closeSecondStep l rows cal std c (closeFirstStep l rows c g).2).2) := by
  obtain ⟨hkind, hverdict⟩ := h
  unfold closeOutcome
  rcases hverdict with haccepted | hrejected
  · rw [hkind, haccepted]
  · rw [hkind, hrejected]

theorem length_closeOutcome : (closeOutcome l rows cal std c g).1.length ≤ 2 := by
  have hquiet := Nat.le_succ_of_le (length_supersedeAtClose (l := l) (g := g))
  have hjudged : ((closeFirstStep l rows c g).1
      ++ (closeSecondStep l rows cal std c (closeFirstStep l rows c g).2).1).length ≤ 2 := by
    rw [List.length_append]
    exact Nat.add_le_add closeFirstStep_bounds.2 length_closeSecondStep
  unfold closeOutcome
  split
  · exact hquiet
  · exact hjudged
  · exact hjudged
  · exact hquiet

end Outcome

/-! ### The drift comparison and the signature (R127, R128) -/

section Drift

variable {rows : Nat → StandardRow} {e : Evaluator} {op : Opener} {k : Fin 8}

/-- The compare flags of one reference. -/
def referenceFlags (rows : Nat → StandardRow) (e : Evaluator) (op : Opener) (k : Fin 8) : List CompareFlag :=
  match e.captures[k] with
  | some r =>
    if (rows k).used then
      List.zipWith (fun ch p => comparePeak (rows k).driftMag (rows k).driftPhase p (signaturePeak op.signature[k] ch))
        (rows k).channels (capturedPeaks r)
    else []
  | none => []

theorem driftFlags_eq : driftFlags rows e op = (List.finRange 8).map (referenceFlags rows e op) := rfl

theorem driftFlags_getElem? : (driftFlags rows e op)[k]? = some (referenceFlags rows e op k) := by
  rw [driftFlags_eq]
  change ((List.finRange 8).map _)[k.val]? = _
  rw [List.getElem?_map, List.getElem?_eq_getElem (by simp [k.isLt]), List.getElem_finRange]
  rfl

theorem referenceFlags_none (h : e.captures[k] = none ∨ (rows k).used = false) : referenceFlags rows e op k = [] := by
  unfold referenceFlags
  cases hcapture : e.captures[k] with
  | none => rfl
  | some r =>
    rcases h with hnone | hunused
    · rw [hcapture] at hnone; cases hnone
    · exact if_neg (ne_true_of_eq_false hunused)

theorem referenceFlags_used {r : RefCapture} (hcapture : e.captures[k] = some r) (hused : (rows k).used = true) :
    referenceFlags rows e op k = List.zipWith
      (fun ch p => comparePeak (rows k).driftMag (rows k).driftPhase p (signaturePeak op.signature[k] ch))
      (rows k).channels (capturedPeaks r) := by
  unfold referenceFlags
  rw [hcapture]
  exact if_pos hused

theorem capturedPeaks_getElem? {r : RefCapture} {i : Nat} {p : Peak} (h : r.peaks[i]? = some (some p)) :
    (capturedPeaks r)[i]? = some p := by
  rw [capturedPeaks, List.getElem?_map, h]
  rfl

theorem length_capturedPeaks (r : RefCapture) : (capturedPeaks r).length = r.peaks.length := List.length_map _

theorem signaturePeak_found {sig : List SignaturePeak} {x : SignaturePeak} {ch : Nat}
    (h : sig.find? (fun q => q.channel == ch) = some x) : signaturePeak (some sig) ch = ⟨x.mag, x.phase⟩ := by
  rw [signaturePeak, Option.getD_some, h]

theorem driftVerdict_pass {flags : List (List CompareFlag)}
    (h : ∀ fs ∈ flags, ∀ f ∈ fs, f.magError = false ∧ f.phaseError = false) : driftVerdict flags = .pass := by
  refine if_pos ?_
  rw [List.all_eq_true]
  refine fun fs hfs => List.all_eq_true.mpr fun f hf => ?_
  obtain ⟨hmag, hphase⟩ := h fs hfs f hf
  rw [liesWithin, hmag, hphase]
  rfl

theorem driftVerdict_fail {flags : List (List CompareFlag)}
    (h : ∃ fs ∈ flags, ∃ f ∈ fs, f.magError = true ∨ f.phaseError = true) : driftVerdict flags = .fail := by
  obtain ⟨fs, hfs, f, hf, herror⟩ := h
  refine if_neg fun hall => ?_
  have hwithin := (liesWithin_iff f).mp (List.all_eq_true.mp (List.all_eq_true.mp hall fs hfs) f hf)
  exact herror.elim hwithin.1 hwithin.2

theorem signatureOf_get : (signatureOf rows e)[k] = (e.captures[k]).map fun r =>
    List.zipWith (fun ch p => ⟨ch, p.mag, p.phase⟩) (rows k).channels (capturedPeaks r) := vtab_get 8 _ k

end Drift

/-- Settles O28: the outcome by kind, verdict and group, the flags by reference, the verdict and the signature. -/
theorem closeOutcomes : Obligations.CloseOutcomes := by
  refine ⟨fun l rows cal std c g => ?_, fun g => rfl, fun rows e op => ⟨?_, fun k hnone => ?_, fun k r hcapture hused => ?_⟩,
    fun flags => ⟨driftVerdict_pass, driftVerdict_fail⟩, fun rows e k => ⟨fun hnone => ?_, fun r hcapture => ?_⟩⟩
  · intro quiet judged opens superseded o
    have hquiet : quiet → o = supersedeAtClose l g := closeOutcome_quiet
    have hjudged : judged → o = _ := closeOutcome_judged
    have hnumber : (closeFirstStep l rows c g).2.number = g.number := closeFirstStep_bounds.1
    refine ⟨fun h hpending => ?_, fun h hopen hpending => ?_, fun h hneeds => ?_, fun h hopens => ?_,
      fun h hopen hpending => ?_, fun h hopen hpending op hopener => ?_, fun h hstate hneeds => ?_, length_closeOutcome⟩
    · rw [hquiet h, supersedeAtClose_plain hpending]
    · rw [hquiet h, supersedeAtClose_superseded hopen hpending]
      exact ⟨rfl, rfl⟩
    · rw [hjudged h, closeSecondStep_needs hneeds]
      exact ⟨rfl, hnumber⟩
    · rw [hjudged h, closeSecondStep_opens hopens, hnumber, List.getLast?_concat]
      exact ⟨rfl, rfl, congrArg (· + 1) hnumber, rfl, ⟨_, rfl, rfl, hopens.2.1, hopens.2.2, rfl⟩, rfl⟩
    · rw [hjudged h, closeFirstStep_superseded hopen hpending]
      rfl
    · rw [hjudged h, closeFirstStep_compared hopen hpending hopener]
      rfl
    · rw [hjudged h, closeFirstStep_notOpen hstate, closeSecondStep_needs hneeds]
      rfl
  · rw [driftFlags_eq, List.length_map, List.length_finRange]
  · rw [driftFlags_getElem?, referenceFlags_none hnone]
  · refine ⟨_, driftFlags_getElem?, ?_⟩
    rw [referenceFlags_used hcapture hused]
    refine ⟨?_, fun i ch p sig x hchannel hpeak hsig hfound => ?_⟩
    · rw [List.length_zipWith, length_capturedPeaks]
    · rw [List.getElem?_zipWith, hchannel, capturedPeaks_getElem? hpeak, hsig]
      exact congrArg (fun q => some (comparePeak _ _ p q)) (signaturePeak_found hfound)
  · rw [signatureOf_get, hnone]
    rfl
  · refine ⟨_, by rw [signatureOf_get, hcapture]; rfl, fun i ch p hchannel hpeak => ?_⟩
    rw [List.getElem?_zipWith, hchannel, capturedPeaks_getElem? hpeak]

/-! ### Records placed while the transmitter is SENDING (R161) -/

section Sending

variable {s : State}

theorem idleChoice_sending (h : s.trunk.isSending) : s.idleChoice = s := by
  obtain ⟨ws, hws⟩ := h
  unfold State.idleChoice
  rw [hws]

/-- Pressure is all that weighing it changes in the trunk. -/
theorem trunk_weighPressure : s.weighPressure.trunk =
    { s.trunk with pressure := pressureAfter s.trunk.events.length s.trunk.pressure } := by
  unfold State.weighPressure
  simp only []
  split
  next hsame => rw [hsame]
  next => rfl

theorem placeRecord_sending (h : s.trunk.isSending) (e : EventRecord) :
    s.placeRecord e = (s.modTrunk fun t => { t with events := t.events ++ [e] }).weighPressure := by
  refine idleChoice_sending ?_
  obtain ⟨ws, hws⟩ := h
  exact ⟨ws, by rw [trunk_weighPressure]; exact hws⟩

/-- The trunk after a record placed: the record at the queue's tail, and the pressure. -/
theorem trunk_placeRecord_sending (h : s.trunk.isSending) (e : EventRecord) :
    (s.placeRecord e).trunk = { s.trunk with
      events := s.trunk.events ++ [e], pressure := pressureAfter (s.trunk.events.length + 1) s.trunk.pressure } := by
  rw [placeRecord_sending h, trunk_weighPressure, State.modTrunk_trunk]
  simp only [List.length_append, List.length_singleton]

theorem placeRecords_sending (es : List EventRecord) : ∀ {s : State}, s.trunk.isSending →
    (s.placeRecords es).trunk.events = s.trunk.events ++ es ∧ (s.placeRecords es).trunk.isSending := by
  induction es with
  | nil => exact fun h => ⟨(List.append_nil _).symm, h⟩
  | cons e es ih =>
    intro s h
    have htrunk := trunk_placeRecord_sending h e
    have hsending : (s.placeRecord e).trunk.isSending := by rw [htrunk]; exact h
    obtain ⟨hevents, hstill⟩ := ih hsending
    refine ⟨hevents.trans ?_, hstill⟩
    rw [htrunk, List.append_assoc]
    rfl

theorem events_settleLane_sending (h : s.trunk.isSending) (l : LaneId) :
    (s.settleLane l).trunk.events = s.trunk.events := by
  unfold State.settleLane
  simp only []
  split
  · rfl
  · split
    · rw [returnAccount_sending (s := s.setRunState l _) h]
      rfl
    · rfl

end Sending

/-! ### The close notice handled (R57, R123) -/

section Notice

variable {s : State} {l : LaneId} {c : RunContext}

theorem noticed_eq_some (hrun : (s.lane l).run = some c) (hclosing : c.closing = some []) : s.noticed l = some c := by
  unfold State.noticed
  rw [hrun]
  exact if_pos hclosing

theorem noticed_eq_none (h : ∀ c, (s.lane l).run = some c → c.closing ≠ some []) : s.noticed l = none := by
  unfold State.noticed
  cases hrun : (s.lane l).run with
  | none => rfl
  | some c => exact if_neg (h c hrun)

theorem exec_closeHandling_free (hline : s.resetLine = false) :
    exec (.closeHandling l) s = .next (s.closeHandling l) := by
  simp only [exec, execCloseHandling, hline, Bool.false_eq_true, if_false]

theorem closeHandling_none (h : s.noticed l = none) : s.closeHandling l = s := by
  unfold State.closeHandling
  rw [h]

theorem closeHandling_room (h : s.noticed l = some c) (hroom : s.roomFor (.group l) (s.closeOutcome l c).1.length = true) :
    s.closeHandling l = (s.handleNotice l c).weighWaiters := by
  unfold State.closeHandling
  rw [h]
  exact if_pos hroom

theorem closeHandling_waits (h : s.noticed l = some c)
    (hroom : s.roomFor (.group l) (s.closeOutcome l c).1.length = false) :
    s.closeHandling l = s.joinWaiters (.group l) := by
  unfold State.closeHandling
  rw [h]
  exact if_neg (ne_true_of_eq_false hroom)

theorem roomFor_of_no_places {w : Waiter} {es : List EventRecord} (h : es = []) : s.roomFor w es.length = true := by
  rw [h]
  rfl

/-- The state a handled notice leaves before the run context is discarded. -/
def State.noticeTaken (s : State) (l : LaneId) (c : RunContext) : State :=
  ((s.leaveWaiters (.group l)).placeRecords (s.closeOutcome l c).1).setGroup l (s.closeOutcome l c).2

theorem handleNotice_eq : s.handleNotice l c =
    ((s.noticeTaken l c).modLane l fun ln => { ln with run := none }).settleLane l := rfl

theorem tables_noticeTaken : (s.noticeTaken l c).tables = s.tables :=
  (Placed.placeRecords (s.closeOutcome l c).1 (s.leaveWaiters (.group l))).tables

theorem link_noticeTaken (k : LaneId) : ((s.noticeTaken l c).lane k).rx.link = (s.lane k).rx.link :=
  congrArg (·.rx.link) (OwnKept.placeRecords (s.closeOutcome l c).1 (s.leaveWaiters (.group l)) k)

theorem group_noticeTaken_same : (s.noticeTaken l c).group l = (s.closeOutcome l c).2 :=
  State.group_setGroup_same _ l _

theorem group_noticeTaken_other {k : LaneId} (hk : k ≠ l) : (s.noticeTaken l c).group k = s.group k := by
  rw [State.noticeTaken, State.group_setGroup_other _ _ _ _ hk]
  exact congrArg (fun v => v[k]) (Placed.placeRecords (s.closeOutcome l c).1 (s.leaveWaiters (.group l))).groups

theorem group_handleNotice (k : LaneId) : (s.handleNotice l c).group k = (s.noticeTaken l c).group k := by
  have hgroups := (settled_settleLane ((s.noticeTaken l c).modLane l fun ln => { ln with run := none }) l).groups
  exact congrArg (fun v => v[k]) hgroups

theorem run_handleNotice : ((s.handleNotice l c).lane l).run = none := by
  rw [handleNotice_eq]
  exact run_settleLane_none (by rw [State.lane_modLane_same])

theorem runState_handleNotice : ((s.handleNotice l c).lane l).runState =
    if bitAt (wordAt (s.tables.currentRow .lane l.val) 0) 0 = true ∧ (s.lane l).rx.link = .up then .idle
    else .offline := by
  rw [handleNotice_eq, runState_settleLane, restState_eq, State.modLane_tables, tables_noticeTaken,
    State.lane_modLane_same]
  simp only [link_noticeTaken]

theorem events_handleNotice (h : s.trunk.isSending) :
    (s.handleNotice l c).trunk.events = s.trunk.events ++ (s.closeOutcome l c).1 := by
  have hleft : (s.leaveWaiters (.group l)).trunk.isSending := h
  obtain ⟨hevents, hsending⟩ := placeRecords_sending (s.closeOutcome l c).1 hleft
  have hcleared : ((s.noticeTaken l c).modLane l fun ln => { ln with run := none }).trunk.isSending := hsending
  rw [handleNotice_eq, events_settleLane_sending hcleared]
  exact hevents

end Notice

/-- Settles O29: the notice handled with room, the wait without it, and the lane without a notice. -/
theorem noticeHandled : Obligations.NoticeHandled := by
  refine ⟨fun l s c hline hrun hclosing => ⟨fun hroom => ?_, fun hplaces hroom => ?_⟩, fun l s hnone => ?_⟩
  · have hfree : s.roomFor (.group l) (s.closeOutcome l c).1.length = true :=
      hroom.elim roomFor_of_eventRoom roomFor_of_no_places
    refine ⟨?_, (group_handleNotice l).trans group_noticeTaken_same, run_handleNotice, fun k hk => ⟨?_, ?_⟩,
      runState_handleNotice, events_handleNotice⟩
    · rw [exec_closeHandling_free hline, closeHandling_room (noticed_eq_some hrun hclosing) hfree]
    · exact (group_handleNotice k).trans (group_noticeTaken_other hk)
    · exact Elsewhere.handleNotice s l c k hk
  · have hfull := roomFor_eq_false (mt List.length_eq_zero_iff.mp hplaces) hroom
    refine ⟨s.joinWaiters (.group l), ?_, rfl, rfl, mem_joinWaiters⟩
    rw [exec_closeHandling_free hline, closeHandling_waits (noticed_eq_some hrun hclosing) hfull]
  · simp only [exec, execCloseHandling, closeHandling_none (noticed_eq_none hnone), ite_self]

end Sys2Proof.Machine

/-! PROOFS. The station link and the trunk: frames discarded, credit, the arbiter, replies and records placed (O30 to
O33, O35). -/

namespace Sys2Proof.Machine

open Sys2Proof

/-! ### What a downstream frame is (R150, R151, R183) -/

section Classify

variable {words body : List Word} {c : Word}

theorem stationCheckOk_concat : stationCheckOk (body ++ [c]) = (crc32 body == c) := by
  rw [stationCheckOk, List.getLast?_concat]
  exact congrArg (crc32 · == c) (List.dropLast_concat)

theorem classifyStation_unchecked (h : stationCheckOk words = false) : classifyStation words = .invalid := by
  simp only [classifyStation, h, Bool.not_false, if_true]

theorem classifyStation_checked (h : stationCheckOk words = true) : classifyStation words =
    if bits (words.getD 0 0) 31 24 = 1 then
      if words.length < 3 then .invalid
      else .request (BitVec.ofNat 16 (bits (words.getD 1 0) 31 16)) (bits (words.getD 1 0) 7 0) (words.drop 2).dropLast
    else if bits (words.getD 0 0) 31 24 = 2 then
      if words.length ≠ 4 then .invalid
      else if bits (words.getD 1 0) 31 24 = 0 then
        .dataCredit (bits (words.getD 1 0) 9 0) (bits (words.getD 2 0) 15 0)
      else if bits (words.getD 1 0) 31 24 = 1 then .eventCredit (bits (words.getD 1 0) 9 0)
      else .invalid
    else .invalid := by
  simp only [classifyStation, h, Bool.not_true, Bool.false_eq_true, if_false]

/-- A request's body lies between its header's two words and the check word. -/
theorem requestBody_concat (h : 3 ≤ (body ++ [c]).length) : ((body ++ [c]).drop 2).dropLast = body.drop 2 := by
  rw [List.length_append, List.length_singleton] at h
  rw [List.drop_append_of_le_length (by omega), List.dropLast_concat]

end Classify

theorem countStation_eq (s : State) : s.countStation = s.modTrunk fun t => { t with check := min 255 (t.check + 1) } := by
  simp only [State.countStation, satByte_eq_min]

/-- While the reset line is released a frame end is what its words say. -/
theorem stationFrame_free {s : State} (hline : s.resetLine = false) (words : List Word) :
    s.stationFrame words = s.stationFrameEnd words := if_neg (ne_true_of_eq_false hline)

/-- Settles O30: the words' checks in order, and the count of what fails. -/
theorem downstreamDiscards : Obligations.DownstreamDiscards := by
  refine ⟨fun body c => ?_, fun s words hline => ⟨?_, fun hinvalid => ?_⟩⟩
  · intro words w0 w1
    have hchecked : crc32 body = c → stationCheckOk words = true := fun h => by
      rw [stationCheckOk_concat, h, beq_self_eq_true]
    refine ⟨rfl, fun hcheck => classifyStation_unchecked ?_, fun hcheck hrequest hcredit => ?_,
      fun hcheck hrequest hshort => ?_, fun hcheck hrequest hlong => ?_, fun hcheck hcredit hbad => ?_,
      fun hcheck hcredit hlength hdata => ?_, fun hcheck hcredit hlength hevent => ?_⟩
    · rw [stationCheckOk_concat, beq_eq_false_iff_ne]
      exact hcheck
    · rw [classifyStation_checked (hchecked hcheck), if_neg hrequest, if_neg hcredit]
    · rw [classifyStation_checked (hchecked hcheck), if_pos hrequest, if_pos hshort]
    · rw [classifyStation_checked (hchecked hcheck), if_pos hrequest, if_neg (Nat.not_lt.mpr hlong),
        requestBody_concat hlong]
    · have hkind : bits w0 31 24 ≠ 1 := by omega
      rw [classifyStation_checked (hchecked hcheck), if_neg hkind, if_pos hcredit]
      by_cases hlength : words.length = 4
      · have hclass : 2 ≤ bits w1 31 24 := hbad.resolve_left (fun h => h hlength)
        rw [if_neg (not_not_intro hlength), if_neg (show bits w1 31 24 ≠ 0 by omega),
          if_neg (show bits w1 31 24 ≠ 1 by omega)]
      · rw [if_pos hlength]
    · have hkind : bits w0 31 24 ≠ 1 := by omega
      rw [classifyStation_checked (hchecked hcheck), if_neg hkind, if_pos hcredit, if_neg (not_not_intro hlength),
        if_pos hdata]
    · have hkind : bits w0 31 24 ≠ 1 := by omega
      rw [classifyStation_checked (hchecked hcheck), if_neg hkind, if_pos hcredit, if_neg (not_not_intro hlength),
        if_neg (show bits w1 31 24 ≠ 0 by omega), if_pos hevent]
  · rw [← countStation_eq]
    simp only [exec, execStationFrameBreak, hline, Bool.false_eq_true, if_false]
  · rw [← countStation_eq]
    simp only [exec, execStationFrameInvalid, stationFrame_free hline, State.stationFrameEnd, hinvalid]

/-! ### Credit to lanes in order (R153) -/

section Distribute

variable (floors : LaneId → Credit) (accounts : Vector Credit 8)

/-- What a lane receives of what is left: in each dimension what its account lacks of its floor. -/
def grantOf (l : LaneId) (left : Credit) : Credit :=
  ⟨shareOf (floors l).headers accounts[l].headers left.headers, shareOf (floors l).payload accounts[l].payload left.payload⟩

/-- What a lane leaves of the credit that reaches it. -/
def leftBy (left : Credit) (l : LaneId) : Credit :=
  ⟨left.headers - (grantOf floors accounts l left).headers, left.payload - (grantOf floors accounts l left).payload⟩

/-- What the lanes of a list leave. -/
def leftOver (left : Credit) (ls : List LaneId) : Credit := ls.foldl (leftBy floors accounts) left

/-- What is left after the first n lanes. -/
def leftAfter (left : Credit) (n : Nat) : Credit := leftOver floors accounts left ((List.finRange 8).take n)

/-- An account after its share. -/
def toppedUp (l : LaneId) (left : Credit) : Credit :=
  ⟨accounts[l].headers + (grantOf floors accounts l left).headers,
    accounts[l].payload + (grantOf floors accounts l left).payload⟩

variable {floors accounts}

theorem vector_set_same {α : Type} {n : Nat} (v : Vector α n) (i : Fin n) (x : α) : (v.set i x)[i] = x :=
  Vector.getElem_set_self _

theorem vector_set_other {α : Type} {n : Nat} (v : Vector α n) {i j : Fin n} (x : α) (h : j ≠ i) : (v.set i x)[j] = v[j] :=
  Vector.getElem_set_ne _ _ fun he => h (Fin.ext he.symm)

theorem distribute_cons (l : LaneId) (ls : List LaneId) (left : Credit) :
    distribute floors (l :: ls) accounts left =
      distribute floors ls (accounts.set l (toppedUp floors accounts l left)) (leftBy floors accounts left l) := rfl

/-- A lane's share is read off its own account. -/
theorem grantOf_congr {v w : Vector Credit 8} {l : LaneId} (h : v[l] = w[l]) (left : Credit) :
    grantOf floors v l left = grantOf floors w l left := by
  simp only [grantOf, h]

theorem toppedUp_congr {v w : Vector Credit 8} {l : LaneId} (h : v[l] = w[l]) (left : Credit) :
    toppedUp floors v l left = toppedUp floors w l left := by
  rw [toppedUp, toppedUp, grantOf_congr h, h]

theorem leftOver_congr {v w : Vector Credit 8} (ls : List LaneId) (h : ∀ l ∈ ls, v[l] = w[l]) :
    ∀ left : Credit, leftOver floors v left ls = leftOver floors w left ls := by
  induction ls with
  | nil => exact fun left => rfl
  | cons l ls ih =>
    intro left
    have hstep : leftBy floors v left l = leftBy floors w left l := by
      simp only [leftBy, grantOf_congr (h l List.mem_cons_self)]
    simp only [leftOver, List.foldl_cons, hstep]
    exact ih (fun k hk => h k (List.mem_cons_of_mem _ hk)) _

theorem distribute_left (ls : List LaneId) : ∀ (v : Vector Credit 8) (left : Credit), ls.Nodup →
    (distribute floors ls v left).2 = leftOver floors v left ls := by
  induction ls with
  | nil => exact fun v left _ => rfl
  | cons l ls ih =>
    intro v left hnodup
    obtain ⟨hfresh, hrest⟩ := List.nodup_cons.mp hnodup
    rw [distribute_cons, ih _ _ hrest]
    refine leftOver_congr ls (fun k hk => vector_set_other _ _ ?_) _
    rintro rfl
    exact hfresh hk

/-- A lane not in the list keeps its account. -/
theorem distribute_absent {k : LaneId} (ls : List LaneId) : ∀ (v : Vector Credit 8) (left : Credit), k ∉ ls →
    (distribute floors ls v left).1[k] = v[k] := by
  induction ls with
  | nil => exact fun v left _ => rfl
  | cons l ls ih =>
    intro v left habsent
    rw [List.mem_cons, not_or] at habsent
    obtain ⟨hne, hrest⟩ := habsent
    rw [distribute_cons, ih _ _ hrest]
    exact vector_set_other _ _ hne

/-- A lane of the list receives its share of what the lanes before it leave. -/
theorem distribute_account {k : LaneId} (before after : List LaneId) : ∀ (v : Vector Credit 8) (left : Credit),
    (before ++ k :: after).Nodup →
    (distribute floors (before ++ k :: after) v left).1[k] = toppedUp floors v k (leftOver floors v left before) := by
  induction before with
  | nil =>
    intro v left hnodup
    rw [List.nil_append, distribute_cons, distribute_absent _ _ _ (List.nodup_cons.mp hnodup).1]
    exact vector_set_same _ _ _
  | cons l before ih =>
    intro v left hnodup
    rw [List.cons_append] at hnodup
    obtain ⟨hfresh, hrest⟩ := List.nodup_cons.mp hnodup
    rw [List.mem_append, List.mem_cons, not_or, not_or] at hfresh
    obtain ⟨hbefore, hne, -⟩ := hfresh
    have hkeeps : ∀ j, j ≠ l → (v.set l (toppedUp floors v l left))[j] = v[j] := fun j hj => vector_set_other _ _ hj
    have hk : (v.set l (toppedUp floors v l left))[k] = v[k] := hkeeps k (Ne.symm hne)
    rw [List.cons_append, distribute_cons, ih _ _ hrest]
    have hleft : leftOver floors (v.set l (toppedUp floors v l left)) (leftBy floors v left l) before
        = leftOver floors v left (l :: before) :=
      leftOver_congr before (fun j hj => hkeeps j fun he => hbefore (he ▸ hj)) _
    rw [hleft]
    exact toppedUp_congr hk _

theorem finRange_split (l : LaneId) :
    List.finRange 8 = (List.finRange 8).take l.val ++ l :: (List.finRange 8).drop (l.val + 1) := by
  have hl : l.val < (List.finRange 8).length := by rw [List.length_finRange]; exact l.isLt
  have hdrop := List.drop_eq_getElem_cons hl
  rw [List.getElem_finRange] at hdrop
  exact (List.take_append_drop l.val (List.finRange 8)).symm.trans (congrArg _ hdrop)

theorem distribute_lane (l : LaneId) (left : Credit) :
    (distribute floors (List.finRange 8) accounts left).1[l] =
      toppedUp floors accounts l (leftAfter floors accounts left l.val) := by
  have hnodup := List.nodup_finRange 8
  rw [finRange_split l] at hnodup
  have h := distribute_account (floors := floors) _ _ accounts left hnodup
  rw [← finRange_split l] at h
  exact h

theorem leftAfter_succ (l : LaneId) (left : Credit) : leftAfter floors accounts left (l.val + 1) =
    leftBy floors accounts (leftAfter floors accounts left l.val) l := by
  have hl : l.val < (List.finRange 8).length := by rw [List.length_finRange]; exact l.isLt
  unfold leftAfter leftOver
  rw [List.take_succ_eq_append_getElem hl, List.foldl_append, List.getElem_finRange]
  rfl

theorem distribute_rest (left : Credit) :
    (distribute floors (List.finRange 8) accounts left).2 = leftAfter floors accounts left 8 :=
  distribute_left _ _ _ (List.nodup_finRange 8)

end Distribute

/-! ### The credit commands (R152, R153, R161) -/

section Grant

variable {s : State} {words : List Word} {h p : Nat}

/-- A DATA CREDIT before the transmitter chooses. -/
def State.creditGranted (s : State) (h p : Nat) : State :=
  let d := distribute s.floors (List.finRange 8) s.trunk.accounts ⟨h, p⟩
  s.modTrunk fun t => { t with accounts := d.1, pool := addToPool t.pool d.2 }

theorem tx_creditGranted : (s.creditGranted h p).trunk.tx = s.trunk.tx := by
  rw [State.creditGranted, State.modTrunk_trunk]

theorem groups_creditGranted : (s.creditGranted h p).groups = s.groups := by
  rw [State.creditGranted, State.modTrunk_groups]

theorem isSending_creditGranted (hsending : s.trunk.isSending) : (s.creditGranted h p).trunk.isSending := by
  obtain ⟨ws, hws⟩ := hsending
  exact ⟨ws, tx_creditGranted.trans hws⟩

theorem grantData_eq : s.grantData h p = (s.creditGranted h p).idleChoice := rfl

theorem exec_dataCredit_grants (hline : s.resetLine = false) (hclass : classifyStation words = .dataCredit h p) :
    exec (.dataCredit words) s = .next (s.grantData h p) := by
  simp only [exec, execDataCredit, stationFrame_free hline, State.stationFrameEnd, hclass]

theorem exec_eventCredit_grants (hline : s.resetLine = false) (hclass : classifyStation words = .eventCredit h) :
    exec (.eventCredit words) s = .next (s.grantEvent h) := by
  simp only [exec, execEventCredit, stationFrame_free hline, State.stationFrameEnd, hclass]

theorem idleChoice_idle (hidle : s.trunk.tx = .idle) : s.idleChoice = s.arbiterChoice := by
  unfold State.idleChoice
  rw [hidle]

theorem exec_dataCredit_sending (hline : s.resetLine = false) (hclass : classifyStation words = .dataCredit h p)
    (hsending : s.trunk.isSending) : exec (.dataCredit words) s = .next (s.creditGranted h p) := by
  rw [exec_dataCredit_grants hline hclass, grantData_eq, idleChoice_sending (isSending_creditGranted hsending)]

theorem exec_dataCredit_idle (hline : s.resetLine = false) (hclass : classifyStation words = .dataCredit h p)
    (hidle : s.trunk.tx = .idle) : exec (.dataCredit words) s = .next (s.creditGranted h p).arbiterChoice := by
  rw [exec_dataCredit_grants hline hclass, grantData_eq, idleChoice_idle (tx_creditGranted.trans hidle)]

/-- An EVENT CREDIT before the transmitter chooses. -/
def State.eventGranted (s : State) (h : Nat) : State :=
  s.modTrunk fun t => { t with eventCredit := min 4095 (t.eventCredit + h) }

theorem grantEvent_sending (hsending : s.trunk.isSending) : s.grantEvent h = s.eventGranted h := by
  obtain ⟨ws, hws⟩ := hsending
  simp only [State.grantEvent, hws, satTo_eq_min, Config.eventCreditCap, State.eventGranted]

theorem grantEvent_idle (hidle : s.trunk.tx = .idle) :
    s.grantEvent h = (s.eventGranted h).arbiterChoice.weighWaiters := by
  simp only [State.grantEvent, hidle, satTo_eq_min, Config.eventCreditCap, State.eventGranted]

/-- An OFFLINE lane has the floor 0 and so receives nothing. -/
theorem floors_eq (l : LaneId) : s.floors l =
    if (s.lane l).runState ≠ .offline then ⟨(s.laneRow l).headerFloor, (s.laneRow l).payloadFloor⟩ else ⟨0, 0⟩ := by
  rw [State.floors, ite_not]

theorem grantOf_floors (l : LaneId) (left : Credit) :
    let opened := (s.lane l).runState ≠ .offline
    grantOf s.floors s.trunk.accounts l left =
      ⟨if opened then min ((s.laneRow l).headerFloor - s.trunk.accounts[l].headers) left.headers else 0,
        if opened then min ((s.laneRow l).payloadFloor - s.trunk.accounts[l].payload) left.payload else 0⟩ := by
  simp only [grantOf, shareOf, floors_eq]
  split
  · rfl
  · simp only [Nat.zero_sub, Nat.zero_min]

end Grant

/-- Settles O31: the event credit count, and the data credit lane by lane. -/
theorem creditGranted : Obligations.CreditGranted := by
  refine ⟨fun s words h hline hclass => ⟨fun hsending => ?_, fun hidle => ?_⟩, fun s words h p hline hclass => ?_⟩
  · rw [exec_eventCredit_grants hline hclass, grantEvent_sending hsending]
    rfl
  · rw [exec_eventCredit_grants hline hclass, grantEvent_idle hidle]
    rfl
  · refine ⟨s.creditGranted h p, fun n => (leftAfter s.floors s.trunk.accounts ⟨h, p⟩ n).headers,
      fun n => (leftAfter s.floors s.trunk.accounts ⟨h, p⟩ n).payload, exec_dataCredit_sending hline hclass,
      exec_dataCredit_idle hline hclass, rfl, rfl, fun l => ?_, ?_, State.modTrunk_lanes _ _,
      State.modTrunk_groups _ _, State.modTrunk_tables _ _, ?_⟩
    · intro opened gh gp
      have hgrant := grantOf_floors (s := s) l (leftAfter s.floors s.trunk.accounts ⟨h, p⟩ l.val)
      have hgh : (grantOf s.floors s.trunk.accounts l (leftAfter s.floors s.trunk.accounts ⟨h, p⟩ l.val)).headers = gh :=
        congrArg Credit.headers hgrant
      have hgp : (grantOf s.floors s.trunk.accounts l (leftAfter s.floors s.trunk.accounts ⟨h, p⟩ l.val)).payload = gp :=
        congrArg Credit.payload hgrant
      refine ⟨(distribute_lane l _).trans ?_, ?_, ?_⟩
      · rw [toppedUp, hgh, hgp]
      · simp only [leftAfter_succ, leftBy, hgh]
      · simp only [leftAfter_succ, leftBy, hgp]
    · exact (congrArg (addToPool s.trunk.pool) (distribute_rest _)).trans (addToPool_eq _ _)
    · rw [State.creditGranted, State.modTrunk_trunk]
      exact ⟨rfl, rfl, rfl, rfl⟩

end Sys2Proof.Machine

/-! PROOFS. The arbiter: what its choices cost, what it chooses, and what is placed and served (O32, O33, O35). -/

namespace Sys2Proof.Machine

open Sys2Proof

/-! ### The sum of the accounts (R156) -/

section Sums

theorem sum_set_add (xs : List Nat) : ∀ (i : Nat) (hi : i < xs.length) (x : Nat), (xs.set i x).sum + xs[i] = xs.sum + x := by
  induction xs with
  | nil => exact fun i hi => absurd hi (Nat.not_lt_zero i)
  | cons y ys ih =>
    intro i hi x
    cases i with
    | zero =>
      simp only [List.set_cons_zero, List.sum_cons, List.getElem_cons_zero]
      omega
    | succ i =>
      have hrest := ih i (Nat.lt_of_succ_lt_succ hi) x
      simp only [List.set_cons_succ, List.sum_cons, List.getElem_cons_succ]
      omega

/-- The sum of a field over the accounts. -/
def accountSum (f : Credit → Nat) (v : Vector Credit 8) : Nat := (v.toList.map f).sum

/-- An account replaced moves the sum by the difference. -/
theorem accountSum_set (f : Credit → Nat) (v : Vector Credit 8) (l : LaneId) (x : Credit) :
    accountSum f (v.set l x) + f v[l] = accountSum f v + f x := by
  have hl : l.val < (v.toList.map f).length := by rw [List.length_map, Vector.length_toList]; exact l.isLt
  have h := sum_set_add (v.toList.map f) l.val hl (f x)
  rw [List.getElem_map, Vector.getElem_toList, ← List.map_set, ← Vector.toList_set] at h
  exact h

/-- An account holds no more than all of them. -/
theorem le_accountSum (f : Credit → Nat) (v : Vector Credit 8) (l : LaneId) : f v[l] ≤ accountSum f v := by
  have hl : l.val < (v.toList.map f).length := by rw [List.length_map, Vector.length_toList]; exact l.isLt
  have h := sum_set_add (v.toList.map f) l.val hl 0
  rw [List.getElem_map, Vector.getElem_toList] at h
  exact Nat.le.intro ((Nat.add_comm _ _).trans h)

theorem headerSum_eq (t : Trunk) : t.headerSum = t.pool.headers + accountSum Credit.headers t.accounts := rfl

theorem payloadSum_eq (t : Trunk) : t.payloadSum = t.pool.payload + accountSum Credit.payload t.accounts := rfl

variable {floors : LaneId → Credit}

/-- What the lanes do not receive is left, and no more. -/
theorem distribute_whole (ls : List LaneId) : ∀ (v : Vector Credit 8) (left : Credit),
    accountSum Credit.headers (distribute floors ls v left).1 + (distribute floors ls v left).2.headers
        = accountSum Credit.headers v + left.headers
      ∧ accountSum Credit.payload (distribute floors ls v left).1 + (distribute floors ls v left).2.payload
        = accountSum Credit.payload v + left.payload := by
  induction ls with
  | nil => exact fun v left => ⟨rfl, rfl⟩
  | cons l ls ih =>
    intro v left
    obtain ⟨hheaders, hpayload⟩ := ih (v.set l (toppedUp floors v l left)) (leftBy floors v left l)
    have hsetHeaders := accountSum_set Credit.headers v l (toppedUp floors v l left)
    have hsetPayload := accountSum_set Credit.payload v l (toppedUp floors v l left)
    have hshareHeaders : (grantOf floors v l left).headers ≤ left.headers := Nat.min_le_right _ _
    have hsharePayload : (grantOf floors v l left).payload ≤ left.payload := Nat.min_le_right _ _
    rw [distribute_cons, hheaders, hpayload]
    simp only [toppedUp, leftBy] at hsetHeaders hsetPayload ⊢
    omega

end Sums

/-! ### Credit kept whole (R153 to R156) -/

section Whole

variable {s : State} {l : LaneId} {h p : Nat}

/-- A DATA CREDIT ends in pool and accounts but for what the pool's cap discards. -/
theorem creditGranted_whole :
    (s.creditGranted h p).trunk.headerSum ≤ s.trunk.headerSum + h
      ∧ (s.creditGranted h p).trunk.payloadSum ≤ s.trunk.payloadSum + p
      ∧ ((s.creditGranted h p).trunk.pool.headers < 4095 → (s.creditGranted h p).trunk.headerSum = s.trunk.headerSum + h)
      ∧ ((s.creditGranted h p).trunk.pool.payload < 262143 →
        (s.creditGranted h p).trunk.payloadSum = s.trunk.payloadSum + p) := by
  obtain ⟨hheaders, hpayload⟩ := distribute_whole (floors := s.floors) (List.finRange 8) s.trunk.accounts ⟨h, p⟩
  simp only [headerSum_eq, payloadSum_eq, State.creditGranted, State.modTrunk_trunk, addToPool_eq] at *
  omega

/-- An account's return ends in the pool but for what its cap discards. -/
theorem returnAccount_whole (hsending : s.trunk.isSending) :
    (s.returnAccount l).trunk.headerSum ≤ s.trunk.headerSum
      ∧ (s.returnAccount l).trunk.payloadSum ≤ s.trunk.payloadSum
      ∧ ((s.returnAccount l).trunk.pool.headers < 4095 → (s.returnAccount l).trunk.headerSum = s.trunk.headerSum)
      ∧ ((s.returnAccount l).trunk.pool.payload < 262143 →
        (s.returnAccount l).trunk.payloadSum = s.trunk.payloadSum) := by
  have hheaders := accountSum_set Credit.headers s.trunk.accounts l ⟨0, 0⟩
  have hpayload := accountSum_set Credit.payload s.trunk.accounts l ⟨0, 0⟩
  simp only [headerSum_eq, payloadSum_eq, returnAccount_sending hsending, State.modTrunk_trunk, State.modLane_trunk,
    addToPool_eq] at *
  omega

end Whole

/-! ### A block funded and sent (R155, R160) -/

section Block

variable {s : State} {l : LaneId} {b : Block} {rest : List Block}

/-- What a lane may draw from the pool: all of it while not congested, else nothing. -/
def State.drawable (s : State) (l : LaneId) : Credit := if (s.lane l).degrade = 0 then s.trunk.pool else ⟨0, 0⟩

theorem coveredBy_iff {n account pool cost : Nat} :
    coveredBy (decide (0 < n)) account pool cost = true ↔ cost ≤ account + (if n = 0 then pool else 0) := by
  rw [coveredBy, decide_eq_true_iff]
  rcases Nat.eq_zero_or_pos n with rfl | hpos
  · rfl
  · rw [if_pos (decide_eq_true hpos), if_neg (Nat.pos_iff_ne_zero.mp hpos)]

theorem fundable_none (h : (s.lane l).dataQueue = []) : s.fundable l = false := by
  unfold State.fundable
  rw [h]

theorem fundable_iff (h : (s.lane l).dataQueue = b :: rest) : s.fundable l = true ↔
    1 ≤ s.trunk.accounts[l].headers + (s.drawable l).headers
      ∧ blockPayload b ≤ s.trunk.accounts[l].payload + (s.drawable l).payload := by
  unfold State.fundable State.drawable
  rw [h]
  simp only [Bool.and_eq_true, coveredBy_iff]
  split <;> exact Iff.rfl

theorem drawable_le : (s.drawable l).headers ≤ s.trunk.pool.headers ∧ (s.drawable l).payload ≤ s.trunk.pool.payload := by
  unfold State.drawable
  split
  · exact ⟨Nat.le_refl _, Nat.le_refl _⟩
  · exact ⟨Nat.zero_le _, Nat.zero_le _⟩

theorem sendBlock_none (h : (s.lane l).dataQueue = []) : s.sendBlock l = s := by
  unfold State.sendBlock
  rw [h]

/-- The trunk after a block sent: account first, the shortfall from the pool. -/
theorem trunk_sendBlock (h : (s.lane l).dataQueue = b :: rest) : (s.sendBlock l).trunk = { s.trunk with
    accounts := s.trunk.accounts.set l ⟨s.trunk.accounts[l].headers - 1, s.trunk.accounts[l].payload - blockPayload b⟩
    pool := ⟨s.trunk.pool.headers - (1 - s.trunk.accounts[l].headers),
      s.trunk.pool.payload - (blockPayload b - s.trunk.accounts[l].payload)⟩
    tx := .sending (blockWords l b)
    lastServed := l } := by
  have hsub : ∀ a cost : Nat, a - min cost a = a - cost ∧ cost - min cost a = cost - a := by omega
  unfold State.sendBlock
  rw [h]
  simp only [State.modTrunk_trunk, State.modLane_trunk, (hsub _ _).1, (hsub _ _).2]

theorem lane_sendBlock (h : (s.lane l).dataQueue = b :: rest) : (s.sendBlock l).lane l = { s.lane l with
    dataQueue := rest
    degrade := if rest.length ≤ 2 then (s.lane l).degrade - 1 else (s.lane l).degrade } := by
  unfold State.sendBlock
  rw [h]
  simp only [State.lane_modTrunk, State.lane_modLane_same]
  rfl

/-- No block sent touches the EVENT queue or its credit. -/
theorem events_sendBlock : (s.sendBlock l).trunk.events = s.trunk.events
    ∧ (s.sendBlock l).trunk.eventCredit = s.trunk.eventCredit := by
  cases h : (s.lane l).dataQueue with
  | nil => rw [sendBlock_none h]; exact ⟨rfl, rfl⟩
  | cons b rest => rw [trunk_sendBlock h]; exact ⟨rfl, rfl⟩

/-- A funded block takes its cost from account and pool together. -/
theorem sendBlock_whole (h : (s.lane l).dataQueue = b :: rest) (hfunded : s.fundable l = true) :
    (s.sendBlock l).trunk.headerSum + 1 = s.trunk.headerSum
      ∧ (s.sendBlock l).trunk.payloadSum + blockPayload b = s.trunk.payloadSum := by
  obtain ⟨hheader, hpayload⟩ := (fundable_iff h).mp hfunded
  obtain ⟨hpoolHeaders, hpoolPayload⟩ := drawable_le (s := s) (l := l)
  have hsetHeaders := accountSum_set Credit.headers s.trunk.accounts l
    ⟨s.trunk.accounts[l].headers - 1, s.trunk.accounts[l].payload - blockPayload b⟩
  have hsetPayload := accountSum_set Credit.payload s.trunk.accounts l
    ⟨s.trunk.accounts[l].headers - 1, s.trunk.accounts[l].payload - blockPayload b⟩
  rw [trunk_sendBlock h]
  simp only [headerSum_eq, payloadSum_eq] at *
  omega

end Block

/-! ### The arbiter's choices (R160) -/

section Choice

variable {s : State}

theorem arbiterChoice_reply {r : Reply} {rs : List Reply} (h : s.trunk.replies = r :: rs) :
    s.arbiterChoice = s.modTrunk fun t => { t with replies := rs, tx := .sending (replyWords r) } := by
  unfold State.arbiterChoice
  rw [h]

theorem arbiterChoice_record {e : EventRecord} {es : List EventRecord} (hreplies : s.trunk.replies = [])
    (hevents : s.trunk.events = e :: es) (hcredit : 1 ≤ s.trunk.eventCredit) :
    s.arbiterChoice = (s.modTrunk fun t =>
      { t with events := es, eventCredit := t.eventCredit - 1, tx := .sending (recordWords e) }).weighPressure := by
  unfold State.arbiterChoice
  rw [hreplies, hevents]
  exact if_pos hcredit

/-- With no reply and no record to send the arbiter searches the lanes. -/
theorem arbiterChoice_search (hreplies : s.trunk.replies = []) (hrecord : s.trunk.events = [] ∨ s.trunk.eventCredit = 0) :
    (∀ l, (searchOrder s.trunk.lastServed).find? s.fundable = some l → s.arbiterChoice = s.sendBlock l)
      ∧ ((searchOrder s.trunk.lastServed).find? s.fundable = none → s.arbiterChoice = s) := by
  unfold State.arbiterChoice
  rw [hreplies]
  simp only []
  rcases hrecord with hnone | hcredit
  · rw [hnone]
    exact ⟨fun l h => by rw [h], fun h => by rw [h]⟩
  · have hpaid : ¬ 1 ≤ s.trunk.eventCredit := by omega
    cases s.trunk.events with
    | nil => exact ⟨fun l h => by rw [h], fun h => by rw [h]⟩
    | cons e es => exact ⟨fun l h => by rw [h]; exact if_neg hpaid, fun h => by rw [h]; exact if_neg hpaid⟩

theorem events_arbiterChoice (h : s.trunk.replies ≠ [] ∨ s.trunk.events = [] ∨ s.trunk.eventCredit = 0) :
    s.arbiterChoice.trunk.eventCredit = s.trunk.eventCredit ∧ s.arbiterChoice.trunk.events = s.trunk.events := by
  cases hreplies : s.trunk.replies with
  | cons r rs => rw [arbiterChoice_reply hreplies]; exact ⟨rfl, rfl⟩
  | nil =>
    obtain ⟨hblock, hidle⟩ := arbiterChoice_search hreplies (h.resolve_left fun hne => hne hreplies)
    cases hfind : (searchOrder s.trunk.lastServed).find? s.fundable with
    | none => rw [hidle hfind]; exact ⟨rfl, rfl⟩
    | some l => rw [hblock l hfind]; exact ⟨events_sendBlock.2, events_sendBlock.1⟩

/-- The first fundable lane from the lane after the last one served. -/
theorem find_searchOrder {p : LaneId → Bool} {last : LaneId} {i : Fin 8} (hi : p (last + 1 + i) = true)
    (hfirst : ∀ j : Fin 8, j < i → p (last + 1 + j) = false) : (searchOrder last).find? p = some (last + 1 + i) := by
  have hlen : (searchOrder last).length = 8 := by rw [searchOrder, List.length_map, List.length_finRange]
  have hget : ∀ (j : Nat) (hj : j < (searchOrder last).length), (searchOrder last)[j] = last + 1 + ⟨j, Nat.lt_of_lt_of_eq hj hlen⟩ := by
    intro j hj
    simp only [searchOrder, List.getElem_map, List.getElem_finRange]
    rfl
  refine List.find?_eq_some_iff_getElem.mpr ⟨hi, i.val, Nat.lt_of_lt_of_eq i.isLt hlen.symm, hget i.val _, fun j hj => ?_⟩
  rw [hget j, hfirst ⟨j, _⟩ hj]
  rfl

end Choice

/-- Settles O32: each act's account of pool, accounts and EVENT credit. -/
theorem creditKeptWhole : Obligations.CreditKeptWhole := by
  refine ⟨fun s words h p hline hclass => ⟨s.creditGranted h p, exec_dataCredit_sending hline hclass,
      exec_dataCredit_idle hline hclass, creditGranted_whole⟩, fun s l hsending => ?_,
    fun s l b rest hqueue hfunded => ?_, fun s words h hline hclass hsending => ?_,
    fun s => ⟨fun e es hreplies hevents hcredit => ?_, events_arbiterChoice, fun hreplies => ?_⟩⟩
  · intro t
    have ht : t = _ := returnAccount_sending hsending
    refine ⟨?_, fun k hk => ?_, ?_, returnAccount_whole hsending⟩
    · rw [ht]
      exact vector_set_same _ _ _
    · rw [ht]
      exact vector_set_other _ _ hk
    · rw [ht, State.lane_modTrunk, State.lane_modLane_same]
  · obtain ⟨hheaders, hpayload⟩ := sendBlock_whole hqueue hfunded
    refine ⟨hheaders, hpayload, events_sendBlock.2, ?_, ?_, ?_, ?_⟩
    · rw [trunk_sendBlock hqueue]
    · rw [trunk_sendBlock hqueue]
    · rw [lane_sendBlock hqueue]
    · rw [lane_sendBlock hqueue]
  · refine ⟨s.eventGranted h, ?_, ?_, fun hcap => ?_, rfl, rfl⟩
    · rw [exec_eventCredit_grants hline hclass, grantEvent_sending hsending]
    · exact Nat.min_le_right _ _
    · change min 4095 (s.trunk.eventCredit + h) < 4095 at hcap
      change min 4095 (s.trunk.eventCredit + h) = _
      omega
  · rw [arbiterChoice_record hreplies hevents hcredit, trunk_weighPressure]
    exact ⟨Nat.sub_add_cancel hcredit, rfl, rfl, rfl⟩
  · obtain ⟨r, rs, hcons⟩ := List.exists_cons_of_ne_nil hreplies
    rw [arbiterChoice_reply hcons]
    exact ⟨rfl, rfl⟩

/-! ### The transmitter completes a frame (R161) -/

section Complete

variable {s : State}

/-- The state in which the arbiter chooses at a frame's end. -/
def State.transmitterIdle (s : State) : State := s.modTrunk fun t => { t with tx := .idle }

theorem exec_transmitComplete_idle (hidle : s.trunk.tx = .idle) : exec .transmitComplete s = .next s := by
  simp only [exec, execTransmitComplete, State.transmitComplete, hidle, ite_self]

theorem exec_transmitComplete_sending (hline : s.resetLine = false) (hsending : s.trunk.isSending) :
    exec .transmitComplete s = .next s.transmitterIdle.arbiterChoice.weighWaiters := by
  obtain ⟨ws, hws⟩ := hsending
  simp only [exec, execTransmitComplete, State.transmitComplete, hline, hws, Bool.false_eq_true, if_false]
  rfl

end Complete

/-- Settles O33: funding, then the choice by reply, record and lane. -/
theorem arbiterChooses : Obligations.ArbiterChooses := by
  refine ⟨fun s l => ⟨fundable_none, fun b rest hqueue => ⟨fundable_iff hqueue, ?_⟩⟩, fun s hline =>
    ⟨exec_transmitComplete_idle, fun hsending => ?_⟩⟩
  · rw [trunk_sendBlock hqueue]
    exact vector_set_same _ _ _
  · rw [exec_transmitComplete_sending hline hsending]
    refine ⟨fun r rs hreplies => ?_, fun e es hreplies hevents hcredit => ?_, fun hreplies hrecord => ?_⟩
    · rw [arbiterChoice_reply (s := s.transmitterIdle) hreplies]
      rfl
    · rw [arbiterChoice_record (s := s.transmitterIdle) hreplies hevents hcredit]
      rfl
    · obtain ⟨hblock, hnothing⟩ := arbiterChoice_search (s := s.transmitterIdle) hreplies hrecord
      refine ⟨fun i hi hfirst => ?_, fun hnone => ?_⟩
      · rw [hblock _ (find_searchOrder hi hfirst)]
        rfl
      · rw [hnothing (List.find?_eq_none.mpr fun l _ => ne_true_of_eq_false (hnone l))]
        rfl

/-! ### Replies and records placed, waiters served (R157 to R161) -/

section Served

variable {s : State} {l : LaneId}

theorem placeReply_sending (h : s.trunk.isSending) (r : Reply) :
    s.placeReply r = s.modTrunk fun t => { t with replies := t.replies ++ [r] } :=
  idleChoice_sending (s := s.modTrunk fun t => { t with replies := t.replies ++ [r] }) h

theorem lane_weighPressure : s.weighPressure.lane l =
    if s.weighPressure.trunk.pressure = s.trunk.pressure then s.lane l
      else weighHold s.weighPressure.trunk.pressure (s.lane l) := by
  rw [trunk_weighPressure]
  unfold State.weighPressure
  simp only []
  split
  · rfl
  · exact State.lane_mapLanes _ _ _

theorem canServe_iff {w : Waiter} : s.canServe w = true ↔
    s.trunk.events.length + s.placesNeeded w ≤ 64 ∧ (w = .table → s.trunk.replies.length < 16) := by
  rw [State.canServe, Bool.and_eq_true, decide_eq_true_iff, Bool.or_eq_true, bne_iff_ne, State.replyRoom,
    decide_eq_true_iff, ← Decidable.imp_iff_not_or]
  rfl

theorem noticePlaces_some {c : RunContext} (h : s.noticed l = some c) :
    s.placesNeeded (.group l) = (s.closeOutcome l c).1.length := by
  rw [State.placesNeeded, State.noticePlaces, h]

theorem noticePlaces_none (h : s.noticed l = none) : s.placesNeeded (.group l) = 0 := by
  rw [State.placesNeeded, State.noticePlaces, h]

theorem requestPlaces_none (h : s.tables.requests = []) : s.placesNeeded .table = 0 := by
  rw [State.placesNeeded, State.requestPlaces, h]

/-- A waiting pipeline does the item it waits at and places its record. -/
theorem serveWaiter_pipeline {p rest : Passage} {item : WorkItem} {s' : State} {e : EventRecord}
    (hpassage : (s.lane l).passage = some p) (hfront : p.front = some (item, rest))
    (hwork : s.workItem l p.frame item = (s', some e)) : s.serveWaiter (.pipeline l) =
      ((s'.setPassage l (some rest)).leaveWaiters (.pipeline l)).placeRecord e := by
  simp only [State.serveWaiter, State.servePipeline, hpassage, hfront, hwork, State.placeOption]

theorem serveWaiter_closing {c : RunContext} {step : CloseStep} {rest : List CloseStep} {s' : State} {e : EventRecord}
    (hrun : (s.lane l).run = some c) (hclosing : c.closing = some (step :: rest))
    (hstep : s.closeStep l step = (s', some e)) : s.serveWaiter (.closing l) =
      ((s'.setClosing l (some rest)).leaveWaiters (.closing l)).placeRecord e := by
  simp only [State.serveWaiter, State.serveClosing, hrun, Option.bind_some, hclosing, hstep, State.placeOption]

theorem serveWaiter_group {c : RunContext} (h : s.noticed l = some c) :
    s.serveWaiter (.group l) = s.handleNotice l c := by
  rw [State.serveWaiter, State.serveGroup, h]

/-- The head request's act is taken, its kind known. -/
theorem serveWaiter_table {r : Request} {rs : List Request} (h : s.tables.requests = r :: rs) :
    (requestKindOf r.kind = .commit → s.serveWaiter .table = (s.dropHead.leaveWaiters .table).takeCommit false r)
      ∧ (requestKindOf r.kind = .laneArm → s.serveWaiter .table = (s.dropHead.leaveWaiters .table).takeArm false r)
      ∧ (requestKindOf r.kind = .groupEnd →
        s.serveWaiter .table = (s.dropHead.leaveWaiters .table).takeGroupEnd false r) := by
  rw [State.serveWaiter, State.serveTable, h]
  exact ⟨fun hkind => by simp only [hkind], fun hkind => by simp only [hkind], fun hkind => by simp only [hkind]⟩

end Served

/-- Settles O35: what is placed, how the list is weighed, and how each waiter is served. -/
theorem repliesAndRecordsPlaced : Obligations.RepliesAndRecordsPlaced := by
  refine ⟨fun s r => ⟨fun hsending => placeReply_sending hsending r, fun hidle hnone => ?_⟩, fun s e hsending => ?_,
    fun s => ⟨weighWaiters_none, fun w rest hfirst => ⟨fun hfree => ?_, fun hfree => ?_⟩⟩, fun s l => ?_,
    fun s l => ⟨fun f item first second s' e hpassage hwork => serveWaiter_pipeline hpassage rfl hwork,
      fun f item second s' e hpassage hwork => serveWaiter_pipeline hpassage rfl hwork,
      fun c step rest s' e hrun hclosing hstep => serveWaiter_closing hrun hclosing hstep,
      fun c => serveWaiter_group, fun r rs => serveWaiter_table⟩⟩
  · rw [placeReply_idle hidle hnone, ← hnone]
    rfl
  · rw [placeRecord_sending hsending]
    refine ⟨?_, ?_, fun l => lane_weighPressure⟩
    · rw [trunk_weighPressure]
      rfl
    · rw [trunk_weighPressure, State.modTrunk_trunk]
      simp only [List.length_append, List.length_singleton]
      rfl
  · rw [weighWaiters_first hfirst]
    exact if_pos (canServe_iff.mpr hfree)
  · rw [weighWaiters_first hfirst]
    exact if_neg (mt canServe_iff.mp hfree)
  · refine ⟨rfl, rfl, fun c => noticePlaces_some, noticePlaces_none, requestPlaces_none, fun r rs hrequests => ?_⟩
    rw [State.placesNeeded, State.requestPlaces, hrequests]
    simp only []
    cases requestKindOf r.kind <;> rfl

end Sys2Proof.Machine

/-! PROOFS. The table manager's writes, reads and copies (O37 to O39). -/

namespace Sys2Proof.Machine

open Sys2Proof

/-! ### Answers (R177, R184) -/

/-- An OK answer whose fields are all present: the presence word, then the fields in order. -/
theorem okWith_body (fields : List (List Word)) :
    (okWith fields).body = presenceWord (fields.map fun f => (true, f)) :: fields.flatten := by
  have hflat : (fields.map fun f => (true, f)).flatMap (fun f => if f.1 then f.2 else f.2.map fun _ => (0 : Word))
      = fields.flatten := by
    rw [List.flatMap_map, List.flatten_eq_flatMap]
    rfl
  exact congrArg _ hflat

/-- A request answered OK carries its answer's body. -/
theorem answerRequest_ok (s : State) (tag : BitVec 16) (prior : Bool) (body : List Word) :
    s.answerRequest tag ⟨.ok, prior, body⟩ = s.placeReply ⟨tag, .ok, prior, body⟩ := rfl

theorem answerRequest_bodiless (s : State) (tag : BitVec 16) (st : Status) (prior : Bool) :
    s.answerRequest tag ⟨st, prior, []⟩ = s.placeReply ⟨tag, st, prior, []⟩ :=
  congrArg (fun body => s.placeReply ⟨tag, st, prior, body⟩) (ite_self [])

/-- A kind number names the kind it is the number of. -/
theorem kindOf_eq_some {n : Nat} {k : Kind} (h : kindOf n = some k) : n = k.idx.val := by
  obtain ⟨hn, hget⟩ := List.getElem?_eq_some_iff.mp h
  have hplace : ∀ i : Fin 8, (Kind.all[i.val]'i.isLt).idx = i := by decide
  rw [← hget]
  exact (congrArg Fin.val (hplace ⟨n, hn⟩)).symm

/-! ### TABLE WRITE stored (R165, R170, R171) -/

section Stored

variable {s : State} {r : Request} {k : Kind} {body : List Word}

theorem writeCheck_admitted (h : s.admitsWrite k body) : s.writeCheck body = (.ok, some k) := by
  obtain ⟨hpart, hone, hcount, hlength, hkind, hwords, hrow, hfree⟩ := h
  rw [writeCheck_formed ⟨hpart, hone, hcount, hlength⟩ hkind, if_neg (Nat.not_lt.mpr hwords),
    if_neg (Nat.not_le.mpr hrow), if_neg (ne_true_of_eq_false hfree)]

theorem slotsAfter_eq : s.slotsAfter k body = storeWords
    (stagedSlots k (writeBodyOf body).row (s.tables.kind k).staging) (16 * (writeBodyOf body).part)
    (writeBodyOf body).words := by
  unfold State.slotsAfter
  cases (s.tables.kind k).staging <;> rfl

theorem discardsOther_iff : discardsOther (writeBodyOf body).row (s.tables.kind k).staging = true ↔ s.discards k body := by
  unfold State.discards
  cases (s.tables.kind k).staging with
  | empty => exact ⟨fun h => (nomatch h), fun ⟨_, _, h, _⟩ => (nomatch h)⟩
  | staging row ws =>
    rw [discardsOther, bne_iff_ne]
    exact ⟨fun h => ⟨row, ws, rfl, h⟩, fun ⟨_, _, h, hne⟩ => by cases h; exact hne⟩

theorem prior_eq {prior : Bool} (h : prior = true ↔ s.discards k body) :
    discardsOther (writeBodyOf body).row (s.tables.kind k).staging = prior :=
  Bool.eq_iff_iff.mpr (discardsOther_iff.trans h.symm)

/-- A part stored: the slots are kept in the staging buffer. -/
theorem handleTableWrite_part (h : s.admitsWrite k body) (hlast : (writeBodyOf body).last = false) :
    s.handleTableWrite body =
      (s.setStaging k (.staging (writeBodyOf body).row (s.slotsAfter k body)),
        { okWith [[natWord k.idx.val], [natWord (writeBodyOf body).row], [natWord (receivedCount (s.slotsAfter k body))]]
          with prior := discardsOther (writeBodyOf body).row (s.tables.kind k).staging }) := by
  obtain ⟨-, -, -, -, hkind, -⟩ := id h
  simp only [State.handleTableWrite, writeCheck_admitted h, hlast, ← slotsAfter_eq, kindOf_eq_some hkind,
    Bool.false_eq_true, if_false]

/-- A row completed: what becomes of it, and the status. -/
theorem handleTableWrite_row (h : s.admitsWrite k body) (hlast : (writeBodyOf body).last = true) :
    s.handleTableWrite body =
      ((s.completeRow k (writeBodyOf body).row (s.slotsAfter k body)).1,
        ⟨(s.completeRow k (writeBodyOf body).row (s.slotsAfter k body)).2,
          discardsOther (writeBodyOf body).row (s.tables.kind k).staging, []⟩) := by
  simp only [State.handleTableWrite, writeCheck_admitted h, hlast, ← slotsAfter_eq, if_true]

theorem completeRow_incomplete {row : Nat} {slots : List (Option Word)} (h : none ∈ slots) :
    s.completeRow k row slots = (s.setStaging k .empty, .incompleteRow) :=
  if_pos (List.any_eq_true.mpr ⟨none, h, rfl⟩)

theorem completeRow_complete {row : Nat} (ws : List Word) : s.completeRow k row (ws.map some) =
    if rowOk k ws then ((s.setStaging k .empty).writeRow k row ws, .ok) else (s.setStaging k .empty, .badValue) := by
  have hwhole : ¬ (ws.map some).any Option.isNone = true := by
    rw [List.any_map, List.any_eq_true]
    exact fun ⟨_, _, h⟩ => Bool.false_ne_true h
  have hwords : (ws.map some).map (·.getD 0) = ws := by
    rw [List.map_map]
    exact List.map_id ws
  rw [State.completeRow, if_neg hwhole, hwords]

theorem exec_tableWrite_taken (hserves : s.serves .tableWrite r) {t : State} {a : Answer}
    (hhandle : s.dropHead.handleTableWrite r.body = (t, a)) :
    exec .tableWrite s = .next (t.answerRequest r.tag a) := by
  refine congrArg _ ((serve_taken hserves).trans ?_)
  rw [hhandle]

/-- The words of a row written, and every other word. -/
theorem memRead_writeRow {row : Nat} {ws : List Word} (hm : s.tables.mem.wf = true) (hlength : ws.length = rowWords k)
    (hend : (s.tables.stagingEntry k).base + (row + 1) * rowWords k ≤ 65536) (a : Nat) :
    let base := (s.tables.stagingEntry k).base + row * rowWords k
    memRead (s.writeRow k row ws).tables.mem a =
      if base ≤ a ∧ a < base + rowWords k then ws.getD (a - base) 0 else memRead s.tables.mem a := by
  intro base
  change memRead (memWriteBlock s.tables.mem base ws) a = _
  rw [Nat.succ_mul] at hend
  split
  next hinside =>
    obtain ⟨i, rfl⟩ := Nat.exists_eq_add_of_le hinside.1
    have hi : i < ws.length := by omega
    have hbound : base + i < Config.tableWords := by
      change base + i < 65536
      omega
    rw [memRead_memWriteBlock_inside ws base i hm hi hbound, Nat.add_sub_cancel_left]
  next houtside => exact memRead_memWriteBlock_outside ws base a hm (by omega)

end Stored

/-- Settles O37: a part kept, a row completed, and the words it is written to. -/
theorem writeStored : Obligations.WriteStored := by
  refine ⟨fun s r k prior hserves hadmits hprior hlast => ?_, fun s r k prior hserves hadmits hprior hlast => ?_,
    fun s k row ws hm hlength hend => memRead_writeRow hm hlength hend⟩
  · have hhandle := handleTableWrite_part (s := s.dropHead) hadmits hlast
    rw [show discardsOther _ (s.dropHead.tables.kind k).staging = prior from prior_eq hprior] at hhandle
    exact exec_tableWrite_taken hserves hhandle
  · have hhandle := handleTableWrite_row (s := s.dropHead) hadmits hlast
    rw [show discardsOther _ (s.dropHead.tables.kind k).staging = prior from prior_eq hprior,
      show s.dropHead.slotsAfter k r.body = s.slotsAfter k r.body from rfl] at hhandle
    refine ⟨fun hmissing => ?_, fun ws hslots => ⟨fun hbad => ?_, fun hgood => ?_⟩⟩
    · rw [completeRow_incomplete hmissing] at hhandle
      rw [exec_tableWrite_taken hserves hhandle, answerRequest_bodiless]
    · rw [hslots, completeRow_complete, if_neg (ne_true_of_eq_false hbad)] at hhandle
      rw [exec_tableWrite_taken hserves hhandle, answerRequest_bodiless]
    · rw [hslots, completeRow_complete, if_pos hgood] at hhandle
      rw [exec_tableWrite_taken hserves hhandle, answerRequest_bodiless]

/-! ### TABLE READ (R172) -/

section Read

variable {s : State} {r : Request} {k : Kind} {body : List Word}

/-- Check 1 of R172: length, copy code and part. -/
def readFormed (body : List Word) : Prop :=
  body.length = 1 ∧ bits (body.getD 0 0) 23 22 ≤ 1 ∧ bits (body.getD 0 0) 14 12 ≤ 6

theorem not_readFormed_iff : ¬ readFormed body ↔
    body.length ≠ 1 ∨ 1 < bits (body.getD 0 0) 23 22 ∨ 6 < bits (body.getD 0 0) 14 12 := by
  unfold readFormed
  omega

theorem handleTableRead_unformed (h : ¬ readFormed body) : s.handleTableRead body = (s, answer .badRequest) :=
  if_pos (not_readFormed_iff.mp h)

theorem handleTableRead_badKind (h : readFormed body) (hkind : kindOf (bits (body.getD 0 0) 31 24) = none) :
    s.handleTableRead body = (s, answer .badKind) := by
  have hpass := mt not_readFormed_iff.mpr (not_not_intro h)
  simp only [State.handleTableRead, if_neg hpass, hkind]

/-- The copy, row and part a well-formed body of a known kind asks for. -/
def readCopy (s : State) (k : Kind) (body : List Word) : CopyIndex :=
  resolveCopy (s.tables.kind k) (bits (body.getD 0 0) 23 22)

theorem handleTableRead_badPart (h : readFormed body) (hkind : kindOf (bits (body.getD 0 0) 31 24) = some k)
    (hpart : rowParts k ≤ bits (body.getD 0 0) 14 12) : s.handleTableRead body = (s, answer .badRequest) := by
  have hpass := mt not_readFormed_iff.mpr (not_not_intro h)
  simp only [State.handleTableRead, if_neg hpass, hkind, if_pos hpart]

variable (h : readFormed body) (hkind : kindOf (bits (body.getD 0 0) 31 24) = some k)
  (hpart : bits (body.getD 0 0) 14 12 < rowParts k)
include h hkind hpart

theorem handleTableRead_outOfLimit
    (hrow : ((s.tables.kind k).entry (readCopy s k body)).limit ≤ bits (body.getD 0 0) 11 0) :
    s.handleTableRead body = (s, answer .outOfLimit) := by
  have hpass := mt not_readFormed_iff.mpr (not_not_intro h)
  unfold readCopy at hrow
  simp only [State.handleTableRead, if_neg hpass, hkind, if_neg (Nat.not_le.mpr hpart), if_pos hrow]

variable (hrow : bits (body.getD 0 0) 11 0 < ((s.tables.kind k).entry (readCopy s k body)).limit)
include hrow

theorem handleTableRead_first (hzero : bits (body.getD 0 0) 14 12 = 0) :
    let ws := s.tables.row k (readCopy s k body) (bits (body.getD 0 0) 11 0)
    s.handleTableRead body =
      (s.modTables fun t => { t with latch := some ⟨k, readCopy s k body, bits (body.getD 0 0) 11 0, ws⟩ },
        s.readAnswer k (readCopy s k body) (bits (body.getD 0 0) 11 0) (partWords 0 ws)) := by
  have hpass := mt not_readFormed_iff.mpr (not_not_intro h)
  unfold readCopy at hrow ⊢
  simp only [State.handleTableRead, if_neg hpass, hkind, if_neg (Nat.not_le.mpr hpart), if_neg (Nat.not_le.mpr hrow),
    if_pos hzero]

theorem handleTableRead_latched (hlater : bits (body.getD 0 0) 14 12 ≠ 0) {ws : List Word}
    (hlatch : s.tables.latch = some ⟨k, readCopy s k body, bits (body.getD 0 0) 11 0, ws⟩) :
    s.handleTableRead body = (s, s.readAnswer k (readCopy s k body) (bits (body.getD 0 0) 11 0)
      (partWords (bits (body.getD 0 0) 14 12) ws)) := by
  have hpass := mt not_readFormed_iff.mpr (not_not_intro h)
  have hheld : latchHolds s.tables.latch k (readCopy s k body) (bits (body.getD 0 0) 11 0) = some ws := by
    rw [hlatch]
    exact if_pos ⟨rfl, rfl, rfl⟩
  unfold readCopy at hrow hheld ⊢
  simp only [State.handleTableRead, if_neg hpass, hkind, if_neg (Nat.not_le.mpr hpart), if_neg (Nat.not_le.mpr hrow),
    if_neg hlater, hheld]

theorem handleTableRead_notLatched (hlater : bits (body.getD 0 0) 14 12 ≠ 0)
    (hlatch : ∀ ws, s.tables.latch ≠ some ⟨k, readCopy s k body, bits (body.getD 0 0) 11 0, ws⟩) :
    s.handleTableRead body = (s, answer .notLatched) := by
  have hpass := mt not_readFormed_iff.mpr (not_not_intro h)
  have hheld : latchHolds s.tables.latch k (readCopy s k body) (bits (body.getD 0 0) 11 0) = none := by
    cases hl : s.tables.latch with
    | none => rfl
    | some g =>
      refine if_neg ?_
      rintro ⟨hk, hc, hr⟩
      exact hlatch g.words (by rw [hl, ← hc, ← hr, ← hk])
  unfold readCopy at hrow hheld
  simp only [State.handleTableRead, if_neg hpass, hkind, if_neg (Nat.not_le.mpr hpart), if_neg (Nat.not_le.mpr hrow),
    if_neg hlater, hheld]

end Read

section ExecRead

variable {s t : State} {r : Request} {k : Kind}

theorem exec_tableRead_refused {st : Status} (hserves : s.serves .tableRead r)
    (hrefuse : s.dropHead.handleTableRead r.body = (s.dropHead, answer st)) :
    exec .tableRead s = .next (s.dropHead.placeReply ⟨r.tag, st, false, []⟩) :=
  congrArg _ (serve_refused hserves hrefuse)

theorem exec_tableRead_served (hserves : s.serves .tableRead r) {u : State} {c : CopyIndex} {row : Nat} {ws : List Word}
    (hhandle : s.dropHead.handleTableRead r.body = (u, t.readAnswer k c row ws)) (htables : t.tables.kind k = s.tables.kind k) :
    exec .tableRead s = .next (u.placeReply ⟨r.tag, .ok, false,
      [63, natWord k.idx.val, natWord (flag c), natWord row, natWord (s.tables.kind k).generation.toNat,
        natWord (flag (c == (s.tables.kind k).current))] ++ ws⟩) := by
  refine congrArg _ ((serve_taken hserves).trans ?_)
  have hbody : (t.readAnswer k c row ws).body = [63, natWord k.idx.val, natWord (flag c), natWord row,
      natWord (s.tables.kind k).generation.toNat, natWord (flag (c == (s.tables.kind k).current))] ++ ws := by
    rw [State.readAnswer, okWith_body, htables]
    simp only [List.flatten_cons, List.flatten_nil, List.append_nil]
    rfl
  rw [hhandle, ← hbody]
  rfl

end ExecRead

theorem rowParts_le (k : Kind) : rowParts k ≤ 7 := by cases k <;> decide

/-- Settles O38: the checks in order, the latch filled by part 0 and served by the later parts. -/
theorem rowRead : Obligations.RowRead := by
  refine ⟨fun s r hserves => ?_, fun s r k hserves hlength hcode hkind hpart => ?_⟩
  · intro refused code part kind
    refine ⟨fun hbad => exec_tableRead_refused hserves (handleTableRead_unformed (not_readFormed_iff.mpr hbad)),
      fun hlength hcode hpart hkind => exec_tableRead_refused hserves (handleTableRead_badKind ⟨hlength, hcode, hpart⟩ hkind),
      fun k hlength hcode hpart hkind hparts => exec_tableRead_refused hserves
        (handleTableRead_badPart ⟨hlength, hcode, hpart⟩ hkind hparts)⟩
  · have hformed : readFormed r.body :=
      ⟨hlength, hcode, Nat.le_of_lt_succ (Nat.lt_of_lt_of_le hpart (rowParts_le k))⟩
    intro part row ks c served
    refine ⟨fun hbeyond => ?_, fun hbelow hzero => ?_, fun hbelow hlater => ⟨fun ws hlatch => ?_, fun hlatch => ?_⟩⟩
    · exact exec_tableRead_refused hserves (handleTableRead_outOfLimit (s := s.dropHead) hformed hkind hpart hbeyond)
    · have hserved := exec_tableRead_served hserves
        (handleTableRead_first (s := s.dropHead) hformed hkind hpart hbelow hzero) rfl
      refine hserved.trans ?_
      simp only [served, partWords, hzero]
      rfl
    · exact exec_tableRead_served hserves
        (handleTableRead_latched (s := s.dropHead) hformed hkind hpart hbelow hlater hlatch) rfl
    · exact exec_tableRead_refused hserves
        (handleTableRead_notLatched (s := s.dropHead) hformed hkind hpart hbelow hlater hlatch)

/-! ### TABLE COPY (R173) -/

section Copy

variable {s : State} {r : Request} {k : Kind} {body : List Word} {t : Tables} {n : Nat}

theorem handleTableCopy_badLength (h : body.length ≠ 1) : s.handleTableCopy body = (s, answer .badRequest) := if_pos h

theorem handleTableCopy_badKind (h : body.length = 1) (hkind : bodyKind body = none) :
    s.handleTableCopy body = (s, answer .badKind) := by
  simp only [State.handleTableCopy, if_neg (not_not_intro h), hkind]

theorem handleTableCopy_captured (h : body.length = 1) (hkind : bodyKind body = some k)
    (hcaptured : s.stagingCaptured k = true) : s.handleTableCopy body = (s, answer .inUse) := by
  simp only [State.handleTableCopy, if_neg (not_not_intro h), hkind, if_pos hcaptured]

/-- The rows below both limits of a kind. -/
def Tables.sharedRows (t : Tables) (k : Kind) : Nat := min (t.currentEntry k).limit (t.stagingEntry k).limit

theorem handleTableCopy_done (h : body.length = 1) (hkind : bodyKind body = some k)
    (hfree : s.stagingCaptured k = false) : s.handleTableCopy body =
      ((s.modTables (copyRows k (s.tables.sharedRows k))).setStaging k .empty,
        { okWith [[natWord (s.tables.sharedRows k)]] with prior := isStaging (s.tables.kind k).staging }) := by
  simp only [State.handleTableCopy, if_neg (not_not_intro h), hkind, if_neg (ne_true_of_eq_false hfree)]
  rfl

theorem exec_tableCopy_refused {st : Status} (hserves : s.serves .tableCopy r)
    (hrefuse : s.dropHead.handleTableCopy r.body = (s.dropHead, answer st)) :
    exec .tableCopy s = .next (s.dropHead.placeReply ⟨r.tag, st, false, []⟩) :=
  congrArg _ (serve_refused hserves hrefuse)

/-- The part once the rows have been copied and the staging buffer emptied. -/
def State.copied (s : State) (k : Kind) : State :=
  (s.dropHead.modTables (copyRows k (s.tables.sharedRows k))).setStaging k .empty

theorem exec_tableCopy_done (hserves : s.serves .tableCopy r) (hlength : r.body.length = 1)
    (hkind : bodyKind r.body = some k) (hfree : s.stagingCaptured k = false) :
    exec .tableCopy s = .next ((s.copied k).placeReply ⟨r.tag, .ok, isStaging (s.tables.kind k).staging,
      [1, natWord (s.tables.sharedRows k)]⟩) := by
  refine congrArg _ ((serve_taken hserves).trans ?_)
  rw [handleTableCopy_done (s := s.dropHead) hlength hkind hfree]
  rfl

theorem length_memReadBlock (m : Memory) (base n : Nat) : (memReadBlock m base n).length = n := by
  rw [memReadBlock, List.length_map, List.length_range]

theorem memReadBlock_getD {m : Memory} {base n i : Nat} (hi : i < n) :
    (memReadBlock m base n).getD i 0 = memRead m (base + i) := by
  have hlength : i < (memReadBlock m base n).length := by rwa [length_memReadBlock]
  rw [List.getD_eq_getElem?_getD, List.getElem?_eq_getElem hlength, Option.getD_some]
  simp only [memReadBlock, List.getElem_map, List.getElem_range]

/-- The words copied lie at the head of the staging copy's extent; no other word changes. -/
theorem memRead_copyRows_outside (hm : t.mem.wf = true) {a : Nat}
    (ha : a < (t.stagingEntry k).base ∨ (t.stagingEntry k).base + n * rowWords k ≤ a) :
    memRead (copyRows k n t).mem a = memRead t.mem a :=
  memRead_memWriteBlock_outside _ _ _ hm (by rwa [length_memReadBlock])

theorem memRead_copyRows_inside (hm : t.mem.wf = true)
    (hend : (t.stagingEntry k).base + n * rowWords k ≤ Config.tableWords) {i : Nat} (hi : i < n * rowWords k) :
    memRead (copyRows k n t).mem ((t.stagingEntry k).base + i) = memRead t.mem ((t.currentEntry k).base + i) :=
  (memRead_memWriteBlock_inside _ _ _ hm (by rwa [length_memReadBlock])
    (Nat.lt_of_lt_of_le (Nat.add_lt_add_left hi _) hend)).trans (memReadBlock_getD hi)

/-- A row below both limits reads in the staging copy as in the current one. -/
theorem row_copyRows (hm : t.mem.wf = true) (hcurrent : n ≤ (t.currentEntry k).limit)
    (hstaging : n ≤ (t.stagingEntry k).limit)
    (hend : (t.stagingEntry k).base + n * rowWords k ≤ Config.tableWords) {row : Nat} (hrow : row < n) :
    (copyRows k n t).row k (t.kind k).stagingIndex row = t.row k (t.kind k).current row := by
  have hin : (row + 1) * rowWords k ≤ n * rowWords k := Nat.mul_le_mul_right _ hrow
  rw [Nat.succ_mul] at hin
  have hleft : (copyRows k n t).row k (t.kind k).stagingIndex row =
      memReadBlock (copyRows k n t).mem (rowAddress k (t.stagingEntry k) row) (rowWords k) :=
    if_pos (Nat.lt_of_lt_of_le hrow hstaging)
  have hright : t.row k (t.kind k).current row =
      memReadBlock t.mem (rowAddress k (t.currentEntry k) row) (rowWords k) := if_pos (Nat.lt_of_lt_of_le hrow hcurrent)
  rw [hleft, hright]
  refine List.map_congr_left fun i hi => ?_
  rw [List.mem_range] at hi
  rw [rowAddress, rowAddress, Nat.add_assoc, Nat.add_assoc]
  exact memRead_copyRows_inside hm hend (by omega)

theorem kind_copied_same : (s.copied k).tables.kind k = { s.tables.kind k with staging := .empty } :=
  Tables.kind_modKind_same (copyRows k (s.tables.sharedRows k) s.dropHead.tables) k _

theorem kind_copied_other {k' : Kind} (h : k' ≠ k) : (s.copied k).tables.kind k' = s.tables.kind k' :=
  Tables.kind_modKind_other (copyRows k (s.tables.sharedRows k) s.dropHead.tables) k k' _ h

theorem row_copied (c : CopyIndex) (row : Nat) : (s.copied k).tables.row k c row =
    (copyRows k (s.tables.sharedRows k) s.tables).row k c row := by
  have hentry : ((s.copied k).tables.kind k).entry c = (s.tables.kind k).entry c := by rw [kind_copied_same]; rfl
  exact row_congr (t := copyRows k (s.tables.sharedRows k) s.tables) (t' := (s.copied k).tables) hentry
    (fun a _ => rfl) row

/-- The rows shared by both copies end in the table memory when the staging extent does. -/
theorem sharedRows_inMemory (h : t.directoryLaw) (hn : t.sharedRows k ≠ 0) :
    (t.stagingEntry k).base + t.sharedRows k * rowWords k ≤ Config.tableWords := by
  have hstaging : t.sharedRows k ≤ (t.stagingEntry k).limit := Nat.min_le_right _ _
  have hlaw := h.1 k (t.kind k).stagingIndex (by change (t.stagingEntry k).limit ≠ 0; omega)
  exact Nat.le_trans (Nat.add_le_add_left (Nat.mul_le_mul_right _ hstaging) _) hlaw

end Copy

/-- Settles O39: the checks in order, and the rows copied word for word. -/
theorem tableCopied : Obligations.TableCopied := by
  refine ⟨fun s r hserves => ?_, fun s r k hserves hlength hkind hfree hm hlaw => ?_⟩
  · exact ⟨fun hlength => exec_tableCopy_refused hserves (handleTableCopy_badLength hlength),
      fun hlength hkind => exec_tableCopy_refused hserves (handleTableCopy_badKind hlength hkind),
      fun k hlength hkind hcaptured => exec_tableCopy_refused hserves
        (handleTableCopy_captured (s := s.dropHead) hlength hkind hcaptured)⟩
  · refine ⟨s.copied k, exec_tableCopy_done hserves hlength hkind hfree, rfl, rfl, rfl, rfl, rfl, rfl, kind_copied_same,
      fun k' hk' => kind_copied_other hk', fun row hrow => ?_, fun a ha => memRead_copyRows_outside (t := s.tables) hm ha⟩
    rw [row_copied]
    exact row_copyRows hm (Nat.min_le_left _ _) (Nat.min_le_right _ _)
      (sharedRows_inMemory hlaw (Nat.pos_iff_ne_zero.mp (Nat.lt_of_le_of_lt (Nat.zero_le _) hrow))) hrow

end Sys2Proof.Machine

/-! PROOFS. Requests that wait, and COMMIT (O42, O43). -/

namespace Sys2Proof.Machine

open Sys2Proof

/-! ### The head request (R159, R177) -/

section Head

variable {s : State} {kind : RequestKind}

theorem headRequest_none (h : ∀ r, ¬ s.headIs kind r) : s.headRequest kind = none := by
  rw [Option.eq_none_iff_forall_ne_some]
  intro r hr
  refine h r ⟨?_, ?_⟩
  · unfold State.headRequest at hr
    split at hr
    · cases hr
    · exact eq_false_of_ne_true (by assumption)
  · obtain ⟨rest, hrequests, hkind⟩ := headRequest_some hr
    exact ⟨by rw [hrequests]; rfl, hkind⟩

theorem replyRoom_eq_false (h : 16 ≤ s.trunk.replies.length) : s.replyRoom = false :=
  decide_eq_false (Nat.not_lt.mpr h)

theorem serve_waits {handle : State → List Word → State × Answer}
    (h : (∀ r, ¬ s.headIs kind r) ∨ 16 ≤ s.trunk.replies.length) : s.serve kind handle = s := by
  unfold State.serve
  rcases h with hnone | hfull
  · rw [headRequest_none hnone]
  · rw [replyRoom_eq_false hfull]
    cases s.headRequest kind <;> rfl

theorem exec_laneAbort_waits (b : Bool)
    (h : (∀ r, ¬ s.headIs .laneAbort r) ∨ 16 ≤ s.trunk.replies.length) : exec (.laneAbort b) s = .next s := by
  rcases h with hnone | hfull
  · simp only [exec, execLaneAbort, headRequest_none hnone]
  · simp only [exec, execLaneAbort, replyRoom_eq_false hfull]
    cases s.headRequest .laneAbort <;> rfl

theorem serveWithRoom_none {act : State → Request → State} (h : ∀ r, ¬ s.headIs kind r) :
    s.serveWithRoom kind act = s := by
  unfold State.serveWithRoom
  rw [headRequest_none h]

theorem serveWithRoom_joins {act : State → Request → State} {r : Request} (h : s.headIs kind r)
    (hroom : s.roomFor .table s.requestPlaces = false) : s.serveWithRoom kind act = s.joinWaiters .table := by
  unfold State.serveWithRoom
  rw [headRequest_of_headIs h]
  exact if_neg (ne_true_of_eq_false hroom)

theorem serveWithRoom_full {act : State → Request → State} {r : Request} (h : s.headIs kind r)
    (hroom : s.roomFor .table s.requestPlaces = true) (hfull : 16 ≤ s.trunk.replies.length) :
    s.serveWithRoom kind act = s := by
  unfold State.serveWithRoom
  rw [headRequest_of_headIs h]
  exact (if_pos hroom).trans (if_neg (ne_true_of_eq_false (replyRoom_eq_false hfull)))

theorem requestPlaces_headIs {r : Request} (h : s.headIs kind r)
    (hkind : kind = .laneArm ∨ kind = .groupEnd ∨ kind = .commit) :
    s.requestPlaces = if kind = .commit then s.commitPlaces r.body else 1 := by
  obtain ⟨-, hhead, hk⟩ := h
  obtain ⟨rest, hrequests⟩ := List.head?_eq_some_iff.mp hhead
  unfold State.requestPlaces
  rw [hrequests]
  rcases hkind with rfl | rfl | rfl <;> simp only [hk] <;> rfl

theorem roomFor_places {n : Nat} (h : n = 0 ∨ s.eventRoom .table n) : s.roomFor .table n = true := by
  rcases h with rfl | hroom
  · rfl
  · exact roomFor_of_eventRoom hroom

/-- A request that needs EVENT queue room: not of the kind, without the room, or without REPLY queue room. -/
theorem serveWithRoom_waits {act : State → Request → State}
    (hkind : kind = .laneArm ∨ kind = .groupEnd ∨ kind = .commit) :
    ((∀ r, ¬ s.headIs kind r) → s.serveWithRoom kind act = s)
    ∧ ∀ r, s.headIs kind r →
      let n := if kind = .commit then s.commitPlaces r.body else 1
      (n ≠ 0 → ¬ s.eventRoom .table n → s.serveWithRoom kind act = s.joinWaiters .table)
      ∧ (n = 0 ∨ s.eventRoom .table n → 16 ≤ s.trunk.replies.length → s.serveWithRoom kind act = s) := by
  refine ⟨serveWithRoom_none, fun r hhead => ?_⟩
  have hplaces := requestPlaces_headIs hhead hkind
  refine ⟨fun hn hroom => serveWithRoom_joins hhead ?_, fun hroom hfull => serveWithRoom_full hhead ?_ hfull⟩
  · rw [hplaces]
    exact roomFor_eq_false hn hroom
  · rw [hplaces]
    exact roomFor_places hroom

end Head

/-! ### The checks of R174 -/

section Check

variable {t : Tables} {mask : Nat}

theorem mem_maskedKinds {k : Kind} : k ∈ maskedKinds mask ↔ mask.testBit k.idx.val = true := by
  rw [maskedKinds, List.mem_filter, maskHas]
  exact and_iff_right (Kind.mem_all k)

theorem isStaging_iff (b : Staging) : isStaging b = true ↔ b ≠ .empty := by
  cases b with
  | empty => exact ⟨fun h => absurd h Bool.false_ne_true, fun h => absurd rfl h⟩
  | staging row ws => exact ⟨fun _ h => (nomatch h), fun _ => rfl⟩

/-- A masked kind holds a partial row. -/
def holdsPartial (t : Tables) (mask : Nat) : Prop :=
  ∃ k : Kind, mask.testBit k.idx.val = true ∧ (t.kind k).staging ≠ .empty

/-- A masked kind's staging copy has no rows. -/
def holdsNone (t : Tables) (mask : Nat) : Prop :=
  ∃ k : Kind, mask.testBit k.idx.val = true ∧ (t.stagingEntry k).limit = 0

theorem any_partial_iff :
    ((maskedKinds mask).any fun k => isStaging (t.kind k).staging) = true ↔ holdsPartial t mask := by
  simp only [List.any_eq_true, mem_maskedKinds, isStaging_iff]
  rfl

theorem any_none_iff :
    ((maskedKinds mask).any fun k => (t.stagingEntry k).limit == 0) = true ↔ holdsNone t mask := by
  simp only [List.any_eq_true, mem_maskedKinds, beq_iff_eq]
  rfl

theorem commitCheck_partial (h : holdsPartial t mask) : t.commitCheck mask = .partialRow := if_pos (any_partial_iff.mpr h)

theorem commitCheck_none (h : ¬ holdsPartial t mask) (hnone : holdsNone t mask) : t.commitCheck mask = .noTable :=
  (if_neg (mt any_partial_iff.mp h)).trans (if_pos (any_none_iff.mpr hnone))

/-- Every masked kind is ready to be committed. -/
def maskReady (t : Tables) (mask : Nat) : Prop := ∀ k : Kind, mask.testBit k.idx.val = true →
  (t.kind k).staging = .empty ∧ (t.stagingEntry k).limit ≠ 0

theorem maskReady_iff : maskReady t mask ↔ ¬ holdsPartial t mask ∧ ¬ holdsNone t mask := by
  unfold maskReady holdsPartial holdsNone
  constructor
  · exact fun h => ⟨fun ⟨k, hk, hp⟩ => hp (h k hk).1, fun ⟨k, hk, hz⟩ => (h k hk).2 hz⟩
  · exact fun h k hk => ⟨Decidable.byContradiction fun hp => h.1 ⟨k, hk, hp⟩, fun hz => h.2 ⟨k, hk, hz⟩⟩

theorem commitCheck_ok_iff : t.commitCheck mask = .ok ↔ maskReady t mask := by
  rw [maskReady_iff, ← any_partial_iff, ← any_none_iff, Tables.commitCheck]
  split
  next hp => exact ⟨fun h => (nomatch h), fun h => absurd hp h.1⟩
  next hp =>
    split
    next hn => exact ⟨fun h => (nomatch h), fun h => absurd hn h.2⟩
    next hn => exact ⟨fun _ => ⟨hp, hn⟩, fun _ => rfl⟩

theorem maskSupersedes_iff : maskSupersedes mask = true ↔ mask.testBit 3 = true ∨ mask.testBit 7 = true := by
  rw [maskSupersedes, Bool.or_eq_true]
  rfl

theorem commitPlaces_passes {s : State} {body : List Word}
    (h : (body.length = 1 ∧ maskReady s.tables (commitMask body)) ∧ maskSupersedes (commitMask body) = true) :
    s.commitPlaces body = s.supersedeRecords.length :=
  if_pos ⟨h.1.1, h.2, commitCheck_ok_iff.mpr h.1.2⟩

theorem commitPlaces_none {s : State} {body : List Word}
    (h : ¬ ((body.length = 1 ∧ maskReady s.tables (commitMask body)) ∧ maskSupersedes (commitMask body) = true)) :
    s.commitPlaces body = 0 :=
  if_neg fun hplaces => h ⟨⟨hplaces.1, commitCheck_ok_iff.mp hplaces.2.2⟩, hplaces.2.1⟩

end Check

/-- Settles O43: the requests that wait, those that join the room waiters, and the places of a COMMIT. -/
theorem requestsWait : Obligations.RequestsWait := by
  refine ⟨fun s c k hmem hwaits => ?_, fun s c k b hmem => ?_, fun s body => ?_⟩
  · simp only [List.mem_cons, Prod.mk.injEq, List.not_mem_nil, or_false] at hmem
    rcases hmem with ⟨rfl, rfl⟩ | ⟨rfl, rfl⟩ | ⟨rfl, rfl⟩ | ⟨rfl, rfl⟩ | ⟨rfl, rfl⟩ | ⟨rfl, rfl⟩ | ⟨rfl, rfl⟩
      | ⟨rfl, rfl⟩ | ⟨rfl, rfl⟩ | ⟨rfl, rfl⟩ | ⟨rfl, rfl⟩
    · exact congrArg _ (serve_waits hwaits)
    · exact congrArg _ (serve_waits hwaits)
    · exact congrArg _ (serve_waits hwaits)
    · exact congrArg _ (serve_waits hwaits)
    · exact congrArg _ (serve_waits hwaits)
    · exact congrArg _ (serve_waits hwaits)
    · exact congrArg _ (serve_waits hwaits)
    · exact congrArg _ (serve_waits hwaits)
    · exact congrArg _ (serve_waits hwaits)
    · exact exec_laneAbort_waits false hwaits
    · exact exec_laneAbort_waits true hwaits
  · have hkind : k = .laneArm ∨ k = .groupEnd ∨ k = .commit := by
      simp only [List.mem_cons, Prod.mk.injEq, List.not_mem_nil, or_false] at hmem
      exact hmem.imp And.right (Or.imp And.right And.right)
    have hexec : ∃ act, exec c s = .next (s.serveWithRoom k act) := by
      simp only [List.mem_cons, Prod.mk.injEq, List.not_mem_nil, or_false] at hmem
      rcases hmem with ⟨rfl, rfl⟩ | ⟨rfl, rfl⟩ | ⟨rfl, rfl⟩ <;> exact ⟨_, rfl⟩
    obtain ⟨act, hact⟩ := hexec
    obtain ⟨hnone, hsome⟩ := serveWithRoom_waits (s := s) (act := act) hkind
    rw [hact, ← joinWaiters_eq]
    exact ⟨fun h => congrArg _ (hnone h), fun r hhead => ⟨fun hn hroom => congrArg _ ((hsome r hhead).1 hn hroom),
      fun hroom hfull => congrArg _ ((hsome r hhead).2 hroom hfull)⟩⟩
  · exact ⟨fun hpasses hmask => commitPlaces_passes ⟨hpasses, maskSupersedes_iff.mpr hmask⟩,
      fun hfails => commitPlaces_none fun h => hfails ⟨h.1, maskSupersedes_iff.mp h.2⟩⟩

/-! ### Acts that place records and replies -/

/-- An act leaves every lane's own state, the group records and the table manager. -/
structure Aside (s t : State) : Prop where
  own : OwnKept s t
  groups : t.groups = s.groups
  tables : t.tables = s.tables

theorem Aside.refl (s : State) : Aside s s := ⟨fun _ => rfl, rfl, rfl⟩

theorem Aside.trans {s t u : State} (h : Aside s t) (g : Aside t u) : Aside s u :=
  ⟨h.own.trans g.own, g.groups.trans h.groups, g.tables.trans h.tables⟩

theorem Aside.placeRecords (s : State) (es : List EventRecord) : Aside s (s.placeRecords es) :=
  ⟨OwnKept.placeRecords es s, (Placed.placeRecords es s).groups, (Placed.placeRecords es s).tables⟩

theorem Aside.placeRecord (s : State) (e : EventRecord) : Aside s (s.placeRecord e) := Aside.placeRecords s [e]

theorem Aside.placeReply (s : State) (r : Reply) : Aside s (s.placeReply r) :=
  ⟨OwnKept.placeReply s r, (Replied.placeReply s r).groups, (Replied.placeReply s r).tables⟩

theorem Aside.leaveWaiters (s : State) (w : Waiter) : Aside s (s.leaveWaiters w) := ⟨fun _ => rfl, rfl, rfl⟩

theorem Aside.dropHead_own (s : State) : OwnKept s s.dropHead := fun _ => rfl

section Own

variable {a b : Lane}

theorem runState_of_own (h : a.own = b.own) : a.runState = b.runState :=
  show a.own.runState = b.own.runState from congrArg Lane.runState h

theorem link_of_own (h : a.own = b.own) : a.rx.link = b.rx.link :=
  show a.own.rx.link = b.own.rx.link from congrArg (·.rx.link) h

theorem isSome_of_own (h : a.own = b.own) : a.run.isSome = b.run.isSome := by
  have hrun : a.run.map RunContext.unheld = b.run.map RunContext.unheld := congrArg Lane.run h
  rw [← Option.isSome_map (f := RunContext.unheld), hrun, Option.isSome_map]

end Own

/-- While the transmitter is SENDING the act only appends: records to the EVENT queue, replies to the REPLY queue. -/
structure Appends (es : List EventRecord) (rs : List Reply) (s t : State) : Prop where
  events : t.trunk.events = s.trunk.events ++ es
  replies : t.trunk.replies = s.trunk.replies ++ rs
  tx : t.trunk.tx = s.trunk.tx

section Appending

variable {s t u : State} {es fs : List EventRecord} {rs qs : List Reply}

theorem Appends.refl (s : State) : Appends [] [] s s := ⟨(List.append_nil _).symm, (List.append_nil _).symm, rfl⟩

theorem Appends.trans (h : Appends es rs s t) (g : Appends fs qs t u) : Appends (es ++ fs) (rs ++ qs) s u :=
  ⟨by rw [g.events, h.events, List.append_assoc], by rw [g.replies, h.replies, List.append_assoc], g.tx.trans h.tx⟩

theorem Appends.isSending (h : Appends es rs s t) (hs : s.trunk.isSending) : t.trunk.isSending := by
  obtain ⟨ws, hws⟩ := hs
  exact ⟨ws, h.tx.trans hws⟩

/-- An act that leaves the trunk appends nothing. -/
theorem Appends.of_trunk (h : t.trunk = s.trunk) : Appends [] [] s t := by
  refine ⟨?_, ?_, ?_⟩ <;> rw [h]
  · exact (List.append_nil _).symm
  · exact (List.append_nil _).symm

theorem Appends.placeReply (h : s.trunk.isSending) (r : Reply) : Appends [] [r] s (s.placeReply r) := by
  rw [placeReply_sending h]
  exact ⟨(List.append_nil _).symm, rfl, rfl⟩

theorem Appends.placeRecord (h : s.trunk.isSending) (e : EventRecord) : Appends [e] [] s (s.placeRecord e) := by
  have htrunk := trunk_placeRecord_sending h e
  exact ⟨by rw [htrunk], by rw [htrunk, List.append_nil], by rw [htrunk]⟩

theorem Appends.placeRecords (es : List EventRecord) : ∀ {s : State}, s.trunk.isSending →
    Appends es [] s (s.placeRecords es) := by
  induction es with
  | nil => exact fun {s} _ => Appends.refl s
  | cons e es ih =>
    intro s h
    have hfirst := Appends.placeRecord h e
    exact hfirst.trans (ih (hfirst.isSending h))

theorem Appends.settleLane (h : s.trunk.isSending) (l : LaneId) : Appends [] [] s (s.settleLane l) := by
  unfold State.settleLane
  simp only []
  split
  · exact Appends.refl s
  · split
    · rw [returnAccount_sending (s := s.setRunState l _) h]
      exact ⟨(List.append_nil _).symm, (List.append_nil _).symm, rfl⟩
    · exact Appends.of_trunk rfl

theorem Appends.weighLane (h : s.trunk.isSending) (l : LaneId) : Appends [] [] s (s.weighLane l) := by
  unfold State.weighLane
  split
  · exact Appends.refl s
  · exact Appends.settleLane h l

theorem Appends.weighLanes (ls : List LaneId) : ∀ {s : State}, s.trunk.isSending → Appends [] [] s (s.weighLanes ls) := by
  induction ls with
  | nil => exact fun {s} _ => Appends.refl s
  | cons l ls ih =>
    intro s h
    have hfirst := Appends.weighLane h l
    exact hfirst.trans (ih (hfirst.isSending h))

/-- A reply and an act that appends records, in either order. -/
theorem Appends.actAndAnswer {s : State} {es : List EventRecord} {act : State → State}
    (hact : ∀ u : State, u.trunk.isSending → Aside s u → Appends es [] u (act u)) (h : s.trunk.isSending) (b : Bool)
    (tag : BitVec 16) (body : List Word) :
    Appends es [⟨tag, .ok, false, body⟩] s (s.actAndAnswer b tag ⟨.ok, false, body⟩ act) := by
  cases b with
  | true =>
    have hreply := Appends.placeReply h ⟨tag, .ok, false, body⟩
    have := hreply.trans (hact _ (hreply.isSending h) (Aside.placeReply s _))
    rwa [List.nil_append, List.append_nil] at this
  | false =>
    have hdone := hact s h (Aside.refl s)
    have := hdone.trans (Appends.placeReply (hdone.isSending h) ⟨tag, .ok, false, body⟩)
    rwa [List.append_nil, List.nil_append] at this

end Appending

/-! ### The lanes weighed (R39, R175) -/

section WeighLanes

variable {s : State}

/-- What weighing a lane leaves: tables, group records, links and which lanes have runs. -/
structure Weighed (s t : State) : Prop where
  tables : t.tables = s.tables
  groups : t.groups = s.groups
  link : ∀ k, (t.lane k).rx.link = (s.lane k).rx.link
  run : ∀ k, (t.lane k).run.isSome = (s.lane k).run.isSome
  active : ∀ k, (s.lane k).run.isSome = true → (t.lane k).runState = (s.lane k).runState

theorem Weighed.refl (s : State) : Weighed s s := ⟨rfl, rfl, fun _ => rfl, fun _ => rfl, fun _ _ => rfl⟩

theorem Weighed.trans {s t u : State} (h : Weighed s t) (g : Weighed t u) : Weighed s u :=
  ⟨g.tables.trans h.tables, g.groups.trans h.groups, fun k => (g.link k).trans (h.link k),
    fun k => (g.run k).trans (h.run k), fun k hk => (g.active k ((h.run k).trans hk)).trans (h.active k hk)⟩

theorem Aside.weighed {s t : State} (h : Aside s t) : Weighed s t :=
  ⟨h.tables, h.groups, fun k => link_of_own (h.own k), fun k => isSome_of_own (h.own k),
    fun k _ => runState_of_own (h.own k)⟩

theorem Weighed.weighLane (s : State) (l : LaneId) : Weighed s (s.weighLane l) := by
  have hcalm := Calm.weighLane s l
  refine ⟨hcalm.tables, hcalm.groups, fun k => ?_, fun k => (hcalm.lanes k).run, fun k hk => ?_⟩
  · by_cases e : k = l
    · rw [e]; exact congrArg (·.link) (rx_core_weighLane s l)
    · exact link_of_own (Elsewhere.weighLane s l k e)
  · by_cases e : k = l
    · rw [e] at hk ⊢; rw [weighLane_run hk]
    · exact runState_of_own (Elsewhere.weighLane s l k e)

theorem Weighed.weighLanes (ls : List LaneId) : ∀ s : State, Weighed s (s.weighLanes ls) := by
  induction ls with
  | nil => exact Weighed.refl
  | cons l ls ih => exact fun s => (Weighed.weighLane s l).trans (ih _)

/-- The state R39 gives a lane depends on tables and link. -/
theorem Weighed.restState {t : State} (h : Weighed s t) (k : LaneId) : t.restState k = s.restState k := by
  rw [restState_eq, restState_eq, h.tables, h.link]

/-- A lane without a run has the state R39 gives it once it has been weighed. -/
theorem runState_weighLanes {k : LaneId} (ls : List LaneId) : ∀ {s : State}, (s.lane k).run = none →
    k ∈ ls ∨ (s.lane k).runState = s.restState k → ((s.weighLanes ls).lane k).runState = s.restState k := by
  induction ls with
  | nil => exact fun _ h => h.resolve_left List.not_mem_nil
  | cons l ls ih =>
    intro s hrun h
    have hw := Weighed.weighLane s l
    have hnone : ((s.weighLane l).lane k).run = none := by
      rw [← Option.not_isSome_iff_eq_none, hw.run k, hrun]
      exact Bool.false_ne_true
    have hnext : k ∈ ls ∨ ((s.weighLane l).lane k).runState = (s.weighLane l).restState k := by
      rw [hw.restState k]
      by_cases e : k = l
      · right
        rw [e] at hrun ⊢
        rw [weighLane_none hrun, runState_settleLane]
      · rcases h with hmem | hstate
        · exact Or.inl ((List.mem_cons.mp hmem).resolve_left e)
        · exact Or.inr ((runState_of_own (Elsewhere.weighLane s l k e)).trans hstate)
    exact (ih hnone hnext).trans (hw.restState k)

end WeighLanes

end Sys2Proof.Machine

/-! PROOFS. COMMIT: the flip, the groups and the lanes (O42). -/

namespace Sys2Proof.Machine

open Sys2Proof

/-! ### The groups at a commit (R129) -/

section Supersede

variable {s t : State} {l : LaneId}

/-- The lane's group closes at once: OPEN without an open run. -/
def closesNow (s : State) (l : LaneId) : Prop := (s.group l).state = .opened ∧ (s.lane l).run = none

theorem supersededNow_iff : s.supersededNow l = true ↔ closesNow s l := by
  rw [State.supersededNow, Bool.and_eq_true, beq_iff_eq, Option.isNone_iff_eq_none]
  rfl

theorem supersededGroup_closes (h : closesNow s l) : s.supersededGroup l = closedGroup (s.group l) :=
  if_pos (supersededNow_iff.mpr h)

theorem supersededGroup_waits (h : ¬ closesNow s l) (hopen : (s.group l).state = .opened) :
    s.supersededGroup l = { s.group l with pending := true } :=
  (if_neg (mt supersededNow_iff.mp h)).trans (if_pos hopen)

theorem supersededGroup_stands (hopen : (s.group l).state ≠ .opened) : s.supersededGroup l = s.group l :=
  (if_neg fun h => hopen (supersededNow_iff.mp h).1).trans (if_neg hopen)

theorem Weighed.group (h : Weighed s t) (l : LaneId) : t.group l = s.group l := congrArg (fun v => v[l]) h.groups

theorem Weighed.closesNow (h : Weighed s t) (l : LaneId) : closesNow t l ↔ closesNow s l := by
  unfold Machine.closesNow
  rw [h.group, ← Option.not_isSome_iff_eq_none, ← Option.not_isSome_iff_eq_none, h.run]

theorem Weighed.supersededGroup (h : Weighed s t) (l : LaneId) : t.supersededGroup l = s.supersededGroup l := by
  have hgroup := h.group l
  by_cases hopen : (s.group l).state = .opened
  · by_cases hcloses : Machine.closesNow s l
    · rw [supersededGroup_closes hcloses, supersededGroup_closes ((h.closesNow l).mpr hcloses), hgroup]
    · rw [supersededGroup_waits hcloses hopen, supersededGroup_waits (mt (h.closesNow l).mp hcloses)
        (by rw [hgroup]; exact hopen), hgroup]
  · rw [supersededGroup_stands hopen, supersededGroup_stands (by rw [hgroup]; exact hopen), hgroup]

theorem Weighed.supersedeRecords (h : Weighed s t) : t.supersedeRecords = s.supersedeRecords :=
  supersedeRecords_congr h.groups h.run

theorem supersedeRecords_nil (h : ∀ l, ¬ closesNow s l) : s.supersedeRecords = [] := by
  rw [State.supersedeRecords, List.map_eq_nil_iff, List.filter_eq_nil_iff]
  exact fun l _ hnow => h l (supersededNow_iff.mp hnow)

end Supersede

/-! ### The act of a COMMIT (R174, R175) -/

section Act

variable {s : State} {mask : Nat}

theorem kind_flipKinds (t : Tables) (k : Kind) :
    (flipKinds mask t).kind k = if mask.testBit k.idx.val then flipKind (t.kind k) else t.kind k := vtab_get 8 _ _

/-- The state of a COMMIT after the flip and, with LANE in the mask, the lanes' weighing. -/
def State.flipped (s : State) (mask : Nat) : State :=
  if maskHas mask .lane then (s.modTables (flipKinds mask)).weighLanes (List.finRange 8)
  else s.modTables (flipKinds mask)

theorem weighed_flipped : Weighed (s.modTables (flipKinds mask)) (s.flipped mask) := by
  unfold State.flipped
  split
  · exact Weighed.weighLanes _ _
  · exact Weighed.refl _

theorem commitKinds_eq :
    s.commitKinds mask = if maskSupersedes mask then (s.flipped mask).supersedeGroups else s.flipped mask := rfl

theorem lane_supersedeGroups (k : LaneId) : (s.supersedeGroups.lane k).own = (s.lane k).own :=
  OwnKept.placeRecords s.supersedeRecords s k

/-- The table manager of a COMMIT's act: the flip and no more. -/
theorem tables_commitKinds : (s.commitKinds mask).tables = flipKinds mask s.tables := by
  rw [commitKinds_eq]
  split
  · exact (Aside.placeRecords (s.flipped mask) _).tables.trans weighed_flipped.tables
  · exact weighed_flipped.tables

/-- A flip is of the table manager alone: groups and runs are as they were. -/
theorem flip_supersededGroup (l : LaneId) : (s.modTables (flipKinds mask)).supersededGroup l = s.supersededGroup l := rfl

theorem flip_supersedeRecords : (s.modTables (flipKinds mask)).supersedeRecords = s.supersedeRecords := rfl

theorem group_commitKinds (l : LaneId) :
    (s.commitKinds mask).group l = if maskSupersedes mask then s.supersededGroup l else s.group l := by
  rw [commitKinds_eq]
  split
  · have hgroup : (s.flipped mask).supersedeGroups.group l = (s.flipped mask).supersededGroup l := vtab_get 8 _ l
    rw [hgroup, weighed_flipped.supersededGroup, flip_supersededGroup]
  · exact weighed_flipped.group l

theorem runState_commitKinds (l : LaneId) :
    ((s.commitKinds mask).lane l).runState = ((s.flipped mask).lane l).runState := by
  rw [commitKinds_eq]
  split
  · exact runState_of_own (lane_supersedeGroups l)
  · rfl

theorem runState_commitKinds_active {l : LaneId} (h : (s.lane l).run.isSome = true) :
    ((s.commitKinds mask).lane l).runState = (s.lane l).runState :=
  (runState_commitKinds l).trans (weighed_flipped.active l h)

/-- With LANE in the mask a lane without a run takes the state R39 gives it under the new tables. -/
theorem runState_commitKinds_rest {l : LaneId} (h : (s.lane l).run = none) (hlane : mask.testBit 2 = true) :
    ((s.commitKinds mask).lane l).runState = (s.modTables (flipKinds mask)).restState l := by
  rw [runState_commitKinds, State.flipped, if_pos (show maskHas mask .lane = true from hlane)]
  exact runState_weighLanes (List.finRange 8) (s := s.modTables (flipKinds mask)) h (Or.inl (List.mem_finRange l))

theorem Appends.flipped (h : s.trunk.isSending) : Appends [] [] s (s.flipped mask) := by
  unfold State.flipped
  split
  · have hw := Appends.weighLanes (List.finRange 8) (s := s.modTables (flipKinds mask)) h
    exact ⟨hw.events, hw.replies, hw.tx⟩
  · exact Appends.of_trunk rfl

theorem Appends.commitKinds (h : s.trunk.isSending) :
    Appends (if maskSupersedes mask then s.supersedeRecords else []) [] s (s.commitKinds mask) := by
  rw [commitKinds_eq]
  have hflip := Appends.flipped (mask := mask) h
  split
  · have hplaced := hflip.trans (Appends.placeRecords (s.flipped mask).supersedeRecords (hflip.isSending h))
    have hrecords : (s.flipped mask).supersedeRecords = s.supersedeRecords :=
      weighed_flipped.supersedeRecords.trans flip_supersedeRecords
    exact ⟨hplaced.events.trans (by rw [List.nil_append, hrecords]), hplaced.replies, hplaced.tx⟩
  · exact hflip

end Act

/-! ### COMMIT taken -/

section Taken

variable {s : State} {r : Request} {first : Bool}

/-- The head request has left its queue and the waiters. -/
def State.takenHead (s : State) : State := s.dropHead.leaveWaiters .table

theorem exec_commit_taken (hserves : s.serves .commit r) (hroom : s.roomFor .table (s.commitPlaces r.body) = true) :
    exec (.commit first) s = .next (s.takenHead.takeCommit first r).weighWaiters := by
  have hplaces : s.requestPlaces = s.commitPlaces r.body := requestPlaces_headIs hserves.1 (Or.inr (Or.inr rfl))
  rw [← hplaces] at hroom
  exact congrArg _ (serveWithRoom_taken hserves hroom)

theorem takeCommit_badLength (h : r.body.length ≠ 1) :
    s.takeCommit first r = s.answerRequest r.tag (answer .badRequest) := if_pos h

theorem takeCommit_empty (h : r.body.length = 1) (hmask : commitMask r.body = 0) :
    s.takeCommit first r = s.answerRequest r.tag s.generationAnswer :=
  (if_neg (not_not_intro h)).trans (if_pos hmask)

theorem takeCommit_refused (h : r.body.length = 1) (hmask : commitMask r.body ≠ 0)
    (hcheck : s.tables.commitCheck (commitMask r.body) ≠ .ok) :
    s.takeCommit first r = s.answerRequest r.tag (answer (s.tables.commitCheck (commitMask r.body))) :=
  (if_neg (not_not_intro h)).trans ((if_neg hmask).trans (if_pos hcheck))

theorem takeCommit_done (h : r.body.length = 1) (hmask : commitMask r.body ≠ 0)
    (hcheck : s.tables.commitCheck (commitMask r.body) = .ok) :
    s.takeCommit first r = s.actAndAnswer first r.tag
      (s.modTables (flipKinds (commitMask r.body))).generationAnswer (·.commitKinds (commitMask r.body)) :=
  (if_neg (not_not_intro h)).trans ((if_neg hmask).trans (if_neg (not_not_intro hcheck)))

/-- The reply's body: a presence word of 1 and the eight generation numbers. -/
theorem generationAnswer_eq : s.generationAnswer = ⟨.ok, false,
    1 :: [Kind.tubeMap, .layout, .lane, .calibration, .mix, .callRules, .keep, .standard].map
      fun k => natWord (s.tables.kind k).generation.toNat⟩ := by
  have hbody := okWith_body [Kind.all.map fun k => natWord (s.generation k).toNat]
  simp only [List.flatten_cons, List.flatten_nil, List.append_nil] at hbody
  exact congrArg (fun body => (⟨.ok, false, body⟩ : Answer)) hbody

/-- A reply and an act in either order: the act on a state that differs by placements, and placements after it. -/
theorem actAndAnswer_aside (b : Bool) (tag : BitVec 16) (a : Answer) (act : State → State) :
    ∃ u, Aside s u ∧ Aside (act u) (s.actAndAnswer b tag a act) := by
  cases b with
  | true => exact ⟨s.answerRequest tag a, Aside.placeReply s _, Aside.refl _⟩
  | false => exact ⟨s, Aside.refl s, Aside.placeReply (act s) _⟩

/-- A COMMIT that passes its checks, taken. -/
structure CommitDone (s t : State) (tag : BitVec 16) (mask : Nat) : Prop where
  tables : t.tables = flipKinds mask s.tables
  group : ∀ l, t.group l = if maskSupersedes mask then s.supersededGroup l else s.group l
  active : ∀ l, (s.lane l).run.isSome = true → (t.lane l).runState = (s.lane l).runState
  rest : ∀ l, (s.lane l).run = none → mask.testBit 2 = true →
    (t.lane l).runState = (s.modTables (flipKinds mask)).restState l
  appends : s.trunk.isSending → Appends (if maskSupersedes mask then s.supersedeRecords else [])
    [⟨tag, .ok, false, (s.modTables (flipKinds mask)).generationAnswer.body⟩] s t

theorem commitDone_takeCommit (h : r.body.length = 1) (hmask : commitMask r.body ≠ 0)
    (hcheck : s.tables.commitCheck (commitMask r.body) = .ok) :
    CommitDone s (s.takeCommit first r) r.tag (commitMask r.body) := by
  rw [takeCommit_done h hmask hcheck]
  obtain ⟨u, hbefore, hafter⟩ := actAndAnswer_aside (s := s) first r.tag
    (s.modTables (flipKinds (commitMask r.body))).generationAnswer (·.commitKinds (commitMask r.body))
  have hweighed := hbefore.weighed
  refine ⟨?_, fun l => ?_, fun l hrun => ?_, fun l hrun hlane => ?_, fun hsending => ?_⟩
  · rw [hafter.tables, tables_commitKinds, hbefore.tables]
  · rw [hafter.weighed.group, group_commitKinds, hweighed.supersededGroup, hweighed.group]
  · rw [runState_of_own (hafter.own l), runState_commitKinds_active ((hweighed.run l).trans hrun),
      runState_of_own (hbefore.own l)]
  · have hnone : (u.lane l).run = none := by
      rw [← Option.not_isSome_iff_eq_none, hweighed.run l, hrun]
      exact Bool.false_ne_true
    rw [runState_of_own (hafter.own l), runState_commitKinds_rest hnone hlane, restState_eq, restState_eq]
    rw [State.modTables_tables, State.modTables_tables, hbefore.tables, State.lane_modTables, State.lane_modTables,
      hweighed.link]
  · refine Appends.actAndAnswer (fun v hv hplaced => ?_) hsending first r.tag _
    rw [← hplaced.weighed.supersedeRecords]
    exact Appends.commitKinds hv

end Taken

theorem maskBit_ne_zero {mask : Nat} {k : Kind} (h : mask.testBit k.idx.val = true) : mask ≠ 0 := by
  rintro rfl
  rw [Nat.zero_testBit] at h
  cases h

/-- Settles O42: the refusals in order, and the one act of a COMMIT that passes. -/
theorem commitHandled : Obligations.CommitHandled := by
  refine ⟨fun s r first hserves => ?_, fun s r first hserves hlength => ?_, fun s => rfl⟩
  · intro mask partialRow empty answered
    have hrefused : ∀ st, r.body.length = 1 → mask ≠ 0 → s.tables.commitCheck mask = st → st ≠ .ok →
        answered st := by
      intro st hlength hmask hcheck hst
      have hroom : s.roomFor .table (s.commitPlaces r.body) = true := by
        rw [commitPlaces_none fun h => hst (hcheck.symm.trans (commitCheck_ok_iff.mpr h.1.2))]
        rfl
      have htaken : s.takenHead.takeCommit first r = s.takenHead.answerRequest r.tag (answer st) := by
        rw [← hcheck] at hst ⊢
        exact takeCommit_refused (s := s.takenHead) hlength hmask hst
      refine (exec_commit_taken hserves hroom).trans ?_
      rw [htaken, answerRequest_answer]
      rfl
    refine ⟨fun hlength => ?_, fun hlength hmask => ?_, fun hlength hpartial => ?_, fun hlength hwhole hempty => ?_⟩
    · have hroom : s.roomFor .table (s.commitPlaces r.body) = true := by
        rw [commitPlaces_none fun h => hlength h.1.1]
        rfl
      refine (exec_commit_taken hserves hroom).trans ?_
      rw [takeCommit_badLength hlength, answerRequest_answer]
      rfl
    · have hroom : s.roomFor .table (s.commitPlaces r.body) = true := by
        rw [commitPlaces_none fun h => ?_]
        · rfl
        · rw [show commitMask r.body = 0 from hmask] at h
          exact Bool.false_ne_true h.2
      refine (exec_commit_taken hserves hroom).trans ?_
      rw [takeCommit_empty hlength hmask, generationAnswer_eq]
      rfl
    · obtain ⟨k, hk, -⟩ := id hpartial
      exact hrefused _ hlength (maskBit_ne_zero hk) (commitCheck_partial hpartial) (fun h => (nomatch h))
    · obtain ⟨k, hk, -⟩ := id hempty
      exact hrefused _ hlength (maskBit_ne_zero hk) (commitCheck_none hwhole hempty) (fun h => (nomatch h))
  · intro mask supersedes closes hmask hready hroom t
    have hcheck : s.tables.commitCheck mask = .ok := commitCheck_ok_iff.mpr hready
    have hdone : CommitDone s.takenHead t r.tag mask := commitDone_takeCommit hlength hmask hcheck
    have hkinds : ∀ k, t.tables.kind k = if mask.testBit k.idx.val then flipKind (s.tables.kind k) else s.tables.kind k := by
      intro k
      rw [hdone.tables]
      exact kind_flipKinds _ k
    have hplaces : s.roomFor .table (s.commitPlaces r.body) = true := by
      by_cases hsup : supersedes
      · rw [commitPlaces_passes ⟨⟨hlength, hready⟩, maskSupersedes_iff.mpr hsup⟩]
        rcases hroom hsup with hfree | hnone
        · exact roomFor_of_eventRoom hfree
        · rw [supersedeRecords_nil hnone]
          rfl
      · rw [commitPlaces_none fun h => hsup (maskSupersedes_iff.mp h.2)]
        rfl
    refine ⟨exec_commit_taken hserves hplaces, ?_, fun hsending => ?_, fun hsending => ?_, hkinds, fun l => ?_,
      hdone.active, fun l hrun hlane => ?_⟩
    · rw [hdone.tables]
      rfl
    · rw [(hdone.appends hsending).replies, generationAnswer_eq, State.modTables_tables, ← hdone.tables]
      rfl
    · rw [(hdone.appends hsending).events]
      by_cases hsup : supersedes
      · rw [if_pos hsup, if_pos (maskSupersedes_iff.mpr hsup)]
        rfl
      · rw [if_neg hsup, if_neg (mt maskSupersedes_iff.mp hsup)]
        rfl
    · rw [hdone.group]
      by_cases hsup : supersedes
      · rw [if_pos (maskSupersedes_iff.mpr hsup)]
        by_cases hcloses : closes l
        · rw [if_pos ⟨hsup, hcloses⟩]
          exact supersededGroup_closes (s := s.takenHead) hcloses
        · rw [if_neg fun h => hcloses h.2]
          by_cases hopen : (s.group l).state = .opened
          · rw [if_pos ⟨hsup, hopen⟩]
            exact supersededGroup_waits (s := s.takenHead) hcloses hopen
          · rw [if_neg fun h => hopen h.2]
            exact supersededGroup_stands (s := s.takenHead) hopen
      · rw [if_neg (mt maskSupersedes_iff.mp hsup), if_neg fun h => hsup h.1, if_neg fun h => hsup h.1]
        rfl
    · rw [hdone.rest l hrun hlane, restState_eq, State.modTables_tables, ← hdone.tables]
      rfl

end Sys2Proof.Machine

/-! PROOFS. The requests answered without effect: DIRECTORY READ, LANE QUERY, DEVICE QUERY and unknown kinds (O41). -/

namespace Sys2Proof.Machine

open Sys2Proof

/-! ### Reply bodies (R184) -/

/-- The presence word of a list of flags. -/
def presenceOf (flags : List Bool) : Word :=
  pack ((List.range flags.length).map fun i => (flag (flags.getD i false), i, 1))

theorem presenceWord_eq (fields : List (Bool × List Word)) : presenceWord fields = presenceOf (fields.map Prod.fst) := by
  have hflag : ∀ i : Nat, (fields.map Prod.fst).getD i false = (fields.getD i (false, [])).1 := by
    intro i
    rw [List.getD_eq_getElem?_getD, List.getD_eq_getElem?_getD, List.getElem?_map]
    cases fields[i]? <;> rfl
  simp only [presenceWord, presenceOf, List.length_map, hflag]

/-- A field's words in a body: zero words for an absent field. -/
def fieldWords (f : Bool × List Word) : List Word := if f.1 then f.2 else f.2.map fun _ => 0

theorem replyBody_eq (fields : List (Bool × List Word)) :
    replyBody fields = presenceOf (fields.map Prod.fst) :: fields.flatMap fieldWords := by
  rw [replyBody, presenceWord_eq]
  rfl

theorem fieldWords_present (ws : List Word) : fieldWords (true, ws) = ws := rfl

/-! ### Handlers (R59, R168, R178) -/

section Handlers

variable {s : State} {r : Request}

theorem handleDirectoryRead_empty : s.handleDirectoryRead [] = (s, okWith [Kind.all.flatMap s.directoryWords]) := rfl

theorem handleDirectoryRead_body {body : List Word} (h : body ≠ []) :
    s.handleDirectoryRead body = (s, answer .badRequest) := if_pos (mt List.length_eq_zero_iff.mp h)

theorem handleDeviceQuery_empty : s.handleDeviceQuery [] = (s, okWith s.deviceFields) := rfl

theorem handleDeviceQuery_body {body : List Word} (h : body ≠ []) :
    s.handleDeviceQuery body = (s, answer .badRequest) := if_pos (mt List.length_eq_zero_iff.mp h)

theorem laneOf_badLane {body : List Word} (h : body.length = 1) (hlane : bodyLane body = none) :
    laneOf body = (.badLane, none) := by
  simp only [laneOf, if_neg (not_not_intro h), hlane]

theorem laneOf_lane {body : List Word} {l : LaneId} (h : body.length = 1) (hlane : bodyLane body = some l) :
    laneOf body = (.ok, some l) := by
  simp only [laneOf, if_neg (not_not_intro h), hlane]

theorem handleLaneQuery_badLane {body : List Word} (h : body.length = 1) (hlane : bodyLane body = none) :
    s.handleLaneQuery body = (s, answer .badLane) := by
  simp only [State.handleLaneQuery, laneOf_badLane h hlane]

theorem handleLaneQuery_lane {body : List Word} {l : LaneId} (h : body.length = 1) (hlane : bodyLane body = some l) :
    s.handleLaneQuery body = (s, ⟨.ok, false, replyBody (s.laneFields l)⟩) := by
  simp only [State.handleLaneQuery, laneOf_lane h hlane]

theorem serve_answered {kind : RequestKind} {handle : State → List Word → State × Answer} (hserves : s.serves kind r)
    {body : List Word} (hhandle : handle s.dropHead r.body = (s.dropHead, ⟨.ok, false, body⟩)) :
    s.serve kind handle = s.dropHead.placeReply ⟨r.tag, .ok, false, body⟩ := by
  rw [serve_taken hserves, hhandle]
  rfl

theorem okWith_eq (fields : List (List Word)) {w : Word} (h : presenceWord (fields.map fun f => (true, f)) = w) :
    okWith fields = ⟨.ok, false, w :: fields.flatten⟩ :=
  congrArg (fun body => (⟨.ok, false, body⟩ : Answer)) ((okWith_body fields).trans (by rw [h]))

end Handlers

/-! ### DEVICE QUERY's words (R178) -/

section Device

variable {s : State}

theorem deviceKindWords_eq (k : Kind) : s.deviceKindWords k =
    [natWord (flag (s.tables.kind k).current), natWord (s.tables.kind k).generation.toNat]
      ++ stagingWords (s.tables.kind k).staging ++ [natWord (flag (s.stagingCaptured k))] := rfl

theorem presence_deviceFields : presenceWord (s.deviceFields.map fun f => (true, f)) = 255 := by
  have hflags : (s.deviceFields.map fun f => (true, f)).map Prod.fst = List.replicate 8 true := rfl
  rw [presenceWord_eq, hflags]
  decide

end Device

/-! ### LANE QUERY's words (R59) -/

section Lane

variable {s : State} {l : LaneId}

/-- The fields a LANE QUERY gives of every lane. -/
def State.restFields (s : State) (l : LaneId) : List (Bool × List Word) := (s.laneFields l).take 8

theorem laneFields_eq : s.laneFields l =
    s.restFields l ++ runFields ((s.lane l).runState == .closing) (s.lane l).run := by
  unfold State.restFields State.laneFields
  rfl

/-- The presence flags without a run: all but the opener of the first eight. -/
theorem presenceOf_idle (opener : Bool) :
    presenceOf [true, true, true, true, true, true, opener, true, false, false, false, false, false, false, false, false,
      false] = natWord (191 + 64 * flag opener) := by
  cases opener <;> decide

/-- The presence flags with a run: the opener, the stamped position and the closing reason may be absent. -/
theorem presenceOf_run (opener stamped closing : Bool) :
    presenceOf [true, true, true, true, true, true, opener, true, true, true, stamped, true, true, true, true, true,
      closing] = natWord (64447 + 64 * flag opener + 1024 * flag stamped + 65536 * flag closing) := by
  cases opener <;> cases stamped <;> cases closing <;> decide

theorem flags_laneFields_idle (h : (s.lane l).run = none) : (s.laneFields l).map Prod.fst =
    [true, true, true, true, true, true, (s.group l).opener.isSome, true, false, false, false, false, false, false, false,
      false, false] := by
  rw [laneFields_eq, h]
  rfl

theorem flags_laneFields_run {c : RunContext} (h : (s.lane l).run = some c) : (s.laneFields l).map Prod.fst =
    [true, true, true, true, true, true, (s.group l).opener.isSome, true, true, true, c.tracker.stamped.isSome, true, true,
      true, true, true, (s.lane l).runState == .closing] := by
  rw [laneFields_eq, h]
  rfl

/-- The words of a group's opener. -/
def openerWords : Option Opener → List Word
  | none => [0, 0, 0]
  | some o => [o.serial, natWord o.calibration.toNat, natWord o.standard.toNat]

theorem words_restFields : (s.restFields l).flatMap fieldWords =
    [natWord (runStateCode (s.lane l).runState), natWord (flag ((s.lane l).rx.link == .up)),
      natWord (flag (s.lane l).rx.hold), natWord (s.lane l).rx.check, natWord (s.lane l).rx.format,
      natWord (s.lane l).rx.sequence, natWord (s.lane l).rx.overflow,
      natWord (flag (bitAt (wordAt (s.tables.currentRow .lane l.val) 0) 0)),
      natWord (groupStateCode (s.group l).state), natWord (flag (s.group l).pending),
      natWord (s.group l).number.toNat, natWord (s.group l).runs.length]
      ++ openerWords (s.group l).opener ++ [natWord (s.lane l).dataQueue.length, natWord (s.lane l).degrade] := by
  unfold State.restFields State.laneFields
  simp only []
  cases (s.group l).opener <;> rfl

theorem words_runFields_none (closing : Bool) : (runFields closing none).flatMap fieldWords = List.replicate 19 0 := rfl

/-- The words of the last frame's positions, zero before a frame has been stamped. -/
def stampWords (t : Tracker) : List Word :=
  fieldWords (t.stamped.isSome, [posWord t.raw, posWord (t.stamped.getD 0)])

theorem words_runFields_some (closing : Bool) (c : RunContext) :
    (runFields closing (some c)).flatMap fieldWords =
      [c.serial, natWord (runKindCode c.kind)]
        ++ [natWord (c.tube.getD (0, 0)).1, natWord (c.tube.getD (0, 0)).2,
          if c.kind = .production then 0 else natWord c.profile]
        ++ stampWords c.tracker ++ [posWord c.matcher.correction] ++ timerWords c.armTimer ++ timerWords c.stallTimer
        ++ [natWord (c.matcher.cursor.entry.getD 255), natWord (dirCode c.matcher.cursor.dir)]
        ++ [natWord c.evaluator.indications.length, natWord c.forwarder.gaps.length, natWord c.forwarder.framesLost]
        ++ [natWord (closeFlagsNat (closeFlagsOf c))]
        ++ [if closing then natWord ((c.reason.map reasonCode).getD 0) else 0] := by
  have hclosing : fieldWords (closing, [natWord ((c.reason.map reasonCode).getD 0)])
      = [if closing then natWord ((c.reason.map reasonCode).getD 0) else 0] := by
    cases closing <;> rfl
  rw [← hclosing]
  simp only [runFields, List.flatMap_cons, List.flatMap_nil, List.append_nil, fieldWords_present, List.append_assoc]
  cases c.kind <;> rfl

end Lane

/-- Settles O41: each reply word for word. -/
theorem answeredWithoutEffect : Obligations.AnsweredWithoutEffect := by
  refine ⟨fun s r hserves => ⟨fun hbody => ?_, fun hbody => ?_⟩, fun s r hserves hlength => ⟨fun hlane => ?_,
    fun l hlane => ?_⟩, fun s r hserves => ⟨fun hbody => ?_, fun hbody => ?_⟩, fun s r hserves => ?_⟩
  · refine congrArg _ (serve_answered hserves ?_)
    rw [hbody, handleDirectoryRead_empty, okWith_eq _ rfl, List.flatten_singleton]
    rfl
  · exact congrArg _ (serve_refused hserves (handleDirectoryRead_body hbody))
  · exact congrArg _ (serve_refused hserves (handleLaneQuery_badLane hlength hlane))
  · intro opener present openerWs runWs
    refine ⟨?_, rfl, fun ms => ⟨rfl, rfl⟩⟩
    refine congrArg _ (serve_answered hserves ?_)
    rw [handleLaneQuery_lane hlength hlane]
    have hopener : openerWords (s.group l).opener = openerWs := by
      simp only [openerWs, opener]
      cases (s.group l).opener <;> rfl
    have hpresent : presenceOf ((s.laneFields l).map Prod.fst) = natWord present := by
      cases hrun : (s.lane l).run with
      | none =>
        rw [flags_laneFields_idle hrun, presenceOf_idle]
        simp only [present, hrun, opener]
      | some c =>
        rw [flags_laneFields_run hrun, presenceOf_run]
        simp only [present, hrun, opener]
    have hrun : (runFields ((s.lane l).runState == .closing) (s.lane l).run).flatMap fieldWords = runWs := by
      cases hrun : (s.lane l).run with
      | none =>
        rw [words_runFields_none]
        simp only [runWs, hrun]
      | some c =>
        rw [words_runFields_some]
        simp only [runWs, hrun, beq_iff_eq]
        cases hstamped : c.tracker.stamped with
        | none => rw [stampWords, hstamped]; rfl
        | some p => rw [stampWords, hstamped]; rfl
    have hbody : replyBody (s.dropHead.laneFields l) = _ :=
      (replyBody_eq (s.laneFields l)).trans (congr (congrArg List.cons hpresent)
        ((congrArg (List.flatMap fieldWords) laneFields_eq).trans List.flatMap_append))
    rw [hbody, words_restFields, hrun, hopener]
    rfl
  · refine congrArg _ (serve_answered hserves ?_)
    rw [hbody, handleDeviceQuery_empty, okWith_eq _ presence_deviceFields]
    simp only [State.deviceFields, List.flatten_cons, List.flatten_nil, List.append_nil]
    have hrequests : s.dropHead.tables.requests.length = s.tables.requests.length - 1 := List.length_tail
    rw [hrequests]
    simp only [List.append_assoc, List.cons_append, List.nil_append]
    refine congrArg (fun ws => (s.dropHead, (⟨.ok, false, 255 :: natWord 2608 :: natWord 1 :: ws⟩ : Answer)))
      (congrArg (· ++ _) (congrArg (fun f => List.flatMap f Kind.all) (funext fun k => ?_)))
    refine (deviceKindWords_eq (s := s) k).trans ?_
    cases (s.tables.kind k).staging <;> rfl
  · exact congrArg _ (serve_refused hserves (handleDeviceQuery_body hbody))
  · exact congrArg _ (serve_refused hserves rfl)

end Sys2Proof.Machine

/-! PROOFS. Lane requests: LANE ARM admitted, the fresh run, LANE ABORT, LANE CLEAR and GROUP END (O45 to O48). -/

namespace Sys2Proof.Machine

open Sys2Proof

/-! ### What a placement keeps of a lane -/

section DegradeZero

variable {s : State} {k : LaneId}

/-- Out of motion hold moves no run. -/
theorem run_holdWeighed_still {p : Bool} {a : Lane} (h : inMotion a.runState = false) : (holdWeighed p a).run = a.run := by
  have hstill : holdAfter a.runState a.rx.fifo.length p a.rx.hold = false := holdAfter_still h
  simp only [holdWeighed, hstill, stallUnderHold, h, Bool.false_and, Bool.and_false, Bool.false_eq_true, if_false]
  cases a.run <;> rfl

theorem run_setRunState_still {st : RunState} (h : inMotion st = false) :
    ((s.setRunState k st).lane k).run = (s.lane k).run := by
  rw [State.setRunState, State.lane_modLane_same, enterRunState, (statusChanged_keeps _).2.2]
  exact run_holdWeighed_still (a := { s.lane k with runState := st }) h

theorem degrade_weighPressure : (s.weighPressure.lane k).degrade = (s.lane k).degrade := by
  rw [lane_weighPressure]
  split
  · rfl
  · unfold weighHold statusChanged
    simp only []
    split
    · rfl
    · split <;> rfl

theorem degrade_sendBlock (l : LaneId) (h : (s.lane k).degrade = 0) : ((s.sendBlock l).lane k).degrade = 0 := by
  cases hqueue : (s.lane l).dataQueue with
  | nil => rw [sendBlock_none hqueue]; exact h
  | cons b rest =>
    by_cases e : k = l
    · rw [e] at h ⊢
      rw [lane_sendBlock hqueue]
      simp only [h]
      split <;> rfl
    · have hother : (s.sendBlock l).lane k = s.lane k := by
        unfold State.sendBlock
        rw [hqueue]
        exact State.lane_modLane_other _ _ _ _ e
      rw [hother]
      exact h

/-- The choices of the arbiter raise no degrade level. -/
theorem degrade_arbiterChoice (h : (s.lane k).degrade = 0) : (s.arbiterChoice.lane k).degrade = 0 := by
  cases hreplies : s.trunk.replies with
  | cons r rs => rw [arbiterChoice_reply hreplies]; exact h
  | nil =>
    by_cases hrecord : s.trunk.events = [] ∨ s.trunk.eventCredit = 0
    · obtain ⟨hblock, hidle⟩ := arbiterChoice_search hreplies hrecord
      cases hfind : (searchOrder s.trunk.lastServed).find? s.fundable with
      | none => rw [hidle hfind]; exact h
      | some l => rw [hblock l hfind]; exact degrade_sendBlock l h
    · rw [not_or] at hrecord
      obtain ⟨e, es, hevents⟩ := List.exists_cons_of_ne_nil hrecord.1
      rw [arbiterChoice_record hreplies hevents (Nat.one_le_iff_ne_zero.mpr hrecord.2), degrade_weighPressure]
      exact h

theorem degrade_idleChoice (h : (s.lane k).degrade = 0) : (s.idleChoice.lane k).degrade = 0 := by
  unfold State.idleChoice
  split
  · exact degrade_arbiterChoice h
  · exact h

end DegradeZero

/-- An act of the trunk alone: it leaves tables, groups and every lane's own state; out of motion a lane's run stands,
and a degrade level of 0 too. -/
structure Placing (s t : State) : Prop where
  aside : Aside s t
  same : SameAll s t
  degrade : ∀ k, (s.lane k).degrade = 0 → (t.lane k).degrade = 0

section Placing

variable {s t u : State}

theorem Placing.refl (s : State) : Placing s s := ⟨Aside.refl s, SameAll.refl s, fun _ h => h⟩

theorem Placing.trans (h : Placing s t) (g : Placing t u) : Placing s u :=
  ⟨h.aside.trans g.aside, h.same.trans g.same, fun k hk => g.degrade k (h.degrade k hk)⟩

theorem Placing.idleChoice (s : State) : Placing s s.idleChoice :=
  ⟨⟨OwnKept.idleChoice s, (Calm.idleChoice s).groups, (Calm.idleChoice s).tables⟩, SameAll.idleChoice s,
    fun _ h => degrade_idleChoice h⟩

theorem Placing.placeReply (s : State) (r : Reply) : Placing s (s.placeReply r) :=
  ⟨Aside.placeReply s r, SameAll.placeReply s r,
    fun _ h => degrade_idleChoice (s := s.modTrunk fun t => { t with replies := t.replies ++ [r] }) h⟩

theorem Placing.placeRecord (s : State) (e : EventRecord) : Placing s (s.placeRecord e) :=
  ⟨Aside.placeRecord s e, SameAll.placeRecord s e, fun _ h => degrade_idleChoice
    ((degrade_weighPressure (s := s.modTrunk fun t => { t with events := t.events ++ [e] })).trans h)⟩

theorem eq_of_unheld {c d : RunContext} (h : c.unheld = d.unheld) (ht : c.stallTimer = d.stallTimer) : c = d := by
  cases c
  cases d
  simp only [RunContext.unheld, RunContext.mk.injEq] at h ht ⊢
  grind

/-- Out of motion the whole run stands. -/
theorem Placing.run (h : Placing s t) {k : LaneId} (hm : inMotion (s.lane k).runState = false) :
    (t.lane k).run = (s.lane k).run := by
  have hstall := (h.same k).stall hm
  have hown : (t.lane k).run.map RunContext.unheld = (s.lane k).run.map RunContext.unheld :=
    congrArg Lane.run (h.aside.own k)
  cases hs : (s.lane k).run with
  | none =>
    rw [hs] at hown
    exact Option.map_eq_none_iff.mp hown
  | some c =>
    rw [hs] at hown hstall
    obtain ⟨d, hd, hunheld⟩ := Option.map_eq_some_iff.mp hown
    rw [hd] at hstall ⊢
    exact congrArg some (eq_of_unheld hunheld (Option.some.inj hstall))

end Placing

/-! ### The admission (R41 to R45) -/

section Admitted

variable {s : State} {p : ArmPlan}

theorem admissionCheck_admitted {l : LaneId} {kind : RunKind} {tube : Nat × Nat} {named : Nat}
    (h : s.admissionCheck l kind tube named = .admitted p) :
    p.lane = l ∧ (s.lane l).runState = .idle ∧ s.tables.serial = some p.serial := by
  unfold State.admissionCheck at h
  split at h
  case h_6 hidle =>
    split at h
    · cases h
    · split at h
      · cases h
      · split at h
        · cases h
        · split at h
          · cases h
          · rename_i hserial
            cases h
            exact ⟨rfl, hidle, hserial⟩
  all_goals cases h

theorem armDecision_admitted {body : List Word} (h : s.armDecision body = .admitted p) :
    (s.lane p.lane).runState = .idle ∧ s.tables.serial = some p.serial := by
  unfold State.armDecision at h
  simp only [] at h
  split at h
  · cases h
  · split at h
    · cases h
    · split at h
      · cases h
      · split at h
        · cases h
        · obtain ⟨hlane, hidle, hserial⟩ := admissionCheck_admitted h
          rw [hlane]
          exact ⟨hidle, hserial⟩

/-- The counter after serial n: the next one, none after the last (R43). -/
theorem nextSerial_eq (n : BitVec 32) : nextSerial n = if n.toNat = 4294967295 then none else some (n + 1) := by
  have hlast : n = 4294967295#32 ↔ n.toNat = 4294967295 :=
    ⟨fun h => by rw [h]; rfl, fun h => BitVec.eq_of_toNat_eq h⟩
  unfold nextSerial
  by_cases h : n.toNat = 4294967295
  · rw [if_pos h, if_pos (hlast.mpr h)]
  · rw [if_neg h, if_neg (mt hlast.mp h)]

/-- A fresh run is read off the tables alone. -/
theorem newRun_congr {t : State} (h : t.tables = s.tables) (p : ArmPlan) : t.newRun p = s.newRun p := by
  simp only [State.newRun, h]

/-- The state with the run created, its serial taken and the degrade level at 0. -/
def State.runCreated (s : State) (p : ArmPlan) : State :=
  (s.modTables fun t => { t with serial := nextSerial p.serial }).modLane p.lane fun ln =>
    { ln with run := some (s.newRun p), degrade := 0 }

theorem lane_runCreated : (s.runCreated p).lane p.lane = { s.lane p.lane with run := some (s.newRun p), degrade := 0 } :=
  State.lane_modLane_same _ _ _

/-- An arbiter's choice made when the level falls to 0. -/
def State.levelChoice (s : State) (p : ArmPlan) : State :=
  if (s.lane p.lane).degrade = 0 then s.runCreated p else (s.runCreated p).idleChoice

theorem placing_levelChoice : Placing (s.runCreated p) (s.levelChoice p) := by
  unfold State.levelChoice
  split
  · exact Placing.refl _
  · exact Placing.idleChoice _

/-- The state before RUN OPEN is placed: the run listed in its group. -/
def State.runListed (s : State) (p : ArmPlan) : State :=
  (s.levelChoice p).setGroup p.lane (listRun p ((s.levelChoice p).group p.lane))

theorem admitRun_eq : s.admitRun p =
    ((s.runListed p).placeRecord (runOpenRecord p (s.newRun p))).setRunState p.lane .armed := rfl

theorem group_levelChoice (k : LaneId) : (s.levelChoice p).group k = s.group k := placing_levelChoice.aside.weighed.group k

/-- What an admission leaves on its lane, in the tables, in the groups and on the other lanes. -/
structure RunAdmitted (s t : State) (p : ArmPlan) : Prop where
  state : (t.lane p.lane).runState = .armed
  run : (t.lane p.lane).run = some (s.newRun p)
  degrade : (t.lane p.lane).degrade = 0
  tables : t.tables = { s.tables with serial := nextSerial p.serial }
  group : t.group p.lane = listRun p (s.group p.lane)
  groups : ∀ k, k ≠ p.lane → t.group k = s.group k
  others : ∀ k, k ≠ p.lane → (t.lane k).own = (s.lane k).own

theorem runAdmitted_admitRun (hidle : (s.lane p.lane).runState = .idle) : RunAdmitted s (s.admitRun p) p := by
  have hchoice := placing_levelChoice (s := s) (p := p)
  have hplaced := Placing.placeRecord (s.runListed p) (runOpenRecord p (s.newRun p))
  have hcreatedState : ((s.runCreated p).lane p.lane).runState = .idle := by rw [lane_runCreated]; exact hidle
  have hlistedState : ((s.runListed p).lane p.lane).runState = .idle := (hchoice.same p.lane).state.trans hcreatedState
  have hlistedRun : ((s.runListed p).lane p.lane).run = some (s.newRun p) :=
    (hchoice.run (by rw [hcreatedState]; rfl)).trans (by rw [lane_runCreated])
  have hlistedDegrade : ((s.runListed p).lane p.lane).degrade = 0 := hchoice.degrade p.lane (by rw [lane_runCreated])
  rw [admitRun_eq]
  generalize hu : (s.runListed p).placeRecord (runOpenRecord p (s.newRun p)) = u at hplaced
  have hgroup : ∀ k, u.group k = (s.runListed p).group k := hplaced.aside.weighed.group
  refine ⟨lane_setRunState_runState u p.lane .armed, ?_, ?_, ?_, ?_, fun k hk => ?_, fun k hk => ?_⟩
  · rw [run_setRunState_still rfl, hplaced.run (by rw [hlistedState]; rfl), hlistedRun]
  · rw [State.setRunState, State.lane_modLane_same, enterRunState]
    have hkeeps : ∀ a : Lane, (statusChanged a).degrade = a.degrade := fun a => by unfold statusChanged; split <;> rfl
    rw [hkeeps]
    exact hplaced.degrade p.lane hlistedDegrade
  · exact hplaced.aside.tables.trans hchoice.aside.tables
  · refine (hgroup p.lane).trans ?_
    rw [State.runListed, State.group_setGroup_same, group_levelChoice]
  · refine (hgroup k).trans ?_
    rw [State.runListed, State.group_setGroup_other _ _ _ _ hk, group_levelChoice]
  · have hcreated : (s.runCreated p).lane k = s.lane k := State.lane_modLane_other _ _ _ _ hk
    rw [State.setRunState, State.lane_modLane_other _ _ _ _ hk]
    exact (hplaced.aside.own k).trans ((hchoice.aside.own k).trans (congrArg Lane.own hcreated))

theorem Appends.admitRun (h : s.trunk.isSending) : Appends [runOpenRecord p (s.newRun p)] [] s (s.admitRun p) := by
  have hcreated : (s.runCreated p).trunk.isSending := h
  have hchoice : (s.levelChoice p).trunk = s.trunk := by
    unfold State.levelChoice
    split
    · rfl
    · rw [idleChoice_sending hcreated]
      rfl
  have hlisted : (s.runListed p).trunk = s.trunk := hchoice
  have hsending : (s.runListed p).trunk.isSending := by rw [hlisted]; exact h
  have hplaced := (Appends.of_trunk hlisted).trans (Appends.placeRecord hsending (runOpenRecord p (s.newRun p)))
  exact ⟨hplaced.events, hplaced.replies, hplaced.tx⟩

end Admitted

theorem runOpenRecord_newRun (s : State) (p : ArmPlan) : runOpenRecord p (s.newRun p) =
    .runOpen p.lane p.serial p.kind p.tube p.profile
      ([Kind.tubeMap, .layout, .lane, .calibration, .mix, .callRules, .keep, .standard].map s.generation) := rfl

theorem listRun_eq (p : ArmPlan) (g : Group) : listRun p g = { g with
    runs := g.runs ++ ((p.tube.map fun tube => ⟨p.serial, tube.1, tube.2⟩).toList) } := by
  unfold listRun
  cases p.tube with
  | none => simp only [Option.map_none, Option.toList_none, List.append_nil]
  | some tube => rfl

/-! ### LANE ARM admitted -/

section ArmTaken

variable {s : State} {r : Request} {first : Bool} {p : ArmPlan}

theorem takeArm_admitted (h : s.armDecision r.body = .admitted p) :
    s.takeArm first r = s.actAndAnswer first r.tag ⟨.ok, false, [1, p.serial]⟩ (·.admitRun p) := by
  have hbody : okWith [[p.serial]] = ⟨.ok, false, [1, p.serial]⟩ := okWith_eq [[p.serial]] rfl
  rw [← hbody]
  simp only [State.takeArm, h]

theorem RunAdmitted.of_placing {u t : State} (hplaced : Placing s u) (h : RunAdmitted u t p) : RunAdmitted s t p := by
  refine ⟨h.state, ?_, h.degrade, ?_, ?_, fun k hk => ?_, fun k hk => ?_⟩
  · rw [h.run, newRun_congr hplaced.aside.tables]
  · rw [h.tables, hplaced.aside.tables]
  · rw [h.group, hplaced.aside.weighed.group]
  · rw [h.groups k hk, hplaced.aside.weighed.group]
  · rw [h.others k hk, hplaced.aside.own k]

theorem RunAdmitted.placing {t u : State} (h : RunAdmitted s t p) (hplaced : Placing t u) : RunAdmitted s u p := by
  refine ⟨?_, ?_, hplaced.degrade _ h.degrade, ?_, ?_, fun k hk => ?_, fun k hk => ?_⟩
  · rw [(hplaced.same _).state, h.state]
  · rw [hplaced.run (by rw [h.state]; rfl), h.run]
  · rw [hplaced.aside.tables, h.tables]
  · rw [hplaced.aside.weighed.group, h.group]
  · rw [hplaced.aside.weighed.group, h.groups k hk]
  · rw [hplaced.aside.own k, h.others k hk]

/-- The reply before the admission or after it: lanes, tables and groups are left the same. -/
theorem runAdmitted_takeArm (h : s.armDecision r.body = .admitted p) : RunAdmitted s (s.takeArm first r) p := by
  obtain ⟨hidle, -⟩ := armDecision_admitted h
  rw [takeArm_admitted h]
  cases first with
  | true =>
    have hplaced := Placing.placeReply s ⟨r.tag, .ok, false, [1, p.serial]⟩
    exact RunAdmitted.of_placing hplaced (runAdmitted_admitRun ((hplaced.same p.lane).state.trans hidle))
  | false => exact (runAdmitted_admitRun hidle).placing (Placing.placeReply _ _)

theorem appends_takeArm (h : s.armDecision r.body = .admitted p) (hsending : s.trunk.isSending) :
    Appends [runOpenRecord p (s.newRun p)] [⟨r.tag, .ok, false, [1, p.serial]⟩] s (s.takeArm first r) := by
  rw [takeArm_admitted h]
  refine Appends.actAndAnswer (fun u hu haside => ?_) hsending first r.tag _
  rw [← newRun_congr haside.tables p]
  exact Appends.admitRun hu

end ArmTaken

/-- Settles O45: the head request leaves its queue, then the run is created. -/
theorem armAdmitted : Obligations.ArmAdmitted := by
  intro s r first p hserves hroom hplan
  have hdecided : s.takenHead.armDecision r.body = .admitted p := (armDecision_taken r.body).trans hplan
  have hadmitted : RunAdmitted s.takenHead (s.takenHead.takeArm first r) p := runAdmitted_takeArm hdecided
  obtain ⟨-, hserial⟩ := armDecision_admitted hplan
  refine ⟨s.takenHead.takeArm first r, exec_laneArm_taken hserves hroom, hadmitted.state, hadmitted.run,
    hadmitted.degrade, hserial, ?_, ?_, fun k hk => ⟨hadmitted.groups k hk, hadmitted.others k hk⟩, fun hsending => ?_⟩
  · rw [hadmitted.tables, nextSerial_eq]
    rfl
  · rw [hadmitted.group]
    have hgroup : s.takenHead.group p.lane = s.group p.lane := rfl
    rw [hgroup, listRun_eq]
    cases p.tube <;> rfl
  · have happends := appends_takeArm (s := s.takenHead) (first := first) hdecided hsending
    exact ⟨happends.replies, happends.events.trans (by rw [runOpenRecord_newRun]; rfl)⟩

/-! ### The fresh run -/

theorem captureAtArm_eq (row : StandardRow) : captureAtArm row =
    if row.used = true then some ⟨.unseen, row.channels.map fun _ => none⟩ else none := rfl

/-- Settles O46: field by field. -/
theorem runStartsFresh : Obligations.RunStartsFresh := by
  intro s p c
  refine ⟨rfl, rfl, rfl, rfl, fun k => vtab_get 8 _ _, rfl, rfl, fun i => vtab_get 16 _ _, rfl, rfl, rfl,
    fun i => Vector.getElem_replicate _, fun i => Vector.getElem_replicate _, fun i => ?_, rfl, rfl,
    fun i => Vector.getElem_replicate _, rfl, rfl, rfl, rfl, rfl, rfl, rfl, rfl, rfl, rfl⟩
  refine (vtab_get 8 _ i).trans ?_
  cases p.kind with
  | production => exact (if_neg fun h => nomatch h.1).symm
  | standard => simp only [captureAtArm_eq, true_and]

/-! ### LANE ABORT and LANE CLEAR -/

section Abort

variable {s : State} {r : Request} {first : Bool} {l : LaneId} {c : RunContext}

theorem exec_laneAbort_taken (hserves : s.serves .laneAbort r) :
    exec (.laneAbort first) s = .next (s.dropHead.takeAbort first r) := by
  obtain ⟨hhead, hreply⟩ := hserves
  have hroom : s.replyRoom = true := decide_eq_true hreply
  simp only [exec, execLaneAbort, headRequest_of_headIs hhead, hroom, if_true]

theorem takeAbort_badLane (hlength : r.body.length = 1) (hlane : bodyLane r.body = none) :
    s.takeAbort first r = s.placeReply ⟨r.tag, .badLane, false, []⟩ := by
  simp only [State.takeAbort, laneOf_badLane hlength hlane, answerRequest_answer]

theorem takeAbort_notActive (hlength : r.body.length = 1) (hlane : bodyLane r.body = some l)
    (hstate : isActive (s.lane l).runState = false) :
    s.takeAbort first r = s.placeReply ⟨r.tag, .notActive, false, []⟩ := by
  simp only [State.takeAbort, laneOf_lane hlength hlane, hstate, Bool.false_eq_true, if_false, answerRequest_answer]
  cases (s.lane l).run <;> rfl

theorem takeAbort_active (hlength : r.body.length = 1) (hlane : bodyLane r.body = some l)
    (hstate : isActive (s.lane l).runState = true) (hrun : (s.lane l).run = some c) :
    s.takeAbort first r =
      s.actAndAnswer first r.tag ⟨.ok, false, [1, c.serial]⟩ (·.enterClosing l .aborted) := by
  have hbody : okWith [[c.serial]] = ⟨.ok, false, [1, c.serial]⟩ := okWith_eq [[c.serial]] rfl
  rw [← hbody]
  simp only [State.takeAbort, laneOf_lane hlength hlane, hrun, hstate, if_true]

/-- What an abort leaves: the lane CLOSING with its run ABORTED, the other lanes and the groups as they were. -/
structure RunAborted (s t : State) (l : LaneId) (c : RunContext) : Prop where
  state : (t.lane l).runState = .closing
  run : ∃ d, (t.lane l).run = some d ∧ d.serial = c.serial ∧ d.reason = some .aborted ∧ d.armTimer = .stopped
    ∧ d.stallTimer = .stopped
  others : ∀ k, k ≠ l → (t.lane k).own = (s.lane k).own
  groups : t.groups = s.groups

theorem runAborted_enterClosing (hstate : isActive (s.lane l).runState = true) (hrun : (s.lane l).run = some c) :
    RunAborted s (s.enterClosing l .aborted) l c := by
  obtain ⟨d, hclosing, hd⟩ := enterClosing_fields hrun .aborted
  have hneeds : needsRun (s.lane l).runState = true := by rw [needsRun, hstate, Bool.true_or]
  exact ⟨hclosing, ⟨d, hd⟩, Elsewhere.enterClosing s l .aborted, (Work.enterClosing _ hneeds).groups⟩

/-- The reply before the closing or after it. -/
theorem runAborted_abort (first : Bool) (reply : Reply) (hstate : isActive (s.lane l).runState = true)
    (hrun : (s.lane l).run = some c) :
    RunAborted s (if first then (s.placeReply reply).enterClosing l .aborted
      else (s.enterClosing l .aborted).placeReply reply) l c := by
  cases first with
  | true =>
    have hplaced := Placing.placeReply s reply
    have hsame := (hplaced.same l)
    obtain ⟨d, hd, hident⟩ := run_of_ident hsame hrun
    have hclosed := runAborted_enterClosing (s := s.placeReply reply) (l := l) (c := d)
      (by rw [hsame.state]; exact hstate) hd
    obtain ⟨f, hf, hserial, hfields⟩ := hclosed.run
    exact ⟨hclosed.state, ⟨f, hf, hserial.trans (congrArg (·.serial) hident), hfields⟩,
      fun k hk => (hclosed.others k hk).trans (hplaced.aside.own k), hclosed.groups.trans hplaced.aside.groups⟩
  | false =>
    have hclosed := runAborted_enterClosing hstate hrun
    have hplaced := Placing.placeReply (s.enterClosing l .aborted) reply
    obtain ⟨d, hd, hfields⟩ := hclosed.run
    exact ⟨(hplaced.same l).state.trans hclosed.state, ⟨d, (hplaced.run (by rw [hclosed.state]; rfl)).trans hd, hfields⟩,
      fun k hk => (hplaced.aside.own k).trans (hclosed.others k hk), hplaced.aside.groups.trans hclosed.groups⟩

theorem handleLaneClear_badLane {body : List Word} (hlength : body.length = 1) (hlane : bodyLane body = none) :
    s.handleLaneClear body = (s, answer .badLane) := by
  simp only [State.handleLaneClear, laneOf_badLane hlength hlane]

theorem handleLaneClear_lane {body : List Word} (hlength : body.length = 1) (hlane : bodyLane body = some l) :
    s.handleLaneClear body = (s.modRx l fun rx => { rx with check := 0, format := 0, sequence := 0, overflow := 0 },
      ⟨.ok, false, [15, natWord (s.lane l).rx.check, natWord (s.lane l).rx.format, natWord (s.lane l).rx.sequence,
        natWord (s.lane l).rx.overflow]⟩) := by
  have hbody := okWith_eq [[natWord (s.lane l).rx.check], [natWord (s.lane l).rx.format],
    [natWord (s.lane l).rx.sequence], [natWord (s.lane l).rx.overflow]] rfl
  simp only [State.handleLaneClear, laneOf_lane hlength hlane]
  exact congrArg (Prod.mk _) hbody

end Abort

/-- Settles O47: the abort's refusals and its closing, and the counters cleared. -/
theorem abortAndClear : Obligations.AbortAndClear := by
  refine ⟨fun s r first hserves hlength => ⟨fun hlane => ?_, fun l hlane => ⟨fun hrest => ?_, fun c hrun hopen => ?_⟩⟩,
    fun s r hserves hlength => ⟨fun hlane => ?_, fun l hlane => ?_⟩⟩
  · rw [exec_laneAbort_taken hserves, takeAbort_badLane hlength hlane]
  · have hstate : isActive (s.dropHead.lane l).runState = false := by
      have hlaneState : (s.dropHead.lane l).runState = (s.lane l).runState := rfl
      rw [hlaneState]
      rcases hrest with h | h | h <;> rw [h] <;> rfl
    rw [exec_laneAbort_taken hserves, takeAbort_notActive hlength hlane hstate]
  · have hstate : isActive (s.lane l).runState = true := by
      rcases hopen with h | h | h <;> rw [h] <;> rfl
    have htaken : ∀ b, exec (.laneAbort b) s = .next (s.dropHead.actAndAnswer b r.tag ⟨.ok, false, [1, c.serial]⟩
        (·.enterClosing l .aborted)) := fun b => by
      rw [exec_laneAbort_taken hserves]
      exact congrArg _ (takeAbort_active (s := s.dropHead) hlength hlane hstate hrun)
    have habort := runAborted_abort (s := s.dropHead) first ⟨r.tag, .ok, false, [1, c.serial]⟩ hstate hrun
    obtain ⟨d, hd, hserial, hreason, harm, hstall⟩ := habort.run
    exact ⟨_, d, htaken first, habort.state, hd, hserial, hreason, harm, hstall, habort.others, habort.groups,
      htaken false, htaken true⟩
  · exact congrArg _ (serve_refused hserves (handleLaneClear_badLane hlength hlane))
  · refine congrArg _ ((serve_taken hserves).trans ?_)
    rw [handleLaneClear_lane hlength hlane]
    rfl

/-! ### GROUP END -/

section GroupEnd

variable {s : State} {r : Request} {first : Bool} {l : LaneId}

theorem exec_groupEnd_taken (hserves : s.serves .groupEnd r) (hroom : s.eventRoom .table 1) :
    exec (.groupEnd first) s = .next (s.takenHead.takeGroupEnd first r) := by
  have hplaces : s.requestPlaces = 1 := requestPlaces_headIs hserves.1 (Or.inr (Or.inl rfl))
  have hfree : s.roomFor .table s.requestPlaces = true := by
    rw [hplaces]
    exact roomFor_of_eventRoom hroom
  exact congrArg _ (serveWithRoom_taken hserves hfree)

theorem takeGroupEnd_badLane (hlength : r.body.length = 1) (hlane : bodyLane r.body = none) :
    s.takeGroupEnd first r = s.placeReply ⟨r.tag, .badLane, false, []⟩ := by
  simp only [State.takeGroupEnd, laneOf_badLane hlength hlane, answerRequest_answer]

theorem takeGroupEnd_running (hlength : r.body.length = 1) (hlane : bodyLane r.body = some l)
    (hrun : (s.lane l).run.isSome = true) :
    s.takeGroupEnd first r = s.placeReply ⟨r.tag, .notIdle, false, []⟩ := by
  simp only [State.takeGroupEnd, laneOf_lane hlength hlane, hrun, if_true, answerRequest_answer]

/-- The reply of a GROUP END: the group's number and a state. -/
def groupReply (g : Group) (st : GroupState) : List Word := [3, natWord g.number.toNat, natWord (groupStateCode st)]

theorem okWith_group (g : Group) (st : GroupState) :
    okWith [[natWord g.number.toNat], [natWord (groupStateCode st)]] = ⟨.ok, false, groupReply g st⟩ := okWith_eq _ rfl

theorem takeGroupEnd_stands (hlength : r.body.length = 1) (hlane : bodyLane r.body = some l)
    (hrun : (s.lane l).run = none) (hopen : (s.group l).state ≠ .opened) :
    s.takeGroupEnd first r = s.placeReply ⟨r.tag, .ok, false, groupReply (s.group l) (s.group l).state⟩ := by
  simp only [State.takeGroupEnd, laneOf_lane hlength hlane, hrun, Option.isSome_none, Bool.false_eq_true, if_false, hopen,
    okWith_group, answerRequest_ok]

theorem takeGroupEnd_closes (hlength : r.body.length = 1) (hlane : bodyLane r.body = some l)
    (hrun : (s.lane l).run = none) (hopen : (s.group l).state = .opened) :
    s.takeGroupEnd first r = s.actAndAnswer first r.tag ⟨.ok, false, groupReply (s.group l) .needsStandard⟩ fun u =>
      (u.placeRecord (groupCloseRecord l (s.group l) .unverified none none)).setGroup l (closedGroup (s.group l)) := by
  simp only [State.takeGroupEnd, laneOf_lane hlength hlane, hrun, Option.isSome_none, Bool.false_eq_true, if_false, hopen,
    if_true, okWith_group]

end GroupEnd

/-- Settles O48: the refusals, a group that stands, and a group closed in either order of reply and record. -/
theorem groupEnded : Obligations.GroupEnded := by
  intro s r first hserves hroom hlength taken
  refine ⟨fun hlane => ?_, fun l hlane => ⟨fun hrun => ?_, fun hrun hopen => ?_, fun hrun hopen => ?_⟩⟩
  · rw [exec_groupEnd_taken hserves hroom, takeGroupEnd_badLane hlength hlane]
    rfl
  · exact (exec_groupEnd_taken hserves hroom).trans
      (congrArg _ (takeGroupEnd_running (s := s.takenHead) hlength hlane hrun))
  · exact (exec_groupEnd_taken hserves hroom).trans
      (congrArg _ (takeGroupEnd_stands (s := s.takenHead) hlength hlane hrun hopen))
  · intro closed reply
    have hcloses : ∀ b, exec (.groupEnd b) s = .next (s.takenHead.actAndAnswer b r.tag
        ⟨.ok, false, groupReply (s.group l) .needsStandard⟩ fun u =>
          (u.placeRecord closed).setGroup l (closedGroup (s.group l))) := fun b =>
      (exec_groupEnd_taken hserves hroom).trans
        (congrArg _ (takeGroupEnd_closes (s := s.takenHead) hlength hlane hrun hopen))
    exact ⟨hcloses false, hcloses true⟩

end Sys2Proof.Machine

/-! PROOFS. Which commands change the state the lanes share (O49). -/

namespace Sys2Proof.Machine

open Sys2Proof

/-! ### Current indices, generation numbers and group records -/

/-- The current index and the generation number of each kind. -/
def Tables.versions (t : Tables) (k : Kind) : CopyIndex × BitVec 16 := ((t.kind k).current, (t.kind k).generation)

theorem versions_modKind (t : Tables) (k : Kind) {f : KindState → KindState}
    (h : ∀ ks, (f ks).current = ks.current ∧ (f ks).generation = ks.generation) :
    (t.modKind k f).versions = t.versions := by
  funext j
  unfold Tables.versions
  by_cases e : j = k
  · rw [e, Tables.kind_modKind_same, (h _).1, (h _).2]
  · rw [Tables.kind_modKind_other _ _ _ _ e]

theorem versions_resetTables (t : Tables) : (resetTables t).versions = t.versions := by
  funext k
  rw [Tables.versions, kind_resetTables]
  rfl

theorem versions_setStaging (s : State) (k : Kind) (b : Staging) :
    (s.setStaging k b).tables.versions = s.tables.versions := versions_modKind _ _ fun _ => ⟨rfl, rfl⟩

theorem versions_setExtent (k : Kind) (e : DirEntry) (t : Tables) : (setExtent k e t).versions = t.versions :=
  versions_modKind { t with mem := extentContent k (t.stagingEntry k) e t.mem } k fun ks => by
    unfold KindState.setEntry
    constructor <;> split <;> rfl

/-- An act leaves current indices, generation numbers and group records. -/
structure SharedKept (s t : State) : Prop where
  versions : t.tables.versions = s.tables.versions
  groups : t.groups = s.groups

section Shared

variable {s t u : State}

theorem SharedKept.refl (s : State) : SharedKept s s := ⟨rfl, rfl⟩

theorem SharedKept.trans (h : SharedKept s t) (g : SharedKept t u) : SharedKept s u :=
  ⟨g.versions.trans h.versions, g.groups.trans h.groups⟩

theorem Work.shared (h : Work s t) : SharedKept s t := ⟨by rw [h.tables], h.groups⟩

theorem Calm.shared (h : Calm s t) : SharedKept s t := h.work.shared

theorem Aside.shared (h : Aside s t) : SharedKept s t := ⟨by rw [h.tables], h.groups⟩

theorem SharedKept.answerRequest (s : State) (tag : BitVec 16) (a : Answer) : SharedKept s (s.answerRequest tag a) :=
  (Aside.placeReply s _).shared

theorem SharedKept.dropHead (s : State) : SharedKept s s.dropHead := ⟨rfl, rfl⟩

theorem SharedKept.takenHead (s : State) : SharedKept s s.takenHead := ⟨rfl, rfl⟩

theorem SharedKept.setStaging (s : State) (k : Kind) (b : Staging) : SharedKept s (s.setStaging k b) :=
  ⟨versions_setStaging s k b, rfl⟩

theorem SharedKept.placeOption (s : State) (o : Option EventRecord) : SharedKept s (s.placeOption o) := by
  cases o with
  | none => exact SharedKept.refl s
  | some e => exact (Aside.placeRecord s e).shared

theorem SharedKept.unless (b : Bool) (h : SharedKept s t) : SharedKept s (if b then s else t) := by
  cases b
  · exact h
  · exact SharedKept.refl s

theorem SharedKept.whenever (b : Bool) (h : b = true → SharedKept s t) : SharedKept s (if b then t else s) := by
  cases b
  · exact SharedKept.refl s
  · exact h rfl

/-! ### Requests served -/

theorem SharedKept.serve (s : State) (kind : RequestKind) {handle : State → List Word → State × Answer}
    (h : ∀ t body, SharedKept t (handle t body).1) : SharedKept s (s.serve kind handle) := by
  unfold State.serve
  split
  · exact SharedKept.refl s
  · split
    · exact ((SharedKept.dropHead s).trans (h _ _)).trans (SharedKept.answerRequest _ _ _)
    · exact SharedKept.refl s

theorem SharedKept.completeRow (s : State) (k : Kind) (row : Nat) (slots : List (Option Word)) :
    SharedKept s (s.completeRow k row slots).1 := by
  have hstaged := SharedKept.setStaging s k .empty
  unfold State.completeRow
  simp only []
  split
  · exact hstaged
  · split
    · exact ⟨hstaged.versions, hstaged.groups⟩
    · exact hstaged

theorem SharedKept.handleTableWrite (s : State) (body : List Word) : SharedKept s (s.handleTableWrite body).1 := by
  unfold State.handleTableWrite
  split
  · exact SharedKept.refl s
  · simp only []
    split
    · exact SharedKept.completeRow s _ _ _
    · exact SharedKept.setStaging s _ _

theorem SharedKept.handleTableRead (s : State) (body : List Word) : SharedKept s (s.handleTableRead body).1 := by
  unfold State.handleTableRead
  simp only []
  split
  · exact SharedKept.refl s
  · split
    · exact SharedKept.refl s
    · split
      · exact SharedKept.refl s
      · split
        · exact SharedKept.refl s
        · split
          · exact ⟨rfl, rfl⟩
          · split <;> exact SharedKept.refl s

theorem SharedKept.handleTableCopy (s : State) (body : List Word) : SharedKept s (s.handleTableCopy body).1 := by
  unfold State.handleTableCopy
  split
  · exact SharedKept.refl s
  · split
    · exact SharedKept.refl s
    · split
      · exact SharedKept.refl s
      · exact ⟨(versions_setStaging (s.modTables _) _ _).trans rfl, rfl⟩

theorem SharedKept.handleDirectorySet (s : State) (body : List Word) : SharedKept s (s.handleDirectorySet body).1 := by
  unfold State.handleDirectorySet
  simp only []
  split
  · exact SharedKept.refl s
  · split
    · exact SharedKept.refl s
    · split
      · exact SharedKept.refl s
      · split
        · exact SharedKept.refl s
        · split
          · exact SharedKept.refl s
          · exact ⟨versions_setExtent _ _ _, rfl⟩

/-- A request handled without an effect on the part. -/
theorem SharedKept.serve_answer (s : State) (kind : RequestKind) {handle : State → List Word → State × Answer}
    (h : ∀ t body, (handle t body).1 = t) : SharedKept s (s.serve kind handle) :=
  SharedKept.serve s kind fun t body => by rw [h]; exact SharedKept.refl t

theorem SharedKept.takeAbort (s : State) (first : Bool) (r : Request) : SharedKept s (s.takeAbort first r) := by
  have hrefused : ∀ st, SharedKept s (s.answerRequest r.tag (answer st)) := fun st => SharedKept.answerRequest s _ _
  have hcloses : ∀ (u : State) l, isActive (u.lane l).runState = true → SharedKept u (u.enterClosing l .aborted) :=
    fun u l h => (Work.enterClosing _ (by rw [needsRun, h, Bool.true_or])).shared
  unfold State.takeAbort
  split
  · exact hrefused _
  · rename_i l _
    split
    · rename_i c _
      split
      next hactive =>
        cases first with
        | true =>
          have hreply := SharedKept.answerRequest s r.tag (okWith [[c.serial]])
          have hstate : ((s.answerRequest r.tag (okWith [[c.serial]])).lane l).runState = (s.lane l).runState :=
            runState_placeReply s _ l
          exact hreply.trans (hcloses _ l (by rw [hstate]; exact hactive))
        | false => exact (hcloses s l hactive).trans (SharedKept.answerRequest _ _ _)
      next => exact hrefused _
    · exact hrefused _

theorem shared_laneAbort (s : State) (first : Bool) (h : exec (.laneAbort first) s = .next t) : SharedKept s t := by
  cases h
  split
  · exact SharedKept.refl s
  · split
    · exact (SharedKept.dropHead s).trans (SharedKept.takeAbort _ first _)
    · exact SharedKept.refl s

/-- A request with a place kept for its record: it waits, or it is taken. -/
theorem versions_serveWithRoom (s : State) (kind : RequestKind) {act : State → Request → State}
    (h : ∀ r, (act s.takenHead r).tables.versions = s.tables.versions) :
    (s.serveWithRoom kind act).tables.versions = s.tables.versions := by
  unfold State.serveWithRoom
  split
  · rfl
  · split
    · split
      · exact h _
      · rfl
    · rfl

theorem versions_takeArm (s : State) (first : Bool) (r : Request) :
    (s.takeArm first r).tables.versions = s.tables.versions := by
  cases hplan : s.armDecision r.body with
  | refuse st =>
    simp only [State.takeArm, hplan]
    exact (SharedKept.answerRequest s _ _).versions
  | admitted p =>
    rw [(runAdmitted_takeArm hplan).tables]
    rfl

theorem versions_takeGroupEnd (s : State) (first : Bool) (r : Request) :
    (s.takeGroupEnd first r).tables.versions = s.tables.versions := by
  have hanswered : ∀ a, (s.answerRequest r.tag a).tables.versions = s.tables.versions := fun a =>
    (SharedKept.answerRequest s _ a).versions
  unfold State.takeGroupEnd
  split
  · exact hanswered _
  · simp only []
    split
    · exact hanswered _
    · split
      · cases first with
        | true => exact (Aside.placeRecord _ _).shared.versions.trans (hanswered _)
        | false => exact (SharedKept.answerRequest _ _ _).versions.trans (Aside.placeRecord s _).shared.versions
      · exact hanswered _

end Shared

/-! ### The room waiters served (R157) -/

section Serving

variable {s : State} {l : LaneId}

theorem SharedKept.servePipeline (s : State) (l : LaneId) : SharedKept s (s.servePipeline l) := by
  unfold State.servePipeline
  split
  · exact (Calm.leaveWaiters s _).shared
  · split
    · exact (Calm.leaveWaiters s _).shared
    · exact (((Calm.workItem s l _ _).trans (Calm.setPassage _ l _)).trans (Calm.leaveWaiters _ _)).shared.trans
        (SharedKept.placeOption _ _)

theorem SharedKept.serveClosing (s : State) (l : LaneId) : SharedKept s (s.serveClosing l) := by
  unfold State.serveClosing
  split
  · exact (((Calm.closeStep s l _).trans (Calm.setClosing _ l _)).trans (Calm.leaveWaiters _ _)).shared.trans
      (SharedKept.placeOption _ _)
  · exact (Calm.leaveWaiters s _).shared
  · exact (Calm.leaveWaiters s _).shared

theorem tables_handleNotice {c : RunContext} : (s.handleNotice l c).tables = s.tables :=
  (endClosing_rest (s.noticeTaken l c) l).1.trans tables_noticeTaken

theorem tables_serveGroup : (s.serveGroup l).tables = s.tables := by
  unfold State.serveGroup
  split
  · rfl
  · exact tables_handleNotice

/-- A reading of the state that serving the waiters of a class leaves, as every act on the shared state but theirs
does. -/
structure WaiterFrame {α : Type} (P : Waiter → Prop) (f : State → α) : Prop where
  kept : ∀ {s t : State}, SharedKept s t → f t = f s
  serve : ∀ (s : State) (w : Waiter), P w → f (s.serveWaiter w) = f s

/-- The request apart, waiters change no current index and no generation number. -/
theorem versionsFrame : WaiterFrame (· ≠ Waiter.table) (·.tables.versions) := by
  refine ⟨SharedKept.versions, fun s w hw => ?_⟩
  cases w with
  | pipeline l => exact (SharedKept.servePipeline s l).versions
  | closing l => exact (SharedKept.serveClosing s l).versions
  | group l => exact congrArg Tables.versions tables_serveGroup
  | table => exact absurd rfl hw

/-- Request and close handlings apart, waiters change no group record. -/
theorem groupsFrame : WaiterFrame (fun w => w ≠ Waiter.table ∧ ∀ l, w ≠ Waiter.group l) (·.groups) := by
  refine ⟨SharedKept.groups, fun s w hw => ?_⟩
  obtain ⟨htable, hgroup⟩ := hw
  cases w with
  | pipeline l => exact (SharedKept.servePipeline s l).groups
  | closing l => exact (SharedKept.serveClosing s l).groups
  | group l => exact absurd rfl (hgroup l)
  | table => exact absurd rfl htable

end Serving

section Weighing

variable {α : Type} {P : Waiter → Prop} {f : State → α}

theorem WaiterFrame.weighAtMost (h : WaiterFrame P f) : ∀ (n : Nat) (s : State), (∀ w ∈ s.trunk.waiters, P w) →
    f (s.weighAtMost n) = f s := by
  intro n
  induction n with
  | zero => exact fun s _ => h.kept (Calm.pruneWaiters s).shared
  | succ n ih =>
    intro s hall
    have hpruned : f s.pruneWaiters = f s := h.kept (Calm.pruneWaiters s).shared
    have hkept : ∀ w ∈ s.pruneWaiters.trunk.waiters, P w := fun w hw => hall w (List.mem_filter.mp hw).1
    unfold State.weighAtMost
    split
    · exact hpruned
    · rename_i w rest hwaiters
      split
      · have hserved : f (s.pruneWaiters.serveWaiter w) = f s.pruneWaiters :=
          h.serve _ w (hkept w (by rw [hwaiters]; exact List.mem_cons_self))
        refine (ih _ fun v hv => ?_).trans (hserved.trans hpruned)
        rw [waiters_serveWaiter] at hv
        exact hkept v (List.mem_filter.mp hv).1
      · exact hpruned

theorem WaiterFrame.weighWaiters (h : WaiterFrame P f) {s : State} (hall : ∀ w ∈ s.trunk.waiters, P w) :
    f s.weighWaiters = f s := h.weighAtMost _ s hall

/-- An act that leaves waiters and shared state, and then the weighing. -/
theorem WaiterFrame.weighAfter (h : WaiterFrame P f) {s t : State} (hw : WaitersKept s t) (hs : SharedKept s t)
    (hall : ∀ w ∈ s.trunk.waiters, P w) : f t.weighWaiters = f s :=
  (h.weighWaiters fun w hmem => hall w (by rw [← hw]; exact hmem)).trans (h.kept hs)

/-- The trunk changed, and then a choice of the arbiter. -/
theorem SharedKept.arbiterChoice (s : State) (g : Trunk → Trunk) : SharedKept s (s.modTrunk g).arbiterChoice :=
  have hcalm := Calm.arbiterChoice (s.modTrunk g)
  ⟨by rw [hcalm.tables, State.modTrunk_tables], hcalm.groups⟩

theorem WaiterFrame.transmitComplete (h : WaiterFrame P f) {s : State} (hall : ∀ w ∈ s.trunk.waiters, P w) :
    f s.transmitComplete = f s := by
  unfold State.transmitComplete
  split
  · rfl
  · exact h.weighAfter (WaitersKept.arbiterChoice (s.modTrunk _)) (SharedKept.arbiterChoice s _) hall

theorem WaiterFrame.grantEvent (h : WaiterFrame P f) {s : State} (n : Nat) (hall : ∀ w ∈ s.trunk.waiters, P w) :
    f (s.grantEvent n) = f s := by
  unfold State.grantEvent
  simp only []
  split
  · exact h.weighAfter (WaitersKept.arbiterChoice (s.modTrunk _)) (SharedKept.arbiterChoice s _) hall
  · exact h.kept ⟨rfl, rfl⟩

theorem SharedKept.requestArrives (s : State) (r : Request) : SharedKept s (s.requestArrives r) := by
  unfold State.requestArrives
  split
  · exact ⟨rfl, rfl⟩
  · split
    · exact (Aside.placeReply s _).shared
    · exact SharedKept.refl s

theorem SharedKept.grantData (s : State) (h p : Nat) : SharedKept s (s.grantData h p) :=
  ⟨by rw [tables_grantData], (Calm.idleChoice _).groups.trans groups_creditGranted⟩

theorem WaiterFrame.stationFrameEnd (h : WaiterFrame P f) {s : State} (words : List Word)
    (hall : ∀ w ∈ s.trunk.waiters, P w) : f (s.stationFrameEnd words) = f s := by
  unfold State.stationFrameEnd
  split
  · exact h.kept (Calm.countStation s).shared
  · exact h.kept (SharedKept.requestArrives s _)
  · exact h.kept (SharedKept.grantData s _ _)
  · exact h.grantEvent _ hall

theorem versions_closeHandling {s : State} (l : LaneId) (hall : ∀ w ∈ s.trunk.waiters, w ≠ Waiter.table) :
    (s.closeHandling l).tables.versions = s.tables.versions := by
  unfold State.closeHandling
  split
  · rfl
  · rename_i c hc
    split
    · have hwaiters : (s.handleNotice l c).trunk.waiters = s.trunk.waiters.filter (· != .group l) := by
        have hserve : s.serveWaiter (.group l) = s.handleNotice l c := by
          simp only [State.serveWaiter, State.serveGroup, hc]
        rw [← hserve, waiters_serveWaiter]
      refine (versionsFrame.weighWaiters fun w hw => ?_).trans (congrArg Tables.versions tables_handleNotice)
      rw [hwaiters] at hw
      exact hall w (List.mem_filter.mp hw).1
    · exact (Calm.joinWaiters s _).shared.versions

end Weighing

/-! ### Every command -/

/-- The commands that act on versions or group records themselves. -/
def actsOnShared : Instr → Bool
  | .commit _ | .laneArm _ | .groupEnd _ | .closeHandling _ | .deviceReset => true
  | c => isReset c

/-- The other commands that weigh the waiters, and those of a frame that may be one of them. -/
def mayWeigh : Instr → Bool
  | .transmitComplete | .eventCredit _ | .dataCredit _ | .requestArrival _ | .stationFrameInvalid _ => true
  | _ => false

theorem shared_of_exec {c : Instr} {s t : State} (hacts : actsOnShared c = false) (hweigh : mayWeigh c = false)
    (hx : exec c s = .next t) : SharedKept s t := by
  cases c with
  | sampleFrame l words => cases hx; exact .unless _ (Calm.sampleFrameEnd s l words).shared
  | laneFrameBreak l =>
    cases hx
    exact .unless _ (Calm.modRx (f := countCheck) fun x => { x with check := satByte_le _ }).shared
  | silenceTimerExpiry l =>
    cases hx
    refine .whenever _ fun _ => ?_
    exact (((Calm.modRx fun x => fits_linkDown x).trans (Calm.weighLaneHold _ _)).work.trans (Work.linkLost _ _)).shared
  | statusPeriodExpiry l => cases hx; exact .whenever _ fun _ => (Calm.modLane (LaneStep.statusChanged _)).shared
  | statusWordComplete l => cases hx; exact .unless _ (Calm.modLane (LaneStep.statusComplete _)).shared
  | lanePipelineTake l b => cases hx; exact .unless _ (Work.pipelineTake s l b).shared
  | lanePipelineResume l => cases hx; exact .unless _ (Work.pipelineResume s l).shared
  | armTimerExpiry l =>
    cases hx
    exact .whenever _ fun hdue => (Work.enterClosing _ (needsRun_of_armDue hdue)).shared
  | stallTimerExpiry l =>
    cases hx
    exact .whenever _ fun hdue => (Work.enterClosing _ (needsRun_of_stallDue hdue)).shared
  | closingResume l => cases hx; exact .unless _ (Work.closingResume s l).shared
  | stationFrameBreak => cases hx; exact .unless _ (Calm.countStation s).shared
  | tableWrite => cases hx; exact .serve s _ SharedKept.handleTableWrite
  | tableRead => cases hx; exact .serve s _ SharedKept.handleTableRead
  | tableCopy => cases hx; exact .serve s _ SharedKept.handleTableCopy
  | directorySet => cases hx; exact .serve s _ SharedKept.handleDirectorySet
  | directoryRead => cases hx; exact .serve_answer s _ handleDirectoryRead_fst
  | laneAbort b => exact shared_laneAbort s b hx
  | laneQuery => cases hx; exact .serve_answer s _ handleLaneQuery_fst
  | laneClear => cases hx; exact .serve s _ fun u body => (Calm.handleLaneClear u body).shared
  | deviceQuery => cases hx; exact .serve_answer s _ handleDeviceQuery_fst
  | unknownRequestKind => cases hx; exact .serve_answer s _ fun _ _ => rfl
  | transmitComplete => cases hweigh
  | eventCredit words => cases hweigh
  | dataCredit words => cases hweigh
  | requestArrival words => cases hweigh
  | stationFrameInvalid words => cases hweigh
  | _ => cases hacts

theorem WaiterFrame.of_exec {α : Type} {P : Waiter → Prop} {f : State → α} (h : WaiterFrame P f) {c : Instr}
    {s t : State} (hweigh : mayWeigh c = true) (hall : ∀ w ∈ s.trunk.waiters, P w) (hx : exec c s = .next t) :
    f t = f s := by
  have hunless : ∀ (b : Bool) (u : State), f u = f s → f (if b then s else u) = f s := fun b u hu => by
    cases b
    · exact hu
    · rfl
  cases c with
  | transmitComplete => cases hx; exact hunless _ _ (h.transmitComplete hall)
  | eventCredit words => cases hx; exact hunless _ _ (h.stationFrameEnd words hall)
  | dataCredit words => cases hx; exact hunless _ _ (h.stationFrameEnd words hall)
  | requestArrival words => cases hx; exact hunless _ _ (h.stationFrameEnd words hall)
  | stationFrameInvalid words => cases hx; exact hunless _ _ (h.stationFrameEnd words hall)
  | _ => cases hweigh

theorem versions_deviceReset {s t : State} (hx : exec .deviceReset s = .next t) :
    t.tables.versions = s.tables.versions := by
  cases hx
  split
  · rfl
  · split
    · exact (SharedKept.answerRequest s.lineReset _ _).versions.trans (versions_resetTables s.tables)
    · exact (SharedKept.serve_answer s _ fun _ _ => rfl).versions

theorem versions_resetLine {c : Instr} {s t : State} (h : isReset c = true) (hpower : c ≠ .powerOn)
    (hx : exec c s = .next t) : t.tables.versions = s.tables.versions := by
  rcases tables_reset_exec h hx with ⟨rfl, -⟩ | htables | rfl
  · exact absurd rfl hpower
  · rw [htables, versions_resetTables]
  · rfl

theorem entries_of_exec {c : Instr} {s t : State} (hwrite : writesTables c = false) (hpower : c ≠ .powerOn)
    (hx : exec c s = .next t) : EntriesKept s t := by
  cases hreset : isReset c with
  | false => exact (kept_of_exec hreset hwrite hx).entries
  | true =>
    rcases tables_reset_exec hreset hx with ⟨rfl, -⟩ | htables | rfl
    · exact absurd rfl hpower
    · exact EntriesKept.of_resetTables htables
    · exact EntriesKept.of_eq rfl

theorem versions_of_exec {c : Instr} {s t : State} (hcommit : ∀ b, c ≠ .commit b) (hpower : c ≠ .powerOn)
    (hall : mayWeigh c = true ∨ (∃ l, c = .closeHandling l) → ∀ w ∈ s.trunk.waiters, w ≠ Waiter.table)
    (hx : exec c s = .next t) : t.tables.versions = s.tables.versions := by
  cases hweigh : mayWeigh c with
  | true => exact versionsFrame.of_exec hweigh (hall (Or.inl hweigh)) hx
  | false =>
    cases hacts : actsOnShared c with
    | false => exact (shared_of_exec hacts hweigh hx).versions
    | true =>
      cases c with
      | commit b => exact absurd rfl (hcommit b)
      | laneArm b => cases hx; exact versions_serveWithRoom s _ fun r => versions_takeArm _ b r
      | groupEnd b => cases hx; exact versions_serveWithRoom s _ fun r => versions_takeGroupEnd _ b r
      | closeHandling l =>
        cases hx
        split
        · rfl
        · exact versions_closeHandling l (hall (Or.inr ⟨l, rfl⟩))
      | deviceReset => exact versions_deviceReset hx
      | powerOn => exact absurd rfl hpower
      | lineResetAssert => exact versions_resetLine rfl hpower hx
      | lineResetRelease => exact versions_resetLine rfl hpower hx
      | _ => cases hacts

/-- Settles O49: memory and directory, then versions, then group records. -/
theorem ownersOfSharedState : Obligations.OwnersOfSharedState := by
  intro c s t hx weighs
  have hweighs : mayWeigh c = true → weighs := fun h => by
    cases c with
    | transmitComplete => exact Or.inl rfl
    | eventCredit ws => exact Or.inr (Or.inl ⟨ws, Or.inl rfl⟩)
    | dataCredit ws => exact Or.inr (Or.inl ⟨ws, Or.inr (Or.inl rfl)⟩)
    | requestArrival ws => exact Or.inr (Or.inl ⟨ws, Or.inr (Or.inr (Or.inl rfl))⟩)
    | stationFrameInvalid ws => exact Or.inr (Or.inl ⟨ws, Or.inr (Or.inr (Or.inr rfl))⟩)
    | _ => cases h
  refine ⟨fun hwrite hcopy hset hpower => ?_, fun hcommit hpower hlisted k => ?_,
    fun hacts hclose hdevice hpower hassert hrelease hlisted => ?_⟩
  · have hwrites : writesTables c = false := by
      cases c with
      | tableWrite => exact absurd rfl hwrite
      | tableCopy => exact absurd rfl hcopy
      | directorySet => exact absurd rfl hset
      | _ => rfl
    have hentries := entries_of_exec hwrites hpower hx
    exact ⟨hentries.mem, hentries.entry⟩
  · have hall : mayWeigh c = true ∨ (∃ l, c = .closeHandling l) → ∀ w ∈ s.trunk.waiters, w ≠ Waiter.table := by
      intro h w hw e
      rw [e] at hw
      exact hlisted (h.elim hweighs fun hclose => Or.inr (Or.inr (Or.inl hclose))) hw
    have hversions := congrFun (versions_of_exec hcommit hpower hall hx) k
    exact ⟨congrArg Prod.fst hversions, congrArg Prod.snd hversions⟩
  · cases hweigh : mayWeigh c with
    | true =>
      obtain ⟨htable, hgroup⟩ := hlisted (hweighs hweigh)
      refine groupsFrame.of_exec hweigh (fun w hw => ⟨fun e => ?_, fun l e => ?_⟩) hx
      · rw [e] at hw
        exact htable hw
      · rw [e] at hw
        exact hgroup l hw
    | false =>
      have hother : actsOnShared c = false := by
        cases c with
        | commit b => exact absurd rfl (hacts b).1
        | laneArm b => exact absurd rfl (hacts b).2.1
        | groupEnd b => exact absurd rfl (hacts b).2.2
        | closeHandling l => exact absurd rfl (hclose l)
        | deviceReset => exact absurd rfl hdevice
        | powerOn => exact absurd rfl hpower
        | lineResetAssert => exact absurd rfl hassert
        | lineResetRelease => exact absurd rfl hrelease
        | _ => rfl
      exact (shared_of_exec hother hweigh hx).groups

end Sys2Proof.Machine

/-! PROOFS. The conditioning stage: gain and clipping, turns, magnitude and phase, mixes, balance tracking (O50). -/

namespace Sys2Proof.Machine

open Sys2Proof

/-! ### Clipping (R88) -/

theorem clip16_eq (x : Int) : clip16 x = max (-32768) (min 32767 x) := by
  unfold clip16 clamp
  split
  · omega
  · split <;> omega

theorem clip16_ne_iff (x : Int) : (clip16 x != x) = true ↔ x < -32768 ∨ 32767 < x := by
  rw [bne_iff_ne, clip16_eq]
  omega

theorem mappedChannel_eq (cal : CalibrationRow) (bal : XY) (slot : Slot) :
    let turned := rotate cal.rotation ⟨slot.x.toInt - bal.x, slot.y.toInt - bal.y⟩
    let gx := (turned.x * cal.gain).tdiv 256
    let gy := (turned.y * cal.gain).tdiv 256
    mappedChannel cal bal slot
      = formedChannel (clip16 gx) (clip16 gy) (clip16 gx != gx || clip16 gy != gy || slot.overRange) := rfl

theorem mixChannel_disabled {m : MixRow} (h : m.enabled = false) (p q : Channel) : mixChannel m p q = unformed :=
  if_neg (ne_true_of_eq_false h)

theorem mixChannel_enabled {m : MixRow} (h : m.enabled = true) (p q : Channel) :
    let x := p.x - (m.xx * q.x + m.xy * q.y).tdiv 4096
    let y := p.y - (m.yx * q.x + m.yy * q.y).tdiv 4096
    mixChannel m p q = formedChannel (clip16 x) (clip16 y)
      (clip16 x != x || clip16 y != y || p.overRange || q.overRange) := if_pos h

/-! ### A number found bit by bit -/

/-- The powers of two below 2^k, from the greatest. -/
def halvings : Nat → List Nat
  | 0 => []
  | k + 1 => 2 ^ k :: halvings k

/-- The search ends at a number that passes and whose successor does not. -/
theorem searchBits_halvings {ok : Nat → Bool} : ∀ (k acc : Nat), ok acc = true → ok (acc + 2 ^ k) = false →
    ok (searchBits ok (halvings k) acc) = true ∧ ok (searchBits ok (halvings k) acc + 1) = false := by
  intro k
  induction k with
  | zero => exact fun acc hlow hhigh => ⟨hlow, hhigh⟩
  | succ k ih =>
    intro acc hlow hhigh
    rw [halvings, searchBits]
    cases hmid : ok (acc + 2 ^ k) with
    | true =>
      refine ih (acc + 2 ^ k) hmid ?_
      rw [Nat.add_assoc, ← Nat.two_mul, ← Nat.pow_succ']
      exact hhigh
    | false => exact ih acc hlow hmid

/-- A search in which no power of two passes finds 0. -/
theorem searchBits_zero {ok : Nat → Bool} {bs : List Nat} (h : ∀ b ∈ bs, ok b = false) : searchBits ok bs 0 = 0 := by
  induction bs with
  | nil => rfl
  | cons b bs ih =>
    have hfirst : ok (0 + b) = false := by rw [Nat.zero_add]; exact h b List.mem_cons_self
    rw [searchBits, hfirst]
    exact ih fun c hc => h c (List.mem_cons_of_mem b hc)

/-! ### Magnitude and phase (R91) -/

theorem isqrt_spec {n : Nat} (h : n < 65536 * 65536) : isqrt n * isqrt n ≤ n ∧ n < (isqrt n + 1) * (isqrt n + 1) := by
  have hsearch := searchBits_halvings (ok := fun r => decide (r * r ≤ n)) 16 0
    (decide_eq_true (Nat.zero_le n)) (decide_eq_false (Nat.not_le.mpr h))
  exact ⟨of_decide_eq_true hsearch.1, Nat.not_le.mp (of_decide_eq_false hsearch.2)⟩

/-- A component of 16 bits has a square of at most 2^30. -/
theorem square_le {x : Int} (hlow : -32768 ≤ x) (hhigh : x ≤ 32767) : 0 ≤ x * x ∧ x * x ≤ 1073741824 := by
  have habs : x.natAbs ≤ 32768 := by omega
  rw [← Int.natAbs_mul_self]
  exact ⟨Int.natCast_nonneg _, Int.ofNat_le.mpr (Nat.mul_le_mul habs habs)⟩

theorem magnitudeOf_spec {x y : Int} (hx : -32768 ≤ x ∧ x ≤ 32767) (hy : -32768 ≤ y ∧ y ≤ 32767) :
    (magnitudeOf x y : Int) * magnitudeOf x y ≤ x * x + y * y
    ∧ x * x + y * y < ((magnitudeOf x y : Int) + 1) * ((magnitudeOf x y : Int) + 1) := by
  obtain ⟨hxx, hxbound⟩ := square_le hx.1 hx.2
  obtain ⟨hyy, hybound⟩ := square_le hy.1 hy.2
  obtain ⟨n, hn⟩ := Int.eq_ofNat_of_zero_le (Int.add_nonneg hxx hyy)
  have hsmall : n < 65536 * 65536 := by omega
  obtain ⟨hbelow, habove⟩ := isqrt_spec hsmall
  rw [magnitudeOf, hn, Int.toNat_natCast]
  exact ⟨by exact_mod_cast hbelow, by exact_mod_cast habove⟩

/-- At every angle the search of R91 tries first, the sine is above 0. -/
theorem searched_sine_pos : ∀ j ∈ [512, 256, 128, 64, 32, 16, 8, 4, 2, 1], 0 < (unitAt (2 * j - 1)).y := by
  decide +kernel

/-- A point on the positive X axis reaches none of them. -/
theorem quadrantPhase_axis {n : Int} (h : 0 < n) : quadrantPhase ⟨n, 0⟩ = 0 := by
  refine searchBits_zero fun j hj => ?_
  have hsine : 0 < n * (unitAt (2 * j - 1)).y := Int.mul_pos h (searched_sine_pos j hj)
  have hreaches : reachesTenth ⟨n, 0⟩ j = false := by
    unfold reachesTenth
    refine decide_eq_false ?_
    simp only [Int.zero_mul]
    omega
  rw [hreaches, Bool.and_false]

theorem phaseOf_axes {n : Int} (h : 0 < n) :
    phaseOf n 0 = 0 ∧ phaseOf 0 n = 900 ∧ phaseOf (-n) 0 = 1800 ∧ phaseOf 0 (-n) = 2700 := by
  have haxis := quadrantPhase_axis h
  refine ⟨?_, ?_, ?_, ?_⟩ <;> unfold phaseOf
  · rw [if_neg (by omega), if_pos (by omega), haxis]
  · rw [if_neg (by omega), if_neg (by omega), if_pos (by omega), Int.neg_zero, haxis]
  · rw [if_neg (by omega), if_neg (by omega), if_neg (by omega), if_pos (by omega), Int.neg_neg, Int.neg_zero, haxis]
  · rw [if_neg (by omega), if_neg (by omega), if_neg (by omega), if_neg (by omega), Int.neg_neg, haxis]

/-! ### The held cosines and sines (R87)

They are a table of 3600 pairs. The first quadrant is evaluated together with its three quarter turns; every other
fact about the table follows from these. -/

/-- A quarter turn counter-clockwise. -/
def quarterTurn (v : XY) : XY := ⟨-v.y, v.x⟩

/-- The square of a pair's length, less that of 16384. -/
def lengthExcess (v : XY) : Int := v.x * v.x + v.y * v.y - 268435456

theorem lengthExcess_quarterTurn (v : XY) : lengthExcess (quarterTurn v) = lengthExcess v := by
  unfold lengthExcess quarterTurn
  rw [Int.neg_mul_neg, Int.add_comm]

/-- The pair held for an angle of the first quadrant, of the right length and followed by its quarter turns. -/
def quadrantTurns (a : Nat) : Bool :=
  decide (cosSin (a + 900) = quarterTurn (cosSin a)) && decide (cosSin (a + 1800) = quarterTurn (cosSin (a + 900)))
    && decide (cosSin (a + 2700) = quarterTurn (cosSin (a + 1800))) && decide ((lengthExcess (cosSin a)).natAbs ≤ 23172)

theorem quadrantTurns_first : ∀ a ∈ List.range 300, quadrantTurns a = true := by decide +kernel

theorem quadrantTurns_second : ∀ a ∈ List.range 300, quadrantTurns (a + 300) = true := by decide +kernel

theorem quadrantTurns_third : ∀ a ∈ List.range 300, quadrantTurns (a + 600) = true := by decide +kernel

theorem quadrantTurns_of_lt {a : Nat} (h : a < 900) : quadrantTurns a = true := by
  rcases Nat.lt_or_ge a 300 with h1 | h1
  · exact quadrantTurns_first a (List.mem_range.mpr h1)
  · rcases Nat.lt_or_ge a 600 with h2 | h2
    · have hshifted := quadrantTurns_second (a - 300) (List.mem_range.mpr (by omega))
      rwa [Nat.sub_add_cancel h1] at hshifted
    · have hshifted := quadrantTurns_third (a - 600) (List.mem_range.mpr (by omega))
      rwa [Nat.sub_add_cancel h2] at hshifted

theorem quadrantTurns_iff {a : Nat} : quadrantTurns a = true ↔
    ((cosSin (a + 900) = quarterTurn (cosSin a) ∧ cosSin (a + 1800) = quarterTurn (cosSin (a + 900)))
      ∧ cosSin (a + 2700) = quarterTurn (cosSin (a + 1800))) ∧ (lengthExcess (cosSin a)).natAbs ≤ 23172 := by
  simp only [quadrantTurns, Bool.and_eq_true, decide_eq_true_eq]

theorem cosSin_quarter {a : Nat} (h : a < 2700) : cosSin (a + 900) = quarterTurn (cosSin a) := by
  obtain ⟨b, hb, hquadrant⟩ : ∃ b, b < 900 ∧ (a = b ∨ a = b + 900 ∨ a = b + 1800) := ⟨a % 900, by omega, by omega⟩
  obtain ⟨⟨⟨hfirst, hsecond⟩, hthird⟩, -⟩ := quadrantTurns_iff.mp (quadrantTurns_of_lt hb)
  rcases hquadrant with rfl | rfl | rfl
  · exact hfirst
  · exact hsecond
  · exact hthird

theorem lengthExcess_cosSin {a : Nat} (h : a < 3600) : (lengthExcess (cosSin a)).natAbs ≤ 23172 := by
  obtain ⟨b, hb, hquadrant⟩ : ∃ b, b < 900 ∧ (a = b ∨ a = b + 900 ∨ a = b + 1800 ∨ a = b + 2700) :=
    ⟨a % 900, by omega, by omega⟩
  obtain ⟨⟨⟨hfirst, hsecond⟩, hthird⟩, hlength⟩ := quadrantTurns_iff.mp (quadrantTurns_of_lt hb)
  rcases hquadrant with rfl | rfl | rfl | rfl
  · exact hlength
  · rw [hfirst, lengthExcess_quarterTurn]
    exact hlength
  · rw [hsecond, lengthExcess_quarterTurn, hfirst, lengthExcess_quarterTurn]
    exact hlength
  · rw [hthird, lengthExcess_quarterTurn, hsecond, lengthExcess_quarterTurn, hfirst, lengthExcess_quarterTurn]
    exact hlength

theorem cosSin_listed : cosSin 0 = ⟨16384, 0⟩ ∧ cosSin 300 = ⟨14189, 8192⟩ ∧ cosSin 450 = ⟨11585, 11585⟩ := by
  decide +kernel

theorem cosSin_axes : cosSin 900 = ⟨0, 16384⟩ ∧ cosSin 1800 = ⟨-16384, 0⟩ ∧ cosSin 2700 = ⟨0, -16384⟩ := by
  have h0 := cosSin_listed.1
  have h900 : cosSin 900 = quarterTurn (cosSin 0) := cosSin_quarter (by omega)
  have h1800 : cosSin 1800 = quarterTurn (cosSin 900) := cosSin_quarter (by omega)
  have h2700 : cosSin 2700 = quarterTurn (cosSin 1800) := cosSin_quarter (by omega)
  rw [h2700, h1800, h900, h0]
  exact ⟨rfl, rfl, rfl⟩

/-! ### Balance tracking (R86) -/

section Balance

variable {s : State} {l : LaneId} {c : RunContext} {cls : FrameClass} {ph : Phase} {slots : List Slot}

theorem trackedBalance_stands (h : ¬ (cls = .normal ∧ ph = .inserting ∧ c.matcher.candidate = none)) :
    s.trackedBalance l c cls ph slots = c.balance := by
  refine if_neg fun htracks => h ?_
  rwa [Option.isNone_iff_eq_none] at htracks

theorem trackedBalance_tracks (hcls : cls = .normal) (hph : ph = .inserting) (hcand : c.matcher.candidate = none) :
    s.trackedBalance l c cls ph slots = trackBalance (s.laneRow l).slotMap (s.calibrationRow l) c.balance slots :=
  if_pos ⟨hcls, hph, Option.isNone_iff_eq_none.mpr hcand⟩

variable {slotMap : List Nat} {cal : Nat → CalibrationRow} {balance : Vector XY 16} {ch : Fin 16}

theorem trackBalance_unfed (h : feedingSlot slotMap slots ch.val = none) :
    (trackBalance slotMap cal balance slots)[ch] = balance[ch] := by
  refine (vtab_get 16 _ ch).trans ?_
  simp only [h]

theorem trackBalance_fed {slot : Slot} (h : feedingSlot slotMap slots ch.val = some slot) :
    (trackBalance slotMap cal balance slots)[ch] =
      if 1 ≤ (cal ch.val).rate ∧ (cal ch.val).rate ≤ 8 then
        ⟨trackComponent (cal ch.val).rate balance[ch].x slot.x.toInt,
          trackComponent (cal ch.val).rate balance[ch].y slot.y.toInt⟩
      else balance[ch] := by
  refine (vtab_get 16 _ ch).trans ?_
  simp only [h]

end Balance

/-- Settles O50: each rule of the stage in turn. -/
theorem conditionedChannel : Obligations.ConditionedChannel := by
  refine ⟨fun cal bal slot => ?_, fun x y hxlow hxhigh hylow hyhigh => magnitudeOf_spec ⟨hxlow, hxhigh⟩ ⟨hylow, hyhigh⟩,
    ⟨rfl, fun n hn => phaseOf_axes hn⟩, fun tenths v => rfl, ?_, fun a => ⟨cosSin_quarter, lengthExcess_cosSin⟩,
    fun m p q => ?_, fun s l c cls ph slots => ⟨trackedBalance_stands, fun hcls hph hcand ch => ?_⟩⟩
  · intro turned gx gy channel
    have hchannel : channel = formedChannel (clip16 gx) (clip16 gy)
        (clip16 gx != gx || clip16 gy != gy || slot.overRange) := mappedChannel_eq cal bal slot
    rw [hchannel]
    refine ⟨rfl, clip16_eq gx, clip16_eq gy, ?_, rfl, rfl⟩
    simp only [formedChannel, Bool.or_eq_true, clip16_ne_iff, or_assoc]
  · obtain ⟨h0, h300, h450⟩ := cosSin_listed
    exact ⟨h0, h300, h450, cosSin_axes⟩
  · intro x y channel
    refine ⟨mixChannel_disabled (p := p) (q := q), fun henabled => ?_⟩
    have hchannel : channel = formedChannel (clip16 x) (clip16 y)
        (clip16 x != x || clip16 y != y || p.overRange || q.overRange) := mixChannel_enabled henabled p q
    rw [hchannel]
    refine ⟨rfl, clip16_eq x, clip16_eq y, ?_, rfl, rfl⟩
    simp only [formedChannel, Bool.or_eq_true, clip16_ne_iff, or_assoc]
  · rw [trackedBalance_tracks hcls hph hcand]
    refine ⟨trackBalance_unfed, fun slot hslot => ?_⟩
    rw [trackBalance_fed hslot]
    exact ⟨fun hrate => if_neg (by omega), fun hlow hhigh => if_pos ⟨hlow, hhigh⟩⟩

end Sys2Proof.Machine

/-! PROOFS. The forwarder: exponents, the gap list, keep records, groups, blocks and entries (O52). -/

namespace Sys2Proof.Machine

open Sys2Proof

/-! ### Intervals (R145, R146) -/

section Intervals

variable {g h x acc : Interval} {gs ts : List Interval} {q : Int}

/-- A position lies in an interval. -/
def Interval.has (g : Interval) (q : Int) : Prop := g.shallow ≤ q ∧ q ≤ g.deep

/-- An interval has its deep end at or above its shallow end. -/
def Interval.formed (g : Interval) : Prop := g.shallow ≤ g.deep

/-- The first interval is deeper than the second, and they do not touch. -/
def deeperThan (g h : Interval) : Prop := h.deep + 1 < g.shallow

theorem gapsTouch_iff : gapsTouch g h = true ↔ g.shallow ≤ h.deep + 1 ∧ h.shallow ≤ g.deep + 1 := by
  unfold gapsTouch
  rw [Bool.and_eq_true, decide_eq_true_eq, decide_eq_true_eq]

theorem gapsTouch_eq_false_iff : gapsTouch g h = false ↔ deeperThan g h ∨ deeperThan h g := by
  rw [← Bool.not_eq_true, gapsTouch_iff]
  unfold deeperThan
  omega

theorem deeperThan.trans (hx : x.formed) (h1 : deeperThan g x) (h2 : deeperThan x h) : deeperThan g h := by
  unfold deeperThan Interval.formed at *
  omega

/-- Of two intervals that do not touch, the one whose deep end is greater is the deeper. -/
theorem deeperThan_of_deep (hapart : deeperThan g h ∨ deeperThan h g) (hh : h.formed)
    (hdeep : h.deep < g.deep) : deeperThan g h := by
  unfold deeperThan Interval.formed at *
  omega

theorem deeperThan_of_shallow (hapart : deeperThan g h ∨ deeperThan h g) (hg : g.formed)
    (hdeep : ¬ h.deep < g.deep) : deeperThan h g := by
  unfold deeperThan Interval.formed at *
  omega

theorem formed_gapHull (hg : g.formed) : (gapHull g h).formed := by
  unfold Interval.formed gapHull at *
  simp only []
  omega

/-- The hull of two intervals covers both. -/
theorem has_gapHull_of (hq : g.has q ∨ h.has q) : (gapHull g h).has q := by
  unfold Interval.has gapHull at *
  simp only []
  omega

/-- The hull of two touching intervals covers their positions and no other. -/
theorem has_gapHull (htouch : gapsTouch g h = true) : (gapHull g h).has q ↔ g.has q ∨ h.has q := by
  rw [gapsTouch_iff] at htouch
  refine ⟨fun hq => ?_, has_gapHull_of⟩
  unfold Interval.has gapHull at *
  simp only [] at hq
  omega

/-- What touches an interval touches every hull that holds it. -/
theorem gapsTouch_of_within (hdeep : g.deep ≤ acc.deep) (hshallow : acc.shallow ≤ g.shallow)
    (htouch : gapsTouch g h = true) : gapsTouch acc h = true := by
  rw [gapsTouch_iff] at *
  omega

/-- What touches neither of two touching intervals does not touch their hull. -/
theorem not_gapsTouch_gapHull (htouch : gapsTouch g h = true) (hx : x.formed) (hgx : gapsTouch g x = false)
    (hhx : gapsTouch h x = false) : gapsTouch (gapHull g h) x = false := by
  rw [gapsTouch_iff] at htouch
  rw [gapsTouch_eq_false_iff] at *
  unfold deeperThan Interval.formed gapHull at *
  simp only []
  omega

/-- The hull of a stretch and intervals that touch it. -/
structure HullOf (g : Interval) (ts : List Interval) (u : Interval) : Prop where
  deep : g.deep ≤ u.deep
  shallow : u.shallow ≤ g.shallow
  has : ∀ q, u.has q ↔ g.has q ∨ ∃ t ∈ ts, t.has q
  apart : ∀ x : Interval, x.formed → gapsTouch g x = false → (∀ t ∈ ts, gapsTouch t x = false) → gapsTouch u x = false

theorem HullOf.nil : HullOf g [] g :=
  ⟨Int.le_refl _, Int.le_refl _, fun _ => ⟨Or.inl, fun h => h.elim id fun ⟨_, ht, _⟩ => absurd ht List.not_mem_nil⟩,
    fun _ _ h _ => h⟩

theorem HullOf.concat {u t : Interval} (hu : HullOf g ts u) (ht : gapsTouch g t = true) :
    HullOf g (ts ++ [t]) (gapHull u t) := by
  have htouch : gapsTouch u t = true := gapsTouch_of_within hu.deep hu.shallow ht
  refine ⟨Int.le_trans hu.deep (Int.le_max_left _ _), Int.le_trans (Int.min_le_left _ _) hu.shallow, fun q => ?_,
    fun x hx hgx hall => ?_⟩
  · rw [has_gapHull htouch, hu.has]
    simp only [List.mem_append, List.mem_singleton]
    constructor
    · rintro ((h | ⟨a, ha, hq⟩) | h)
      · exact Or.inl h
      · exact Or.inr ⟨a, Or.inl ha, hq⟩
      · exact Or.inr ⟨t, Or.inr rfl, h⟩
    · rintro (h | ⟨a, ha | rfl, hq⟩)
      · exact Or.inl (Or.inl h)
      · exact Or.inl (Or.inr ⟨a, ha, hq⟩)
      · exact Or.inr hq
  · exact not_gapsTouch_gapHull htouch hx
      (hu.apart x hx hgx fun a ha => hall a (List.mem_append_left _ ha))
      (hall t (List.mem_append_right _ List.mem_cons_self))

theorem HullOf.foldl : ∀ (ts : List Interval) {done : List Interval} {u : Interval}, HullOf g done u →
    (∀ t ∈ ts, gapsTouch g t = true) → HullOf g (done ++ ts) (ts.foldl gapHull u) := by
  intro ts
  induction ts with
  | nil => exact fun hu _ => by rw [List.append_nil]; exact hu
  | cons t ts ih =>
    intro done u hu hall
    rw [List.append_cons]
    exact ih (hu.concat (hall t List.mem_cons_self)) fun a ha => hall a (List.mem_cons_of_mem _ ha)

theorem hullOf_foldl (hall : ∀ t ∈ ts, gapsTouch g t = true) : HullOf g ts (ts.foldl gapHull g) := HullOf.nil.foldl ts hall

theorem HullOf.formed {u : Interval} (hu : HullOf g ts u) (hg : g.formed) : u.formed :=
  Int.le_trans hu.shallow (Int.le_trans hg hu.deep)

end Intervals

/-! ### The gap list (R146) -/

section GapList

variable {g : Interval} {gs : List Interval}

/-- The list is well formed, apart and deepest first, every interval with every later one. -/
structure Ordered (gs : List Interval) : Prop where
  formed : ∀ g ∈ gs, g.formed
  apart : gs.Pairwise deeperThan

theorem gapsApart_cons (g h : Interval) (rest : List Interval) :
    gapsApart (g :: h :: rest) ↔ deeperThan g h ∧ gapsApart (h :: rest) := Iff.rfl

/-- Of well formed intervals it is enough that each is deeper than the next. -/
theorem pairwise_of_gapsApart : ∀ {gs : List Interval}, gapsFormed gs → gapsApart gs → gs.Pairwise deeperThan
  | [], _, _ => List.Pairwise.nil
  | [_], _, _ => List.pairwise_singleton _ _
  | g :: h :: rest, hformed, hapart => by
    obtain ⟨hfirst, hnext⟩ := (gapsApart_cons g h rest).mp hapart
    have hrest := pairwise_of_gapsApart (fun x hx => hformed x (List.mem_cons_of_mem g hx)) hnext
    refine List.Pairwise.cons (fun x hx => ?_) hrest
    rcases List.mem_cons.mp hx with rfl | hx
    · exact hfirst
    · exact hfirst.trans (hformed h (List.mem_cons_of_mem g List.mem_cons_self)) (List.rel_of_pairwise_cons hrest hx)

theorem gapsApart_of_pairwise : ∀ {gs : List Interval}, gs.Pairwise deeperThan → gapsApart gs
  | [], _ => trivial
  | [_], _ => trivial
  | _ :: _ :: _, h => ⟨List.rel_of_pairwise_cons h List.mem_cons_self, gapsApart_of_pairwise h.of_cons⟩

theorem ordered_iff : Ordered gs ↔ gapsFormed gs ∧ gapsApart gs :=
  ⟨fun h => ⟨h.formed, gapsApart_of_pairwise h.apart⟩, fun h => ⟨h.1, pairwise_of_gapsApart h.1 h.2⟩⟩

theorem Ordered.sublist {hs : List Interval} (h : Ordered gs) (hsub : hs.Sublist gs) : Ordered hs :=
  ⟨fun x hx => h.formed x (hsub.subset hx), h.apart.sublist hsub⟩

theorem mem_gapInsert {x : Interval} : x ∈ gapInsert g gs ↔ x = g ∨ x ∈ gs := by
  induction gs with
  | nil => simp only [gapInsert, List.mem_singleton, List.not_mem_nil, or_false]
  | cons h rest ih =>
    rw [gapInsert]
    split
    · exact List.mem_cons
    · rw [List.mem_cons, ih, List.mem_cons]
      exact or_left_comm

/-- A stretch that touches no interval of the list takes its place in the order. -/
theorem Ordered.gapInsert (horder : Ordered gs) (hg : g.formed) (hfree : ∀ x ∈ gs, gapsTouch g x = false) :
    Ordered (gapInsert g gs) := by
  refine ⟨fun x hx => ?_, ?_⟩
  · rcases mem_gapInsert.mp hx with rfl | hx
    · exact hg
    · exact horder.formed x hx
  · induction gs with
    | nil => exact List.pairwise_singleton _ _
    | cons h rest ih =>
      have hh : h.formed := horder.formed h List.mem_cons_self
      have hapart := gapsTouch_eq_false_iff.mp (hfree h List.mem_cons_self)
      have hlater : ∀ x ∈ rest, deeperThan h x := fun x hx => List.rel_of_pairwise_cons horder.apart hx
      rw [Machine.gapInsert]
      split
      next hdeep =>
        have hfirst : deeperThan g h := deeperThan_of_deep hapart hh hdeep
        refine List.Pairwise.cons (fun x hx => ?_) horder.apart
        rcases List.mem_cons.mp hx with rfl | hx
        · exact hfirst
        · exact hfirst.trans hh (hlater x hx)
      next hdeep =>
        have hfirst : deeperThan h g := deeperThan_of_shallow hapart hg hdeep
        refine List.Pairwise.cons (fun x hx => ?_)
          (ih (horder.sublist (List.sublist_cons_self h rest)) fun x hx => hfree x (List.mem_cons_of_mem h hx))
        rcases mem_gapInsert.mp hx with rfl | hx
        · exact hfirst
        · exact hlater x hx

/-- In an ordered list two intervals are the same or do not touch. -/
theorem Ordered.touch {x y : Interval} (horder : Ordered gs) (hx : x ∈ gs) (hy : y ∈ gs) :
    x = y ∨ gapsTouch x y = false := by
  obtain ⟨i, hi, rfl⟩ := List.mem_iff_getElem.mp hx
  obtain ⟨j, hj, rfl⟩ := List.mem_iff_getElem.mp hy
  have hdeeper := List.pairwise_iff_getElem.mp horder.apart
  rcases Nat.lt_trichotomy i j with h | rfl | h
  · exact Or.inr (gapsTouch_eq_false_iff.mpr (Or.inl (hdeeper i j hi hj h)))
  · exact Or.inl rfl
  · exact Or.inr (gapsTouch_eq_false_iff.mpr (Or.inr (hdeeper j i hj hi h)))

theorem gapsCover_iff {q : Int} : gapsCover gs q ↔ ∃ x ∈ gs, x.has q := Iff.rfl

/-- A stretch merged into an ordered list: the list stays ordered and covers what it covered, and the stretch. -/
theorem Ordered.gapMerge (horder : Ordered gs) (hg : g.formed) :
    Ordered (gapMerge g gs) ∧ (∀ q, gapsCover (gapMerge g gs) q ↔ gapsCover gs q ∨ g.has q) := by
  have hhull : HullOf g (gs.filter (gapsTouch g)) ((gs.filter (gapsTouch g)).foldl gapHull g) :=
    hullOf_foldl fun t ht => (List.mem_filter.mp ht).2
  have hrest : ∀ x ∈ gs.filter fun h => !gapsTouch g h, x ∈ gs ∧ gapsTouch g x = false := fun x hx => by
    have hmem := List.mem_filter.mp hx
    exact ⟨hmem.1, by simpa only [Bool.not_eq_true'] using hmem.2⟩
  have hfree : ∀ x ∈ gs.filter fun h => !gapsTouch g h,
      gapsTouch ((gs.filter (gapsTouch g)).foldl gapHull g) x = false := fun x hx => by
    obtain ⟨hmem, hapart⟩ := hrest x hx
    refine hhull.apart x (horder.formed x hmem) hapart fun t ht => ?_
    obtain ⟨htmem, httouch⟩ := List.mem_filter.mp ht
    rcases horder.touch htmem hmem with rfl | h
    · rw [hapart] at httouch
      exact absurd httouch Bool.false_ne_true
    · exact h
  refine ⟨(horder.sublist List.filter_sublist).gapInsert (hhull.formed hg) hfree, fun q => ?_⟩
  rw [gapsCover_iff, gapsCover_iff]
  constructor
  · rintro ⟨x, hx, hq⟩
    rcases mem_gapInsert.mp hx with rfl | hx
    · rcases (hhull.has q).mp hq with hq | ⟨t, ht, hq⟩
      · exact Or.inr hq
      · exact Or.inl ⟨t, (List.mem_filter.mp ht).1, hq⟩
    · exact Or.inl ⟨x, (hrest x hx).1, hq⟩
  · rintro (⟨x, hx, hq⟩ | hq)
    · cases htouch : gapsTouch g x with
      | true => exact ⟨_, mem_gapInsert.mpr (Or.inl rfl),
          (hhull.has q).mpr (Or.inr ⟨x, List.mem_filter.mpr ⟨hx, htouch⟩, hq⟩)⟩
      | false => exact ⟨x, mem_gapInsert.mpr (Or.inr (List.mem_filter.mpr ⟨hx, by rw [htouch]; rfl⟩)), hq⟩
    · exact ⟨_, mem_gapInsert.mpr (Or.inl rfl), (hhull.has q).mpr (Or.inl hq)⟩

/-- A stretch that touches none is inserted. -/
theorem gapMerge_free (h : gs.any (gapsTouch g) = false) : gapMerge g gs = gapInsert g gs := by
  have hfree : ∀ x ∈ gs, gapsTouch g x = false := fun x hx => eq_false_of_ne_true (List.any_eq_false.mp h x hx)
  have hnone : gs.filter (gapsTouch g) = [] :=
    List.filter_eq_nil_iff.mpr fun x hx => ne_true_of_eq_false (hfree x hx)
  have hall : (gs.filter fun x => !gapsTouch g x) = gs :=
    List.filter_eq_self.mpr fun x hx => by rw [hfree x hx]; rfl
  rw [gapMerge, hnone, hall, List.foldl_nil]

variable {f : Forwarder}

/-- With room, or touching, the stretch is merged. -/
theorem gapEnter_merge (h : f.gaps.length < 16 ∨ f.gaps.any (gapsTouch g) = true) :
    gapEnter g f = { f with gaps := gapMerge g f.gaps } := by
  unfold gapEnter
  split
  · rfl
  next htouch =>
    rw [gapMerge_free (eq_false_of_ne_true htouch)]
    exact if_pos (h.resolve_right htouch)

/-- A full list that the stretch does not touch gives its last interval to the hull. -/
theorem gapEnter_full (hlength : f.gaps.length = 16) (hfree : f.gaps.any (gapsTouch g) = false) :
    ∃ kept last, f.gaps = kept ++ [last]
      ∧ gapEnter g f = { f with gaps := gapMerge (gapHull last g) kept, gapOverflow := true } := by
  have hne : f.gaps ≠ [] := fun h => by rw [h] at hlength; cases hlength
  refine ⟨f.gaps.dropLast, f.gaps.getLast hne, (List.dropLast_concat_getLast hne).symm, ?_⟩
  unfold gapEnter
  have hfull : ¬ f.gaps.length < Config.gapCapacity := by rw [hlength]; exact Nat.lt_irrefl 16
  rw [if_neg (ne_true_of_eq_false hfree), if_neg hfull]
  simp only [List.getLast?_eq_some_getLast hne]

/-- A stretch entered: the list stays ordered and covers what it covered, and the stretch; it covers more only when it is
full and the stretch touches none of its intervals. -/
theorem gapEnter_spec (hg : g.formed) (horder : Ordered f.gaps) (hlength : f.gaps.length ≤ 16) :
    Ordered (gapEnter g f).gaps ∧ (∀ q, gapsCover f.gaps q ∨ g.has q → gapsCover (gapEnter g f).gaps q)
    ∧ ((f.gaps.length < 16 ∨ f.gaps.any (gapsTouch g) = true) → (gapEnter g f).gapOverflow = f.gapOverflow
      ∧ ∀ q, gapsCover (gapEnter g f).gaps q → gapsCover f.gaps q ∨ g.has q)
    ∧ (f.gaps.length = 16 → f.gaps.any (gapsTouch g) = false → (gapEnter g f).gapOverflow = true) := by
  by_cases hmerge : f.gaps.length < 16 ∨ f.gaps.any (gapsTouch g) = true
  · obtain ⟨hmerged, hcover⟩ := horder.gapMerge hg
    rw [gapEnter_merge hmerge]
    refine ⟨hmerged, fun q => (hcover q).mpr, fun _ => ⟨rfl, fun q => (hcover q).mp⟩, fun hfull hfree => ?_⟩
    rcases hmerge with hroom | htouch
    · exact absurd hfull (Nat.ne_of_lt hroom)
    · rw [hfree] at htouch
      exact absurd htouch Bool.false_ne_true
  · obtain ⟨hnoroom, hfree⟩ := not_or.mp hmerge
    have hfull : f.gaps.length = 16 := Nat.le_antisymm hlength (Nat.not_lt.mp hnoroom)
    obtain ⟨kept, last, hgaps, henter⟩ := gapEnter_full hfull (eq_false_of_ne_true hfree)
    have hkept : Ordered kept := horder.sublist (by rw [hgaps]; exact List.sublist_append_left _ _)
    have hlast : last.formed := horder.formed last (by rw [hgaps]; exact List.mem_append_right _ List.mem_cons_self)
    obtain ⟨hmerged, hcover⟩ := hkept.gapMerge (formed_gapHull (h := g) hlast)
    rw [henter]
    refine ⟨hmerged, fun q hq => (hcover q).mpr ?_, fun h => absurd h hmerge, fun _ _ => rfl⟩
    rcases hq with ⟨x, hx, hq⟩ | hq
    · rw [hgaps] at hx
      rcases List.mem_append.mp hx with hx | hx
      · exact Or.inl ⟨x, hx, hq⟩
      · rw [List.mem_singleton.mp hx] at hq
        exact Or.inr (has_gapHull_of (Or.inl hq))
    · exact Or.inr (has_gapHull_of (Or.inr hq))

end GapList

/-! ### Groups and blocks (R141, R142, R143) -/

section Blocks

theorem entryOf_eq (average : Bool) (g : Gather) :
    entryOf average g = g.values.map fun v => if average then XY.mk (v.x.tdiv g.count) (v.y.tdiv g.count) else v := by
  unfold entryOf
  cases average with
  | true => rfl
  | false => exact (List.map_id' g.values).symm

theorem gatherFrame_eq (average : Bool) (values : List XY) (g : Gather) :
    gatherFrame average values g = if g.count = 0 then ⟨1, values⟩
      else ⟨g.count + 1, if average then List.zipWith (fun v w => ⟨v.x + w.x, v.y + w.y⟩) g.values values
        else g.values⟩ := by
  unfold gatherFrame
  cases average <;> rfl

theorem gatherFrame_count_ne (average : Bool) (values : List XY) (g : Gather) :
    (gatherFrame average values g).count ≠ 0 := by
  rw [gatherFrame_eq]
  split
  · exact Nat.one_ne_zero
  · exact Nat.succ_ne_zero _

theorem flushGather_empty {average : Bool} {b : OpenBlock} (h : b.gather.count = 0) : flushGather average b = b :=
  if_pos h

theorem flushGather_some {average : Bool} {b : OpenBlock} (h : b.gather.count ≠ 0) :
    flushGather average b = { b with entries := b.entries ++ [entryOf average b.gather], gather := emptyGather } := if_neg h

variable {s : State} {l : LaneId} {c : RunContext} {b : OpenBlock}

theorem closeBlock_none (hrun : (s.lane l).run = some c) (hblock : c.forwarder.block = none) : s.closeBlock l = s := by
  unfold State.closeBlock
  simp only [hrun, hblock]

/-- The open block taken from the run, and its number used up. -/
def State.blockTaken (s : State) (l : LaneId) : State :=
  s.modFwd l fun f => { f with block := none, blockNumber := (f.blockNumber + 1) % 65536 }

theorem dataQueue_blockTaken : ((s.blockTaken l).lane l).dataQueue = (s.lane l).dataQueue := by
  rw [State.blockTaken, State.modFwd, State.modRun, State.lane_modLane_same]

theorem trunk_blockTaken : (s.blockTaken l).trunk = s.trunk := rfl

theorem closeBlock_some (hrun : (s.lane l).run = some c) (hblock : c.forwarder.block = some b) :
    s.closeBlock l = (s.blockTaken l).offerBlock l (closedBlock c (s.keepRow l).mask (s.keepRow l).average b)
      (stretchOf b.firstPos b.lastPos) := by
  unfold State.closeBlock
  simp only [hrun, hblock]
  rfl

theorem degradeUp_eq (level : Nat) : degradeUp level = min 4 (level + 1) := satTo_eq_min 4 (level + 1)

/-- The block at the queue's tail. -/
def State.blockQueued (s : State) (l : LaneId) (block : Block) : State :=
  s.modLane l fun ln => { ln with
    dataQueue := ln.dataQueue ++ [block]
    degrade := if 6 ≤ (s.lane l).dataQueue.length + 1 then degradeUp ln.degrade else ln.degrade }

theorem offerBlock_room {block : Block} {stretch : Interval} (h : (s.lane l).dataQueue.length < 8) :
    s.offerBlock l block stretch = (s.blockQueued l block).idleChoice := if_pos h

theorem offerBlock_full {block : Block} {stretch : Interval} (h : 8 ≤ (s.lane l).dataQueue.length) :
    s.offerBlock l block stretch =
      (s.modFwd l (gapEnter stretch)).modLane l fun ln => { ln with degrade := degradeUp ln.degrade } :=
  if_neg (Nat.not_lt.mpr h)

end Blocks

/-! ### Entries (R140) -/

section Entries

variable {s : State} {l : LaneId} {c : RunContext} {row : KeepRow} {e : DelayEntry}

theorem blockDiffers_iff {b : Option OpenBlock} {inside : Bool} {exponent : Option Nat} :
    blockDiffers b inside exponent = true
      ↔ ∃ o, b = some o ∧ (o.inside ≠ inside ∨ ∃ x, exponent = some x ∧ x ≠ o.exponent) := by
  cases b with
  | none => exact ⟨fun h => absurd h Bool.false_ne_true, fun ⟨o, h, _⟩ => (nomatch h)⟩
  | some o =>
    simp only [blockDiffers, Bool.or_eq_true, bne_iff_ne, Option.any_eq_true, Option.some.injEq, exists_eq_left']

/-- The entry's place: inside keep or not. -/
def State.entryInside (s : State) (l : LaneId) (row : KeepRow) (c : RunContext) (e : DelayEntry) : Bool :=
  insideKeep (s.profile l) row c.forwarder.keep e.corrected

/-- The state once a block that differs from the entry is closed (step 3). -/
def State.blockMatched (s : State) (l : LaneId) (row : KeepRow) (c : RunContext) (e : DelayEntry) : State :=
  if blockDiffers (s.openBlock l) (s.entryInside l row c e)
    (effectiveExponent row (s.entryInside l row c e) (s.lane l).degrade) then s.closeBlock l else s

theorem forwardEntry_gap (hrun : (s.lane l).run = some c)
    (hexponent : effectiveExponent row (s.entryInside l row c e) ((s.blockMatched l row c e).lane l).degrade = none) :
    s.forwardEntry l row e = (s.blockMatched l row c e).skipEntry l e.corrected := by
  unfold State.blockMatched State.entryInside at *
  simp only [State.forwardEntry, hrun, hexponent]

theorem forwardEntry_joins {x : Nat} (hrun : (s.lane l).run = some c)
    (hexponent : effectiveExponent row (s.entryInside l row c e) ((s.blockMatched l row c e).lane l).degrade = some x) :
    s.forwardEntry l row e = (s.blockMatched l row c e).addEntry l row (s.entryInside l row c e) x e := by
  unfold State.blockMatched State.entryInside at *
  simp only [State.forwardEntry, hrun, hexponent]

theorem handleEntry_unmasked (h : (s.keepRow l).mask = 0) :
    s.handleEntry l e = (s.enterGapBefore l e.gapBefore).modFwd l (handledAt e) :=
  congrArg (fun t : State => t.modFwd l (handledAt e)) (if_pos h)

theorem handleEntry_masked (h : (s.keepRow l).mask ≠ 0) :
    s.handleEntry l e = ((s.enterGapBefore l e.gapBefore).forwardEntry l (s.keepRow l) e).modFwd l (handledAt e) :=
  congrArg (fun t : State => t.modFwd l (handledAt e)) (if_neg h)

end Entries

/-- Settles O52: each rule of the forwarder in turn. -/
theorem forwarderRules : Obligations.ForwarderRules := by
  refine ⟨fun row => ⟨fun level h => ?_, rfl, fun level h => ?_, rfl, rfl⟩, fun g f hg hformed hapart hlength => ?_,
    fun b q d x => ⟨rfl, rfl, rfl, rfl, rfl, rfl, rfl, rfl, rfl⟩, fun average values q b => ?_, fun s l c hrun => ?_,
    fun s l e => ?_⟩
  · exact if_pos h
  · simp only [effectiveExponent, if_true, if_pos h, Nat.add_zero]
  · obtain ⟨horder, hcover, hexact, hoverflow⟩ := gapEnter_spec hg (ordered_iff.mpr ⟨hformed, hapart⟩) hlength
    obtain ⟨hformed', hapart'⟩ := ordered_iff.mp horder
    exact ⟨hformed', hapart', gapEnter_length g f hlength, hcover, hexact, hoverflow⟩
  · intro gathered formed
    have hgathered : gatherFrame average values b.gather = gathered := gatherFrame_eq average values b.gather
    refine ⟨fun h => ?_, fun h => ?_⟩
    · unfold addToBlock
      rw [hgathered]
      exact if_neg (Nat.not_le.mpr h)
    · have hcount : gathered.count ≠ 0 := by rw [← hgathered]; exact gatherFrame_count_ne average values b.gather
      unfold addToBlock
      rw [hgathered]
      exact (if_pos h).trans (flushGather_some hcount)
  · refine ⟨closeBlock_none hrun, fun b hblock => ?_⟩
    intro row left closed t n queued
    have hclosed : closedBlock c row.mask row.average b = closed := by
      have hentries : (flushGather row.average b).entries =
          if b.gather.count = 0 then b.entries else b.entries ++ [left] := by
        by_cases hcount : b.gather.count = 0
        · rw [flushGather_empty hcount, if_pos hcount]
        · rw [flushGather_some hcount, if_neg hcount, entryOf_eq]
      unfold closedBlock
      rw [hentries]
    have hqueued : (s.blockTaken l).blockQueued l closed = queued := by
      unfold State.blockQueued
      simp only [dataQueue_blockTaken, degradeUp_eq]
      rfl
    have hcloses := closeBlock_some hrun hblock
    rw [hclosed] at hcloses
    refine ⟨fun hroom hsending => ?_, fun hroom hidle => ?_, fun hfull => ?_⟩
    · rw [hcloses, offerBlock_room (by rw [dataQueue_blockTaken]; exact hroom), hqueued]
      exact idleChoice_sending (s := queued) hsending
    · rw [hcloses, offerBlock_room (by rw [dataQueue_blockTaken]; exact hroom), hqueued]
      exact idleChoice_idle (s := queued) hidle
    · intro stretch
      rw [hcloses, offerBlock_full (by rw [dataQueue_blockTaken]; exact hfull)]
      simp only [degradeUp_eq]
      rfl
  · intro row gapped handled
    have hgapped : s.enterGapBefore l e.gapBefore = gapped := by
      simp only [gapped]
      cases e.gapBefore <;> rfl
    refine ⟨fun hmask => ?_, fun hmask c hrun => ?_⟩
    · rw [handleEntry_unmasked hmask, hgapped]
      rfl
    · intro inside exponent differs
      have hopen : gapped.openBlock l = c.forwarder.block := by
        rw [State.openBlock, hrun, Option.bind_some]
      have hdiffers : blockDiffers (gapped.openBlock l) inside exponent = true ↔ differs := by
        rw [hopen]
        exact blockDiffers_iff
      refine ⟨gapped.blockMatched l row c e, fun h => if_pos (hdiffers.mpr h), fun h => if_neg (mt hdiffers.mp h),
        fun hexponent => ?_, fun x hexponent => ?_⟩
      · rw [handleEntry_masked hmask, hgapped, forwardEntry_gap hrun hexponent]
        rfl
      · rw [handleEntry_masked hmask, hgapped, forwardEntry_joins hrun hexponent]
        rfl

end Sys2Proof.Machine

/-! PROOFS. The call evaluator: conditions, rules opened, extended and closed, indications filed (O53). -/

namespace Sys2Proof.Machine

open Sys2Proof

/-! ### Conditions (R98) -/

section Conditions

variable {r : CallRule} {c : Channel} {near : Bool}

/-- The phase lies in the rule's sector, which may wrap through 0. -/
def CallRule.sectorHolds (r : CallRule) (phase : Nat) : Prop :=
  if r.sectorLow ≤ r.sectorHigh then r.sectorLow ≤ phase ∧ phase ≤ r.sectorHigh
  else r.sectorLow ≤ phase ∨ phase ≤ r.sectorHigh

theorem inSector_iff {phase : Nat} : inSector r phase = true ↔ r.sectorHolds phase := by
  unfold inSector CallRule.sectorHolds
  split
  · rw [Bool.and_eq_true, decide_eq_true_eq, decide_eq_true_eq]
  · rw [Bool.or_eq_true, decide_eq_true_eq, decide_eq_true_eq]

theorem inSector_eq_false_iff {phase : Nat} : inSector r phase = false ↔ ¬ r.sectorHolds phase := by
  rw [← inSector_iff, Bool.not_eq_true]

theorem conditionHolds_none (h : r.code = 0) : conditionHolds r c near = false := by
  simp only [conditionHolds, h]

/-- The codes that test the magnitude, each with what else it tests. -/
theorem conditionHolds_iff :
    (r.code = 1 → (conditionHolds r c near = true ↔ r.threshold ≤ c.mag))
    ∧ (r.code = 2 → (conditionHolds r c near = true ↔ r.threshold ≤ c.mag ∧ r.sectorHolds c.phase))
    ∧ (r.code = 3 → (conditionHolds r c near = true ↔ r.threshold ≤ c.mag ∧ ¬ r.sectorHolds c.phase))
    ∧ (r.code = 4 → (conditionHolds r c near = true ↔ r.threshold ≤ c.mag ∧ near = true))
    ∧ (r.code = 5 → (conditionHolds r c near = true ↔ r.threshold ≤ c.mag ∧ near = false))
    ∧ (r.code = 6 → (conditionHolds r c near = true ↔ r.threshold ≤ c.mag ∧ r.sectorHolds c.phase ∧ near = false))
    ∧ (r.code = 7 → (conditionHolds r c near = true ↔ r.threshold ≤ c.mag ∧ r.sectorHolds c.phase ∧ near = true))
    ∧ (r.code = 8 → (conditionHolds r c near = true ↔ r.threshold ≤ c.mag ∧ 0 < c.y))
    ∧ (r.code = 9 → (conditionHolds r c near = true ↔ r.threshold ≤ c.mag ∧ c.y < 0))
    ∧ (r.code = 10 → (conditionHolds r c near = true ↔ c.overRange = true)) := by
  refine ⟨fun h => ?_, fun h => ?_, fun h => ?_, fun h => ?_, fun h => ?_, fun h => ?_, fun h => ?_, fun h => ?_,
    fun h => ?_, fun h => ?_⟩ <;>
  simp only [conditionHolds, h, Bool.and_eq_true, Bool.not_eq_true', decide_eq_true_eq, inSector_iff,
    inSector_eq_false_iff, and_assoc]

end Conditions

/-! ### Rules (R100, R101) -/

section Rules

variable {l : LaneId} {p : Layout} {distance : Int} {r : Fin 32} {rule : CallRule} {f : Frame} {c : RunContext}
  {o : RuleOpen}

/-- The rule's condition on a frame. -/
def ruleHolds (p : Layout) (rule : CallRule) (f : Frame) : Bool :=
  conditionHolds rule (channelAt f.channels rule.channel) (nearLandmark p p.halfWidth f.corrected)

theorem evaluateRule_off (h : rule.code = 0) : evaluateRule l p distance r rule f c = (c, none) := if_pos h

theorem evaluateRule_opens (hcode : rule.code ≠ 0) (hholds : ruleHolds p rule f = true)
    (hidle : c.evaluator.rules[r] = none) : evaluateRule l p distance r rule f c = ({ c with
      evaluator := setRule r (some (ruleOpened f (channelAt f.channels rule.channel))) c.evaluator
      forwarder := modKeep r (keepOpened (sat32 (f.corrected + distance))) c.forwarder }, none) := by
  unfold ruleHolds at hholds
  simp only [evaluateRule, if_neg hcode, if_pos hholds, hidle]

theorem evaluateRule_extends (hcode : rule.code ≠ 0) (hholds : ruleHolds p rule f = true)
    (hopen : c.evaluator.rules[r] = some o) : evaluateRule l p distance r rule f c = ({ c with
      evaluator := setRule r (some (ruleExtended f (channelAt f.channels rule.channel) o)) c.evaluator }, none) := by
  unfold ruleHolds at hholds
  simp only [evaluateRule, if_neg hcode, if_pos hholds, hopen]

theorem evaluateRule_idle (hcode : rule.code ≠ 0) (hholds : ruleHolds p rule f = false)
    (hidle : c.evaluator.rules[r] = none) : evaluateRule l p distance r rule f c = (c, none) := by
  unfold ruleHolds at hholds
  simp only [evaluateRule, if_neg hcode, hholds, Bool.false_eq_true, if_false, hidle]

theorem evaluateRule_closes (hcode : rule.code ≠ 0) (hholds : ruleHolds p rule f = false)
    (hopen : c.evaluator.rules[r] = some o) :
    evaluateRule l p distance r rule f c = closeRule l p distance r rule false o c := by
  unfold ruleHolds at hholds
  simp only [evaluateRule, if_neg hcode, hholds, Bool.false_eq_true, if_false, hopen]

/-- The peak follows a greater magnitude only. -/
theorem ruleExtended_eq (f : Frame) (ch : Channel) (o : RuleOpen) : ruleExtended f ch o = { o with
    endPos := f.corrected, endCount := f.corrCount, trueCount := min 255 (o.trueCount + 1)
    overSeen := o.overSeen || ch.overRange
    peakPos := if o.peakMag < ch.mag then f.corrected else o.peakPos
    peakMag := if o.peakMag < ch.mag then ch.mag else o.peakMag
    peakPhase := if o.peakMag < ch.mag then ch.phase else o.peakPhase } := by
  unfold ruleExtended
  rw [satByte_eq_min]
  by_cases h : o.peakMag < ch.mag <;> simp only [h, if_true, if_false]

/-- The run with the rule IDLE again and its keep interval bounded. -/
def ruleIdle (distance : Int) (r : Fin 32) (o : RuleOpen) (c : RunContext) : RunContext :=
  { c with
    evaluator := setRule r none c.evaluator
    forwarder := modKeep r (keepBounded (sat32 (o.endPos - distance))) c.forwarder }

theorem closeRule_short {runEnd : Bool} (h : o.trueCount < rule.minLength) :
    closeRule l p distance r rule runEnd o c = (ruleIdle distance r o c, none) := if_neg (Nat.not_le.mpr h)

theorem closeRule_files {runEnd : Bool} (h : rule.minLength ≤ o.trueCount) :
    let filed := fileIndication l c.serial rule.mergeDistance (formIndication p r rule runEnd o)
      (ruleIdle distance r o c).evaluator
    closeRule l p distance r rule runEnd o c = ({ ruleIdle distance r o c with evaluator := filed.1 }, some filed.2) :=
  if_pos h

end Rules

/-! ### Indications (R104 to R106) -/

section Indications

variable {l : LaneId} {serial : BitVec 32} {d : Int} {i : Indication} {e : Evaluator}

/-- An entry an indication may be merged into. -/
def mergesInto (d : Int) (i : Indication) (x : IndicationEntry) : Prop :=
  x.rule = i.rule ∧ min i.startPos i.endPos ≤ max x.startPos x.endPos + d
    ∧ min x.startPos x.endPos ≤ max i.startPos i.endPos + d

theorem mergesInto_iff {x : IndicationEntry} : (x.rule == i.rule && spansNear d x i) = true ↔ mergesInto d i x := by
  unfold spansNear mergesInto
  simp only [Bool.and_eq_true, beq_iff_eq, decide_eq_true_eq]

/-- The first entry that the indication may be merged into. -/
theorem mergeIndex_first {list : List IndicationEntry} {k : Nat} {x : IndicationEntry} (hx : list[k]? = some x)
    (hmerges : mergesInto d i x) (hfirst : ∀ j y, j < k → list[j]? = some y → ¬ mergesInto d i y) :
    mergeIndex d list i = some k := by
  obtain ⟨hk, hget⟩ := List.getElem?_eq_some_iff.mp hx
  unfold mergeIndex
  rw [List.findIdx?_eq_some_iff_getElem]
  refine ⟨hk, ?_, fun j hj h => ?_⟩
  · rw [hget]
    exact mergesInto_iff.mpr hmerges
  · exact hfirst j list[j] hj (List.getElem?_eq_getElem (Nat.lt_trans hj hk)) (mergesInto_iff.mp h)

theorem mergeIndex_none {list : List IndicationEntry} (h : ∀ x ∈ list, ¬ mergesInto d i x) :
    mergeIndex d list i = none := by
  unfold mergeIndex
  rw [List.findIdx?_eq_none_iff]
  exact fun x hx => eq_false_of_ne_true fun hm => h x hx (mergesInto_iff.mp hm)

theorem mergedEntry_eq (i : Indication) (x : IndicationEntry) : mergedEntry i x = { x with
    startPos := max (max x.startPos x.endPos) (max i.startPos i.endPos)
    endPos := min (min x.startPos x.endPos) (min i.startPos i.endPos)
    peakPos := if x.peakMag < i.peakMag then i.peakPos else x.peakPos
    peakMag := if x.peakMag < i.peakMag then i.peakMag else x.peakMag
    peakPhase := if x.peakMag < i.peakMag then i.peakPhase else x.peakPhase } := by
  unfold mergedEntry
  by_cases h : x.peakMag < i.peakMag <;> simp only [h, if_true, if_false]

theorem fileIndication_merges {k : Nat} {x : IndicationEntry} (hindex : mergeIndex d e.indications i = some k)
    (hx : e.indications[k]? = some x) :
    fileIndication l serial d i e =
      ({ e with indications := e.indications.set k (mergedEntry i x) },
        .indicationUpdate l serial k (mergedEntry i x)) := by
  have hget : e.indications.getD k (newEntry i) = x := by
    rw [List.getD_eq_getElem?_getD, hx, Option.getD_some]
  simp only [fileIndication, hindex, hget]

theorem fileIndication_listed (hindex : mergeIndex d e.indications i = none) (hroom : e.indications.length < 64) :
    fileIndication l serial d i e =
      ({ e with indications := e.indications ++ [newEntry i], classCounts := countClass i.cls e.classCounts },
        .indication l serial (some e.indications.length) i) := by
  simp only [fileIndication, hindex]
  exact if_pos hroom

theorem fileIndication_unlisted (hindex : mergeIndex d e.indications i = none) (hfull : 64 ≤ e.indications.length) :
    fileIndication l serial d i e =
      ({ e with classCounts := countClass i.cls e.classCounts, overflow := true }, .indication l serial none i) := by
  simp only [fileIndication, hindex]
  exact if_neg (Nat.not_lt.mpr hfull)

theorem countClass_get (cls : Nat) (counts : Vector Nat 16) (k : Fin 16) :
    (countClass cls counts)[k] = if k.val = cls then min 255 (counts[k] + 1) else counts[k] := by
  refine (vtab_get 16 _ k).trans ?_
  rw [satByte_eq_min]

end Indications

/-- Settles O53: conditions, rules and indications in turn. -/
theorem conditionsRead : Obligations.ConditionsRead := by
  refine ⟨fun r c near => ⟨fun h => ?_, conditionHolds_iff⟩, fun l p distance r rule f c => ?_,
    fun l p distance r rule runEnd o c => ⟨closeRule_short, closeRule_files⟩, fun l serial d i e => ?_⟩
  · exact ne_true_of_eq_false (conditionHolds_none h)
  · refine ⟨evaluateRule_off, fun hcode hholds hidle => evaluateRule_opens hcode hholds hidle,
      fun hcode hholds o hopen => ?_, fun hcode hholds hidle => evaluateRule_idle hcode hholds hidle,
      fun hcode hholds o hopen => evaluateRule_closes hcode hholds hopen⟩
    refine (evaluateRule_extends hcode hholds hopen).trans ?_
    rw [ruleExtended_eq]
    rfl
  · intro qualifies u
    refine ⟨fun k x hx hmerges hfirst => ?_, fun hnone => ?_⟩
    · refine (fileIndication_merges (mergeIndex_first hx hmerges hfirst) hx).trans ?_
      rw [mergedEntry_eq]
    · have hindex := mergeIndex_none hnone
      rcases Nat.lt_or_ge e.indications.length 64 with hroom | hfull
      · have hfiled : u = _ := fileIndication_listed hindex hroom
        rw [hfiled]
        exact ⟨rfl, rfl, countClass_get i.cls e.classCounts, fun _ => ⟨rfl, rfl, rfl⟩,
          fun h => absurd hroom (Nat.not_lt.mpr h)⟩
      · have hfiled : u = _ := fileIndication_unlisted hindex hfull
        rw [hfiled]
        exact ⟨rfl, rfl, countClass_get i.cls e.classCounts, fun h => absurd h (Nat.not_lt.mpr hfull),
          fun _ => ⟨rfl, rfl, rfl⟩⟩

end Sys2Proof.Machine

/-! PROOFS. The landmark matcher: candidates, judgements, the MISSED test and the reversal (O54). -/

namespace Sys2Proof.Machine

open Sys2Proof

/-! ### Candidates (R66, R67) -/

section Candidates

variable {p : Layout} {threshold mag : Nat} {f : Frame} {m : Matcher} {c : Candidate}

theorem candidateWork_opens (hnone : m.candidate = none) (h : threshold ≤ mag) :
    candidateWork p threshold f mag m = ({ m with candidate := some ⟨f.corrected, f.corrected, mag⟩ }, none) := by
  simp only [candidateWork, hnone, if_pos h]

theorem candidateWork_below (hnone : m.candidate = none) (h : mag < threshold) :
    candidateWork p threshold f mag m = (m, none) := by
  simp only [candidateWork, hnone, if_neg (Nat.not_le.mpr h)]

theorem candidateWork_rises (hopen : m.candidate = some c) (h : threshold ≤ 2 * mag) (hpeak : c.peakMag < mag) :
    candidateWork p threshold f mag m = ({ m with candidate := some ⟨c.openPos, f.corrected, mag⟩ }, none) := by
  simp only [candidateWork, hopen, if_pos h, if_pos hpeak]

theorem candidateWork_stays (hopen : m.candidate = some c) (h : threshold ≤ 2 * mag) (hpeak : mag ≤ c.peakMag) :
    candidateWork p threshold f mag m = (m, none) := by
  simp only [candidateWork, hopen, if_pos h, if_neg (Nat.not_lt.mpr hpeak)]

theorem candidateWork_closes_push (hopen : m.candidate = some c) (h : 2 * mag < threshold) (hphase : f.phase = .inserting) :
    candidateWork p threshold f mag m =
      judgePush p c ((c.openPos - f.corrected).natAbs : Int) { m with candidate := none } := by
  simp only [candidateWork, hopen, if_neg (Nat.not_le.mpr h), hphase]

theorem candidateWork_closes_pull (hopen : m.candidate = some c) (h : 2 * mag < threshold) (hphase : f.phase = .pulling) :
    candidateWork p threshold f mag m =
      judgePull p c ((c.openPos - f.corrected).natAbs : Int) { m with candidate := none } := by
  simp only [candidateWork, hopen, if_neg (Nat.not_le.mpr h), hphase]

end Candidates

/-! ### Matches (R73, R75) -/

section Matches

variable {dir : Dir} {k : Nat} {e : LayoutEntry} {peak length : Int} {next : Option Nat} {m : Matcher}

theorem matchEntry_matcher : (matchEntry dir k e peak length next m).1 = { m with
    correction := sat32 (m.correction + (e.nominal - peak)), cursor := ⟨next, m.cursor.dir⟩
    matched := satByte (m.matched + 1) } := rfl

theorem matchEntry_record : (matchEntry dir k e peak length next m).2 =
    { outcome := .matched, dir := dir, entry := some k, kind := entryLandmarkKind e, peak := some peak
      offset := some (sat32 (m.correction + (e.nominal - peak)) - m.correction), length := length.toNat } := rfl

end Matches

/-! ### Judgements (R69, R71) -/

section Judgements

variable {p : Layout} {c : Candidate} {length : Int} {m : Matcher} {first last e : LayoutEntry} {k : Nat}

theorem inWindow_iff {q : Int} : inWindow e q = true ↔ e.nominal - e.tolerance ≤ q ∧ q ≤ e.nominal + e.tolerance := by
  rw [inWindow, Bool.and_eq_true, decide_eq_true_eq, decide_eq_true_eq]

theorem candidateSheet_iff : candidateSheet p length = true ↔ p.sheetMin ≤ length := decide_eq_true_iff

theorem judgePush_support (h : length < p.sheetMin) : judgePush p c length m = (m, none) := by
  have hsheet : candidateSheet p length = false := decide_eq_false (Int.not_le.mpr h)
  simp only [judgePush, hsheet, Bool.not_false, if_true]

theorem judgePush_done (h : m.cursor.entry = none) : judgePush p c length m = (m, none) := by
  unfold judgePush
  split
  · rfl
  · simp only [h]

theorem judgePush_inlet (hsheet : p.sheetMin ≤ length) (hcursor : m.cursor.entry = some 0)
    (hfirst : p.entries[0]? = some first) (hin : inWindow first c.peakPos = true) :
    judgePush p c length m = ((matchEntry .push 0 first c.peakPos length (some (p.entries.length - 1)) m).1,
      some (matchEntry .push 0 first c.peakPos length (some (p.entries.length - 1)) m).2) := by
  have hhead : p.entries.head? = some first := List.head?_eq_getElem?.trans hfirst
  simp only [judgePush, candidateSheet_iff.mpr hsheet, Bool.not_true, Bool.false_eq_true, if_false, hcursor, hhead,
    if_pos hin]

/-- The outlet is tried: with the cursor on the inlet and the candidate outside its window, or past the inlet. -/
def outletTried (p : Layout) (c : Candidate) (m : Matcher) : Prop :=
  (m.cursor.entry = some 0 ∧ ∃ first, p.entries[0]? = some first ∧ inWindow first c.peakPos = false)
    ∨ ∃ k, m.cursor.entry = some (k + 1)

theorem judgePush_outlet (hsheet : p.sheetMin ≤ length) (htried : outletTried p c m)
    (hlast : p.entries[p.entries.length - 1]? = some last) :
    judgePush p c length m = if inWindow last c.peakPos = true then
      ((matchEntry .push (p.entries.length - 1) last c.peakPos length none m).1,
        some (matchEntry .push (p.entries.length - 1) last c.peakPos length none m).2) else (m, none) := by
  have hend : p.entries.getLast? = some last := List.getLast?_eq_getElem?.trans hlast
  rcases htried with ⟨hcursor, first, hfirst, hout⟩ | ⟨k, hcursor⟩
  · have hhead : p.entries.head? = some first := List.head?_eq_getElem?.trans hfirst
    simp only [judgePush, candidateSheet_iff.mpr hsheet, Bool.not_true, Bool.false_eq_true, if_false, hcursor, hhead,
      hout, hend]
  · simp only [judgePush, candidateSheet_iff.mpr hsheet, Bool.not_true, Bool.false_eq_true, if_false, hcursor, hend]

/-- The candidate fits an entry: its class, and its peak within the window. -/
def fitsEntry (p : Layout) (c : Candidate) (length : Int) (e : LayoutEntry) : Prop :=
  entrySheetClass e = decide (p.sheetMin ≤ length)
    ∧ e.nominal - e.tolerance ≤ c.peakPos ∧ c.peakPos ≤ e.nominal + e.tolerance

theorem fitsEntry_iff : (entrySheetClass e == candidateSheet p length && inWindow e c.peakPos) = true
    ↔ fitsEntry p c length e := by
  rw [Bool.and_eq_true, beq_iff_eq, inWindow_iff]
  exact Iff.rfl

theorem judgePull_matches (hcursor : m.cursor.entry = some k) (he : p.entries[k]? = some e)
    (hfits : fitsEntry p c length e) :
    judgePull p c length m = ((matchEntry .pull k e c.peakPos length (entryBelow k) m).1,
      some (matchEntry .pull k e c.peakPos length (entryBelow k) m).2) := by
  simp only [judgePull, hcursor, he, if_pos (fitsEntry_iff.mpr hfits)]

/-- The record of a candidate of the pull that fits no entry. -/
def unexpectedRecord (p : Layout) (c : Candidate) (length : Int) (m : Matcher) : LandmarkRecord :=
  { outcome := .unexpected, dir := .pull, entry := m.cursor.entry,
    kind := if decide (p.sheetMin ≤ length) then .sheetClass else .supportClass, peak := some c.peakPos, offset := none,
    length := length.toNat }

theorem judgePull_unexpected
    (h : ∀ k e, m.cursor.entry = some k → p.entries[k]? = some e → ¬ fitsEntry p c length e) :
    judgePull p c length m =
      ({ m with unexpected := min 255 (m.unexpected + 1) }, some (unexpectedRecord p c length m)) := by
  rw [← satByte_eq_min]
  cases hcursor : m.cursor.entry with
  | none =>
    simp only [judgePull, unexpectedRecord, hcursor]
    rfl
  | some k =>
    cases he : p.entries[k]? with
    | none =>
      simp only [judgePull, unexpectedRecord, hcursor, he]
      rfl
    | some e =>
      simp only [judgePull, unexpectedRecord, hcursor, he, if_neg (mt fitsEntry_iff.mp (h k e hcursor he))]
      rfl

end Judgements

/-! ### The MISSED test (R72) -/

section Missed

variable {p : Layout} {q : Int} {m : Matcher} {k : Nat} {e : LayoutEntry}

theorem missedWork_done (h : m.cursor.entry = none) : missedWork p q m = (m, none) := by
  simp only [missedWork, h]

theorem missedWork_ahead (hcursor : m.cursor.entry = some k) (he : p.entries[k]? = some e)
    (h : e.nominal - e.tolerance ≤ q) : missedWork p q m = (m, none) := by
  simp only [missedWork, hcursor, he, if_neg (Int.not_lt.mpr h)]

theorem missedWork_optional (hcursor : m.cursor.entry = some k) (he : p.entries[k]? = some e)
    (h : q < e.nominal - e.tolerance) (hrequired : e.required = false) :
    missedWork p q m = ({ m with cursor := ⟨entryBelow k, m.cursor.dir⟩ }, none) := by
  simp only [missedWork, hcursor, he, if_pos h, hrequired, Bool.false_eq_true, if_false]

theorem missedWork_required (hcursor : m.cursor.entry = some k) (he : p.entries[k]? = some e)
    (h : q < e.nominal - e.tolerance) (hrequired : e.required = true) :
    missedWork p q m = ({ m with cursor := ⟨entryBelow k, m.cursor.dir⟩, missed := min 255 (m.missed + 1) }, some
      { outcome := .missed, dir := .pull, entry := some k, kind := entryLandmarkKind e, peak := none, offset := none,
        length := 0 }) := by
  rw [← satByte_eq_min]
  simp only [missedWork, hcursor, he, if_pos h, hrequired, if_true, countOutcome]

end Missed

/-! ### The matcher's work on a frame (R72, R74) -/

section Items

variable {s : State} {l : LaneId} {c : RunContext} {f : Frame}

/-- The frame makes the MISSED test: of the pull, with no candidate open and none opening. -/
def State.testsMissed (s : State) (l : LaneId) (c : RunContext) (f : Frame) : Prop :=
  f.phase = .pulling ∧ c.matcher.candidate = none
    ∧ (channelAt f.channels (s.laneRow l).landmarkChannel).mag < (s.laneRow l).landmarkThreshold

theorem matcherItems_faulty (h : f.cls ≠ .normal) : s.matcherItems l c f = [] := if_neg h

theorem matcherItems_tests (h : f.cls = .normal) (htests : s.testsMissed l c f) :
    s.matcherItems l c f = .candidate :: List.replicate (s.profile l).entries.length .missed := by
  obtain ⟨hphase, hnone, hmag⟩ := htests
  refine (if_pos h).trans (congrArg _ (if_pos ⟨hphase, ?_, hmag⟩))
  rw [hnone]
  rfl

theorem matcherItems_single (h : f.cls = .normal) (htests : ¬ s.testsMissed l c f) :
    s.matcherItems l c f = [.candidate] := by
  refine (if_pos h).trans (congrArg _ (if_neg fun hall => htests ?_))
  obtain ⟨hphase, hnone, hmag⟩ := hall
  exact ⟨hphase, Option.isNone_iff_eq_none.mp hnone, hmag⟩

end Items

/-! ### The reversal (R70) -/

section Reversal

variable {p : Layout} {v : Int} {k : Nat} {e : LayoutEntry}

/-- The entries of a list from place k on, from the last to the k-th. -/
theorem reverse_drop_range (n k : Nat) :
    ((List.range n).drop k).reverse = (List.range (n - k)).map fun i => n - 1 - i := by
  refine List.ext_getElem ?_ fun i h1 h2 => ?_
  · rw [List.length_reverse, List.length_drop, List.length_range, List.length_map, List.length_range]
  · rw [List.length_reverse, List.length_drop, List.length_range] at h1
    rw [List.getElem_reverse, List.getElem_drop, List.getElem_range, List.getElem_map, List.getElem_range,
      List.length_drop, List.length_range]
    omega

theorem firstBeyond_none (h : ∀ e ∈ p.entries, ¬ v < e.nominal - e.tolerance) : firstBeyond p v = none := by
  unfold firstBeyond
  rw [List.findIdx?_eq_none_iff]
  exact fun e he => decide_eq_false (h e he)

theorem firstBeyond_some (he : p.entries[k]? = some e) (hbeyond : v < e.nominal - e.tolerance)
    (hfirst : ∀ j x, j < k → p.entries[j]? = some x → ¬ v < x.nominal - x.tolerance) : firstBeyond p v = some k := by
  obtain ⟨hk, hget⟩ := List.getElem?_eq_some_iff.mp he
  unfold firstBeyond
  rw [List.findIdx?_eq_some_iff_getElem]
  refine ⟨hk, ?_, fun j hj h => ?_⟩
  · rw [hget]
    exact decide_eq_true hbeyond
  · exact hfirst j p.entries[j] hj (List.getElem?_eq_getElem (Nat.lt_trans hj hk)) (of_decide_eq_true h)

theorem notReachedEntries_none (h : firstBeyond p v = none) : notReachedEntries p v = [] := by
  simp only [notReachedEntries, h]

theorem reversalEntry_none (h : firstBeyond p v = none) : reversalEntry p v = entryBelow p.entries.length := by
  simp only [reversalEntry, h]

theorem notReachedEntries_some (h : firstBeyond p v = some k) :
    notReachedEntries p v = (List.range (p.entries.length - k)).map fun i => p.entries.length - 1 - i := by
  simp only [notReachedEntries, h, reverse_drop_range]

theorem reversalEntry_some (h : firstBeyond p v = some k) : reversalEntry p v = entryBelow k := by
  simp only [reversalEntry, h]

theorem notReachedWork_eq {m : Matcher} (he : p.entries[k]? = some e) :
    notReachedWork p k m = ({ m with notReached := min 255 (m.notReached + 1) }, some
      { outcome := .notReached, dir := .pull, entry := some k, kind := entryLandmarkKind e, peak := none, offset := none,
        length := 0 }) := by
  rw [← satByte_eq_min]
  simp only [notReachedWork, he, Option.map_some, countOutcome]

end Reversal

/-- Settles O54: each rule of the matcher in turn. -/
theorem landmarksFollowed : Obligations.LandmarksFollowed := by
  refine ⟨fun p threshold mag f m => ⟨candidateWork_opens, candidateWork_below, fun c hopen =>
      ⟨candidateWork_rises hopen, candidateWork_stays hopen,
        fun h => ⟨candidateWork_closes_push hopen h, candidateWork_closes_pull hopen h⟩⟩⟩,
    fun dir k e peak length next m => ?_, fun p c length m first last hfirst hlast => ?_, fun p c length m => ?_,
    fun p q m => ⟨missedWork_done, fun k e hcursor he => ⟨missedWork_ahead hcursor he, missedWork_optional hcursor he,
      missedWork_required hcursor he⟩⟩,
    fun s l c f => ⟨matcherItems_faulty, matcherItems_tests, matcherItems_single⟩,
    fun p v m => ⟨rfl, fun hnone => ?_, fun k e he hbeyond hfirst => ?_, fun k e he => notReachedWork_eq he, fun _ => rfl⟩⟩
  · intro r
    have hmatcher : r.1 = _ := matchEntry_matcher
    have hrecord : r.2 = _ := matchEntry_record
    rw [← sat32_eq_max_min, ← satByte_eq_min, hmatcher, hrecord]
    exact ⟨rfl, rfl, rfl, rfl, rfl, rfl, rfl, rfl, rfl, rfl, rfl, rfl, rfl, rfl, rfl⟩
  · intro n within matched passed
    have hwithin : ∀ e, inWindow e c.peakPos = true ↔ within e := fun e => inWindow_iff
    have hout : ∀ e, ¬ within e → inWindow e c.peakPos = false := fun e h => eq_false_of_ne_true (mt (hwithin e).mp h)
    have htried : m.cursor.entry = some 0 → ¬ within first → outletTried p c m := fun hcursor h =>
      Or.inl ⟨hcursor, first, hfirst, hout first h⟩
    have houtlet : p.sheetMin ≤ length → outletTried p c m →
        (within last → matched (n - 1) last none) ∧ (¬ within last → passed) := fun hsheet h =>
      ⟨fun hin => (judgePush_outlet hsheet h hlast).trans (if_pos ((hwithin last).mpr hin)),
        fun hnot => (judgePush_outlet hsheet h hlast).trans (if_neg (mt (hwithin last).mp hnot))⟩
    exact ⟨judgePush_support, judgePush_done,
      fun hsheet hcursor hin => judgePush_inlet hsheet hcursor hfirst ((hwithin first).mpr hin),
      fun hsheet hcursor hnot => (houtlet hsheet (htried hcursor hnot)).1,
      fun hsheet hcursor hnot => (houtlet hsheet (htried hcursor hnot)).2,
      fun k hsheet hcursor => houtlet hsheet (Or.inr ⟨k, hcursor⟩)⟩
  · exact ⟨fun k e hcursor he hfits => judgePull_matches hcursor he hfits, judgePull_unexpected⟩
  · have hfound := firstBeyond_none hnone
    exact ⟨notReachedEntries_none hfound, reversalEntry_none hfound⟩
  · have hfound := firstBeyond_some he hbeyond hfirst
    exact ⟨notReachedEntries_some hfound, reversalEntry_some hfound⟩

end Sys2Proof.Machine

/-! PROOFS. Row checks: the LANE row and the inert rows (O55). -/

namespace Sys2Proof.Machine

open Sys2Proof

section LaneRow

variable {f : Nat → Nat} {n m : Nat}

theorem mem_drop_range {i : Nat} : i ∈ (List.range n).drop m ↔ m ≤ i ∧ i < n := by
  rw [List.mem_drop_iff_getElem]
  constructor
  · rintro ⟨j, hj, rfl⟩
    rw [List.length_range] at hj
    rw [List.getElem_range]
    omega
  · rintro ⟨hle, hlt⟩
    exact ⟨i - m, by rw [List.length_range]; omega, by rw [List.getElem_range]; omega⟩

/-- The values of a table from place m on are all c. -/
theorem all_drop_range {c : Nat} : (((List.range n).map f).drop m).all (· == c) = true
    ↔ ∀ i, i < n → m ≤ i → f i = c := by
  rw [← List.map_drop, List.all_map, List.all_eq_true]
  simp only [mem_drop_range, Function.comp_apply, beq_iff_eq]
  exact ⟨fun h i hi hm => h i ⟨hm, hi⟩, fun h i hi => h i hi.2 hi.1⟩

/-- No value of a table that is at most c stands at two places. -/
theorem nodup_filter_range {c : Nat} : (((List.range n).map f).filter (· ≤ c)).Nodup
    ↔ ∀ i j, i < j → j < n → f i ≤ c → f i ≠ f j := by
  rw [List.Nodup, List.pairwise_filter, List.pairwise_map, List.pairwise_iff_getElem]
  simp only [List.length_range, List.getElem_range, decide_eq_true_eq]
  constructor
  · intro h i j hij hj hi heq
    exact h i j (Nat.lt_trans hij hj) hj hij hi (heq ▸ hi) heq
  · exact fun h i j _ hj hij hi _ => h i j hij hj hi

variable {row : List Word}

theorem laneRowOk_disabled (h : bitAt (wordAt row 0) 0 = false) : laneRowOk row = true := by
  have henabled : (laneRowOf row).enabled = false := h
  simp only [laneRowOk, henabled, Bool.not_false, Bool.true_or]

/-- The slot map of a row is acceptable: every entry a channel or UNUSED, no channel twice, none past the slots used. -/
theorem slotMap_checks_iff {slots : Nat} :
    (((laneRowOf row).slotMap.all fun c => decide (c ≤ 15) || c == 255) = true
      ∧ ((laneRowOf row).slotMap.filter (· ≤ 15)).Nodup ∧ ((laneRowOf row).slotMap.drop slots).all (· == 255) = true)
    ↔ (∀ i, i < 16 → slotMapEntry row i ≤ 15 ∨ slotMapEntry row i = 255)
      ∧ (∀ i j, i < j → j < 16 → slotMapEntry row i ≤ 15 → slotMapEntry row i ≠ slotMapEntry row j)
      ∧ (∀ i, i < 16 → slots ≤ i → slotMapEntry row i = 255) := by
  have hall : ((laneRowOf row).slotMap.all fun c => decide (c ≤ 15) || c == 255) = true
      ↔ ∀ i, i < 16 → slotMapEntry row i ≤ 15 ∨ slotMapEntry row i = 255 := by
    simp only [laneRowOf, List.all_map, List.all_eq_true, List.mem_range, Function.comp_apply, Bool.or_eq_true,
      decide_eq_true_eq, beq_iff_eq]
  exact and_congr hall (and_congr nodup_filter_range all_drop_range)

theorem laneRowOk_enabled (h : bitAt (wordAt row 0) 0 = true) : laneRowOk row = true ↔
    (1 ≤ (laneRowOf row).slotCount ∧ (laneRowOf row).slotCount ≤ 16)
    ∧ (((laneRowOf row).slotMap.all fun c => decide (c ≤ 15) || c == 255) = true
      ∧ ((laneRowOf row).slotMap.filter (· ≤ 15)).Nodup
      ∧ ((laneRowOf row).slotMap.drop (laneRowOf row).slotCount).all (· == 255) = true)
    ∧ bits (wordAt row 0) 17 16 ≤ 1 ∧ (laneRowOf row).scale ≠ 0 ∧ (laneRowOf row).landmarkChannel ≤ 19
    ∧ 1 ≤ (laneRowOf row).landmarkThreshold ∧ (laneRowOf row).landmarkThreshold ≤ 46341
    ∧ 1 ≤ (laneRowOf row).armTimeout ∧ 1 ≤ (laneRowOf row).stallTimeout := by
  have henabled : (laneRowOf row).enabled = true := h
  unfold laneRowOk
  simp only [henabled, Bool.not_true, Bool.false_or, Bool.and_eq_true, decide_eq_true_eq, bne_iff_ne, and_assoc]

end LaneRow

/-- The all-zero row of every kind passes: every check is of a row that is enabled or used, or of fields that may be 0. -/
theorem rowOk_zeroRow (k : Kind) : rowOk k (zeroRow k) = true := by
  cases k with
  | tubeMap => decide
  | layout => decide +kernel
  | lane => decide
  | calibration => decide
  | mix => decide
  | callRules => decide
  | keep => decide
  | standard => decide

/-- Settles O55: the LANE row's check read field by field, and the inert rows. -/
theorem rowsChecked : Obligations.RowsChecked := by
  refine ⟨fun row => ⟨laneRowOk_disabled, fun henabled => ?_⟩, rowOk_zeroRow⟩
  rw [laneRowOk_enabled henabled, slotMap_checks_iff]
  simp only [and_assoc]
  exact Iff.rfl

end Sys2Proof.Machine
